-- ==== Sys2Proof/Word.lean ====
section
/-! DEFINITION. The word types of the memory path (00_scope.md, Numbers and addresses). -/

namespace Sys2Proof

/-- A 32-bit memory word; byte lane n carries bits 8n+7 to 8n. -/
abbrev Word := BitVec 32

/-- A 24-bit byte address (00_scope.md). -/
abbrev Addr := BitVec 24

/-- Four byte enables, one a lane; bit n is lane n. -/
abbrev Lanes := BitVec 4

end Sys2Proof
end

