-- ==== Sys2Proof/Syntax.lean ====
section
/-! DEFINITION. The commands: one constructor for each row of spec/opcode_table.json, in the table's order. -/

namespace Sys2Proof

/-- The two scales, SCALE1's and SCALE2's (R4: units 0 and 1). -/
inductive Scale where
  | one
  | two
  deriving DecidableEq, Repr

/-- The two grinders (units 3 and 4). -/
inductive Grinder where
  | a
  | b
  deriving DecidableEq, Repr

/-- The three processing lines (units 3, 4 and 5). -/
inductive Line where
  | grinder (g : Grinder)
  | pellet
  deriving DecidableEq, Repr

/-- The four trip channels of R145. -/
inductive TripChannel where
  | gaLoad
  | gbLoad
  | plTemp
  | plLoad
  deriving DecidableEq, Repr

/-- One beat of a processor write: byte enables and data (R2). -/
structure WriteBeat where
  lanes : Lanes
  data : Word
  deriving DecidableEq, Repr

/-- The commands of the part: its steps, each whole and indivisible (95_what_each_step_holds.md). An event row with no
operand takes the oldest occasion of its kind that the state holds. -/
inductive Instr where
  | rstNLow
  | rstNRelease (plansel : BitVec 2)
  | processorWrite (addr : Addr) (beats : List WriteBeat)
  | processorRead (addr : Addr) (enables : List Lanes)
  | processorGrant
  | laneWriteLand
  | postAdmitted
  | flagClear
  | enableWrite
  | planOpen
  | planClose
  | restart
  | badControl
  | loadStage1
  | loadStage2
  | loadStage3
  | loadStage5
  | badAction
  | release
  | releaseFieldsRead
  | verifyWalkStart
  | ticketHeaderStage
  | ticketLineStage
  | confirmingRead
  | hold
  | resume
  | cancel
  | close
  | clear
  | accept
  | topUp
  | skipLine
  | retry
  | abort
  | count
  | countReadReturn
  | lockout
  | returnBin
  | divertHead
  | start
  | stop
  | clearTrip
  | refillSettingRead (g : Grinder)
  | arrive
  | arriveReadReturn
  | finish
  | depart
  | withdraw
  | queueHold
  | queueResume
  | admissionPass (steps : Nat)
  | scaleSample
  | mixerSample
  | scaleStale (sc : Scale)
  | mixerStale
  | stallTimerExpiry (sc : Scale)
  | settleExpiry (sc : Scale)
  | weighLimitExpiry
  | mixTimerExpiry
  | holdLimitExpiry
  | tripChannelSample
  | tripChannelStale (ch : TripChannel)
  | adjustTimerExpiry (line : Line)
  | grinderTotalSample
  | plFeedSample
  | plProductSample
  | drainTimerExpiry
  | bagEvent
  | truckNetSample
  | loadoutSettleExpiry
  | truckNetStale
  | tripLimitExpiry
  deriving DecidableEq, Repr

end Sys2Proof
end

