-- ==== Sys2Proof/Config.lean ====
section
/-! DEFINITION. The sizes the manual fixes, and the two figures the model fixes. -/

namespace Sys2Proof.Config

/-- Entries of the internal lane (R13). -/
def laneDepth : Nat := 32

/-- Entries of the action queue (section 1.7 of 01_the_memory_path.md). -/
def actionDepth : Nat := 16

/-- Batches of the mixer queue (R105). -/
def queueDepth : Nat := 8

/-- Lots of a surge bin's list (R56). -/
def lotDepth : Nat := 8

/-- Entries of the active order table (R81). -/
def activeOrders : Nat := 64

/-- The grant count stays at 4 (R16). -/
def grantLimit : Nat := 4

/-- What a byte of memory that nothing has written reads as (DESIGN CHOICE, log 4). -/
def unlistedByte : BitVec 8 := 0

/-- How many notices between blocks one step takes; a notice left over is taken first by the next step (log 10). -/
def noticeFuel : Nat := 4000

end Sys2Proof.Config
end

