-- ==== Sys2Proof/Machine/State.lean ====
section
/-! DEFINITION. The state of the part as plain data, block by block, and its value after reset. Masses are in 0.1 kg
(00_scope.md, Units); the book keeps the true figures and only the posted words saturate (R203). -/

namespace Sys2Proof.Machine

/-! ### Blocks and records -/

/-- The blocks that post into the internal lane (00_scope.md, Block overview; the Timebase posts nothing). -/
inductive Block where
  | pathUnit
  | actionExecutor
  | planController
  | stockUnit
  | ticketChecker
  | orderBook
  | batchSequencer
  | weighMix
  | lineSupervisor
  | packOut
  | tripTable
  | statusUnit
  deriving DecidableEq, Repr

/-- The record kinds of the eight windows, in window order (R26). -/
inductive RecordKind where
  | order
  | ticket
  | bin
  | unit
  | batch
  | truck
  | reading
  | status
  deriving DecidableEq, Repr

/-- A record of a window. -/
structure RecordRef where
  kind : RecordKind
  idx : Nat
  deriving DecidableEq, Repr

/-- A timer of R1: none while it does not run, some n with n ticks to go, some 0 when its expiry is due and not yet
taken (log 2). -/
abbrev Timer := Option Nat

/-! ### Memory path -/

/-- The order memory: (address, byte) pairs, addresses strictly rising, none equal to what an unlisted byte reads as. -/
abbrev Memory := List Host.Cell

/-- What the landing of an internal write also does (R21, R27). -/
inductive LandNote where
  | none
  | clearsMarker (r : RecordRef)
  | clearsControl
  deriving DecidableEq, Repr

/-- What a returned read is for. -/
inductive ReadTag where
  | loadStage
  | releaseFields
  | ticketHeader
  | ticketLines
  | confirming
  | countValue
  | refill (g : Grinder) (forStart : Bool)
  | arrive
  | linkWalk
  | discarded
  deriving DecidableEq, Repr

/-- A memory request of the part's own blocks (R13). -/
inductive LaneOp where
  | write (mask : Lanes) (data : Word) (note : LandNote)
  | read (tag : ReadTag)
  deriving DecidableEq, Repr

/-- An entry of the internal lane: poster, word address and request (section 1.5). -/
structure LaneEntry where
  poster : Block
  addr : Addr
  op : LaneOp
  deriving DecidableEq, Repr

/-- A block that waits to post, with its posts in order (R15). -/
structure Waiter where
  block : Block
  posts : List LaneEntry
  deriving DecidableEq, Repr

/-- The reasons a lane is refused, in the order of R8. -/
inductive Refused where
  | planBusy
  | verifyInterlock
  | actionPartial
  | actionPending
  | actionQueueFull
  | frozen
  | planField
  | deviceField
  deriving DecidableEq, Repr

/-- The refusal record (R9). -/
structure RefusalRecord where
  addr : Addr
  data : Word
  lanes : Lanes
  reason : BitVec 8
  deriving DecidableEq, Repr

/-- The thirteen roles of R35, by number: SCALE1 0 to TRUCK_NET 12. -/
abbrev Role := Fin 13

/-- One sample of a role: signed value and quality byte (R11). -/
structure Sample where
  role : Role
  raw : BitVec 24
  quality : BitVec 8
  deriving DecidableEq, Repr

/-- A word waiting at the hand-off until its owner takes it (R10). -/
inductive Handoff where
  | sample (s : Sample)
  | enable (lanes : Lanes) (data : Word)
  deriving DecidableEq, Repr

/-- What the grant of a write beat also does (R10). -/
inductive BeatMeaning where
  | plain
  | action (r : RecordRef)
  | control
  | flags
  deriving DecidableEq, Repr

/-- A judged write beat: the lanes that survived refusal, and its meaning. -/
structure TxBeat where
  addr : Addr
  lanes : Lanes
  data : Word
  meaning : BeatMeaning
  deriving DecidableEq, Repr

/-- How far a processor transaction has come: waiting for its grant; its burst granted and its flag-word beat still
to be issued (R12); its memory cycles ended and the Path Unit's refusal posts still waiting (R9). landed are the words
of the beats granted, whose transaction has not completed (R188). -/
inductive TxPhase where
  | waiting
  | flagBeat (landed : List Addr)
  | ended (landed : List Addr)
  deriving DecidableEq, Repr

/-- The processor transaction in progress (R2). For a read, hold is the number of lane entries to be granted first
(R17). -/
inductive Tx where
  | write (beats : List TxBeat) (handoffs : List Handoff) (phase : TxPhase)
  | read (addrs : List Addr) (hold : Nat)
  deriving DecidableEq, Repr

/-- One memory burst of a granted processor transaction (R3). -/
structure Burst where
  isWrite : Bool
  addrs : List Addr
  deriving DecidableEq, Repr

/-! ### Tickets -/

/-- A line of a verified chain (R72). -/
structure ChainLine where
  slot : Nat
  index : Nat
  bin : Fin 48
  scale : Scale
  tolerance : Nat
  parts : Nat
  deriving DecidableEq, Repr

/-- A chain summary (R73). -/
structure Chain where
  head : Nat
  slots : List Nat
  mixTime : Nat
  lines : List ChainLine
  mask : BitVec 16
  deriving DecidableEq, Repr

/-- The callers of the Ticket Checker (R70). -/
inductive Caller where
  | release
  | load
  deriving DecidableEq, Repr

/-- Part marks (12_record_formats.md, Encodings). -/
inductive PartMark where
  | only
  | first
  | middle
  | last
  deriving DecidableEq, Repr

/-- The header of the slot the walk stands on (R67). -/
structure Header where
  mark : PartMark
  next : Nat
  lineCount : Nat
  check : BitVec 16
  deriving DecidableEq, Repr

/-- A walk in progress (R70): header is none while the header stage's reads are out. -/
structure Walk where
  caller : Caller
  head : Nat
  slot : Nat
  visited : List Nat
  position : Nat
  mixTime : Nat
  parts : Nat
  mask : BitVec 16
  lines : List ChainLine
  header : Option Header
  deriving DecidableEq, Repr

/-- A verification request waiting at the Ticket Checker (R70). -/
structure VerifyRequest where
  caller : Caller
  head : Nat
  deriving DecidableEq, Repr

/-- The Ticket Checker (R70). awaitsWrite stands while a processor write that was decoded before the verify interlock
began has not completed (R70, R84). -/
structure Checker where
  requests : List VerifyRequest
  walk : Option Walk
  awaitsWrite : Bool
  deriving DecidableEq, Repr

/-- The result and detail of a verification or a release (R22, R73). -/
structure Answer where
  result : BitVec 8
  detail : BitVec 16
  deriving DecidableEq, Repr

/-- The outcome of a walk (R73). -/
inductive Verdict where
  | ok (c : Chain)
  | fail (a : Answer)
  deriving DecidableEq, Repr

/-! ### Action Executor -/

/-- A queued action (section 1.7). -/
structure Action where
  record : RecordRef
  code : BitVec 8
  arg : BitVec 24
  deriving DecidableEq, Repr

/-- What the action in execution waits for (R20). A release that waits for its confirming read keeps the chain
summary of its verdict (R73, R84). -/
inductive InExec where
  | none
  | releaseFields
  | releaseVerify
  | releaseConfirm (c : Chain)
  | countValue
  | startRefill (g : Grinder)
  | arriveRead
  | answered
  deriving DecidableEq, Repr

/-- The Action Executor (section 1.7): the queue, the pending markers and the action in execution. -/
structure Actions where
  queue : List Action
  marked : List RecordRef
  inExec : InExec
  deriving DecidableEq, Repr

/-! ### Plan Controller -/

/-- Plan states, in code order (02 section 2.2). -/
inductive PlanState where
  | unplanned
  | opened
  | loading
  | running
  deriving DecidableEq, Repr

/-- Where the pending control request stands (R27): its row not yet taken; CLOSE, in load; answered, its zero write
not yet landed. -/
inductive ControlStage where
  | requested
  | loading
  | answered
  deriving DecidableEq, Repr

/-- The pending control request (R27). -/
structure Control where
  code : BitVec 8
  stage : ControlStage
  deriving DecidableEq, Repr

/-- Bin kinds, in code order (R45). -/
inductive BinKind where
  | unused
  | raw
  | ground
  | premix
  | surgePellet
  | surgeBag
  | surgeBulk
  | rework
  deriving DecidableEq, Repr

/-- A bin's plan fields (R46). -/
structure BinDef where
  kind : BinKind
  classMask : BitVec 16
  capacity : Nat
  low : Nat
  high : Nat
  preactMax : Nat
  deriving DecidableEq, Repr

/-- A link walk of stage 5 (R79): the order, the slot whose mark and link are read, the slots reached. -/
structure LinkWalk where
  order : Nat
  slot : Nat
  reached : List Nat
  deriving DecidableEq, Repr

/-- How far a load has come (R32). In stage 3, the index of the rule whose chain is verified, 32 for the default
flush. In links, the retained words, the walks finished and the walks to do. In sweeping, the sweep's posts join the
lane. -/
inductive LoadPhase where
  | idle
  | stage1
  | stage2
  | stage3 (item : Nat) (verdict : Option Verdict)
  | stage5
  | links (retained : List Word) (done todo : List LinkWalk)
  | sweeping
  deriving DecidableEq, Repr

/-- The Plan Controller: plan state, internal plan copy (words 4 to 183), presence, control request, load, what load
stages 2 and 3 found. -/
structure PlanCtl where
  state : PlanState
  words : List Word
  present : Vector Bool 8
  control : Option Control
  load : LoadPhase
  binDefs : List BinDef
  unitWords : List Word
  flushChains : List (Option Chain)
  defaultFlush : Option Chain
  deriving DecidableEq, Repr

/-! ### Stock Unit -/

/-- The three surge bins (R56). -/
inductive Surge where
  | pellet
  | bag
  | bulk
  deriving DecidableEq, Repr

/-- Lot marks (R56). -/
inductive Mark where
  | none
  | cancelled
  | overrun
  | host
  deriving DecidableEq, Repr

/-- A lot: its owner (none for ORPHAN), mark and mass (R56). -/
structure Lot where
  owner : Option (Fin 256)
  mark : Mark
  mass : Nat
  deriving DecidableEq, Repr

/-- The book of one bin (R46). -/
structure Bin where
  plan : BinDef
  level : Nat
  reserved : Nat
  preact : Nat
  lowC : Bool
  deficit : Bool
  lockedOut : Bool
  divertMass : Nat
  divertSeq : BitVec 8
  lots : List Lot
  claim : Bool
  deriving DecidableEq, Repr

/-- An entry of the reservation table (R49). -/
structure Reservation where
  batch : Fin 32
  line : Nat
  bin : Fin 48
  unbooked : Nat
  deriving DecidableEq, Repr

/-- The Stock Unit (R46). -/
structure Stock where
  bins : Vector Bin 48
  table : List Reservation
  waitingDiverts : List Surge
  deriving DecidableEq, Repr

/-! ### Order Book -/

/-- Order states, in code order (R80). -/
inductive OrderState where
  | idle
  | released
  | producing
  | finishing
  | packed
  | closed
  | cancelling
  | cancelled
  deriving DecidableEq, Repr

/-- Wait reasons, in code order. -/
inductive WaitReason where
  | none
  | held
  | short
  | forbid
  deriving DecidableEq, Repr

/-- End reasons, in code order. -/
inductive EndReason where
  | none
  | host
  | reset
  | restart
  deriving DecidableEq, Repr

/-- Processes and packs (R80). -/
inductive Process where
  | mash
  | pellet
  deriving DecidableEq, Repr

inductive Pack where
  | bag
  | bulk
  deriving DecidableEq, Repr

/-- What the active order table holds of an order (R80, R81): ordered and request are the ordered mass and the batch size
request read at release. An order adopted PACKED has no chain summary, and its process and pack are those memory kept,
none for an unknown code. -/
structure OrderEntry where
  process : Option Process
  pack : Option Pack
  bagMass : Nat
  bagCount : Nat
  ordered : Nat
  request : Nat
  unit : Nat
  batchSize : Nat
  floor : Nat
  chain : Option Chain
  slots : List Nat
  nonFinal : Nat
  deriving DecidableEq, Repr

/-- An order (R80): its device fields, and its entry in the active order table while it holds one. -/
structure Order where
  state : OrderState
  wait : WaitReason
  shortBin : Nat
  endReason : EndReason
  classMask : BitVec 16
  batchesDone : Nat
  planned : Nat
  scheduled : Nat
  remaining : Nat
  inFlight : Nat
  completed : Nat
  bagsPacked : Nat
  bagsRejected : Nat
  loaded : Nat
  entry : Option OrderEntry
  deriving DecidableEq, Repr

/-- The Order Book (05, opening; R75, R78). -/
structure OrderBook where
  orders : Vector Order 256
  releaseList : List (Fin 256)
  useCount : Vector Nat 256
  planMark : Vector Bool 256
  interlock : Option (Fin 256)
  deriving DecidableEq, Repr

/-! ### Batch Sequencer -/

/-- Batch states, in code order (R104). -/
inductive BatchState where
  | free
  | queued
  | weighing
  | weighed
  | filling
  | mixing
  | mixed
  | discharging
  | done
  | removed
  | void
  deriving DecidableEq, Repr

/-- Attention causes, in code order (R128). -/
inductive Cause where
  | none
  | under
  | over
  | stalled
  | held
  deriving DecidableEq, Repr

/-- The attention fields of a batch record (R128). -/
structure Attention where
  cause : Cause
  scale : Nat
  line : Nat
  target : Nat
  actual : Nat
  deriving DecidableEq, Repr

/-- Dispositions, in code order. -/
inductive Disposition where
  | good
  | rework
  deriving DecidableEq, Repr

/-- A scale's fields of a batch record: line index, phase number, line actual (12.7). -/
structure ScaleFields where
  line : Nat
  phase : Nat
  actual : Nat
  deriving DecidableEq, Repr

/-- A batch record (R103) with what its owner holds of it. order is none for a flush batch. -/
structure Batch where
  state : BatchState
  attention : Attention
  order : Option (Fin 256)
  ticket : Nat
  target : Nat
  disposition : Disposition
  route : Nat
  scale1 : ScaleFields
  scale2 : ScaleFields
  total : Nat
  leak : Bool
  mask : BitVec 16
  chain : Chain
  masses : List Nat
  actuals : List Nat
  deriving DecidableEq, Repr

/-- The reference member of the sequence (R106). -/
structure Reference where
  mask : BitVec 16
  isFlush : Bool
  deriving DecidableEq, Repr

/-- A batch whose size and line masses the Order Book has given (R87, R88) and which is not yet created. -/
structure Sized where
  order : Fin 256
  size : Nat
  masses : List Nat
  deriving DecidableEq, Repr

/-- The pass state (R108, R109): the position in the release list, and the batch last asked for, if any. -/
inductive Pass where
  | idle
  | visiting (pos : Nat)
  | sized (pos : Nat) (b : Sized)
  deriving DecidableEq, Repr

/-- The Batch Sequencer (06, opening). -/
structure Sequencer where
  batches : Vector Batch 32
  queue : List (Fin 32)
  reference : Option Reference
  hold : Bool
  pass : Pass
  again : Bool
  deriving DecidableEq, Repr

/-! ### Weigh-and-Mix Controller -/

/-- Scale states, in code order (R121). -/
inductive ScaleState where
  | idle
  | feeding
  | settling
  | attention
  | done
  | dumping
  deriving DecidableEq, Repr

/-- Mixer states, in code order (R121). -/
inductive MixerState where
  | empty
  | filling
  | mixing
  | mixed
  | discharging
  deriving DecidableEq, Repr

/-- How a feeding phase ended (R124, R125, R132). -/
inductive PhaseEnd where
  | cutOff
  | stall
  | cancelled
  deriving DecidableEq, Repr

/-- A reading channel: its latest good value and its freshness timer (R120, R176). -/
structure Channel where
  latest : Option Int
  fresh : Timer
  deriving DecidableEq, Repr

/-- A scale controller (R121 to R136). lines are the chain lines not yet finished, the current one first. -/
structure ScaleCtl where
  state : ScaleState
  bin : Nat
  batch : Option (Fin 32)
  lines : List Nat
  phase : Nat
  base : Int
  target : Nat
  ended : PhaseEnd
  stallRef : Int
  stall : Timer
  settle : Timer
  cause : Cause
  leakRef : Option Int
  channel : Channel
  deriving DecidableEq, Repr

/-- The mixer controller (R121, R138, R139). -/
structure MixerCtl where
  state : MixerState
  route : Nat
  batch : Option (Fin 32)
  mix : Timer
  hold : Timer
  channel : Channel
  deriving DecidableEq, Repr

/-- The Weigh-and-Mix Controller (07, opening). -/
structure WeighMix where
  scale1 : ScaleCtl
  scale2 : ScaleCtl
  mixer : MixerCtl
  batch : Option (Fin 32)
  cancelled : Bool
  limit : Timer
  deriving DecidableEq, Repr

/-! ### Line Supervisor -/

/-- Line states, in code order (R146). -/
inductive LineState where
  | idle
  | running
  | starved
  | blocked
  | draining
  | tripped
  deriving DecidableEq, Repr

/-- Trip causes, in code order (R145). -/
inductive TripCause where
  | none
  | load
  | temp
  | stale
  deriving DecidableEq, Repr

/-- A trip channel (R147, R151): latest sample, freshness timer, above count, latest good value. -/
structure TripChan where
  latest : Option Sample
  fresh : Timer
  above : Nat
  good : Option Int
  deriving DecidableEq, Repr

/-- What every line controller holds (R145). -/
structure LineCtl where
  state : LineState
  ceiling : Nat
  rate : Nat
  cause : TripCause
  top : Bool
  adjust : Timer
  tripOut : Bool
  load : TripChan
  deriving DecidableEq, Repr

/-- A grinder's refill setting (R156). -/
structure Refill where
  raw : Nat
  ground : Nat
  auto : Bool
  deriving DecidableEq, Repr

/-- A grinder's controller (R145, section 8.6). -/
structure GrinderCtl where
  line : LineCtl
  total : Option Nat
  refill : Option Refill
  autoStart : Bool
  starved : Bool
  blocked : Bool
  deriving DecidableEq, Repr

/-- The product order of the pellet line with its destination surge (section 8.7, R163). -/
inductive Product where
  | none
  | order (o : Fin 256) (dest : Surge)
  | orphan (dest : Surge)
  deriving DecidableEq, Repr

/-- The pellet line's controller (R145, section 8.7). heard runs for the stale time after each good PL_PRODUCT sample
(R164, log 17). -/
structure PelletCtl where
  line : LineCtl
  temp : TripChan
  feed : Option Nat
  product : Option Nat
  current : Option (Fin 256)
  productOrder : Product
  drain : Timer
  drainWaits : Bool
  heard : Timer
  deriving DecidableEq, Repr

/-- The Line Supervisor (08). -/
structure Lines where
  grinderA : GrinderCtl
  grinderB : GrinderCtl
  pellet : PelletCtl
  deriving DecidableEq, Repr

/-! ### Pack-out Controller -/

/-- Bagger states, in code order (R169). -/
inductive BaggerState where
  | idle
  | bagging
  | waitLot
  | blocked
  deriving DecidableEq, Repr

/-- Bag verdicts, in code order (R171). -/
inductive BagVerdict where
  | none
  | accepted
  | rejected
  | surplus
  | stray
  deriving DecidableEq, Repr

/-- The bagger controller (R167, R169). seesHead is whether its surge held a head lot when its latest judgement had been
carried out, as it then told the Status Unit (R167, log 12). -/
structure Bagger where
  state : BaggerState
  order : Option (Fin 256)
  bagMass : Nat
  verdict : BagVerdict
  seq : BitVec 8
  seesHead : Bool
  deriving DecidableEq, Repr

/-- Loadout states, in code order (R176). -/
inductive LoadoutState where
  | idle
  | waitTruck
  | waitLot
  | filling
  | blocked
  deriving DecidableEq, Repr

/-- The fill in progress (R167, R178). -/
structure Fill where
  truck : Fin 8
  comp : Nat
  base : Int
  target : Nat
  owner : Option (Fin 256)
  settling : Bool
  deriving DecidableEq, Repr

/-- The loadout controller (R167, R176). seesHead is as the bagger's. -/
structure Loadout where
  state : LoadoutState
  spout : Bool
  truck : Nat
  comp : Nat
  target : Nat
  fill : Option Fill
  settle : Timer
  channel : Channel
  stopRequest : Bool
  spoutRef : Option Int
  seesHead : Bool
  deriving DecidableEq, Repr

/-- The Pack-out Controller (09). -/
structure PackOut where
  bagger : Bagger
  loadout : Loadout
  deriving DecidableEq, Repr

/-! ### Trip Table -/

/-- Truck-trip states, in code order (R187). -/
inductive TripState where
  | opened
  | arrived
  | loading
  | loaded
  | departed
  deriving DecidableEq, Repr

/-- A compartment of a trip's copy (R186). -/
structure Compartment where
  order : Fin 256
  target : Nat
  deriving DecidableEq, Repr

/-- A truck trip (R186). loaded has six masses. -/
structure Trip where
  state : TripState
  loaded : Vector Nat 6
  limitMark : Bool
  copy : List Compartment
  deriving DecidableEq, Repr

/-- The Trip Table (10). arriving is the trip of the ARRIVE in execution, with whether its read has been posted
(R188). -/
structure TripTable where
  trips : Vector Trip 8
  queue : List (Fin 8)
  limit : Timer
  arriving : Option (Fin 8 × Bool)
  deriving DecidableEq, Repr

/-! ### Status Unit -/

/-- The flags, in bit order (11, section 11.1). -/
inductive Flag where
  | writeRefused
  | actionFull
  | attention
  | weighLimit
  | short
  | forbid
  | deficit
  | low
  | lineTrip
  | topExceeded
  | mixHeld
  | unexpectedFlow
  | stockDisagree
  | truckLimit
  | diverted
  | makeUp
  | headWait
  deriving DecidableEq, Repr

/-- A report to the Status Unit: an event (R196), a condition's new truth (R197), or a change of the summary figure in a word
of the status window (R200). -/
inductive Report where
  | event (f : Flag)
  | condition (f : Flag) (holds : Bool)
  | figure (w : Nat)
  deriving DecidableEq, Repr

/-- The Status Unit (11). base is the status window of the plan that was last RUNNING (R9, R201). -/
structure Status where
  flags : Word
  cond : Word
  enable : Word
  depth : Nat
  hold : Bool
  active : Nat
  nonFinal : Nat
  base : Option Addr
  alert : Bool
  deriving DecidableEq, Repr

/-! ### Notices between blocks -/

/-- What one block tells another and the other then acts on, in arrival order (log 10); each has one receiver
(Notice.receiver). -/
inductive Notice where
  | headChanged (s : Surge)
  | headMarked (s : Surge)
  | appended (s : Surge)
  | surgeRoom (s : Surge)
  | destRoom (s : Surge)
  | headCheck (s : Surge)
  | binLevel (b : Fin 48) (old new available : Nat)
  | binAvailable (b : Fin 48) (level available : Nat)
  | reworkFell
  | reworkRoom
  | reworkLevel
  | orderFinishing (o : Fin 256)
  | pelletGone
  | pelletLeftTrip
  | considerTake
  | judgeExhausted (o : Fin 256)
  | tripLoading
  | tripLeft
  deriving DecidableEq, Repr

/-! ### The whole -/

/-- The internal state of the blocks behind the Path Unit. returned is the read data given back and not yet taken
(R13); notices, outbox and reports are what a step has not yet delivered (log 10, log 12). -/
structure Mill where
  plan : PlanCtl
  actions : Actions
  checker : Checker
  stock : Stock
  book : OrderBook
  seq : Sequencer
  weigh : WeighMix
  lines : Lines
  pack : PackOut
  trips : TripTable
  returned : List (ReadTag × Word)
  notices : List Notice
  outbox : List LaneEntry
  reports : List Report
  deriving DecidableEq, Repr

/-- The part and its order memory. mem is sorted by address and lists no byte equal to what an unlisted one reads as. -/
structure State where
  pending : List Instr
  rstN : Bool
  strap : BitVec 2
  mem : Memory
  tx : Option Tx
  readData : List Word
  bursts : List Burst
  windows : Option (Vector Addr 8)
  grantCount : Nat
  refusal : Option RefusalRecord
  lane : List LaneEntry
  waiting : List Waiter
  status : Status
  mill : Mill
  deriving DecidableEq, Repr

/-- No step of the part stops with a fault: the processor port has no error response and every transaction completes
(R2), so the type has no constructor. -/
inductive Fault where
  deriving DecidableEq, Repr

/-- Why a command has no meaning. -/
inductive Refusal where
  /-- Raised by an arm of exec for a row not yet modelled; safe. -/
  | notModelled (mnemonic : String)
  /-- Raised by PROCESSOR_WRITE, PROCESSOR_READ and ADMISSION_PASS for a term that is no command of the part: a
  transaction of 0 or more than 8 beats (R2), a pass of no step; safe. -/
  | malformed
  deriving DecidableEq, Repr

/-! ### Reset (R25, R31 and the reset tables of each chapter) -/

def Channel.reset : Channel := ⟨none, none⟩

def BinDef.reset : BinDef := ⟨.unused, 0, 0, 0, 0, 0⟩

def Bin.reset : Bin := ⟨.reset, 0, 0, 0, false, false, false, 0, 0, [], false⟩

def Stock.reset : Stock := ⟨Vector.replicate 48 .reset, [], []⟩

def Order.reset : Order := ⟨.idle, .none, 0, .none, 0, 0, 0, 0, 0, 0, 0, 0, 0, 0, none⟩

def OrderBook.reset : OrderBook :=
  ⟨Vector.replicate 256 .reset, [], Vector.replicate 256 0, Vector.replicate 256 false, none⟩

def Chain.reset : Chain := ⟨0, [], 0, [], 0⟩

def Attention.reset : Attention := ⟨.none, 0, 0, 0, 0⟩

def Batch.reset : Batch :=
  ⟨.free, .reset, none, 0, 0, .good, 0, ⟨0, 0, 0⟩, ⟨0, 0, 0⟩, 0, false, 0, .reset, [], []⟩

def Sequencer.reset : Sequencer := ⟨Vector.replicate 32 .reset, [], none, false, .idle, false⟩

def ScaleCtl.reset : ScaleCtl := ⟨.idle, 0, none, [], 0, 0, 0, .cutOff, 0, none, none, .none, none, .reset⟩

def MixerCtl.reset : MixerCtl := ⟨.empty, 0, none, none, none, .reset⟩

def WeighMix.reset : WeighMix := ⟨.reset, .reset, .reset, none, false, none⟩

def TripChan.reset : TripChan := ⟨none, none, 0, none⟩

def LineCtl.reset : LineCtl := ⟨.idle, 0, 0, .none, false, none, false, .reset⟩

def GrinderCtl.reset : GrinderCtl := ⟨.reset, none, none, false, false, false⟩

def PelletCtl.reset : PelletCtl := ⟨.reset, .reset, none, none, none, .none, none, false, none⟩

def Lines.reset : Lines := ⟨.reset, .reset, .reset⟩

def Bagger.reset : Bagger := ⟨.idle, none, 0, .none, 0, false⟩

def Loadout.reset : Loadout := ⟨.idle, false, 0, 0, 0, none, none, .reset, false, none, false⟩

def PackOut.reset : PackOut := ⟨.reset, .reset⟩

def Trip.reset : Trip := ⟨.opened, Vector.replicate 6 0, false, []⟩

def TripTable.reset : TripTable := ⟨Vector.replicate 8 .reset, [], none, none⟩

def PlanCtl.reset : PlanCtl := ⟨.unplanned, [], Vector.replicate 8 false, none, .idle, [], [], [], none⟩

def Status.reset : Status := ⟨0, 0, 0, 0, false, 0, 0, none, false⟩

def Mill.reset : Mill :=
  ⟨.reset, ⟨[], [], .none⟩, ⟨[], none, false⟩, .reset, .reset, .reset, .reset, .reset, .reset, .reset, [], [], [], []⟩

/-- The machine at power-on: RST_N low, every block empty, memory with nothing listed (R25, R31, log 3, log 4). -/
def State.reset : State :=
  ⟨[], false, 0, [], none, [], [], none, 0, none, [], [], .reset, .reset⟩

end Sys2Proof.Machine
end

