-- ==== Sys2Proof/Machine/Ops.lean ====
section
/-! DEFINITION. The named operations over memory, tables, timers and the internal lane. -/

namespace Sys2Proof.Machine

/-! ### Tables of a fixed size -/

/-- The entry of a table. -/
def getAt {α : Type} {n : Nat} (v : Vector α n) (i : Fin n) : α := v[i]

/-- The table with one entry replaced. -/
def putAt {α : Type} {n : Nat} (v : Vector α n) (i : Fin n) (x : α) : Vector α n := v.set i.val x i.isLt

/-- The lowest index whose entry satisfies p, if any. -/
def findAt {α : Type} {n : Nat} (v : Vector α n) (p : α → Bool) : Option (Fin n) :=
  (List.finRange n).find? (fun i => p (getAt v i))

/-! ### Order memory (00_scope.md, Numbers and addresses) -/

/-- One byte of memory; an unlisted one reads as Config.unlistedByte (log 4). -/
def Memory.readByte : Memory → Nat → BitVec 8
  | [], _ => Config.unlistedByte
  | (k, v) :: t, a => if k = a then v else Memory.readByte t a

/-- One byte stored, the canonical form kept. -/
def Memory.writeByte : Memory → Nat → BitVec 8 → Memory
  | [], a, v => if v = Config.unlistedByte then [] else [(a, v)]
  | (k, w) :: t, a, v =>
    if a < k then (if v = Config.unlistedByte then (k, w) :: t else (a, v) :: (k, w) :: t)
    else if a = k then (if v = Config.unlistedByte then t else (a, v) :: t)
    else (k, w) :: Memory.writeByte t a v

/-- The canonical form from address lo upward. -/
def Memory.wfFrom (lo : Nat) : Memory → Bool
  | [] => true
  | (k, v) :: t => decide (lo ≤ k) && decide (v ≠ Config.unlistedByte) && Memory.wfFrom (k + 1) t

/-- The canonical form: addresses strictly rising, no byte listed that an unlisted one reads as. -/
def Memory.wf (m : Memory) : Bool := Memory.wfFrom 0 m

/-- The two low address bits are taken as zero (R2). -/
def wordAddr (a : Addr) : Addr := a &&& 0xFFFFFC

/-- The address n words on, modulo 2^24 (R2, log 6). -/
def addrPlus (a : Addr) (n : Nat) : Addr := a + BitVec.ofNat 24 (4 * n)

/-- The byte key of lane n of the word at a (log 5). -/
def laneKey (a : Addr) (n : Nat) : Nat := (a + BitVec.ofNat 24 n).toNat

/-- Byte lane n of a word. -/
def laneByte (w : Word) (n : Nat) : BitVec 8 := w.extractLsb' (8 * n) 8

/-- The bits of the enabled lanes. -/
def laneBits (m : Lanes) : Word :=
  let b (n : Nat) : BitVec 8 := if m.getLsbD n then 0xFF else 0
  b 3 ++ b 2 ++ b 1 ++ b 0

/-- A word of memory. -/
def Memory.readWord (m : Memory) (a : Addr) : Word :=
  m.readByte (laneKey a 3) ++ m.readByte (laneKey a 2) ++ m.readByte (laneKey a 1) ++ m.readByte (laneKey a 0)

/-- One lane of a word stored if it is enabled. -/
def Memory.writeLane (m : Memory) (a : Addr) (lanes : Lanes) (d : Word) (n : Nat) : Memory :=
  if lanes.getLsbD n then m.writeByte (laneKey a n) (laneByte d n) else m

/-- The enabled lanes of a word stored. -/
def Memory.writeWord (m : Memory) (a : Addr) (lanes : Lanes) (d : Word) : Memory :=
  (((m.writeLane a lanes d 0).writeLane a lanes d 1).writeLane a lanes d 2).writeLane a lanes d 3

/-! ### Fields of words (R203) -/

/-- Bits lo to lo + len - 1 as an unsigned number. -/
def bits (w : Word) (lo len : Nat) : Nat := (w.toNat >>> lo) % 2 ^ len

/-- Sixteen bits from lo as a signed number. -/
def signed16 (w : Word) (lo : Nat) : Int := (w.extractLsb' lo 16).toInt

/-- A word built from (value, low bit, width) fields; a value beyond its width shows the largest (R203). -/
def wordOf (fields : List (Nat × Nat × Nat)) : Word :=
  BitVec.ofNat 32 (fields.foldl (fun acc f => acc + min f.1 (2 ^ f.2.2 - 1) * 2 ^ f.2.1) 0)

/-- A bit as a number. -/
def bit (b : Bool) : Nat := if b then 1 else 0

/-! ### Timers (R1) -/

/-- One tick of a timer; one that is due stays due until its expiry is taken (log 2). -/
def Timer.tick : Timer → Timer
  | none => none
  | some n => some (n - 1)

/-- The timer's expiry is due. -/
def Timer.due (t : Timer) : Bool := t == some 0

/-- A duration in seconds and in minutes, in ticks (R1). -/
def seconds (n : Nat) : Nat := 1000 * n
def minutes (n : Nat) : Nat := 60000 * n

/-! ### The internal lane (R13 to R15) -/

/-- The note of a merged entry: the later one, if it has one. -/
def LandNote.merge (old new : LandNote) : LandNote := if new = .none then old else new

/-- A write merged into the ungranted write of the same word, which keeps its place (R14); none where there is none. -/
def laneMerge (e : LaneEntry) : List LaneEntry → Option (List LaneEntry)
  | [] => none
  | h :: t =>
    match h.op, e.op with
    | .write m d n, .write m' d' n' =>
      if h.addr = e.addr then
        some ({ h with op := .write (m ||| m') ((d' &&& laneBits m') ||| (d &&& ~~~ laneBits m')) (n.merge n') } :: t)
      else (laneMerge e t).map (h :: ·)
    | _, _ => (laneMerge e t).map (h :: ·)

/-- A post offered to the lane (R14, R15): behind its block's earlier posts if the block waits already; merged if it
can be; at the tail if there is a free entry and nobody waits; otherwise its block begins to wait. -/
def offer (p : List LaneEntry × List Waiter) (e : LaneEntry) : List LaneEntry × List Waiter :=
  if p.2.any (fun w => w.block = e.poster) then
    (p.1, p.2.map (fun w => if w.block = e.poster then { w with posts := w.posts ++ [e] } else w))
  else match laneMerge e p.1 with
    | some lane => (lane, p.2)
    | none =>
      if p.2.isEmpty && p.1.length < Config.laneDepth then (p.1 ++ [e], p.2)
      else (p.1, p.2 ++ [⟨e.poster, [e]⟩])

/-- The posts at the front that merge, taken at once (R15). -/
def mergeRun : List LaneEntry → List LaneEntry → List LaneEntry × List LaneEntry
  | lane, [] => (lane, [])
  | lane, e :: es =>
    match laneMerge e lane with
    | some lane' => mergeRun lane' es
    | none => (lane, e :: es)

/-- One waiting post admitted (R15): the block that began to wait first; its posts behind it that merge join at once, and
with posts left it stays the first to wait (log 11). -/
def admitPost (lane : List LaneEntry) (waiting : List Waiter) : List LaneEntry × List Waiter :=
  match waiting with
  | [] => (lane, [])
  | w :: ws =>
    if lane.length < Config.laneDepth then
      match w.posts with
      | [] => (lane, ws)
      | e :: es =>
        let lane1 := match laneMerge e lane with
          | some l => l
          | none => lane ++ [e]
        let r := mergeRun lane1 es
        if r.2.isEmpty then (r.1, ws) else (r.1, ⟨w.block, r.2⟩ :: ws)
    else (lane, waiting)

/-! ### What a block's step leaves for others -/

/-- A post made by a block; it is offered to the lane when the step ends (log 10). -/
def Mill.post (m : Mill) (p : Block) (a : Addr) (mask : Lanes) (d : Word) : Mill :=
  { m with outbox := m.outbox ++ [⟨p, a, .write mask d .none⟩] }

/-- A post whose landing also does something (R21, R27). -/
def Mill.postNoted (m : Mill) (p : Block) (a : Addr) (d : Word) (n : LandNote) : Mill :=
  { m with outbox := m.outbox ++ [⟨p, a, .write 0xF d n⟩] }

/-- A read posted by a block (R13). -/
def Mill.postRead (m : Mill) (p : Block) (a : Addr) (tag : ReadTag) : Mill :=
  { m with outbox := m.outbox ++ [⟨p, a, .read tag⟩] }

/-- A notice to another block (log 10). -/
def Mill.tell (m : Mill) (n : Notice) : Mill := { m with notices := m.notices ++ [n] }

/-- An event reported to the Status Unit (R196). -/
def Mill.raise (m : Mill) (f : Flag) : Mill := { m with reports := m.reports ++ [.event f] }

/-- A summary figure's change reported, by its word of the status window (R200). -/
def Mill.restate (m : Mill) (w : Nat) : Mill := { m with reports := m.reports ++ [.figure w] }

/-- An event reported if b. -/
def Mill.raiseIf (m : Mill) (b : Bool) (f : Flag) : Mill := if b then m.raise f else m

/-- The returned reads of a tag (R13). -/
def Mill.readsOf (m : Mill) (t : ReadTag) : List Word := (m.returned.filter (fun r => r.1 = t)).map (·.2)

/-- The returned reads of a tag taken by their poster. -/
def Mill.takeReads (m : Mill) (t : ReadTag) : Mill := { m with returned := m.returned.filter (fun r => r.1 ≠ t) }

/-! ### Outcomes -/

/-- A command that does nothing in a state that holds no occasion for it (log 1). -/
def noOccasion (s : State) : Host.Outcome State Fault Refusal := .next s

end Sys2Proof.Machine
end

