-- ==== Sys2Proof/Machine/Operands.lean ====
section
/-! DEFINITION. Record formats (12_record_formats.md): encodings, plan fields, addresses, field classes, and the device
words of each record. -/

namespace Sys2Proof.Machine

/-! ### Encodings (12.11) -/

def PlanState.code : PlanState → Nat
  | .unplanned => 0
  | .opened => 1
  | .loading => 2
  | .running => 3

def Refused.code : Refused → Nat
  | .planBusy => 1
  | .verifyInterlock => 2
  | .actionPartial => 3
  | .actionPending => 4
  | .actionQueueFull => 5
  | .frozen => 6
  | .planField => 7
  | .deviceField => 8

def BinKind.code : BinKind → Nat
  | .unused => 0
  | .raw => 1
  | .ground => 2
  | .premix => 3
  | .surgePellet => 4
  | .surgeBag => 5
  | .surgeBulk => 6
  | .rework => 7

/-- The kind of a code; none for an unknown code (R36). -/
def BinKind.ofCode : Nat → Option BinKind
  | 0 => some .unused
  | 1 => some .raw
  | 2 => some .ground
  | 3 => some .premix
  | 4 => some .surgePellet
  | 5 => some .surgeBag
  | 6 => some .surgeBulk
  | 7 => some .rework
  | _ => none

def Mark.code : Mark → Nat
  | .none => 0
  | .cancelled => 1
  | .overrun => 2
  | .host => 3

def PartMark.ofCode : Nat → Option PartMark
  | 1 => some .only
  | 2 => some .first
  | 3 => some .middle
  | 4 => some .last
  | _ => none

def Process.ofCode : Nat → Option Process
  | 1 => some .mash
  | 2 => some .pellet
  | _ => none

def Pack.ofCode : Nat → Option Pack
  | 1 => some .bag
  | 2 => some .bulk
  | _ => none

def OrderState.code : OrderState → Nat
  | .idle => 0
  | .released => 1
  | .producing => 2
  | .finishing => 3
  | .packed => 4
  | .closed => 5
  | .cancelling => 6
  | .cancelled => 7

def OrderState.ofCode : Nat → Option OrderState
  | 0 => some .idle
  | 1 => some .released
  | 2 => some .producing
  | 3 => some .finishing
  | 4 => some .packed
  | 5 => some .closed
  | 6 => some .cancelling
  | 7 => some .cancelled
  | _ => none

def WaitReason.code : WaitReason → Nat
  | .none => 0
  | .held => 1
  | .short => 2
  | .forbid => 3

def EndReason.code : EndReason → Nat
  | .none => 0
  | .host => 1
  | .reset => 2
  | .restart => 3

/-- The retained end reason of a code; one outside the encoding is NONE (log 37). -/
def EndReason.ofCode : Nat → EndReason
  | 1 => .host
  | 2 => .reset
  | 3 => .restart
  | _ => .none

def BatchState.code : BatchState → Nat
  | .free => 0
  | .queued => 1
  | .weighing => 2
  | .weighed => 3
  | .filling => 4
  | .mixing => 5
  | .mixed => 6
  | .discharging => 7
  | .done => 8
  | .removed => 9
  | .void => 10

def Cause.code : Cause → Nat
  | .none => 0
  | .under => 1
  | .over => 2
  | .stalled => 3
  | .held => 4

def Disposition.code : Disposition → Nat
  | .good => 0
  | .rework => 1

def ScaleState.code : ScaleState → Nat
  | .idle => 0
  | .feeding => 1
  | .settling => 2
  | .attention => 3
  | .done => 4
  | .dumping => 5

/-- The scale command of a state: CLOSED 0, OPEN 1, DUMP 2 (R121). -/
def ScaleState.command : ScaleState → Nat
  | .feeding => 1
  | .dumping => 2
  | .idle | .settling | .attention | .done => 0

def MixerState.code : MixerState → Nat
  | .empty => 0
  | .filling => 1
  | .mixing => 2
  | .mixed => 3
  | .discharging => 4

/-- The mixer command of a state: CLOSED 0, DISCHARGE 1 (R121). -/
def MixerState.command : MixerState → Nat
  | .discharging => 1
  | .empty | .filling | .mixing | .mixed => 0

def LineState.code : LineState → Nat
  | .idle => 0
  | .running => 1
  | .starved => 2
  | .blocked => 3
  | .draining => 4
  | .tripped => 5

/-- A line that works (R149). -/
def LineState.works : LineState → Bool
  | .running | .starved | .blocked | .draining => true
  | .idle | .tripped => false

/-- The run command of a state: STOP 0, RUN 1 (R146). -/
def LineState.command (s : LineState) : Nat := bit s.works

def TripCause.code : TripCause → Nat
  | .none => 0
  | .load => 1
  | .temp => 2
  | .stale => 3

def BaggerState.code : BaggerState → Nat
  | .idle => 0
  | .bagging => 1
  | .waitLot => 2
  | .blocked => 3

def BagVerdict.code : BagVerdict → Nat
  | .none => 0
  | .accepted => 1
  | .rejected => 2
  | .surplus => 3
  | .stray => 4

def LoadoutState.code : LoadoutState → Nat
  | .idle => 0
  | .waitTruck => 1
  | .waitLot => 2
  | .filling => 3
  | .blocked => 4

def TripState.code : TripState → Nat
  | .opened => 0
  | .arrived => 1
  | .loading => 2
  | .loaded => 3
  | .departed => 4

def TripState.ofCode : Nat → Option TripState
  | 0 => some .opened
  | 1 => some .arrived
  | 2 => some .loading
  | 3 => some .loaded
  | 4 => some .departed
  | _ => none

def Flag.bitNo : Flag → Nat
  | .writeRefused => 0
  | .actionFull => 1
  | .attention => 2
  | .weighLimit => 3
  | .short => 4
  | .forbid => 5
  | .deficit => 6
  | .low => 7
  | .lineTrip => 8
  | .topExceeded => 9
  | .mixHeld => 10
  | .unexpectedFlow => 11
  | .stockDisagree => 12
  | .truckLimit => 13
  | .diverted => 14
  | .makeUp => 15
  | .headWait => 16

/-- The result codes of R22. -/
def resOk : BitVec 8 := 0x00
def resQueueFull : BitVec 8 := 0x01
def resBadAction : BitVec 8 := 0x02
def resWrongState : BitVec 8 := 0x03
def resFieldRange : BitVec 8 := 0x04
def resTicketChain : BitVec 8 := 0x05
def resTicketCheck : BitVec 8 := 0x06
def resTicketParts : BitVec 8 := 0x07
def resTicketBin : BitVec 8 := 0x08
def resMassRange : BitVec 8 := 0x09
def resActiveLimit : BitVec 8 := 0x0A
def resStock : BitVec 8 := 0x0B
def resConditionActive : BitVec 8 := 0x0C
def resAbsent : BitVec 8 := 0x0D
def resTruckBad : BitVec 8 := 0x0E
def resBinInUse : BitVec 8 := 0x0F
def resRestarted : BitVec 8 := 0x10

/-- An answer from a result and a detail. -/
def ans (r : BitVec 8) (detail : Nat) : Answer := ⟨r, BitVec.ofNat 16 detail⟩

/-! ### Units, scales and lines (R4, R35, R145) -/

/-- The unit indices of R4. -/
def scaleUnit : Scale → Nat
  | .one => 0
  | .two => 1

def lineUnit : Line → Nat
  | .grinder .a => 3
  | .grinder .b => 4
  | .pellet => 5

/-- The line of a unit index. -/
def lineOfUnit : Nat → Option Line
  | 3 => some (.grinder .a)
  | 4 => some (.grinder .b)
  | 5 => some .pellet
  | _ => none

/-- The roles of each unit (R35), by unit index. -/
def unitRoles : Nat → List Role
  | 0 => [0]
  | 1 => [1]
  | 2 => [2]
  | 3 => [3, 4]
  | 4 => [5, 6]
  | 5 => [7, 8, 9, 10]
  | 6 => [11]
  | 7 => [12]
  | _ => []

/-- The unit a role belongs to (R35). -/
def roleUnit (r : Role) : Nat := ((List.range 8).find? (fun u => (unitRoles u).contains r)).getD 0

/-- A unit is present (R35). -/
def Mill.presentUnit (m : Mill) (u : Nat) : Bool := m.plan.present.toList.getD u false

def Mill.presentLine (m : Mill) (l : Line) : Bool := m.presentUnit (lineUnit l)

/-- The trip channel's line, and its role number (R145). -/
def chanLine : TripChannel → Line
  | .gaLoad => .grinder .a
  | .gbLoad => .grinder .b
  | .plTemp => .pellet
  | .plLoad => .pellet

def chanRole : TripChannel → Role
  | .gaLoad => 3
  | .gbLoad => 5
  | .plTemp => 7
  | .plLoad => 8

/-- The trip channel of a role, if it is one. -/
def tripChannelOf (r : Role) : Option TripChannel :=
  [TripChannel.gaLoad, .gbLoad, .plTemp, .plLoad].find? (fun c => chanRole c = r)

/-- The trip channels of a line, in role order (R145). -/
def lineChannels : Line → List TripChannel
  | .grinder .a => [.gaLoad]
  | .grinder .b => [.gbLoad]
  | .pellet => [.plTemp, .plLoad]

/-! ### Plan fields (12.2) -/

/-- Word n of the plan region as the internal copy holds it (R26); 4 to 183. -/
def PlanCtl.word (p : PlanCtl) (n : Nat) : Word := p.words.getD (n - 4) 0

/-- A constant: bits 23 to 0 of its word (12.2). -/
def PlanCtl.const (p : PlanCtl) (n : Nat) : Nat := bits (p.word n) 0 24

def PlanCtl.batchMin (p : PlanCtl) : Nat := p.const 12
def PlanCtl.batchMax (p : PlanCtl) : Nat := p.const 13
def PlanCtl.weighBase (p : PlanCtl) : Nat := p.const 14
def PlanCtl.weighLine (p : PlanCtl) : Nat := p.const 15
def PlanCtl.settleTime (p : PlanCtl) : Nat := p.const 16
def PlanCtl.stallWindow (p : PlanCtl) : Nat := p.const 17
def PlanCtl.stallDelta (p : PlanCtl) : Nat := p.const 18
def PlanCtl.leakDelta (p : PlanCtl) : Nat := p.const 19
def PlanCtl.emptyThreshold (p : PlanCtl) : Nat := p.const 20
def PlanCtl.mixHold (p : PlanCtl) : Nat := p.const 21
def PlanCtl.staleTime (p : PlanCtl) : Nat := p.const 22
def PlanCtl.bagTolerance (p : PlanCtl) : Nat := p.const 23
def PlanCtl.bulkTolerance (p : PlanCtl) : Nat := p.const 24
def PlanCtl.spoutPreact (p : PlanCtl) : Nat := p.const 25
def PlanCtl.loadBase (p : PlanCtl) : Nat := p.const 26
def PlanCtl.loadComp (p : PlanCtl) : Nat := p.const 27
def PlanCtl.drainWindow (p : PlanCtl) : Nat := p.const 28
def PlanCtl.stopMargin (p : PlanCtl) : Nat := p.const 29
def PlanCtl.blockMargin (p : PlanCtl) : Nat := p.const 30
def PlanCtl.initialMask (p : PlanCtl) : BitVec 16 := (p.word 31).extractLsb' 0 16
def PlanCtl.flushTicket (p : PlanCtl) : Nat := p.const 32
def PlanCtl.flushMass (p : PlanCtl) : Nat := p.const 33

/-- The absolute mass and per-mille figure of a tolerance class (12.2). -/
def PlanCtl.toleranceAbs (p : PlanCtl) (c : Nat) : Nat := bits (p.word (40 + c)) 0 16
def PlanCtl.tolerancePerMille (p : PlanCtl) (c : Nat) : Nat := bits (p.word (40 + c)) 16 8

/-- The fields of carryover rule n (12.2). -/
def PlanCtl.ruleFrom (p : PlanCtl) (n : Nat) : BitVec 16 := (p.word (56 + 2 * n)).extractLsb' 0 16
def PlanCtl.ruleTo (p : PlanCtl) (n : Nat) : BitVec 16 := (p.word (56 + 2 * n)).extractLsb' 16 16
def PlanCtl.ruleMass (p : PlanCtl) (n : Nat) : Nat := bits (p.word (57 + 2 * n)) 0 20
def PlanCtl.ruleTicket (p : PlanCtl) (n : Nat) : Nat := bits (p.word (57 + 2 * n)) 20 8
def PlanCtl.ruleTreatment (p : PlanCtl) (n : Nat) : Nat := bits (p.word (57 + 2 * n)) 28 4

/-- The channel of a role; 255 is unassigned (R35). -/
def PlanCtl.channel (p : PlanCtl) (r : Nat) : Nat := bits (p.word (120 + r)) 0 8

/-- The role of a channel, if the plan assigns it one (R11). -/
def PlanCtl.roleOfChannel (p : PlanCtl) (ch : Nat) : Option Role := (List.finRange 13).find? (fun r => p.channel r = ch)

/-- Word k of the parameter block of a line (12.2). -/
def PlanCtl.block (p : PlanCtl) (l : Line) (k : Nat) : Word := p.word (136 + 16 * (lineUnit l - 3) + k)

def PlanCtl.loadTop (p : PlanCtl) (l : Line) : Nat := bits (p.block l 0) 0 16
def PlanCtl.loadTrip (p : PlanCtl) (l : Line) : Nat := bits (p.block l 0) 16 16
def PlanCtl.tempTrip (p : PlanCtl) (l : Line) : Int := signed16 (p.block l 1) 0
def PlanCtl.curveStart (p : PlanCtl) (l : Line) : Int := signed16 (p.block l 1) 16
def PlanCtl.ceilingMax (p : PlanCtl) (l : Line) : Nat := bits (p.block l 2) 0 16
def PlanCtl.ceilingMin (p : PlanCtl) (l : Line) : Nat := bits (p.block l 2) 16 16
def PlanCtl.rateFloor (p : PlanCtl) (l : Line) : Nat := bits (p.block l 3) 0 16
def PlanCtl.spanCode (p : PlanCtl) (l : Line) : Nat := bits (p.block l 3) 16 8
def PlanCtl.adjustOn (p : PlanCtl) (l : Line) : Bool := bits (p.block l 4) 0 1 = 1
def PlanCtl.tripOutOn (p : PlanCtl) (l : Line) : Bool := bits (p.block l 4) 1 1 = 1
def PlanCtl.adjustDelay (p : PlanCtl) (l : Line) : Nat := bits (p.block l 4) 8 8
def PlanCtl.adjustStep (p : PlanCtl) (l : Line) : Nat := bits (p.block l 4) 16 16

/-- The span in 0.1 degree by the span code (R148). -/
def PlanCtl.span (p : PlanCtl) (l : Line) : Nat := 40 * 2 ^ p.spanCode l

/-! ### Windows and addresses (R4, R26) -/

/-- The window number of a record kind (R26). -/
def RecordKind.window : RecordKind → Fin 8
  | .order => 0
  | .ticket => 1
  | .bin => 2
  | .unit => 3
  | .batch => 4
  | .truck => 5
  | .reading => 6
  | .status => 7

/-- Record size in bytes (section 1.2). -/
def RecordKind.size : RecordKind → Nat
  | .order => 64
  | .ticket => 128
  | .bin => 64
  | .unit => 64
  | .batch => 64
  | .truck => 64
  | .reading => 4
  | .status => 256

/-- Records of the window (section 1.2). -/
def RecordKind.count : RecordKind → Nat
  | .order => 256
  | .ticket => 256
  | .bin => 48
  | .unit => 8
  | .batch => 32
  | .truck => 8
  | .reading => 64
  | .status => 1

/-- The span decoded, in bytes. -/
def RecordKind.span (k : RecordKind) : Nat := k.size * k.count

/-- The kinds in window order. -/
def RecordKind.all : List RecordKind := [.order, .ticket, .bin, .unit, .batch, .truck, .reading, .status]

/-- The base of window n in the plan copy: bits 23 to 0 of word 4 + n (R33). -/
def PlanCtl.windowBase (p : PlanCtl) (n : Nat) : Addr := BitVec.ofNat 24 (p.const (4 + n))

/-- The base of the plan region by the strap value (R26). -/
def regionBase (strap : BitVec 2) : Addr :=
  if strap = 0 then 0x000000 else if strap = 1 then 0x100000 else if strap = 2 then 0x7FF000 else 0xFFF000

/-- The address of a word of a record of the plan's windows. -/
def Mill.recordAddr (m : Mill) (k : RecordKind) (idx w : Nat) : Addr :=
  m.plan.windowBase k.window + BitVec.ofNat 24 (idx * k.size + 4 * w)

/-- Where an address falls (R4, R5). -/
inductive Place where
  | region (w : Nat)
  | record (k : RecordKind) (idx w : Nat)
  | outside
  deriving DecidableEq, Repr

/-- The offset of an address from a base, if it lies within the span. -/
def offsetIn (base a : Addr) (span : Nat) : Option Nat :=
  if base.toNat ≤ a.toNat && a.toNat < base.toNat + span then some (a.toNat - base.toNat) else none

/-- The window decode of R4 and R5: the plan region in every plan state, the windows while the table names them. -/
def locate (region : Addr) (windows : Option (Vector Addr 8)) (a : Addr) : Place :=
  match offsetIn region a 4096 with
  | some off => .region (off / 4)
  | none =>
    match windows with
    | none => .outside
    | some ws =>
      match RecordKind.all.findSome? (fun k => (offsetIn ws[k.window] a k.span).map (fun off => (k, off))) with
      | some (k, off) => .record k (off / k.size) (off % k.size / 4)
      | none => .outside

/-! ### Field classes (12.2 to 12.10, R203) -/

/-- Field classes (00_scope.md, Field classes). -/
inductive FieldClass where
  | w
  | p
  | f
  | d
  | a
  | x
  | c
  deriving DecidableEq, Repr

/-- The surge layout of a bin record serves the surge kinds (12.5). -/
def BinKind.isSurge : BinKind → Bool
  | .surgePellet | .surgeBag | .surgeBulk => true
  | .unused | .raw | .ground | .premix | .rework => false

/-- The class of a lane of the plan region (R5). -/
def regionClass (w : Nat) : FieldClass :=
  if w = 0 then .c else if w ≤ 2 then .d else if 4 ≤ w && w ≤ 183 then .p else .w

/-- The class of a lane of a record word (12.3 to 12.10). A bin's layout follows its kind (R204); a ticket slot's
header and line words are class F in all lanes (R67, log 18). -/
def recordClass (kind : BinKind) (k : RecordKind) (idx w lane : Nat) : FieldClass :=
  match k with
  | .order =>
    if w = 0 then .a else if w = 1 then .d
    else if w = 2 || w = 4 then .f
    else if w = 3 || w = 5 || w = 6 then (if lane = 3 then .w else .f)
    else .d
  | .ticket => if w = 6 || w = 7 then .d else .f
  | .bin =>
    if w = 0 then .a else if w = 1 then .d
    else if w = 2 || w = 3 then .p
    else if w = 4 || w = 5 then (if lane = 3 then .d else .p)
    else if w = 6 || w = 7 then .d
    else if kind.isSurge then .d
    else if w = 8 || w = 9 then .d else .w
  | .unit =>
    if w = 0 then .a else if w = 1 then .d
    else if w = 2 || w = 3 then .d
    else if 3 ≤ idx && idx ≤ 5 then
      if w = 4 then .d
      else if w = 5 then (if idx = 5 || lane = 3 then .w else .f)
      else if 6 ≤ w && w ≤ 10 then .p
      else .w
    else .w
  | .batch => if w = 0 then .a else .d
  | .truck =>
    if w = 0 then .a else if w = 1 then .d
    else if w = 2 then (if lane = 3 then .w else .f)
    else if w = 3 then .d
    else if w ≤ 9 then .f
    else .d
  | .reading => .w
  | .status =>
    if w = 0 then .x else if w = 1 then .d else if w = 2 then .w
    else if w ≤ 9 then .d
    else if w = 10 then .a else if w = 11 then .d
    else .w

/-- The word offsets of a record's ACTION and ANSWER words (section 1.7, 12.10). -/
def RecordKind.actionWord : RecordKind → Nat
  | .status => 10
  | .order | .ticket | .bin | .unit | .batch | .truck | .reading => 0

def RecordKind.answerWord (k : RecordKind) : Nat := k.actionWord + 1

/-- The lanes of a word for which p holds. -/
def lanesWhere (p : Nat → Bool) : Lanes := BitVec.ofNat 4 (bit (p 0) + 2 * bit (p 1) + 4 * bit (p 2) + 8 * bit (p 3))

/-- The kind of a bin in the book. -/
def Mill.binKind (m : Mill) (b : Nat) : BinKind := (m.stock.bins.toList.getD b .reset).plan.kind

/-- The byte mask of a posted device word: its D lanes alone (R203). -/
def Mill.deviceMask (m : Mill) (k : RecordKind) (idx w : Nat) : Lanes :=
  lanesWhere (fun l => recordClass (m.binKind idx) k idx w l = .d)

/-- A device word of a record posted (R203). -/
def Mill.postRecord (m : Mill) (p : Block) (k : RecordKind) (idx w : Nat) (d : Word) : Mill :=
  m.post p (m.recordAddr k idx w) (m.deviceMask k idx w) d

/-- Those of the words ws that changed, posted (R46, R82, R167, R186); one that a rule posts and that has not changed is
not posted again (DESIGN CHOICE, log 56). -/
def Mill.postChanged (m : Mill) (p : Block) (k : RecordKind) (idx : Nat) (ws : List Nat) (old new : Nat → Word) : Mill :=
  ws.foldl (fun m w => if old w = new w then m else m.postRecord p k idx w (new w)) m

/-- The words ws of a record posted, changed or not. -/
def Mill.postAll (m : Mill) (p : Block) (k : RecordKind) (idx : Nat) (ws : List Nat) (new : Nat → Word) : Mill :=
  ws.foldl (fun m w => m.postRecord p k idx w (new w)) m

/-! ### Device words of the records -/

/-- The ANSWER word (12.9). -/
def answerWord (code : BitVec 8) (a : Answer) : Word := a.detail ++ a.result ++ code

/-- A slot or index field that can name nothing (R203): its sentinel. -/
def slot16 (o : Option (Fin 256)) : Nat := match o with
  | none => 0xFFFF
  | some i => i.val

def slot8 {n : Nat} (o : Option (Fin n)) : Nat := match o with
  | none => 0xFF
  | some i => i.val

/-- Device words of an order (12.3). -/
def Order.word (o : Order) : Nat → Word
  | 7 => wordOf [(o.state.code, 0, 8), (o.wait.code, 8, 8), (o.shortBin, 16, 8), (o.endReason.code, 24, 8)]
  | 8 => wordOf [(o.classMask.toNat, 0, 16), (o.batchesDone, 16, 16)]
  | 9 => wordOf [(o.planned, 0, 24)]
  | 10 => wordOf [(o.scheduled, 0, 24)]
  | 11 => wordOf [(o.remaining, 0, 24)]
  | 12 => wordOf [(o.inFlight, 0, 24)]
  | 13 => wordOf [(o.completed, 0, 24)]
  | 14 => wordOf [(o.bagsPacked, 0, 16), (o.bagsRejected, 16, 16)]
  | 15 => wordOf [(o.loaded, 0, 24)]
  | _ => 0

def orderWords : List Nat := [7, 8, 9, 10, 11, 12, 13, 14, 15]

/-- A lot entry (R205). -/
def Lot.word (l : Lot) : Word :=
  wordOf [(l.mass, 0, 21), (l.owner.elim 0 (·.val), 21, 8), (bit l.owner.isNone, 29, 1), (l.mark.code, 30, 2)]

/-- Device words of a bin record, by its layout (12.5, R204). -/
def Bin.word (b : Bin) : Nat → Word
  | 4 => wordOf [(bit b.lowC, 24, 1), (bit b.deficit, 25, 1), (bit b.lockedOut, 26, 1)]
  | 5 => wordOf [(b.lots.length, 24, 8)]
  | 6 => wordOf [(b.level, 0, 24)]
  | 7 => wordOf [(b.divertMass, 0, 24), (b.divertSeq.toNat, 24, 8)]
  | w =>
    if b.plan.kind.isSurge then
      match b.lots[w - 8]? with
      | some l => if 8 ≤ w then l.word else 0
      | none => 0
    else if w = 8 then wordOf [(b.reserved, 0, 24)]
    else if w = 9 then wordOf [(b.preact, 0, 16)]
    else 0

/-- The words a bin's layout has (R204). -/
def Bin.words (b : Bin) : List Nat :=
  if b.plan.kind.isSurge then [4, 5, 6, 7, 8, 9, 10, 11, 12, 13, 14, 15] else [4, 5, 6, 7, 8, 9]

/-- Device words of a batch record (12.7). A FREE record's device fields are zero (R42). -/
def Batch.word (b : Batch) (w : Nat) : Word :=
  if b.state = .free then 0
  else match w with
  | 2 => wordOf [(b.state.code, 0, 8), (b.attention.cause.code, 8, 8), (b.disposition.code, 16, 8), (bit b.leak, 24, 1)]
  | 3 => wordOf [(slot16 b.order, 0, 16), (b.ticket, 16, 8), (b.route, 24, 8)]
  | 4 => wordOf [(b.target, 0, 24)]
  | 5 => wordOf [(b.scale1.line, 0, 8), (b.scale1.phase, 8, 8)]
  | 6 => wordOf [(b.scale1.actual, 0, 24)]
  | 7 => wordOf [(b.scale2.line, 0, 8), (b.scale2.phase, 8, 8)]
  | 8 => wordOf [(b.scale2.actual, 0, 24)]
  | 9 => wordOf [(b.attention.scale, 0, 8), (b.attention.line, 8, 8)]
  | 10 => wordOf [(b.attention.target, 0, 24)]
  | 11 => wordOf [(b.attention.actual, 0, 24)]
  | 12 => wordOf [(b.total, 0, 24)]
  | _ => 0

def batchWords : List Nat := [2, 3, 4, 5, 6, 7, 8, 9, 10, 11, 12, 13, 14, 15]

/-- Device words of a scale's unit record (12.6). -/
def ScaleCtl.word (c : ScaleCtl) : Nat → Word
  | 2 => wordOf [(c.state.code, 0, 8), (c.state.command, 8, 8), (c.bin, 16, 8)]
  | 3 => wordOf [(slot8 c.batch, 0, 8)]
  | _ => 0

/-- Device words of the mixer's unit record (12.6). -/
def MixerCtl.word (c : MixerCtl) : Nat → Word
  | 2 => wordOf [(c.state.code, 0, 8), (c.state.command, 8, 8), (c.route, 16, 8)]
  | 3 => wordOf [(slot8 c.batch, 0, 8)]
  | _ => 0

/-- Device words of a line's unit record; current is 0 on grinders (12.6). -/
def LineCtl.word (c : LineCtl) (current : Nat) : Nat → Word
  | 2 => wordOf [(c.state.code, 0, 8), (c.state.command, 8, 8), (c.cause.code, 16, 8)]
  | 3 => wordOf [(c.rate, 0, 16), (c.ceiling, 16, 16)]
  | 4 => wordOf [(current, 0, 16)]
  | _ => 0

/-- Device words of the bagger's unit record (12.6); RUN in BAGGING alone (R169). -/
def Bagger.word (b : Bagger) : Nat → Word
  | 2 => wordOf [(b.state.code, 0, 8), (bit (b.state = .bagging), 8, 8), (b.verdict.code, 16, 8), (b.seq.toNat, 24, 8)]
  | 3 => wordOf [(slot16 b.order, 0, 16), (b.bagMass, 16, 16)]
  | _ => 0

/-- Device words of the loadout's unit record (12.6). -/
def Loadout.word (l : Loadout) : Nat → Word
  | 2 => wordOf [(l.state.code, 0, 8), (bit l.spout, 8, 8), (l.truck, 16, 8), (l.comp, 24, 8)]
  | 3 => wordOf [(l.target, 0, 24)]
  | _ => 0

/-- Device words of a truck record (12.8). -/
def Trip.word (t : Trip) (w : Nat) : Word :=
  if w = 3 then wordOf [(t.state.code, 0, 8), (bit t.limitMark, 8, 1)]
  else if 10 ≤ w then wordOf [(t.loaded.toList.getD (w - 10) 0, 0, 24)]
  else 0

def tripWords : List Nat := [3, 10, 11, 12, 13, 14, 15]

/-! ### Bins by kind (R45, R56) -/

/-- The kind of a surge's bin (R56). -/
def Surge.kind : Surge → BinKind
  | .pellet => .surgePellet
  | .bag => .surgeBag
  | .bulk => .surgeBulk

/-- The surge a kind is, if any. -/
def BinKind.surge : BinKind → Option Surge
  | .surgePellet => some .pellet
  | .surgeBag => some .bag
  | .surgeBulk => some .bulk
  | .unused | .raw | .ground | .premix | .rework => none

/-- The one bin of a kind (R36). -/
def Stock.binOf (s : Stock) (k : BinKind) : Option (Fin 48) := findAt s.bins (fun b => b.plan.kind = k)

/-- The bin of a surge, if the plan has one. -/
def Mill.surgeBin (m : Mill) (s : Surge) : Option (Fin 48) := m.stock.binOf s.kind

/-- The REWORK bin. -/
def Mill.reworkBin (m : Mill) : Option (Fin 48) := m.stock.binOf .rework

/-- The lots of a surge, head first (R56); none where the plan has no such bin. -/
def Mill.lotsOf (m : Mill) (s : Surge) : List Lot :=
  match m.surgeBin s with
  | none => []
  | some b => (getAt m.stock.bins b).lots

/-- The head lot of a surge. -/
def Mill.headLot (m : Mill) (s : Surge) : Option Lot := (m.lotsOf s).head?

end Sys2Proof.Machine
end

