-- ==== Sys2Proof/Machine/Flags.lean ====
section
/-! DEFINITION. The Status Unit (11_flags_and_the_alert_line.md): flags, conditions, clearing, ALERT_N, summary figures. -/

namespace Sys2Proof.Machine

/-- The bit of a flag. -/
def Flag.mask (f : Flag) : Word := BitVec.ofNat 32 (2 ^ f.bitNo)

/-- The nine condition flags (section 11.1). -/
def conditionFlags : List Flag :=
  [.attention, .short, .forbid, .deficit, .low, .lineTrip, .topExceeded, .mixHeld, .headWait]

/-- The eight event flags (section 11.1). -/
def eventFlags : List Flag :=
  [.writeRefused, .actionFull, .weighLimit, .unexpectedFlow, .stockDisagree, .truckLimit, .diverted, .makeUp]

/-- The OR of flag bits. -/
def flagsOf (fs : List Flag) : Word := fs.foldl (fun w f => w ||| f.mask) 0

/-- The bits of all seventeen flags. -/
def allFlags : Word := 0x1FFFF

/-- The three line controllers. -/
def Lines.all (l : Lines) : List LineCtl := [l.grinderA.line, l.grinderB.line, l.pellet.line]

/-- The truth of a condition as its owner holds it (R197 and the rules of section 11.1's table); the Pack-out Controller
knows of a surge's head what its latest judgement left there (R167, R170, R177). -/
def Mill.holds (m : Mill) (f : Flag) : Bool :=
  match f with
  | .attention => m.seq.batches.toList.any (fun b => b.attention.cause ≠ .none)
  | .mixHeld => m.seq.batches.toList.any (fun b => b.attention.cause = .held)
  | .short => m.book.orders.toList.any (fun o => o.wait = .short)
  | .forbid => m.book.orders.toList.any (fun o => o.wait = .forbid)
  | .deficit => m.stock.bins.toList.any (fun b => b.deficit)
  | .low => m.stock.bins.toList.any (fun b => b.lowC)
  | .lineTrip => m.lines.all.any (fun l => l.state = .tripped)
  | .topExceeded => m.lines.all.any (fun l => l.top)
  | .headWait =>
    (m.pack.bagger.state = .waitLot && m.pack.bagger.seesHead)
      || (m.pack.loadout.state = .waitLot && m.pack.loadout.seesHead)
  | .writeRefused | .actionFull | .weighLimit | .unexpectedFlow | .stockDisagree | .truckLimit | .diverted | .makeUp =>
    false

/-- The condition word the owners' latest reports give (R197). -/
def Mill.condition (m : Mill) : Word := flagsOf (conditionFlags.filter m.holds)

/-- An active order (R200). -/
def OrderState.active : OrderState → Bool
  | .released | .producing | .finishing | .cancelling => true
  | .idle | .packed | .closed | .cancelled => false

/-- A final batch state (00_scope.md, Terms; R104). -/
def BatchState.final : BatchState → Bool
  | .free | .done | .removed | .void => true
  | .queued | .weighing | .weighed | .filling | .mixing | .mixed | .discharging => false

/-- The figures of R200. -/
def Mill.activeOrders (m : Mill) : Nat := (m.book.orders.toList.filter (fun o => o.state.active)).length
def Sequencer.nonFinal (q : Sequencer) : Nat := (q.batches.toList.filter (fun b => !b.state.final)).length

/-- ALERT_N judged (R199): active while the flag value and the enable copy share one of the seventeen bits. -/
def Status.judgeAlert (u : Status) : Status := { u with alert := u.flags &&& u.enable &&& allFlags ≠ 0 }

/-- The condition bit of a flag; none for an event flag, whose bit is always 0 (R197). -/
def Flag.conditionMask (f : Flag) : Word := f.mask &&& flagsOf conditionFlags

/-- The conditions' word, with the flag of each that has turned true set (R197). -/
def Status.takeCondition (u : Status) (cond : Word) : Status :=
  { u with flags := u.flags ||| (cond &&& ~~~ u.cond), cond := cond }

/-- One report taken: an event sets its flag (R196), a condition's truth is held in its bit (R197). -/
def Status.take (u : Status) : Report → Status
  | .event f => { u with flags := u.flags ||| f.mask }
  | .condition f true => u.takeCondition (u.cond ||| f.conditionMask)
  | .condition f false => u.takeCondition (u.cond &&& ~~~ f.conditionMask)
  | .figure _ => u

/-- The reports of a step taken in order, then the conditions as they are now (R196, R197, log 12). -/
def Status.report (u : Status) (reports : List Report) (cond : Word) : Status :=
  Status.judgeAlert ((reports.foldl Status.take u).takeCondition cond)

/-- A clear request (R198): each requested event flag, and each requested condition flag whose condition is false. -/
def Status.clear (u : Status) (request : Word) : Status :=
  Status.judgeAlert { u with flags := u.flags &&& ~~~ (request &&& (flagsOf eventFlags ||| (flagsOf conditionFlags &&& ~~~ u.cond))) }

/-- The enable copy takes the enabled lanes of a write (R199). -/
def Status.takeEnable (u : Status) (lanes : Lanes) (d : Word) : Status :=
  Status.judgeAlert { u with enable := (d &&& laneBits lanes) ||| (u.enable &&& ~~~ laneBits lanes) }

/-- The summary figures as the reporting blocks hold them (R200); while the plan is not RUNNING nothing is reported and
they are kept (R201). -/
def Status.summarise (u : Status) (m : Mill) : Status :=
  if m.plan.state = .running then
    { u with depth := m.seq.queue.length, hold := m.seq.hold, active := m.activeOrders, nonFinal := m.seq.nonFinal }
  else u

/-- Device words of the status window (12.10). -/
def Status.word (u : Status) : Nat → Word
  | 0 => u.flags
  | 1 => u.cond
  | 6 => wordOf [(u.depth, 0, 8)]
  | 7 => wordOf [(bit u.hold, 0, 1)]
  | 8 => wordOf [(u.active, 0, 8)]
  | 9 => wordOf [(u.nonFinal, 0, 8)]
  | _ => 0

/-- The words of the status window that the Status Unit posts. -/
def statusWords : List Nat := [0, 1, 6, 7, 8, 9]

/-- A report changes a word of the status window: a condition's report that does not repeat the held truth the condition
word (R197), a summary figure's change its word (R200). -/
def Status.changedBy (u : Status) (r : Report) (w : Nat) : Bool :=
  match r with
  | .event _ => false
  | .condition _ _ => w = 1 && (u.take r).cond ≠ u.cond
  | .figure v => w = v

/-- One of the reports, taken in order, changes a word, be it that a later one changes it back (R197, R200). -/
def Status.changedOnTheWay (u : Status) : List Report → Nat → Bool
  | [], _ => false
  | r :: rs, w => u.changedBy r w || (u.take r).changedOnTheWay rs w

/-- The posts for the words that changed, at the status window last in use (R196, R197, R200, R201); none where there is
no such window. -/
def Status.posts (old new : Status) (reports : List Report) : List LaneEntry :=
  match new.base with
  | none => []
  | some base =>
    (statusWords.filter (fun w => old.word w ≠ new.word w || old.changedOnTheWay reports w)).map
      (fun w => ⟨.statusUnit, addrPlus base w, .write 0xF (new.word w) .none⟩)

/-- A block waits to post (R15). -/
def State.waits (s : State) (b : Block) : Bool := s.waiting.any (fun w => w.block = b)

/-- The Status Unit takes the reports of a step: events, conditions and figures that changed on the way, the conditions that
hold now, summary figures (R196, R197, R200, log 12). While it waits to post the reports wait at it (R15). -/
def State.settleStatus (s : State) : State :=
  if s.waits .statusUnit then s
  else
    let u := (s.status.report s.mill.reports s.mill.condition).summarise s.mill
    { s with
      status := u
      mill := { s.mill with reports := [], outbox := s.mill.outbox ++ Status.posts s.status u s.mill.reports } }

end Sys2Proof.Machine
end

