-- ==== Sys2Proof/Machine/Stock.lean ====
section
/-! DEFINITION. The Stock Unit (03_bins_stock_and_lots.md): the book, reservations, draws, refill, rework, preact, lots,
diverts and marks. -/

namespace Sys2Proof.Machine

/-- An admission pass asked for (R108): it begins at once if none runs, otherwise the pass-again marker is set. -/
def Sequencer.ask (q : Sequencer) : Sequencer :=
  match q.pass with
  | .idle => { q with pass := .visiting 0 }
  | .visiting _ | .sized _ _ => { q with again := true }

def Mill.askPass (m : Mill) : Mill :=
  if m.plan.state = .running then { m with seq := m.seq.ask } else m

/-- The bin of an index, 0 to 47. -/
def toBin (n : Nat) : Option (Fin 48) := if h : n < 48 then some ⟨n, h⟩ else none

/-! ### One bin's book -/

/-- The three ingredient kinds (R45). -/
def BinKind.ingredient : BinKind → Bool
  | .raw | .ground | .premix => true
  | .unused | .surgePellet | .surgeBag | .surgeBulk | .rework => false

/-- Available mass (R47). -/
def Bin.available (b : Bin) : Nat := if b.lockedOut then 0 else b.level - b.reserved

/-- Room: capacity less level. -/
def Bin.room (b : Bin) : Nat := b.plan.capacity - b.level

/-- LOW and DEFICIT re-evaluated (R48). -/
def Bin.judge (b : Bin) : Bin :=
  { b with
    lowC := (b.plan.kind.ingredient || b.plan.kind == .rework) && decide (b.level < b.plan.low)
    deficit := b.plan.kind.ingredient && decide (b.level < b.reserved) }

/-- A level raised, capped at the capacity (R47). -/
def Bin.rise (b : Bin) (mass : Nat) : Bin := { b with level := min (b.level + mass) b.plan.capacity }

/-- A level lowered, floored at zero (R47). -/
def Bin.fall (b : Bin) (mass : Nat) : Bin := { b with level := b.level - mass }

/-- What a fall of a surge's level, or a lot leaving its list, is told for: the mixer's discharge claim and the pellet line's
room (R141, R163). -/
def roomNotices (s : Surge) : List Notice := [.surgeRoom s, .destRoom s]

/-- The notices of a bin's change (R47, R60, R141, R159): the new level of a RAW or GROUND bin, a changed available
mass, each with the figures as they then are, a changed REWORK level, a fall of a surge level. -/
def binNotices (i : Fin 48) (old new : Bin) : List Notice :=
  (if old.plan.kind = .raw || old.plan.kind = .ground then
    (if old.level ≠ new.level then [.binLevel i old.level new.level new.available]
    else if old.available ≠ new.available then [.binAvailable i new.level new.available] else [])
  else [])
  ++ (if old.plan.kind = .rework then
    (if old.level < new.level then [.reworkLevel] else if new.level < old.level then [.reworkFell] else [])
  else [])
  ++ (match old.plan.kind.surge with
    | some s => if new.level < old.level then roomNotices s else []
    | none => [])

/-- The book words that follow a bin's figures; lot count and entries are posted by the lot operations (R205). -/
def Bin.figureWords (b : Bin) : List Nat := if b.plan.kind.isSurge then [4, 6, 7] else [4, 6, 7, 8, 9]

/-- The reports of a change of a bin that has led to n: each of its two conditions, after a change of it (R48, R197). -/
def binReports (n : Mill) (old new : Bin) : List Report :=
  (if old.lowC = new.lowC then [] else [.condition .low (n.holds .low)])
    ++ (if old.deficit = new.deficit then [] else [.condition .deficit (n.holds .deficit)])

/-- A change of one bin's book: conditions re-evaluated and reported (R48), changed words posted (R46), notices given
(R47). -/
def Mill.updBin (m : Mill) (i : Fin 48) (f : Bin → Bin) : Mill :=
  let old := getAt m.stock.bins i
  let new := (f old).judge
  let n := { m with stock := { m.stock with bins := putAt m.stock.bins i new } }
  let m1 := { n with
    notices := m.notices ++ binNotices i old new
    reports := m.reports ++ binReports n old new }
  m1.postChanged .stockUnit .bin i.val old.figureWords old.word new.word

/-- Mass added to a bin, capped with STOCK_DISAGREE (R47). -/
def Mill.addMass (m : Mill) (i : Fin 48) (mass : Nat) : Mill :=
  let b := getAt m.stock.bins i
  (m.updBin i (·.rise mass)).raiseIf (decide (b.plan.capacity < b.level + mass)) .stockDisagree

/-- Mass taken from a bin, floored with STOCK_DISAGREE (R47). -/
def Mill.takeMass (m : Mill) (i : Fin 48) (mass : Nat) : Mill :=
  let b := getAt m.stock.bins i
  (m.updBin i (·.fall mass)).raiseIf (decide (b.level < mass)) .stockDisagree

/-! ### Reservations (R49, R50, R52) -/

/-- A line of a reserve claim: chain line index, bin, mass. -/
structure ReserveLine where
  line : Nat
  bin : Fin 48
  mass : Nat
  deriving DecidableEq, Repr

/-- The mass of the lines of a claim on a bin. -/
def massOn (ls : List ReserveLine) (b : Fin 48) : Nat := ((ls.filter (fun l => l.bin = b)).map (·.mass)).sum

/-- The bin of the first line not covered by its bin's available mass less the claim's earlier lines on it (R49). -/
def firstShort (s : Stock) (before : List ReserveLine) : List ReserveLine → Option (Fin 48)
  | [] => none
  | l :: ls =>
    if l.mass = 0 || massOn before l.bin + l.mass ≤ (getAt s.bins l.bin).available then firstShort s (before ++ [l]) ls
    else some l.bin

/-- One entry made, its bin's reserved mass raised (R49). -/
def Mill.makeEntry (m : Mill) (batch : Fin 32) (l : ReserveLine) : Mill :=
  let m1 := { m with stock := { m.stock with table := m.stock.table ++ [Reservation.mk batch l.line l.bin l.mass] } }
  m1.updBin l.bin (fun b => { b with reserved := b.reserved + l.mass })

/-- Entries made for every line: a covered claim (R49), and the forced reserve (R50). -/
def Mill.makeEntries (m : Mill) (batch : Fin 32) (ls : List ReserveLine) : Mill :=
  ls.foldl (fun m l => m.makeEntry batch l) m

/-- The reserve claim, all or nothing: the bin of the first uncovered line, or the book with the entries (R49). -/
def Mill.reserve (m : Mill) (batch : Fin 32) (ls : List ReserveLine) : Mill ⊕ Fin 48 :=
  match firstShort m.stock [] ls with
  | some b => .inr b
  | none => .inl (m.makeEntries batch ls)

/-- The single-line reserve of TOP_UP (R50): none when it is short. -/
def Mill.reserveLine (m : Mill) (batch : Fin 32) (l : ReserveLine) : Option Mill :=
  if l.mass ≤ (getAt m.stock.bins l.bin).available then some (m.makeEntry batch l) else none

/-- An entry of the reservation table. -/
def Stock.entry (s : Stock) (batch : Fin 32) (line : Nat) : Option Reservation :=
  s.table.find? (fun e => e.batch = batch && e.line = line)

/-- The unbooked reservation of a line, 0 without an entry. -/
def Stock.unbooked (s : Stock) (batch : Fin 32) (line : Nat) : Nat := ((s.entry batch line).map (·.unbooked)).getD 0

/-- The release of an entry; an entry no longer in the table has no effect (R52). -/
def Mill.releaseEntry (m : Mill) (batch : Fin 32) (line : Nat) : Mill :=
  match m.stock.entry batch line with
  | none => m
  | some e =>
    let m1 := { m with
      stock := { m.stock with table := m.stock.table.filter (fun x => !(x.batch = batch && x.line = line)) } }
    m1.updBin e.bin (fun b => { b with reserved := b.reserved - e.unbooked })

/-- The release of every entry of a batch (R52). -/
def Mill.releaseBatch (m : Mill) (batch : Fin 32) : Mill :=
  ((m.stock.table.filter (fun e => e.batch = batch)).map (·.line)).foldl (fun m l => m.releaseEntry batch l) m

/-! ### Draws, refill, rework, preact (R51, R53, R54, R55) -/

/-- A settled increment booked on a line's entry (R51). -/
def Mill.bookDraw (m : Mill) (batch : Fin 32) (line : Nat) (bin : Fin 48) (increment : Int) : Mill :=
  if increment ≤ 0 then m.raiseIf (decide (increment < 0)) .stockDisagree
  else
    let mass := increment.toNat
    let cut := min mass (m.stock.unbooked batch line)
    let m1 := { m with
      stock := { m.stock with
        table := m.stock.table.map (fun (e : Reservation) =>
          if e.batch = batch && e.line = line then { e with unbooked := e.unbooked - cut } else e) } }
    let b := getAt m.stock.bins bin
    (m1.updBin bin (fun b => { b.fall mass with reserved := b.reserved - cut })).raiseIf (decide (b.level < mass))
      .stockDisagree

/-- A grinder's totalizer delta booked on its two bins (R53); bins of the wrong kinds take nothing (R45), and neither do
numbers that name no bin (log 58). -/
def Mill.refill (m : Mill) (raw ground mass : Nat) : Mill :=
  match toBin raw, toBin ground with
  | some r, some g =>
    if (getAt m.stock.bins r).plan.kind = .raw && (getAt m.stock.bins g).plan.kind = .ground then
      let before := (getAt m.stock.bins g).level
      let m1 := m.addMass g mass
      let m2 := if before < (getAt m1.stock.bins g).level then m1.askPass else m1
      m2.takeMass r mass
    else m.raise .stockDisagree
  | _, _ => m.raise .stockDisagree

/-- Mass put directly into the REWORK bin (R54). -/
def Mill.addRework (m : Mill) (mass : Nat) : Mill :=
  match m.reworkBin with
  | none => m
  | some b => m.addMass b mass

/-- Room in the REWORK bin. -/
def Mill.reworkRoom (m : Mill) : Nat :=
  match m.reworkBin with
  | none => 0
  | some b => (getAt m.stock.bins b).room

/-- A signed preact adjustment, clamped to 0 to the preact maximum (R55); an unchanged preact is not posted (log 56). -/
def Mill.adjustPreact (m : Mill) (bin : Fin 48) (amount : Int) : Mill :=
  m.updBin bin (fun b => { b with preact := min (Int.toNat ((b.preact : Int) + amount)) b.plan.preactMax })

/-! ### Lots (R56 to R62) -/

/-- The lot count and the entries at the given places posted (R205). -/
def Mill.postLots (m : Mill) (i : Fin 48) (places : List Nat) : Mill :=
  let b := getAt m.stock.bins i
  m.postAll .stockUnit .bin i.val (5 :: places.map (8 + ·)) b.word

/-- All eight places of a lot list. -/
def allPlaces : List Nat := List.range Config.lotDepth

/-- What a changed list is told to its consumer for (R56): a new head, or a head with another owner or mark. A list that has
become empty counts as a new head for the consumer (log 45). -/
def headNotices (s : Surge) (old new : List Lot) (left : Bool) : List Notice :=
  match old.head?, new.head? with
  | none, none => []
  | none, some _ => [.headChanged s]
  | some _, none => [.headChanged s]
  | some a, some b =>
    if left then [.headChanged s]
    else if a.owner ≠ b.owner || a.mark ≠ b.mark then [.headMarked s] else []

/-- Owner and mark of product from the state of its order at that moment (R57). -/
def Mill.ownerOf (m : Mill) (order : Option (Fin 256)) : Option (Fin 256) × Mark :=
  match order with
  | none => (none, .none)
  | some o =>
    match (getAt m.book.orders o).state with
    | .released | .producing | .finishing => (some o, .none)
    | .cancelling => (some o, .cancelled)
    | .packed => (some o, .overrun)
    | .idle | .closed | .cancelled => (none, .none)

/-- What an append did to the list: joined the tail, formed a new tail, or overflowed, with the first place changed. -/
inductive AppendForm where
  | joined
  | fresh
  | overflow
  | overflowMerged
  deriving DecidableEq, Repr

/-- Product appended to a lot list (R57). In an overflow the tail becomes orphan, and joins an orphan lot before it,
which keeps its mark (log 19). -/
def appendTo (lots : List Lot) (owner : Option (Fin 256)) (mark : Mark) (mass : Nat) : List Lot × AppendForm :=
  match lots.getLast? with
  | none => ([⟨owner, mark, mass⟩], .fresh)
  | some tail =>
    if tail.owner = owner then
      (lots.dropLast ++ [⟨owner, if mark = .none then tail.mark else mark, tail.mass + mass⟩], .joined)
    else if lots.length < Config.lotDepth then (lots ++ [⟨owner, mark, mass⟩], .fresh)
    else
      let front := lots.dropLast
      match front.getLast? with
      | some prev =>
        if prev.owner = none then
          (front.dropLast ++ [⟨none, prev.mark, prev.mass + (tail.mass + mass)⟩], .overflowMerged)
        else (front ++ [⟨none, .none, tail.mass + mass⟩], .overflow)
      | none => ([⟨none, .none, tail.mass + mass⟩], .overflow)

/-- The places an append posts (R205), for the list's length before it. -/
def AppendForm.places (f : AppendForm) (n : Nat) : List Nat :=
  match f with
  | .joined => [n - 1]
  | .fresh => [n]
  | .overflow => [n - 1]
  | .overflowMerged => allPlaces.filter (fun k => n - 2 ≤ k)

/-- Whether a product append for the order would need a lot entry that is not free (R141, R161). -/
def Mill.needsEntry (m : Mill) (s : Surge) (order : Option (Fin 256)) : Bool :=
  let lots := m.lotsOf s
  decide (Config.lotDepth ≤ lots.length) && !(lots.getLast?.map (·.owner) == some (m.ownerOf order).1)

/-- Room in a surge bin; 0 without one. -/
def Mill.surgeRoom (m : Mill) (s : Surge) : Nat :=
  match m.surgeBin s with
  | none => 0
  | some b => (getAt m.stock.bins b).room

/-- The notices of lots that left a surge (R56): the Order Book judges their orders, the mixer and the pellet line the room. -/
def leftNotices (s : Surge) (owner : Option (Fin 256)) : List Notice :=
  (owner.toList.map (fun o => Notice.judgeExhausted o)) ++ roomNotices s

/-- A lot that is diverted when it is head and not claimed (R59). -/
def Lot.diverts (l : Lot) : Bool := l.owner.isNone || l.mark ≠ .none

/-- The divert of a head lot into the REWORK bin (R60), whose room has been found; R60 gives no order of its posts (log 50).
The bin leaves the list of waiting diverts; if its next lot must wait too it joins anew, at the tail (DESIGN CHOICE, log
59). -/
def Mill.divert (m : Mill) (s : Surge) (i : Fin 48) (l : Lot) : Mill :=
  let m1 := m.updBin i (fun b =>
    { b.fall l.mass with lots := b.lots.tail, claim := false, divertMass := l.mass, divertSeq := b.divertSeq + 1 })
  let m2 := m1.postLots i allPlaces
  let m3 := m2.addRework l.mass
  let m4 := m3.raise .diverted
  { m4 with
    stock := { m4.stock with waitingDiverts := m4.stock.waitingDiverts.filter (· ≠ s) }
    notices := m4.notices ++ leftNotices s l.owner ++ [.headChanged s] }

/-- The check of R59 on a surge's head lot, at most so many lots of the list: diverted at once, the lot that is then head
checked likewise, or waiting for rework room in its turn (R60). A bin that waits already keeps its place, whichever lot is
its head by now; one whose waiting lot has just been diverted joins anew (DESIGN CHOICE, log 59). -/
def Mill.checkHeads (m : Mill) (s : Surge) : Nat → Mill
  | 0 => m
  | n + 1 =>
    match m.surgeBin s with
    | none => m
    | some i =>
      let b := getAt m.stock.bins i
      let drop := { m with stock := { m.stock with waitingDiverts := m.stock.waitingDiverts.filter (· ≠ s) } }
      match b.lots with
      | [] => drop
      | l :: _ =>
        if !l.diverts then drop
        else if b.claim then m
        else if l.mass ≤ m.reworkRoom then (m.divert s i l).checkHeads s n
        else if m.stock.waitingDiverts.contains s then m
        else { m with stock := { m.stock with waitingDiverts := m.stock.waitingDiverts ++ [s] } }

/-- The check of R59 over a list of at most 8 lots (R56). -/
def Mill.checkHead (m : Mill) (s : Surge) : Mill := m.checkHeads s (Config.lotDepth + 1)

/-- The waiting diverts re-checked from the oldest (R60). -/
def Mill.recheckDiverts (m : Mill) : Mill := m.stock.waitingDiverts.foldl (fun m s => m.checkHead s) m

/-- The mass of a lot append claim booked (R57), capped to the room; the level is posted before the lot words (log 50). -/
def Mill.putLot (m : Mill) (s : Surge) (order : Option (Fin 256)) (mass : Nat) : Mill :=
  match m.surgeBin s with
  | none => m
  | some i =>
    let b := getAt m.stock.bins i
    let took := min mass b.room
    let m := m.raiseIf (decide (b.room < mass)) .stockDisagree
    if took = 0 then m
    else
      let o := m.ownerOf order
      let r := appendTo b.lots o.1 o.2 took
      let m1 := m.raiseIf (r.2 == .overflow || r.2 == .overflowMerged) .stockDisagree
      let m2 := m1.updBin i (fun b => { b.rise took with lots := r.1 })
      let m3 := m2.postLots i (r.2.places b.lots.length)
      { m3 with notices := m3.notices ++ headNotices s b.lots r.1 false ++ [.appended s] }

/-- The lot append claim (R57): R59 is then checked where it has changed the head lot (R59). -/
def Mill.appendLot (m : Mill) (s : Surge) (order : Option (Fin 256)) (mass : Nat) : Mill :=
  let n := m.putLot s order mass
  if (headNotices s (m.lotsOf s) (n.lotsOf s) false).isEmpty then n else n.checkHead s

/-- What a lot draw did: the list left, the mass taken, the owners of the lots that left, and of those it took from. -/
structure Drawn where
  lots : List Lot
  taken : Nat
  left : List (Option (Fin 256))
  owners : List (Option (Fin 256))
  deriving DecidableEq, Repr

/-- Mass taken from the head lot and onward (R61). -/
def drawFrom : List Lot → Nat → Drawn
  | [], _ => ⟨[], 0, [], []⟩
  | l :: t, mass =>
    if mass = 0 then ⟨l :: t, 0, [], []⟩
    else if mass < l.mass then ⟨{ l with mass := l.mass - mass } :: t, mass, [], [l.owner]⟩
    else
      let r := drawFrom t (mass - l.mass)
      ⟨r.lots, l.mass + r.taken, l.owner :: r.left, l.owner :: r.owners⟩

/-- The mass of a lot draw claim booked (R61); a draw claim ends when its lot leaves the list (R58). The level is
posted before the lot words (log 50). -/
def Mill.takeLots (m : Mill) (s : Surge) (mass : Nat) : Mill × List (Option (Fin 256)) :=
  match m.surgeBin s with
  | none => (m.raise .stockDisagree, [])
  | some i =>
    let b := getAt m.stock.bins i
    let r := drawFrom b.lots mass
    let m1 := m.updBin i (fun b => { b.fall r.taken with lots := r.lots, claim := b.claim && r.left.isEmpty })
    let m2 := m1.raiseIf (b.lots.isEmpty || decide (r.taken < mass)) .stockDisagree
    let m3 := if r.taken = 0 then m2 else m2.postLots i (if r.left.isEmpty then [0] else allPlaces)
    ({ m3 with
      notices := m3.notices ++ r.left.flatMap (leftNotices s) ++ headNotices s b.lots r.lots (!r.left.isEmpty) }, r.owners)

/-- The lot draw claim (R61): R59 is then checked on the lot that is head (R59, R60). -/
def Mill.drawLots (m : Mill) (s : Surge) (mass : Nat) : Mill × List (Option (Fin 256)) :=
  let d := m.takeLots s mass
  (d.1.checkHead s, d.2)

/-- The places at which two lists differ. -/
def changedPlaces (old new : List Lot) : List Nat := allPlaces.filter (fun k => old[k]? ≠ new[k]?)

/-- The lots of one surge changed in their marks (R62, R66), posted and reported. -/
def Mill.remark (m : Mill) (s : Surge) (f : List Lot → List Lot) : Mill :=
  match m.surgeBin s with
  | none => m
  | some i =>
    let b := getAt m.stock.bins i
    let new := f b.lots
    if new = b.lots then m
    else
      let m1 := m.updBin i (fun b => { b with lots := new })
      let m2 := m1.postLots i (changedPlaces b.lots new)
      { m2 with notices := m2.notices ++ headNotices s b.lots new false }

/-- A mark put on an order's lots: CANCELLED whatever the mark was, OVERRUN on those with mark NONE (R62). -/
def markLots (o : Fin 256) (mark : Mark) (lots : List Lot) : List Lot :=
  lots.map (fun l => if l.owner = some o && (mark = .cancelled || l.mark = .none) then { l with mark := mark } else l)

/-- A mark put on an order's lots in all three surges at once (R62). -/
def Mill.markSurges (m : Mill) (o : Fin 256) (mark : Mark) : Mill :=
  [Surge.pellet, .bag, .bulk].foldl (fun m s => m.remark s (markLots o mark)) m

/-- R59 checked on the heads of all three surges, in the order pellet, bag, bulk (log 40). -/
def Mill.checkSurges (m : Mill) : Mill := [Surge.pellet, .bag, .bulk].foldl (fun m s => m.checkHead s) m

/-- A marking over all three surges at once, after which R59 is checked on each head lot (R62). -/
def Mill.markOrder (m : Mill) (o : Fin 256) (mark : Mark) : Mill := (m.markSurges o mark).checkSurges

/-- The mark HOST on the head lot, unless it is already marked (R66). -/
def hostMark (lots : List Lot) : List Lot :=
  match lots with
  | [] => []
  | l :: t => (if l.mark = .none then { l with mark := .host } else l) :: t

/-- The divert claim of the bagger's remainder (R66, R174). -/
def Mill.claimDivert (m : Mill) (s : Surge) : Mill := (m.remark s hostMark).checkHead s

/-- The draw claim of a surge taken (R58). -/
def Mill.setClaim (m : Mill) (s : Surge) : Mill :=
  match m.surgeBin s with
  | none => m
  | some i => m.updBin i (fun b => { b with claim := true })

/-- The draw claim of a surge let go, if it is held (R58). -/
def Mill.dropClaim (m : Mill) (s : Surge) : Mill :=
  match m.surgeBin s with
  | none => m
  | some i => if (getAt m.stock.bins i).claim then m.updBin i (fun b => { b with claim := false }) else m

/-- The draw claim of a surge let go; R59 is then checked on its head lot (R58, R59). -/
def Mill.endClaim (m : Mill) (s : Surge) : Mill :=
  match m.surgeBin s with
  | none => m
  | some i => if (getAt m.stock.bins i).claim then (m.dropClaim s).checkHead s else m

/-- Whether a lot owned by the order remains in any surge (R97, R102, R184). -/
def Mill.hasLot (m : Mill) (o : Fin 256) : Bool :=
  [Surge.pellet, .bag, .bulk].any (fun s => (m.lotsOf s).any (fun l => l.owner = some o))

/-- A surge's lots made one orphan lot of the bin's level (R40, R43). The rules give it no mark: it has NONE (DESIGN CHOICE,
log 62). -/
def Bin.orphaned (b : Bin) : Bin :=
  { b with lots := if b.level = 0 then [] else [⟨none, .none, b.level⟩], claim := false }

end Sys2Proof.Machine
end

