-- ==== Sys2Proof/Machine/Accounts.lean ====
section
/-! DEFINITION. The Order Book's records and accounts (05_the_order_book.md): posting, use counts, batch reports,
finishing, exhaustion, cancellation and closing. -/

namespace Sys2Proof.Machine

/-! ### Records -/

/-- The slot of an index, 0 to 255. -/
def toSlot (n : Nat) : Option (Fin 256) := if h : n < 256 then some ⟨n, h⟩ else none

def Mill.order (m : Mill) (o : Fin 256) : Order := getAt m.book.orders o

/-- The reports of a change of an order that has led to n: both conditions on wait reasons, after a change of its wait reason
(R82, R113, R197), and the number of active orders, where it changes (R200). -/
def orderReports (n : Mill) (old new : Order) : List Report :=
  (if old.wait = new.wait then [] else [.condition .short (n.holds .short), .condition .forbid (n.holds .forbid)])
    ++ (if old.state.active = new.state.active then [] else [.figure 8])

/-- A change of an order, its changed device words posted and its reports made (R82). -/
def Mill.updOrder (m : Mill) (o : Fin 256) (f : Order → Order) : Mill :=
  let old := m.order o
  let new := f old
  let n := { m with book := { m.book with orders := putAt m.book.orders o new } }
  { n with reports := m.reports ++ orderReports n old new }.postChanged .orderBook .order o.val orderWords
    old.word new.word

/-- A change of an order's entry in the active order table; nothing of it is in memory (R81). -/
def Mill.updEntry (m : Mill) (o : Fin 256) (f : OrderEntry → OrderEntry) : Mill :=
  { m with book := { m.book with orders := putAt m.book.orders o { m.order o with entry := (m.order o).entry.map f } } }

/-- The entries of the active order table in use (R81). -/
def OrderBook.entries (b : OrderBook) : Nat := (b.orders.toList.filter (fun o => o.entry.isSome)).length

/-- The slots an order's chain has, 0 or more. -/
def Order.slots (o : Order) : List Nat := (o.entry.map (·.slots)).getD []

/-- The non-final batch count of an order. -/
def Order.nonFinal (o : Order) : Nat := (o.entry.map (·.nonFinal)).getD 0

/-- The bag mass of an order's table entry (R169). -/
def Order.bagMass (o : Order) : Nat := (o.entry.map (·.bagMass)).getD 0

def Order.pack (o : Order) : Option Pack := o.entry.bind (·.pack)

/-! ### Ticket use table (R75) -/

/-- The use-count word of a slot posted. -/
def Mill.postUse (m : Mill) (t : Fin 256) : Mill :=
  m.postRecord .orderBook .ticket t.val 6 (wordOf [(getAt m.book.useCount t, 0, 16)])

/-- The use count of every slot of a chain changed. -/
def Mill.useSlots (m : Mill) (f : Nat → Nat) (slots : List Nat) : Mill :=
  slots.foldl (fun m n =>
    match toSlot n with
    | none => m
    | some t =>
      { m with book := { m.book with useCount := putAt m.book.useCount t (f (getAt m.book.useCount t)) } }.postUse t) m

/-- The use counts raised, and lowered, by 1 (R75). -/
def Mill.raiseUse (m : Mill) (slots : List Nat) : Mill := m.useSlots (· + 1) slots
def Mill.lowerUse (m : Mill) (slots : List Nat) : Mill := m.useSlots (· - 1) slots

/-- A ticket slot is in use (R77). -/
def OrderBook.slotInUse (b : OrderBook) (t : Fin 256) : Bool :=
  decide (0 < getAt b.useCount t) || getAt b.planMark t

/-! ### The release list (R91) -/

/-- The pass position after the order at index i has left the list. -/
def Pass.dropped (p : Pass) (i : Nat) : Pass :=
  match p with
  | .idle => .idle
  | .visiting pos => .visiting (if i < pos then pos - 1 else pos)
  | .sized pos b => .sized (if i < pos then pos - 1 else pos) b

/-- An order taken off the release list; the orders behind it keep their order. -/
def Mill.leaveList (m : Mill) (o : Fin 256) : Mill :=
  match m.book.releaseList.findIdx? (· = o) with
  | none => m
  | some i =>
    { m with
      book := { m.book with releaseList := m.book.releaseList.filter (· ≠ o) }
      seq := { m.seq with pass := m.seq.pass.dropped i } }

/-- An order put at the tail of the release list. -/
def Mill.joinList (m : Mill) (o : Fin 256) : Mill :=
  { m with book := { m.book with releaseList := m.book.releaseList ++ [o] } }

/-! ### What other blocks hold of an order -/

/-- The pellet line holds the order as its current order (R165). -/
def Mill.pelletHolds (m : Mill) (o : Fin 256) : Bool := m.lines.pellet.current == some o

/-- The order of a compartment as the Trip Table's copy has it. -/
def Trip.compOrder (t : Trip) (c : Nat) : Option (Fin 256) := t.copy[c]?.map (·.order)

/-- A fill is in progress whose claimed lot or compartment belongs to the order (R184). -/
def Mill.fillHolds (m : Mill) (o : Fin 256) : Bool :=
  match m.pack.loadout.fill with
  | none => false
  | some f => f.owner == some o || (getAt m.trips.trips f.truck).compOrder f.comp == some o

/-- The order's material is exhausted (R97, R100, R184). -/
def Mill.exhausted (m : Mill) (o : Fin 256) : Bool := !m.hasLot o && !m.pelletHolds o && !m.fillHolds o

/-- The trip names the order in its copy (R194). -/
def Trip.names (t : Trip) (o : Fin 256) : Bool := t.copy.any (fun c => c.order = o)

/-- A trip in any state but DEPARTED holds a compartment of the order (R194). -/
def Mill.tripHolds (m : Mill) (o : Fin 256) : Bool :=
  m.trips.trips.toList.any (fun t => t.state ≠ .departed && t.names o)

/-! ### Ends of an order -/

/-- The order gives up its table entry and its chain's use counts fall (R75, R81); its own words are posted before the use
count words (log 41). -/
def Mill.giveUp (m : Mill) (o : Fin 256) (f : Order → Order) : Mill :=
  let slots := (m.order o).slots
  (m.updOrder o (fun x => { f x with entry := none })).lowerUse slots

/-- An order closed (R101). -/
def Mill.closeOrder (m : Mill) (o : Fin 256) : Mill := m.giveUp o ({ · with state := .closed })

/-- The automatic closing of a PACKED BULK order (R101). -/
def Mill.autoClose (m : Mill) (o : Fin 256) : Mill :=
  let x := m.order o
  if x.state = .packed && x.pack = some .bulk && x.nonFinal = 0 && !m.tripHolds o then m.closeOrder o else m

/-- The end of a cancellation (R97). -/
def Mill.judgeCancelled (m : Mill) (o : Fin 256) : Mill :=
  let x := m.order o
  if x.state = .cancelling && x.nonFinal = 0 && m.exhausted o then m.giveUp o ({ · with state := .cancelled }) else m

/-- n rounded up to a multiple of u. -/
def roundUp (n u : Nat) : Nat := if u = 0 then n else (n + u - 1) / u * u

/-- The shortfall of an order (R100). -/
def Order.shortfall (x : Order) (bulkTolerance : Nat) : Nat :=
  match x.entry with
  | none => 0
  | some e =>
    match e.pack with
    | some .bag => (e.bagCount - x.bagsPacked) * e.bagMass
    | some .bulk => if bulkTolerance < x.planned - x.loaded then x.planned - x.loaded else 0
    | none => 0

/-- The make-up credit for a shortfall (R100). -/
def Order.credit (x : Order) (shortfall : Nat) : Nat :=
  match x.entry with
  | none => 0
  | some e => max (roundUp shortfall e.unit) e.floor

/-- The largest value of a 24-bit mass field. -/
def massMax : Nat := 2 ^ 24 - 1

/-- An exhausted FINISHING order: a make-up credit for any shortfall (R100). -/
def Mill.judgeMakeUp (m : Mill) (o : Fin 256) : Mill :=
  let x := m.order o
  let short := x.shortfall m.plan.bulkTolerance
  if x.state = .finishing && m.exhausted o && decide (0 < short) && decide (x.scheduled + x.credit short ≤ massMax) then
    let m1 := m.updOrder o (fun x =>
      { x with
        scheduled := x.scheduled + x.credit short
        remaining := x.remaining + x.credit short
        state := .producing
        wait := .none })
    ((m1.joinList o).raise .makeUp).askPass
  else m

/-- An order's material judged: a cancellation ended, or a shortfall made up (R97, R100, R184). -/
def Mill.judgeMaterial (m : Mill) (o : Fin 256) : Mill := (m.judgeCancelled o).judgeMakeUp o

/-- The test of R92 after each movement of the accounts. -/
def Mill.judgeFinishing (m : Mill) (o : Fin 256) : Mill :=
  let x := m.order o
  if (x.state = .released || x.state = .producing) && x.remaining = 0 && x.inFlight = 0 then
    let m1 := (m.leaveList o).updOrder o ({ · with state := .finishing, wait := .none })
    (m1.tell (.orderFinishing o)).judgeMakeUp o
  else m

/-! ### Reports about batches (R89, R90) -/

/-- The creation report: none when it is refused (R89). -/
def Mill.created (m : Mill) (o : Fin 256) (target : Nat) : Option Mill :=
  let x := m.order o
  if (x.state = .released || x.state = .producing) && x.wait ≠ .held then
    let m1 := m.updOrder o (fun x =>
      { x with
        remaining := x.remaining - target
        inFlight := x.inFlight + target
        state := .producing
        wait := .none })
    some ((m1.updEntry o (fun e => { e with nonFinal := e.nonFinal + 1 })).raiseUse x.slots)
  else none

/-- A batch completed GOOD (R90, R92). -/
def Mill.completed (m : Mill) (o : Fin 256) (target : Nat) : Mill :=
  (m.updOrder o (fun x =>
    { x with
      inFlight := x.inFlight - target
      completed := x.completed + target
      batchesDone := x.batchesDone + 1 })).judgeFinishing o

/-- A target moved from in-flight to remaining: a REWORK report or a removal report (R90). -/
def Mill.moveBack (m : Mill) (o : Fin 256) (target : Nat) : Mill :=
  m.updOrder o (fun x => { x with inFlight := x.inFlight - target, remaining := x.remaining + target })

/-- The REWORK or removal report, which asks for a pass for an order on the release list and not held (R90, R108). -/
def Mill.returnMass (m : Mill) (o : Fin 256) (target : Nat) : Mill :=
  let m1 := (m.moveBack o target).judgeFinishing o
  if m1.book.releaseList.contains o && (m1.order o).wait ≠ .held then m1.askPass else m1

/-- The final report of a batch with its chain (R75, R90, R97, R101). -/
def Mill.reportFinal (m : Mill) (order : Option (Fin 256)) (chain : Chain) : Mill :=
  let m1 := m.lowerUse chain.slots
  match order with
  | none => m1
  | some o => ((m1.updEntry o (fun e => { e with nonFinal := e.nonFinal - 1 })).judgeCancelled o).autoClose o

/-! ### Sizes and line masses (R87, R88) -/

/-- The size of an order's next batch; none when the remaining mass is 0 (R87). -/
def nextSize (remaining batchSize floor batchMin : Nat) : Option Nat :=
  if remaining = 0 then none
  else if remaining ≤ batchSize then some remaining
  else if batchMin ≤ remaining - batchSize then some batchSize
  else some (remaining - floor)

/-- A line's mass before the truncation remainder (R88). -/
def lineShare (size parts : Nat) : Nat := size * parts / 10000

/-- The index of the first line with the largest parts. -/
def largestLine (parts : List Nat) : Nat := parts.findIdx (fun p => parts.all (fun q => q ≤ p))

/-- The mass of each line, the remainder added to the first line with the largest parts (R88). -/
def lineMasses (chain : Chain) (size : Nat) : List Nat :=
  let parts := chain.lines.map (·.parts)
  let shares := parts.map (lineShare size)
  let k := largestLine parts
  shares.modify k (· + (size - shares.sum))

/-! ### Wait reasons (R113) -/

/-- A wait reason set by a pass, and with SHORT its short bin; each setting is posted and reported, also one that repeats
what the order holds (R113). None reaches a held order or one that has left the release list (log 14). -/
def Mill.setWait (m : Mill) (o : Fin 256) (r : WaitReason) (shortBin : Option (Fin 48)) : Mill :=
  if m.book.releaseList.contains o && (m.order o).wait ≠ .held then
    let old := m.order o
    let new := { old with wait := r, shortBin := (shortBin.map (·.val)).getD old.shortBin }
    let n : Mill := { m with book := { m.book with orders := putAt m.book.orders o new } }
    let told : Mill :=
      { n with reports := m.reports ++ [.condition .short (n.holds .short), .condition .forbid (n.holds .forbid)] }
    told.postRecord .orderBook .order o.val 7 (new.word 7)
  else m

end Sys2Proof.Machine
end

