-- ==== Sys2Proof/Machine/Sequencer.lean ====
section
/-! DEFINITION. The Batch Sequencer (06_batch_admission_and_carryover.md): batch records, sequence, carryover rules,
admission passes, removal. -/

namespace Sys2Proof.Machine

/-! ### Batch records (R103, R104) -/

def Mill.batch (m : Mill) (b : Fin 32) : Batch := getAt m.seq.batches b

/-- The reports of a change of a batch that has led to n: both conditions on attention, after a change of its cause (R128,
R139, R197), and the number of non-final batches, where it changes (R104, R200). -/
def batchReports (n : Mill) (old new : Batch) : List Report :=
  (if old.attention.cause = new.attention.cause then []
    else [.condition .attention (n.holds .attention), .condition .mixHeld (n.holds .mixHeld)])
    ++ (if old.state.final = new.state.final then [] else [.figure 9])

/-- A change of a batch record, its changed device words posted by the record's owner (R104) and its reports made. A word
that a rule posts (R123, R126, R127, R132, R136) and the change leaves as it was is not posted again (DESIGN CHOICE, log
56). -/
def Mill.updBatch (m : Mill) (p : Block) (b : Fin 32) (f : Batch → Batch) : Mill :=
  let old := m.batch b
  let new := f old
  let n := { m with seq := { m.seq with batches := putAt m.seq.batches b new } }
  { n with reports := m.reports ++ batchReports n old new }.postChanged p .batch b.val batchWords old.word
    new.word

/-- A batch record written at admission, every device word posted (R103), and the number of non-final batches reported
(R104). -/
def Mill.newBatch (m : Mill) (b : Fin 32) (x : Batch) : Mill :=
  ({ m with seq := { m.seq with batches := putAt m.seq.batches b x } }.restate 9).postAll .batchSequencer .batch b.val
    batchWords x.word

/-- The mixer queue changed, its depth reported (R105, R200). -/
def Mill.setQueue (m : Mill) (q : List (Fin 32)) : Mill := { m with seq := { m.seq with queue := q } }.restate 6

/-- The lowest-numbered slot whose state is final (R103). -/
def Mill.allocate (m : Mill) : Option (Fin 32) := findAt m.seq.batches (fun b => b.state.final)

/-- The index of the bin of a kind, as a route; 0xFF without one. -/
def Mill.routeTo (m : Mill) (k : BinKind) : Nat := ((m.stock.binOf k).map (·.val)).getD 0xFF

/-- The surge an order's batches go to (R140). -/
def routeKind (process : Option Process) (pack : Option Pack) : BinKind :=
  match process, pack with
  | some .pellet, _ => .surgePellet
  | _, some .bulk => .surgeBulk
  | _, _ => .surgeBag

/-- The record of an order's batch (R103). -/
def Mill.orderBatch (m : Mill) (s : Sized) : Batch :=
  let x := m.order s.order
  let chain := (x.entry.bind (·.chain)).getD .reset
  { Batch.reset with
    state := .queued
    order := some s.order
    ticket := chain.head
    target := s.size
    route := m.routeTo (routeKind (x.entry.bind (·.process)) x.pack)
    mask := x.classMask
    chain := chain
    masses := s.masses
    actuals := s.masses.map (fun _ => 0) }

/-- The record of a flush batch, with the empty class mask (R103). -/
def Mill.flushBatch (m : Mill) (chain : Chain) (mass : Nat) : Batch :=
  { Batch.reset with
    state := .queued
    ticket := chain.head
    target := mass
    disposition := .rework
    route := m.routeTo .rework
    chain := chain
    masses := lineMasses chain mass
    actuals := chain.lines.map (fun _ => 0) }

/-- The lines of a batch's reserve claim, in chain line order (R49). -/
def reserveLines (chain : Chain) (masses : List Nat) : List ReserveLine :=
  (chain.lines.zip masses).mapIdx (fun i p => ⟨i, p.1.bin, p.2⟩)

/-! ### The sequence (R106) -/

/-- What the sequence knows of a batch. -/
def Batch.member (b : Batch) : Reference := ⟨b.mask, b.order.isNone⟩

/-- The tail of the sequence. -/
def Mill.tail (m : Mill) : Option Reference :=
  match m.seq.queue.getLast? with
  | some b => some (m.batch b).member
  | none => m.seq.reference

/-- The class mask a member shows to the batch behind it (R106). -/
def maskAhead (initial : BitVec 16) (r : Option Reference) : BitVec 16 :=
  match r with
  | none => initial
  | some r => if r.isFlush then initial else r.mask

/-- The tail mask (R106). -/
def Mill.tailMask (m : Mill) : BitVec 16 := maskAhead m.plan.initialMask m.tail

/-! ### Carryover rules (R107) -/

/-- Rule n matches a pair of class masks. -/
def PlanCtl.ruleMatches (p : PlanCtl) (prev next : BitVec 16) (n : Nat) : Bool :=
  p.ruleFrom n &&& prev ≠ 0 && p.ruleTo n &&& next ≠ 0

/-- The treatment codes (12.11). -/
def flushCode : Nat := 1
def forbidCode : Nat := 2

/-- The verdict on a candidate. -/
inductive CarryVerdict where
  | forbid
  | flush (rule : Nat)
  | clear
  deriving DecidableEq, Repr

/-- The rules that match a pair and have a treatment, in rule order. -/
def PlanCtl.matching (p : PlanCtl) (prev next : BitVec 16) (treatment : Nat) : List Nat :=
  (List.range 32).filter (fun n => p.ruleMatches prev next n && p.ruleTreatment n = treatment)

/-- A FORBID match forbids; else the lowest-numbered matching FLUSH rule of the largest mass; else clear (R107). -/
def PlanCtl.judgePair (p : PlanCtl) (prev next : BitVec 16) : CarryVerdict :=
  if (p.matching prev next forbidCode).isEmpty then
    let fs := p.matching prev next flushCode
    match fs.find? (fun n => fs.all (fun k => p.ruleMass k ≤ p.ruleMass n)) with
    | some n => .flush n
    | none => .clear
  else .forbid

/-- The verdict against the tail, a flush ahead of the candidate counting for a FLUSH verdict (R107). -/
def Mill.judgeCandidate (m : Mill) (mask : BitVec 16) : CarryVerdict :=
  match m.plan.judgePair m.tailMask mask with
  | .flush n => if (m.tail.map (·.isFlush)).getD false then .clear else .flush n
  | .forbid => .forbid
  | .clear => .clear

/-! ### Admission (R109 to R112) -/

/-- The mixer queue has a free position. -/
def Mill.queueFree (m : Mill) : Bool := decide (m.seq.queue.length < Config.queueDepth)

/-- A batch admitted at the tail; the scales are told of a batch joining an empty queue (R105, R122). -/
def Mill.admitBatch (m : Mill) (b : Fin 32) (x : Batch) : Mill :=
  let wasEmpty := m.seq.queue.isEmpty
  let m1 := (m.newBatch b x)
  let m2 := m1.setQueue (m1.seq.queue ++ [b])
  if wasEmpty then m2.tell .considerTake else m2

/-- The pass ends; a further one begins when one was asked for (R108). -/
def Mill.endPass (m : Mill) : Mill :=
  { m with seq := { m.seq with pass := if m.seq.again then .visiting 0 else .idle, again := false } }

/-- The pass goes on to the order behind the one at pos, which may have left the list itself (R109). -/
def Mill.nextOrder (m : Mill) (pos : Nat) (o : Fin 256) : Mill :=
  { m with seq := { m.seq with pass := .visiting (if m.book.releaseList[pos]? = some o then pos + 1 else pos) } }

/-- The pass stays with the order at pos (R109). -/
def Mill.stayAt (m : Mill) (pos : Nat) : Mill := { m with seq := { m.seq with pass := .visiting pos } }

/-- The order's batch reserved, reported created and admitted (R112). The pass stays with the order, and a queue that this
batch has filled ends it at its next step (log 42). -/
def Mill.admitOrder (m : Mill) (pos : Nat) (s : Sized) : Mill :=
  match m.allocate with
  | none => m.endPass
  | some b =>
    let x := m.orderBatch s
    match m.reserve b (reserveLines x.chain s.masses) with
    | .inr short => (m.setWait s.order .short (some short)).nextOrder pos s.order
    | .inl m1 =>
      match m1.created s.order s.size with
      | none => (m1.releaseBatch b).nextOrder pos s.order
      | some m2 => (m2.admitBatch b x).stayAt pos

/-- A flush batch inserted ahead of the order's batch, which is then judged again (R111). -/
def Mill.insertFlush (m : Mill) (pos : Nat) (s : Sized) (rule : Nat) : Mill :=
  match m.allocate with
  | none => m.endPass
  | some b =>
    let chain := (m.plan.flushChains.getD rule none).getD .reset
    let x := m.flushBatch chain (m.plan.ruleMass rule)
    match m.reserve b (reserveLines chain x.masses) with
    | .inr short => (m.setWait s.order .short (some short)).nextOrder pos s.order
    | .inl m1 =>
      let m2 := (m1.admitBatch b x).raiseUse chain.slots
      if !m2.queueFree then m2.endPass
      else match m2.judgeCandidate (m2.order s.order).classMask with
        | .forbid => (m2.setWait s.order .forbid none).nextOrder pos s.order
        | .flush _ | .clear => m2.admitOrder pos s

/-- One step of the running pass: an order visited and its next batch asked for, or a sized batch judged, reserved and
admitted (R109 to R112, log 13). -/
def Mill.passStep (m : Mill) : Mill :=
  match m.seq.pass with
  | .idle => m
  | .visiting pos =>
    if !m.queueFree then m.endPass
    else match m.book.releaseList[pos]? with
      | none => m.endPass
      | some o =>
        let x := m.order o
        if x.wait = .held then m.stayAt (pos + 1)
        else match x.entry with
          | none => m.stayAt (pos + 1)
          | some e =>
            match nextSize x.remaining e.batchSize e.floor m.plan.batchMin with
            | none => m.stayAt (pos + 1)
            | some size =>
              { m with seq := { m.seq with pass := .sized pos ⟨o, size, lineMasses (e.chain.getD .reset) size⟩ } }
  | .sized pos s =>
    if !m.queueFree then m.endPass
    else match m.judgeCandidate (m.order s.order).classMask with
      | .forbid => (m.setWait s.order .forbid none).nextOrder pos s.order
      | .flush n => m.insertFlush pos s n
      | .clear => m.admitOrder pos s

/-- So many steps of the running pass. -/
def Mill.passSteps (m : Mill) : Nat → Mill
  | 0 => m
  | n + 1 => m.passStep.passSteps n

/-! ### Removal (R115, R116) -/

/-- One queued batch removed: reservations released, REMOVED, out of the queue, reported (R115). -/
def Mill.removeOne (m : Mill) (b : Fin 32) : Mill :=
  let x := m.batch b
  let m1 := (m.releaseBatch b).updBatch .batchSequencer b ({ · with state := .removed })
  let m2 := m1.setQueue (m1.seq.queue.filter (· ≠ b))
  let m3 := match x.order with
    | none => m2
    | some o => m2.returnMass o x.target
  m3.reportFinal x.order x.chain

/-- A gap of the sequence with a follower: the member ahead of the run, and the queued batch behind it (R116). -/
structure Gap where
  ahead : Option Reference
  follower : Fin 32
  deriving DecidableEq, Repr

/-- The gaps that removing the batches rs opens in a queue. -/
def gapsOf (member : Fin 32 → Reference) (rs : List (Fin 32)) : Option Reference → Bool → List (Fin 32) → List Gap
  | _, _, [] => []
  | ahead, inRun, b :: t =>
    if rs.contains b then gapsOf member rs ahead true t
    else (if inRun then [⟨ahead, b⟩] else []) ++ gapsOf member rs (some (member b)) false t

/-- The re-check of a gap asks for a substitution (R116): a match of any rule, FLUSH or FORBID. -/
def Mill.gapMatches (m : Mill) (g : Gap) : Bool :=
  if (g.ahead.map (·.isFlush)).getD false then false
  else m.plan.judgePair (maskAhead m.plan.initialMask g.ahead) (m.batch g.follower).mask ≠ .clear

/-- A default flush batch placed before the follower of a gap, reserved by force if need be (R50, R116). -/
def Mill.substitute (m : Mill) (follower : Fin 32) : Mill :=
  match m.allocate with
  | none => m
  | some b =>
    let chain := m.plan.defaultFlush.getD .reset
    let x := m.flushBatch chain m.plan.flushMass
    let ls := reserveLines chain x.masses
    let m1 := match m.reserve b ls with
      | .inl m' => m'
      | .inr _ => m.makeEntries b ls
    let m2 := (m1.newBatch b x).raiseUse chain.slots
    m2.setQueue (m2.seq.queue.flatMap (fun q => if q = follower then [b, follower] else [q]))

/-- The gaps re-checked (R116), the one nearest the queue's head first, which the manual leaves open (log 53). -/
def Mill.recheckGaps (m : Mill) (gs : List Gap) : Mill :=
  gs.foldl (fun m g => if m.gapMatches g then m.substitute g.follower else m) m

/-- A removal step: the batches removed, each gap re-checked, and a pass asked for if a position stays free (R115). -/
def Mill.removeBatches (m : Mill) (rs : List (Fin 32)) : Mill :=
  if rs.isEmpty then m
  else
    let before := m.seq.queue.length
    let gs := gapsOf (fun b => (m.batch b).member) rs m.seq.reference false m.seq.queue
    let m1 := (rs.foldl (fun m b => m.removeOne b) m).recheckGaps gs
    if m1.seq.queue.length < before then m1.askPass else m1

/-- Every QUEUED batch of an order, in queue order, in which they are removed (R115, log 50). -/
def Mill.queuedOf (m : Mill) (o : Fin 256) : List (Fin 32) := m.seq.queue.filter (fun b => (m.batch b).order = some o)

/-! ### The take (R114) -/

/-- The queue head handed over: it becomes the reference, and a pass is asked for. -/
def Mill.takeHead (m : Mill) (b : Fin 32) : Mill :=
  { m with seq := { m.seq with reference := some (m.batch b).member } }.setQueue m.seq.queue.tail |>.askPass

end Sys2Proof.Machine
end

