-- ==== Sys2Proof/Machine/Weighing.lean ====
section
/-! DEFINITION. The Weigh-and-Mix Controller (07_weighing_mixing_and_discharge.md): phases, attention, cancelled weighing,
dump, mix and discharge. -/

namespace Sys2Proof.Machine

/-! ### Controllers -/

def Mill.scale (m : Mill) : Scale → ScaleCtl
  | .one => m.weigh.scale1
  | .two => m.weigh.scale2

def WeighMix.setScale (w : WeighMix) (sc : Scale) (c : ScaleCtl) : WeighMix :=
  match sc with
  | .one => { w with scale1 := c }
  | .two => { w with scale2 := c }

/-- A change of a scale controller, its changed unit words posted (R121). -/
def Mill.updScale (m : Mill) (sc : Scale) (f : ScaleCtl → ScaleCtl) : Mill :=
  let old := m.scale sc
  let new := f old
  { m with weigh := m.weigh.setScale sc new }.postChanged .weighMix .unit (scaleUnit sc) [2, 3] old.word new.word

/-- A change of the mixer controller, its changed unit words posted (R121). -/
def Mill.updMixer (m : Mill) (f : MixerCtl → MixerCtl) : Mill :=
  let old := m.weigh.mixer
  let new := f old
  { m with weigh := { m.weigh with mixer := new } }.postChanged .weighMix .unit 2 [2, 3] old.word new.word

/-- A change of a batch record that the controller owns. -/
def Mill.ownBatch (m : Mill) (b : Fin 32) (f : Batch → Batch) : Mill := m.updBatch .weighMix b f

/-- The present scales (R121). -/
def Mill.scales (m : Mill) : List Scale := [Scale.one, .two].filter (fun sc => m.presentUnit (scaleUnit sc))

def otherScale : Scale → Scale
  | .one => .two
  | .two => .one

/-- The scale's number in a batch record, 1 or 2 (R128). -/
def scaleNo : Scale → Nat
  | .one => 1
  | .two => 2

/-- Every present scale is in the state. -/
def Mill.allScales (m : Mill) (st : ScaleState) : Bool := m.scales.all (fun sc => (m.scale sc).state = st)

/-- A good sample (R120). -/
def Sample.good (s : Sample) : Bool := s.quality = 0

/-- A sample's signed value (R11). -/
def Sample.value (s : Sample) : Int := s.raw.toInt

/-- The latest value of a channel, 0 where there is none. -/
def Channel.value (c : Channel) : Int := c.latest.getD 0

/-- A channel is fresh while its freshness timer runs (R120, R176). -/
def Channel.isFresh (c : Channel) : Bool := c.fresh.isSome

/-- A good sample taken by a channel (R120, R176). -/
def Channel.take (s : Sample) (stale : Nat) : Channel := ⟨some s.value, some stale⟩

/-! ### A batch's fields for a scale -/

def Batch.setScaleFields (b : Batch) (sc : Scale) (f : ScaleFields) : Batch :=
  match sc with
  | .one => { b with scale1 := f }
  | .two => { b with scale2 := f }

/-- A line's target, and its actual so far. -/
def Batch.lineTarget (b : Batch) (l : Nat) : Nat := b.masses.getD l 0
def Batch.lineActual (b : Batch) (l : Nat) : Nat := b.actuals.getD l 0

def Batch.chainLine (b : Batch) (l : Nat) : ChainLine := b.chain.lines.getD l ⟨0, 0, 0, .one, 0, 0⟩

/-- The line a scale stands on, the first of those not yet finished. -/
def ScaleCtl.current (c : ScaleCtl) : Nat := c.lines.headD 0

/-! ### Attention (R128) -/

/-- The attention of a batch for a scale. -/
def attentionOf (x : Batch) (sc : Scale) (c : ScaleCtl) : Attention :=
  ⟨c.cause, scaleNo sc, c.current, x.lineTarget c.current, x.lineActual c.current⟩

/-- A scale enters ATTENTION; the record shows it if it shows none (R128). -/
def Mill.enterAttention (m : Mill) (b : Fin 32) (sc : Scale) (cause : Cause) : Mill :=
  let m1 := m.updScale sc (fun c => { c with state := .attention, cause := cause, settle := none, stall := none })
  m1.ownBatch b (fun x => if x.attention.cause = .none then { x with attention := attentionOf x sc (m1.scale sc) } else x)

/-- A scale leaves ATTENTION; the record that shows it shows the other scale if that one is in ATTENTION (R128). -/
def Mill.leaveAttention (m : Mill) (b : Fin 32) (sc : Scale) : Mill :=
  let other := m.scale (otherScale sc)
  m.ownBatch b (fun x =>
    if x.attention.scale = scaleNo sc then
      { x with
        attention := if other.state = .attention then attentionOf x (otherScale sc) other else .reset }
    else x)

/-! ### Dump (R137) -/

/-- The mixer reads at or below the empty threshold: its latest value, while the channel is fresh (log 16). -/
def Mill.mixerEmptied (m : Mill) : Bool :=
  m.weigh.mixer.channel.isFresh && decide (m.weigh.mixer.channel.value ≤ (m.plan.emptyThreshold : Int))

/-- A WEIGHED batch dumped into an EMPTY mixer, if it may be (R137). -/
def Mill.considerDump (m : Mill) : Mill :=
  match m.weigh.batch with
  | none => m
  | some b =>
    if (m.batch b).state = .weighed && m.weigh.mixer.state = .empty && m.mixerEmptied then
      let m1 := m.scales.foldl (fun m sc => m.updScale sc ({ · with state := .dumping })) m
      let m2 := m1.updMixer ({ · with state := .filling, batch := some b })
      let m3 := m2.ownBatch b ({ · with state := .filling })
      { m3 with weigh := { m3.weigh with batch := none, cancelled := false } }
    else m

/-- The batch becomes WEIGHED once every present scale is DONE (R127). -/
def Mill.judgeWeighed (m : Mill) (b : Fin 32) : Mill :=
  if m.allScales .done && (m.batch b).state = .weighing then
    let m1 := m.ownBatch b (fun x => { x with state := .weighed, total := x.actuals.sum })
    { m1 with weigh := { m1.weigh with limit := none } }.considerDump
  else m

/-! ### Phases and lines (R122, R123, R127) -/

/-- A feeding phase due to start on the scale's current line (R123). -/
def Mill.startPhase (m : Mill) (b : Fin 32) (sc : Scale) (target : Nat) : Mill :=
  let c := m.scale sc
  let x := m.batch b
  if c.channel.isFresh then
    let base := c.channel.value
    let m1 := m.updScale sc (fun c =>
      { c with
        state := .feeding
        bin := (x.chainLine c.current).bin.val
        base := base
        target := target
        ended := .cutOff
        stallRef := base
        stall := some (seconds m.plan.stallWindow)
        settle := none
        cause := .none })
    m1.ownBatch b (fun x => x.setScaleFields sc ⟨c.current, c.phase, x.lineActual c.current⟩)
  else (m.updScale sc ({ · with target := target })).enterAttention b sc .stalled

/-- The first of the given lines started; lines of target 0 are finished without feeding; DONE when none is left
(R122, R127). -/
def Mill.startLines (m : Mill) (b : Fin 32) (sc : Scale) : List Nat → Mill
  | [] =>
    (m.updScale sc (fun c =>
      { c with state := .done, lines := [], settle := none, stall := none, cause := .none })).judgeWeighed b
  | l :: ls =>
    if (m.batch b).lineTarget l = 0 then (m.releaseEntry b l).startLines b sc ls
    else (m.updScale sc ({ · with lines := l :: ls, phase := 0 })).startPhase b sc ((m.batch b).lineTarget l)

/-- The scale's current line is finished: its entry is released and the next line starts (R127). -/
def Mill.finishLine (m : Mill) (b : Fin 32) (sc : Scale) : Mill :=
  let c := m.scale sc
  (m.releaseEntry b c.current).startLines b sc c.lines.tail

/-- The tolerance of a line (R127). -/
def Mill.tolerance (m : Mill) (x : Batch) (l : Nat) : Nat :=
  let cls := (x.chainLine l).tolerance
  max (m.plan.toleranceAbs cls) (m.plan.tolerancePerMille cls * x.lineTarget l / 1000)

/-- The tolerance check of the current line (R127). -/
def Mill.checkTolerance (m : Mill) (b : Fin 32) (sc : Scale) : Mill :=
  let x := m.batch b
  let l := (m.scale sc).current
  let tol := m.tolerance x l
  if x.lineActual l + tol < x.lineTarget l then (m.releaseEntry b l).enterAttention b sc .under
  else if x.lineTarget l + tol < x.lineActual l then (m.releaseEntry b l).enterAttention b sc .over
  else m.finishLine b sc

/-! ### The take (R122) -/

/-- The lines of a chain on a scale, in chain line order. -/
def scaleLines (chain : Chain) (sc : Scale) : List Nat :=
  (List.range chain.lines.length).filter (fun i => (chain.lines[i]?.map (·.scale)) = some sc)

/-- The scales take the queue head, if they may (R122); SCALE1's scale starts its first line first (log 43). -/
def Mill.considerTake (m : Mill) : Mill :=
  match m.seq.queue.head? with
  | none => m
  | some b =>
    if m.plan.state = .running && m.allScales .idle && !m.seq.hold then
      let x := m.batch b
      let m1 := (m.takeHead b).ownBatch b ({ · with state := .weighing })
      let limit := seconds (m.plan.weighBase + (x.chain.lines.length + 1) * m.plan.weighLine)
      let m2 := { m1 with weigh := { m1.weigh with batch := some b, cancelled := false, limit := some limit } }
      let m3 := m.scales.foldl (fun m sc =>
        m.updScale sc ({ · with batch := some b, lines := scaleLines x.chain sc, phase := 0, cause := .none })) m2
      m.scales.foldl (fun m sc => m.startLines b sc (scaleLines x.chain sc)) m3
    else m

/-! ### Cancelled weighing (R132, R133) -/

/-- Every line of the scale not yet finished released, and the scale DONE (R132). -/
def Mill.dropLines (m : Mill) (b : Fin 32) (sc : Scale) : Mill :=
  let m1 := (m.scale sc).lines.foldl (fun m l => m.releaseEntry b l) m
  m1.updScale sc (fun c => { c with state := .done, lines := [], settle := none, stall := none, cause := .none })

/-- The disposition set to REWORK and the route to the REWORK bin, reported for a GOOD order batch (R132, R133). -/
def Mill.makeRework (m : Mill) (b : Fin 32) : Mill :=
  let x := m.batch b
  let m1 := m.ownBatch b ({ · with disposition := .rework, route := m.routeTo .rework })
  match x.disposition, x.order with
  | .good, some o => m1.returnMass o x.target
  | _, _ => m1

/-- A scale at the moment weighing is cancelled (R132). -/
def Mill.cancelScale (m : Mill) (b : Fin 32) (sc : Scale) : Mill :=
  match (m.scale sc).state with
  | .feeding =>
    m.updScale sc (fun c =>
      { c with state := .settling, ended := .cancelled, stall := none, settle := some m.plan.settleTime })
  | .attention => (m.leaveAttention b sc).dropLines b sc
  | .idle | .settling | .done | .dumping => m

/-- Weighing cancelled (R132), SCALE1's scale acted on first (log 43); a second cancelling changes nothing further. -/
def Mill.cancelWeighing (m : Mill) (b : Fin 32) : Mill :=
  if m.weigh.cancelled then m
  else
    let m1 := { m with weigh := { m.weigh with cancelled := true, limit := none } }.makeRework b
    let m2 := m1.scales.foldl (fun m sc => m.cancelScale b sc) m1
    m2.judgeWeighed b

/-! ### Settle (R126) -/

/-- The expiry of a scale's settle timer (R126). -/
def Mill.settleScale (m : Mill) (b : Fin 32) (sc : Scale) : Mill :=
  let c := m.scale sc
  let l := c.current
  let inc := c.channel.value - c.base
  let bin := ((m.batch b).chainLine l).bin
  let m1 := m.bookDraw b l bin inc
  let m2 := m1.ownBatch b (fun x => { x with actuals := x.actuals.modify l (· + inc.toNat) })
  let m3 := m2.updScale sc ({ · with settle := none, leakRef := some c.channel.value })
  let x := m3.batch b
  let actual := x.lineActual l
  let m4 :=
    if c.phase = 0 && c.ended = .cutOff then
      m3.adjustPreact bin (((actual : Int) - (x.lineTarget l : Int)).tdiv 2)
    else m3
  let m5 := m4.ownBatch b (fun x => x.setScaleFields sc ⟨l, c.phase, actual⟩)
  if m5.weigh.cancelled then (m5.dropLines b sc).judgeWeighed b
  else match c.ended with
    | .cutOff => m5.checkTolerance b sc
    | .stall | .cancelled => m5.enterAttention b sc .stalled

/-- A feeding phase ended, the settle timer started (R124, R125). -/
def Mill.endPhase (m : Mill) (sc : Scale) (e : PhaseEnd) : Mill :=
  m.updScale sc (fun c => { c with state := .settling, ended := e, stall := none, settle := some m.plan.settleTime })

/-! ### Discharge (R141, R142) -/

/-- The route bin can take a batch (R141). -/
def Mill.routeTakes (m : Mill) (x : Batch) : Bool :=
  match toBin x.route with
  | none => false
  | some i =>
    let bin := getAt m.stock.bins i
    match bin.plan.kind.surge with
    | some s =>
      decide (x.total ≤ bin.room) && !m.needsEntry s x.order
        && !(s = .pellet && m.lines.pellet.line.state = .tripped)
    | none => decide (x.total ≤ bin.room)

/-- The batch's mass booked into its route bin at the discharge start (R142). -/
def Mill.bookDischarge (m : Mill) (x : Batch) : Mill :=
  match (toBin x.route).bind (fun i => (getAt m.stock.bins i).plan.kind.surge) with
  | some s => m.appendLot s x.order x.total
  | none => m.addRework x.total

/-- The discharge claim of a MIXED batch, and the discharge start when it is granted (R141, R142). -/
def Mill.judgeDischarge (m : Mill) : Mill :=
  match m.weigh.mixer.batch with
  | none => m
  | some b =>
    let x := m.batch b
    if m.weigh.mixer.state = .mixed && m.routeTakes x then
      let m1 := m.bookDischarge x
      let m2 := m1.updMixer ({ · with state := .discharging, route := x.route, hold := none })
      m2.ownBatch b (fun x =>
        { x with state := .discharging, attention := if x.attention.cause = .held then .reset else x.attention })
    else m

/-- A batch in the mixer stage set to disposition REWORK, discharge permission judged again (R133, R135). -/
def Mill.reworkMixed (m : Mill) (b : Fin 32) : Mill := (m.makeRework b).judgeDischarge

/-- The end of a discharge (R143). -/
def Mill.endDischarge (m : Mill) (b : Fin 32) : Mill :=
  let x := m.batch b
  let m1 := m.updMixer ({ · with state := .empty, batch := none })
  let m2 := m1.ownBatch b ({ · with state := .done })
  let m3 := match x.disposition, x.order with
    | .good, some o => m2.completed o x.target
    | _, _ => m2
  (m3.reportFinal x.order x.chain).considerDump

/-- A cancel at the mixer: the order's GOOD batch there that is not yet discharging becomes REWORK (R135). -/
def Mill.cancelMixed (m : Mill) (o : Fin 256) : Mill :=
  match m.weigh.mixer.batch with
  | some b =>
    let x := m.batch b
    if x.order = some o && x.disposition = .good && (x.state = .filling || x.state = .mixing || x.state = .mixed) then
      m.reworkMixed b
    else m
  | none => m

/-- A cancel handed over by the Order Book (R135); the batch in the scale stage is acted on first (log 54). -/
def Mill.cancelBatch (m : Mill) (o : Fin 256) : Mill :=
  match m.weigh.batch with
  | some b => if (m.batch b).order = some o then (m.cancelWeighing b).cancelMixed o else m.cancelMixed o
  | none => m.cancelMixed o

/-! ### Samples (R120, R136, R138, R143) -/

/-- A good sample at a FEEDING scale: the cut-off, or the stall reference moved (R124, R125). -/
def Mill.feedSample (m : Mill) (b : Fin 32) (sc : Scale) (v : Int) : Mill :=
  let c := m.scale sc
  let bin := ((m.batch b).chainLine c.current).bin
  if c.base + (c.target : Int) - ((getAt m.stock.bins bin).preact : Int) ≤ v then m.endPhase sc .cutOff
  else if c.stallRef + (m.plan.stallDelta : Int) ≤ v then
    m.updScale sc ({ · with stallRef := v, stall := some (seconds m.plan.stallWindow) })
  else m

/-- A good sample at a DUMPING scale: IDLE at or below the empty threshold, and MIXING after the last (R138). -/
def Mill.dumpSample (m : Mill) (sc : Scale) (v : Int) : Mill :=
  if v ≤ (m.plan.emptyThreshold : Int) then
    let m1 := m.updScale sc ({ · with state := .idle, batch := none, leakRef := some v })
    let m2 :=
      if m1.scales.any (fun sc => (m1.scale sc).state = .dumping) then m1
      else match m1.weigh.mixer.batch with
        | none => m1
        | some b =>
          let t := seconds (m1.batch b).chain.mixTime
          (m1.updMixer ({ · with state := .mixing, mix := some t })).ownBatch b ({ · with state := .mixing })
    m2.considerTake
  else m

/-- A good sample at an IDLE or DONE scale: the leak watch (R136). -/
def Mill.leakSample (m : Mill) (sc : Scale) (v : Int) : Mill :=
  let c := m.scale sc
  match c.leakRef with
  | none => m
  | some r =>
    if r + (m.plan.leakDelta : Int) < v then
      let m1 := m.raise .unexpectedFlow
      match c.state, m1.weigh.batch with
      | .done, some b => m1.ownBatch b ({ · with leak := true })
      | _, _ => m1
    else m

/-- The first good sample becomes the leak reference where there is none (R136). -/
def Mill.firstLeakRef (m : Mill) (sc : Scale) (v : Int) : Mill :=
  m.updScale sc (fun c => { c with leakRef := some (c.leakRef.getD v) })

/-- A scale sample (R120); one of another quality is not used. -/
def Mill.scaleSample (m : Mill) (sc : Scale) (s : Sample) : Mill :=
  if s.good then
    let v := s.value
    let m1 := (m.updScale sc ({ · with channel := Channel.take s m.plan.staleTime })).firstLeakRef sc v
    match (m1.scale sc).state, m1.weigh.batch with
    | .feeding, some b => m1.feedSample b sc v
    | .dumping, _ => m1.dumpSample sc v
    | .idle, _ => m1.leakSample sc v
    | .done, _ => m1.leakSample sc v
    | _, _ => m1
  else m

/-- A MIXER sample (R120, R137, R143). -/
def Mill.mixerSample (m : Mill) (s : Sample) : Mill :=
  if s.good then
    let m1 := m.updMixer ({ · with channel := Channel.take s m.plan.staleTime })
    match m1.weigh.mixer.state, m1.weigh.mixer.batch with
    | .discharging, some b => if m1.mixerEmptied then m1.endDischarge b else m1
    | _, _ => m1.considerDump
  else m

end Sys2Proof.Machine
end

