-- ==== Sys2Proof/Machine/Lines.lean ====
section
/-! DEFINITION. The Line Supervisor (08_grinding_and_pelleting_lines.md): rates, ceiling adjust, trips, grind jobs, the
pellet line. -/

namespace Sys2Proof.Machine

/-! ### Controllers -/

def Lines.grinder (l : Lines) : Grinder → GrinderCtl
  | .a => l.grinderA
  | .b => l.grinderB

def Lines.setGrinder (l : Lines) (g : Grinder) (c : GrinderCtl) : Lines :=
  match g with
  | .a => { l with grinderA := c }
  | .b => { l with grinderB := c }

def Lines.line (l : Lines) : Line → LineCtl
  | .grinder g => (l.grinder g).line
  | .pellet => l.pellet.line

def Lines.setLine (l : Lines) (x : Line) (c : LineCtl) : Lines :=
  match x with
  | .grinder g => l.setGrinder g { l.grinder g with line := c }
  | .pellet => { l with pellet := { l.pellet with line := c } }

def Mill.lineCtl (m : Mill) (l : Line) : LineCtl := m.lines.line l
def Mill.grinderCtl (m : Mill) (g : Grinder) : GrinderCtl := m.lines.grinder g

def allLines : List Line := [.grinder .a, .grinder .b, .pellet]

/-- The pellet line's rate (R148). -/
def pelletRate (floor ceiling : Nat) (start : Int) (span : Nat) (temp : Option Int) : Nat :=
  let c := min ((temp.getD start) - start).toNat span
  floor + (ceiling - floor) * c / span

/-- The rate command of a line in its present state (R146, R148). -/
def Mill.rateOf (m : Mill) (l : Line) : Nat :=
  let c := m.lineCtl l
  if c.state = .running then
    match l with
    | .grinder _ => c.ceiling
    | .pellet =>
      pelletRate (m.plan.rateFloor l) c.ceiling (m.plan.curveStart l) (m.plan.span l) m.lines.pellet.temp.good
  else 0

/-- The current-order field of a line's record (12.6). -/
def Mill.currentField (m : Mill) (l : Line) : Nat :=
  match l with
  | .grinder _ => 0
  | .pellet => slot16 m.lines.pellet.current

/-- A line's unit words (12.6). -/
def Mill.lineWord (m : Mill) (l : Line) : Nat → Word := (m.lineCtl l).word (m.currentField l)

/-- The reports of a change of a line that has led to n: whether any line is TRIPPED, after this one became so or left it, and
whether any top state is true, after a change of this one's (R149, R153, R154, R197). -/
def lineReports (n : Mill) (old new : LineCtl) : List Report :=
  (if decide (old.state = .tripped) = decide (new.state = .tripped) then [] else [.condition .lineTrip (n.holds .lineTrip)])
    ++ (if old.top = new.top then [] else [.condition .topExceeded (n.holds .topExceeded)])

/-- The words of a line's unit record that a change posts: those that changed, and at a change of state the rate command's
word too (R146); no other unchanged word (R148, R150, R165; DESIGN CHOICE, log 56). -/
def Mill.linePosts (m n : Mill) (l : Line) : List Nat :=
  [2, 3, 4].filter (fun w =>
    m.lineWord l w ≠ n.lineWord l w || (w = 3 && (m.lineCtl l).state ≠ (n.lineCtl l).state))

/-- A change of the line controllers, with the line's rate recomputed, its unit words posted (R146, R148) and its
conditions reported. -/
def Mill.updLines (m : Mill) (l : Line) (f : Lines → Lines) : Mill :=
  let m1 := { m with lines := f m.lines }
  let m2 := { m1 with lines := m1.lines.setLine l { m1.lineCtl l with rate := m1.rateOf l } }
  { m2 with reports := m.reports ++ lineReports m2 (m.lineCtl l) (m1.lineCtl l) }.postAll .lineSupervisor .unit (lineUnit l)
    (m.linePosts m2 l) (m2.lineWord l)

def Mill.updLine (m : Mill) (l : Line) (f : LineCtl → LineCtl) : Mill :=
  m.updLines l (fun x => x.setLine l (f (x.line l)))

def Mill.updGrinder (m : Mill) (g : Grinder) (f : GrinderCtl → GrinderCtl) : Mill :=
  m.updLines (.grinder g) (fun x => x.setGrinder g (f (x.grinder g)))

def Mill.updPellet (m : Mill) (f : PelletCtl → PelletCtl) : Mill :=
  m.updLines .pellet (fun x => { x with pellet := f x.pellet })

/-! ### Trip channels (R147, R151) -/

def Lines.chan (l : Lines) : TripChannel → TripChan
  | .gaLoad => l.grinderA.line.load
  | .gbLoad => l.grinderB.line.load
  | .plTemp => l.pellet.temp
  | .plLoad => l.pellet.line.load

def Lines.setChan (l : Lines) (ch : TripChannel) (c : TripChan) : Lines :=
  match ch with
  | .gaLoad => { l with grinderA := { l.grinderA with line := { l.grinderA.line with load := c } } }
  | .gbLoad => { l with grinderB := { l.grinderB with line := { l.grinderB.line with load := c } } }
  | .plTemp => { l with pellet := { l.pellet with temp := c } }
  | .plLoad => { l with pellet := { l.pellet with line := { l.pellet.line with load := c } } }

def Mill.chan (m : Mill) (ch : TripChannel) : TripChan := m.lines.chan ch

/-- A load channel (R145). -/
def isLoad : TripChannel → Bool
  | .gaLoad | .gbLoad | .plLoad => true
  | .plTemp => false

/-- The trip limit of a channel (R151). -/
def Mill.tripLimit (m : Mill) (ch : TripChannel) : Int :=
  if isLoad ch then (m.plan.loadTrip (chanLine ch) : Int) else m.plan.tempTrip (chanLine ch)

/-- The cause a channel trips with (R151). -/
def chanCause (ch : TripChannel) : TripCause := if isLoad ch then .load else .temp

/-- A sample counts as above (R151). -/
def Mill.countsAbove (m : Mill) (ch : TripChannel) (s : Sample) : Bool := !s.good || decide (m.tripLimit ch < s.value)

def Mill.updChan (m : Mill) (ch : TripChannel) (f : TripChan → TripChan) : Mill :=
  m.updLines (chanLine ch) (fun l => l.setChan ch (f (l.chan ch)))

/-- The first trip channel of a line, in role order, that fails a test. -/
def Mill.firstFailing (m : Mill) (l : Line) (ok : TripChannel → TripChan → Bool) : Option TripChannel :=
  (lineChannels l).find? (fun ch => !ok ch (m.chan ch))

/-! ### Ends of a line's work (R153, R155, R159, R165) -/

/-- A read of a grinder's refill setting posted (R156). -/
def Mill.readRefill (m : Mill) (g : Grinder) (forStart : Bool) : Mill :=
  m.postRead .lineSupervisor (m.recordAddr .unit (lineUnit (.grinder g)) 5) (.refill g forStart)

/-- The pellet line drops its current order: draw claim and drain end, and the other blocks are told (R165). -/
def Mill.dropCurrent (m : Mill) : Mill :=
  let was := m.lines.pellet.current
  let m1 := m.updPellet (fun c => { c with current := none, drain := none, drainWaits := false })
  let m2 := m1.endClaim .pellet
  match was with
  | some o => (m2.tell (.judgeExhausted o)).tell .pelletGone
  | none => m2

/-- A line into IDLE or TRIPPED: adjust timer idle, top state false (R149, R150). -/
def LineCtl.rest (c : LineCtl) (s : LineState) : LineCtl := { c with state := s, adjust := none, top := false }

/-- A line's work ended in the given state: a grind job ends and its refill setting is taken afresh, the pellet line
drops its current order (R153, R155, R159). -/
def Mill.endWork (m : Mill) (l : Line) (s : LineState) : Mill :=
  let worked := (m.lineCtl l).state.works
  let m1 := m.updLine l (·.rest s)
  match l with
  | .grinder g =>
    let m2 := m1.updGrinder g (fun c => { c with starved := false, blocked := false })
    if worked then m2.readRefill g false else m2
  | .pellet => m1.dropCurrent

/-- The above counts of a line set to 0 (R153). -/
def Mill.clearAbove (m : Mill) (l : Line) : Mill :=
  (lineChannels l).foldl (fun m ch => m.updChan ch ({ · with above := 0 })) m

/-- A line trips (R153). -/
def Mill.tripLine (m : Mill) (l : Line) (cause : TripCause) : Mill :=
  let m1 := m.updLine l (fun c => { c with cause := cause, tripOut := m.plan.tripOutOn l })
  (m1.endWork l .tripped).clearAbove l

/-! ### Ceiling adjust (R149, R150) -/

/-- One adjust step; the timer starts (R150). -/
def Mill.adjustStep (m : Mill) (l : Line) : Mill :=
  m.updLine l (fun c =>
    { c with
      ceiling := max (m.plan.ceilingMin l) (c.ceiling - m.plan.adjustStep l)
      adjust := some (minutes (m.plan.adjustDelay l)) })

/-- A good load sample judged for the top limit (R149, R150). -/
def Mill.judgeTop (m : Mill) (l : Line) (v : Int) : Mill :=
  if (m.lineCtl l).state.works then
    let top := decide ((m.plan.loadTop l : Int) < v)
    let m1 := m.updLine l ({ · with top := top })
    if top && m.plan.adjustOn l && (m.lineCtl l).adjust.isNone then m1.adjustStep l else m1
  else m

/-- The expiry of the adjust timer (R150). -/
def Mill.adjustExpiry (m : Mill) (l : Line) : Mill :=
  let c := m.lineCtl l
  let high := match c.load.good with
    | some v => decide ((m.plan.loadTop l : Int) < v)
    | none => false
  if c.state.works && high then m.adjustStep l else m.updLine l ({ · with adjust := none })

/-! ### Grind jobs (R157 to R160) -/

/-- A grind job runs (R146). -/
def LineState.grinding : LineState → Bool
  | .running | .starved | .blocked => true
  | .idle | .draining | .tripped => false

/-- The bin of an index, if it is of a kind. -/
def Mill.binIfKind (m : Mill) (i : Nat) (k : BinKind) : Option Bin :=
  match toBin i with
  | none => none
  | some b => if (getAt m.stock.bins b).plan.kind = k then some (getAt m.stock.bins b) else none

/-- The role number of a grinder's load channel (R145). -/
def grinderLoadRole : Grinder → Nat
  | .a => 3
  | .b => 5

/-- The checks of R157 on a refill setting, in order: the failing answer, if any. -/
def Mill.grindChecks (m : Mill) (g : Grinder) (r : Refill) : Option Answer :=
  let c := (m.grinderCtl g).line
  if c.state ≠ .idle then some (ans resWrongState c.state.code)
  else match m.binIfKind r.raw .raw, m.binIfKind r.ground .ground with
    | none, _ => some (ans resFieldRange 1)
    | _, none => some (ans resFieldRange 2)
    | some raw, some ground =>
      if c.load.fresh.isNone then some (ans resConditionActive (grinderLoadRole g))
      else if ground.plan.high ≤ ground.level then some (ans resWrongState 0x200)
      else if raw.available ≤ m.plan.stopMargin then some (ans resWrongState 0x300)
      else none

/-- The starved condition by an available mass of the raw bin (R159). -/
def PlanCtl.starvedBy (p : PlanCtl) (was : Bool) (available : Nat) : Bool :=
  decide (available ≤ p.stopMargin) || (was && decide (available < 2 * p.stopMargin))

/-- The blocked condition by a room of the ground bin (R159). -/
def PlanCtl.blockedBy (p : PlanCtl) (was : Bool) (room : Nat) : Bool :=
  decide (room < p.blockMargin) || (was && decide (room < 2 * p.blockMargin))

/-- The two conditions of a running job, and the state they give (R159). -/
def Mill.setGrind (m : Mill) (g : Grinder) (starved blocked : Bool) : Mill :=
  m.updGrinder g (fun c =>
    { c with
      starved := starved
      blocked := blocked
      line := { c.line with state := if starved then .starved else if blocked then .blocked else .running } })

/-- The two conditions judged on the book as it is, at the start of a job (R157, R159). -/
def Mill.judgeGrind (m : Mill) (g : Grinder) (r : Refill) : Mill :=
  match toBin r.raw, toBin r.ground with
  | some raw, some ground =>
    let c := m.grinderCtl g
    m.setGrind g (m.plan.starvedBy c.starved (getAt m.stock.bins raw).available)
      (m.plan.blockedBy c.blocked (getAt m.stock.bins ground).room)
  | _, _ => m

/-- A bin's available mass and room: those of the report for the bin reported, the book's for any other (R159, log 10). -/
def Stock.reported (s : Stock) (b : Fin 48) (level available : Nat) (i : Fin 48) : Nat × Nat :=
  let x := getAt s.bins i
  if i = b then (available, x.plan.capacity - level) else (x.available, x.room)

/-- The two conditions judged at a report of one of the two bins (R159): that bin on the figures reported, the other on the
book as it is. A setting that names no bin 0 to 47, which a running job can have by log 44, leaves its condition. -/
def Mill.reportGrind (m : Mill) (g : Grinder) (r : Refill) (b : Fin 48) (level available : Nat) : Mill :=
  let c := m.grinderCtl g
  m.setGrind g
    (match toBin r.raw with
      | some i => m.plan.starvedBy c.starved (m.stock.reported b level available i).1
      | none => c.starved)
    (match toBin r.ground with
      | some i => m.plan.blockedBy c.blocked (m.stock.reported b level available i).2
      | none => c.blocked)

/-- A job begins (R157). -/
def Mill.beginJob (m : Mill) (g : Grinder) (r : Refill) : Mill :=
  let l : Line := .grinder g
  let m1 := m.updGrinder g (fun c =>
    { c with
      line := { c.line with ceiling := m.plan.ceilingMax l }
      total := none
      autoStart := false
      starved := false
      blocked := false })
  m1.judgeGrind g r

/-- A set auto-start request tried (R158). -/
def Mill.tryAutoStart (m : Mill) (g : Grinder) : Mill :=
  let c := m.grinderCtl g
  match c.refill with
  | some r => if c.autoStart && c.line.state = .idle && (m.grindChecks g r).isNone then m.beginJob g r else m
  | none => m

/-- The auto-start request after a report of the ground bin's level (R158). -/
def GrinderCtl.requestBy (c : GrinderCtl) (low old new : Nat) : Bool :=
  if new < low then c.autoStart || decide (low ≤ old) else false

/-- A report of a RAW or GROUND bin at one grinder, judged on the figures it carries (R158, R159): job end before the
conditions, then the request. A report of an available mass alone carries the level twice. -/
def Mill.grinderReport (m : Mill) (g : Grinder) (b : Fin 48) (old new available : Nat) : Mill :=
  let c := m.grinderCtl g
  match c.refill with
  | none => m
  | some r =>
    if r.raw = b.val || r.ground = b.val then
      let bin := (getAt m.stock.bins b).plan
      let isGround := decide (r.ground = b.val)
      let m1 :=
        if c.line.state.grinding then
          if isGround && decide (bin.high ≤ new) then m.endWork (.grinder g) .idle else m.reportGrind g r b new available
        else m
      let m2 :=
        if isGround && decide (old ≠ new) && r.auto then
          m1.updGrinder g (fun c => { c with autoStart := c.requestBy bin.low old new })
        else m1
      m2.tryAutoStart g
    else m

/-- A report of a bin at both grinders (R47, R159). -/
def Mill.binReport (m : Mill) (b : Fin 48) (old new available : Nat) : Mill :=
  (m.grinderReport .a b old new available).grinderReport .b b old new available

/-- The ground bin of a refill setting is below its low mark. -/
def Mill.groundLow (m : Mill) (r : Refill) : Bool :=
  match toBin r.ground with
  | none => false
  | some b => decide ((getAt m.stock.bins b).level < (getAt m.stock.bins b).plan.low)

/-- The refill setting of a returned read (12.6). -/
def refillOf (w : Word) : Refill := ⟨bits w 0 8, bits w 8 8, bits w 16 1 = 1⟩

/-- A refill-setting read taken (R156, R158); a job that runs already goes on with the bins newly read (log 44). -/
def Mill.takeRefill (m : Mill) (g : Grinder) (w : Word) : Mill :=
  let r := refillOf w
  let first := (m.grinderCtl g).refill.isNone
  m.updGrinder g (fun c =>
    { c with
      refill := some r
      autoStart := r.auto && (c.autoStart || (first && m.groundLow r)) })

/-- The bins of running grind jobs (R64, R146). -/
def Mill.inGrindJob (m : Mill) (b : Nat) : Bool :=
  [Grinder.a, .b].any (fun g =>
    let c := m.grinderCtl g
    c.line.state.grinding && (c.refill.map (fun r => r.raw = b || r.ground = b)).getD false)

/-! ### The pellet line (R161 to R165) -/

/-- A head lot that can be drawn (R161). -/
def Lot.drawable (l : Lot) : Bool := l.owner.isSome && l.mark = .none

/-- The destination surge of an order (R161). -/
def destOf (p : Option Pack) : Surge := match p with
  | some .bag => .bag
  | some .bulk | none => .bulk

/-- The destination's room is below the block margin, or a product append would need an entry that is not free (R161). -/
def Mill.destFull (m : Mill) (dest : Surge) (o : Option (Fin 256)) : Bool :=
  decide (m.surgeRoom dest < m.plan.blockMargin) || m.needsEntry dest o

/-- The pellet line takes the head lot of its surge if it can be drawn, and is STARVED otherwise (R161). -/
def Mill.pelletTake (m : Mill) : Mill :=
  match m.headLot .pellet with
  | some ⟨some o, .none, _⟩ =>
    let dest := destOf (m.order o).pack
    let st : LineState := if m.destFull dest (some o) then .blocked else .running
    (m.setClaim .pellet).updPellet (fun c =>
      { c with current := some o, productOrder := .order o dest, line := { c.line with state := st } })
  | _ => m.updLine .pellet ({ · with state := .starved })

/-- A STARVED pellet line looks for a lot (R161). -/
def Mill.pelletSeek (m : Mill) : Mill := if m.lines.pellet.line.state = .starved then m.pelletTake else m

/-- A drain begins (R164). -/
def Mill.beginDrain (m : Mill) : Mill :=
  m.updPellet (fun c =>
    { c with
      line := { c.line with state := .draining }
      drain := some (seconds m.plan.drainWindow)
      drainWaits := false })

/-- A drain begins from RUNNING or BLOCKED (R164). -/
def Mill.drainIfFeeding (m : Mill) : Mill :=
  match m.lines.pellet.line.state with
  | .running | .blocked => m.beginDrain
  | .idle | .starved | .draining | .tripped => m

/-- The drain ends: the current order is dropped and the next lot looked for (R164). -/
def Mill.endDrain (m : Mill) : Mill := m.dropCurrent.pelletTake

/-- The head lot of the pellet surge took a mark: a marked current lot is drained (R164). -/
def Mill.pelletMarked (m : Mill) : Mill :=
  match m.headLot .pellet with
  | some l => if l.mark ≠ .none && m.lines.pellet.current.isSome then m.drainIfFeeding else m.pelletSeek
  | none => m.pelletSeek

/-- A cancel handed over by the Order Book (R95, R164, R165). -/
def Mill.cancelLine (m : Mill) (o : Fin 256) : Mill := if m.pelletHolds o then m.drainIfFeeding else m

/-- The destination surge held with the product order (R163). -/
def destOfProduct (p : Product) : Option Surge :=
  match p with
  | .none => none
  | .order _ d => some d
  | .orphan d => some d

/-- The order named by a product append (R163). -/
def namedOf (p : Product) : Option (Fin 256) :=
  match p with
  | .order o _ => some o
  | .none => none
  | .orphan _ => none

/-- A BLOCKED pellet line judged again at a report about its destination surge (R163). -/
def Mill.pelletUnblock (m : Mill) (s : Surge) : Mill :=
  let p := m.lines.pellet.productOrder
  if m.lines.pellet.line.state = .blocked && destOfProduct p = some s && decide (2 * m.plan.blockMargin ≤ m.surgeRoom s)
      && !m.needsEntry s (namedOf p) then
    m.updLine .pellet ({ · with state := .running })
  else m

/-! ### Totalizers (R147, R160, R162, R163) -/

/-- What a good totalizer sample gives: no delta, a delta, or a reset (R147). -/
inductive Delta where
  | none
  | mass (n : Nat)
  | reset
  deriving DecidableEq, Repr

/-- The delta of a count against the previous count, modulo 2^24 (R147). -/
def deltaOf (previous : Option Nat) (count : Nat) : Delta :=
  match previous with
  | none => .none
  | some p =>
    let d := (count + 2 ^ 24 - p) % 2 ^ 24
    if d = 0 then .none else if d < 2 ^ 23 then .mass d else .reset

/-- A grinder totalizer sample (R147, R160). -/
def Mill.grinderTotal (m : Mill) (g : Grinder) (s : Sample) : Mill :=
  if s.good then
    let c := m.grinderCtl g
    let m1 := m.updGrinder g ({ · with total := some s.raw.toNat })
    match deltaOf c.total s.raw.toNat with
    | .none => m1
    | .reset => m1.raise .stockDisagree
    | .mass d =>
      let m2 := m1.raiseIf (c.line.state = .idle) .unexpectedFlow
      match c.refill with
      | none => m2.raise .stockDisagree
      | some r => m2.refill r.raw r.ground d
  else m

/-- A PL_FEED sample (R147, R162). -/
def Mill.pelletFeed (m : Mill) (s : Sample) : Mill :=
  if s.good then
    let c := m.lines.pellet
    let m1 := m.updPellet ({ · with feed := some s.raw.toNat })
    match deltaOf c.feed s.raw.toNat with
    | .none => m1
    | .reset => m1.raise .stockDisagree
    | .mass d =>
      let m2 := m1.raiseIf (c.line.state = .idle) .unexpectedFlow
      let held := match m2.surgeBin .pellet with
        | none => false
        | some b => (getAt m2.stock.bins b).claim
      let m3 := (m2.drawLots .pellet d).1
      let holds := match m3.surgeBin .pellet with
        | none => false
        | some b => (getAt m3.stock.bins b).claim
      if held && !holds then m3.drainIfFeeding else m3
  else m

/-- A PL_PRODUCT delta booked (R163), and what the Stock Unit's answer does to a RUNNING line (R57, log 21). -/
def Mill.bookProduct (m : Mill) (d : Nat) : Mill :=
  let c := m.lines.pellet
  let m1 := m.raiseIf (c.line.state = .idle) .unexpectedFlow
  match destOfProduct c.productOrder with
  | none => m1.raise .stockDisagree
  | some dest =>
    let m2 := m1.appendLot dest (namedOf c.productOrder) d
    if c.line.state = .running && (decide (m2.surgeRoom dest < m2.plan.blockMargin)
        || decide (Config.lotDepth ≤ (m2.lotsOf dest).length)) then
      m2.updLine .pellet ({ · with state := .blocked })
    else m2

/-- What a good PL_PRODUCT sample does to a drain (R164); a delta that is not booked counts as none (log 24). -/
def Mill.drainSample (m : Mill) (d : Nat) : Mill :=
  let c := m.lines.pellet
  if c.line.state = .draining then
    if m.plan.leakDelta < d then
      m.updPellet ({ · with drain := some (seconds m.plan.drainWindow), drainWaits := false })
    else if c.drainWaits then m.endDrain
    else m
  else m

/-- A PL_PRODUCT sample (R147, R163, R164). -/
def Mill.pelletProduct (m : Mill) (s : Sample) : Mill :=
  if s.good then
    let c := m.lines.pellet
    let m1 := m.updPellet ({ · with product := some s.raw.toNat, heard := some m.plan.staleTime })
    match deltaOf c.product s.raw.toNat with
    | .none => m1.drainSample 0
    | .reset => (m1.raise .stockDisagree).drainSample 0
    | .mass d => (m1.bookProduct d).drainSample d
  else m

/-! ### Trip samples (R147, R149, R151) -/

/-- The above count after a sample; held at 0 while the line is TRIPPED (R151). -/
def Mill.aboveAfter (m : Mill) (ch : TripChannel) (s : Sample) : Nat :=
  if (m.lineCtl (chanLine ch)).state = .tripped then 0
  else if m.countsAbove ch s then (m.chan ch).above + 1 else 0

/-- A trip channel's sample: trip judged, then the top limit, then the grinder's request (R147, R149, R151, R158). -/
def Mill.tripSample (m : Mill) (ch : TripChannel) (s : Sample) : Mill :=
  let l := chanLine ch
  let n := m.aboveAfter ch s
  let m1 := m.updChan ch (fun c =>
    { c with
      latest := some s
      fresh := some m.plan.staleTime
      above := n
      good := if s.good then some s.value else c.good })
  let m2 := if 2 ≤ n then m1.tripLine l (chanCause ch) else m1
  let m3 := if isLoad ch && s.good then m2.judgeTop l s.value else m2
  match l with
  | .grinder g => m3.tryAutoStart g
  | .pellet => m3

/-- The expiry of a trip channel's freshness timer (R152). -/
def Mill.tripStale (m : Mill) (ch : TripChannel) : Mill :=
  let l := chanLine ch
  let m1 := m.updChan ch ({ · with fresh := none })
  if (m.lineCtl l).state.works then m1.tripLine l .stale else m1

end Sys2Proof.Machine
end

