-- ==== Sys2Proof/Machine/Trips.lean ====
section
/-! DEFINITION. The Trip Table (10_delivery_trips.md): compartments, arrival check, spout arbiter, bookings. -/

namespace Sys2Proof.Machine

/-! ### Trip records (R186) -/

def Mill.trip (m : Mill) (t : Fin 8) : Trip := getAt m.trips.trips t

/-- A change of a trip, its changed device words posted (R186). -/
def Mill.updTrip (m : Mill) (t : Fin 8) (f : Trip → Trip) : Mill :=
  let old := m.trip t
  let new := f old
  { m with trips := { m.trips with trips := putAt m.trips.trips t new } }.postChanged .tripTable .truck t.val tripWords
    old.word new.word

/-- The loaded mass of a compartment. -/
def Trip.loadedOf (t : Trip) (c : Nat) : Nat := t.loaded.toList.getD c 0

/-- A compartment's remaining: target less loaded mass, 0 when negative (R186). -/
def Trip.remaining (t : Trip) (c : Nat) : Nat := ((t.copy[c]?.map (·.target)).getD 0) - t.loadedOf c

/-- The indexes of a trip's compartments. -/
def Trip.comps (t : Trip) : List Nat := List.range t.copy.length

/-- The unfilled compartments (R186). -/
def Trip.unfilled (t : Trip) (tolerance : Nat) : List Nat := t.comps.filter (fun c => tolerance < t.remaining c)

/-- The LOADING trip (R190). -/
def Mill.loadingTrip (m : Mill) : Option (Fin 8) := findAt m.trips.trips (fun t => t.state = .loading)

/-- The compartment copy a read of words 2 and 4 to 9 gives: none outside 1 to 6 compartments (R186, 12.8). -/
def copyOf (count : Word) (comps : List Word) : List Compartment :=
  let n := bits count 16 8
  if 1 ≤ n && n ≤ 6 then
    (comps.take n).map (fun w => ⟨⟨bits w 24 8, Nat.mod_lt _ (by decide)⟩, bits w 0 24⟩)
  else []

/-! ### The arrival check (R189) -/

/-- The order may be named by an arriving trip. -/
def Mill.loadable (m : Mill) (o : Fin 256) : Bool := (m.order o).state.active && (m.order o).pack = some .bulk

/-- The sum of remaining of every compartment naming an order, in every trip that is not DEPARTED. -/
def Mill.spoken (m : Mill) (o : Fin 256) : Nat :=
  ((m.trips.trips.toList.filter (fun t => t.state ≠ .departed)).map (fun t =>
    ((t.comps.filter (fun c => t.compOrder c = some o)).map t.remaining).sum)).sum

/-- The detail of the first failing check, none when every check passes (R189). -/
def Mill.arrivalFault (m : Mill) (t : Trip) : Option Nat :=
  if t.copy.isEmpty then some 0xFF
  else
    let bad := t.comps.find? (fun c =>
      match t.copy[c]? with
      | none => false
      | some k => !m.loadable k.order || k.target = 0)
    match bad with
    | some c => some c
    | none =>
      (t.comps.find? (fun c =>
        match t.copy[c]? with
        | none => false
        | some k =>
          let x := m.order k.order
          decide (x.planned + m.plan.bulkTolerance < m.spoken k.order + x.loaded))).map (0x100 + ·)

/-- The orders of one list that another does not name, each once, in order (R188, R194). -/
def droppedOrders (old new : List Compartment) : List (Fin 256) :=
  ((old.map (·.order)).filter (fun o => !(new.map (·.order)).contains o)).reverse.dedup.reverse

/-- Dropped orders reported to the Order Book (R194, R101). -/
def Mill.reportDropped (m : Mill) (os : List (Fin 256)) : Mill := os.foldl (fun m o => m.autoClose o) m

/-! ### The spout (R190 to R192) -/

/-- A LOADING trip becomes LOADED, with the limit mark at the expiry of its timer alone; the timer stops and the Pack-out
Controller is told (R191, R192). -/
def Mill.endLoading (m : Mill) (t : Fin 8) (limitMark : Bool) : Mill :=
  let m1 := m.updTrip t (fun x => { x with state := .loaded, limitMark := limitMark })
  { m1 with trips := { m1.trips with limit := none } }.tell .tripLeft

/-- The head trip of the queue becomes LOADING; one already filled becomes LOADED at once, and the next is taken (R190). -/
def Mill.arbitrate (m : Mill) : List (Fin 8) → Mill
  | [] => { m with trips := { m.trips with queue := [] } }
  | t :: ts =>
    let m1 := m.updTrip t ({ · with state := .loading })
    let x := m1.trip t
    let limit := seconds (m.plan.loadBase + (x.copy.length + 1) * m.plan.loadComp)
    let m2 := { m1 with trips := { m1.trips with queue := ts, limit := some limit } }.tell .tripLoading
    if (x.unfilled m.plan.bulkTolerance).isEmpty then (m2.endLoading t false).arbitrate ts else m2

/-- The spout arbiter (R190). -/
def Mill.judgeArbiter (m : Mill) : Mill :=
  match m.loadingTrip with
  | some _ => m
  | none => if m.trips.queue.isEmpty then m else m.arbitrate m.trips.queue

/-- A fill's mass added to a compartment; a LOADING trip whose compartments are all filled becomes LOADED (R192). -/
def Mill.bookTrip (m : Mill) (t : Fin 8) (c : Nat) (mass : Nat) : Mill :=
  let m1 := m.updTrip t (fun x =>
    if h : c < 6 then { x with loaded := putAt x.loaded ⟨c, h⟩ (min massMax (x.loadedOf c + mass)) } else x)
  let x := m1.trip t
  if x.state = .loading && (x.unfilled m.plan.bulkTolerance).isEmpty then (m1.endLoading t false).judgeArbiter else m1

/-- The expiry of the limit timer (R191). -/
def Mill.tripLimitExpiry (m : Mill) (t : Fin 8) : Mill := ((m.endLoading t true).raise .truckLimit).judgeArbiter

end Sys2Proof.Machine
end

