-- ==== Sys2Proof/Machine/Orders.lean ====
section
/-! DEFINITION. The Order Book's pack-out reports and packing (R98, R99), and the cancel of an order (R95). -/

namespace Sys2Proof.Machine

/-- The order's pack-out target is reached (R99). -/
def Mill.targetReached (m : Mill) (x : Order) : Bool :=
  match x.entry with
  | none => false
  | some e =>
    match e.pack with
    | some .bag => decide (e.bagCount ≤ x.bagsPacked)
    | some .bulk => decide (x.planned ≤ x.loaded + m.plan.bulkTolerance)
    | none => false

/-- An order becomes PACKED (R99): off the list, lots marked, queued batches removed, and the new state posted. -/
def Mill.packOrder (m : Mill) (o : Fin 256) : Mill :=
  let m1 := m.leaveList o
  let m2 := { m1 with
    book := { m1.book with orders := putAt m1.book.orders o { m1.order o with state := .packed, wait := .none } } }
  let m3 := m2.markOrder o .overrun
  let m4 := m3.removeBatches (m3.queuedOf o)
  (m4.postRecord .orderBook .order o.val 7 ((m4.order o).word 7)).autoClose o

/-- The test of R99 after a counted report. -/
def Mill.judgePacked (m : Mill) (o : Fin 256) : Mill :=
  let x := m.order o
  if (x.state = .producing || x.state = .finishing) && m.targetReached x then m.packOrder o else m

/-- A report is counted for an order in these states (R98). -/
def OrderState.counts : OrderState → Bool
  | .producing | .finishing | .cancelling | .packed => true
  | .idle | .released | .closed | .cancelled => false

/-- The Order Book's answer to a bag within tolerance (R98). -/
inductive BagAnswer where
  | counted
  | surplus
  | ignored
  deriving DecidableEq, Repr

/-- The largest value of a 16-bit count field. -/
def countMax : Nat := 2 ^ 16 - 1

/-- A bag within the bag tolerance (R98, R99). -/
def Mill.acceptBag (m : Mill) (o : Option (Fin 256)) : Mill × BagAnswer :=
  match o with
  | none => (m, .ignored)
  | some o =>
    let x := m.order o
    if !x.state.counts then (m, .ignored)
    else if (x.entry.map (·.bagCount)).getD 0 ≤ x.bagsPacked then (m, .surplus)
    else ((m.updOrder o (fun x => { x with bagsPacked := x.bagsPacked + 1 })).judgePacked o, .counted)

/-- A bag outside the bag tolerance (R98). -/
def Mill.rejectBag (m : Mill) (o : Option (Fin 256)) : Mill :=
  match o with
  | none => m
  | some o =>
    if (m.order o).state.counts then
      (m.updOrder o (fun x => { x with bagsRejected := min countMax (x.bagsRejected + 1) })).judgePacked o
    else m

/-- A bulk mass booked to a compartment of the order (R98, R99). -/
def Mill.reportBulk (m : Mill) (o : Option (Fin 256)) (mass : Nat) : Mill :=
  match o with
  | none => m
  | some o =>
    if (m.order o).state.counts then
      (m.updOrder o (fun x => { x with loaded := min massMax (x.loaded + mass) })).judgePacked o
    else m

/-- A cancel from PRODUCING or FINISHING taken: CANCELLING, off the release list (R95). -/
def Mill.beginCancel (m : Mill) (o : Fin 256) : Mill :=
  (m.leaveList o).updOrder o ({ · with state := .cancelling, endReason := .host, wait := .none })

/-- The cancel handed to the four blocks in order (R95); the order may be CANCELLED at once (R97). -/
def Mill.handCancel (m : Mill) (o : Fin 256) : Mill :=
  let m1 := (m.removeBatches (m.queuedOf o)).cancelBatch o
  ((m1.markOrder o .cancelled).cancelLine o).judgeCancelled o

/-- A cancel from RELEASED (R95): CANCELLED at once, the entry given up, the marking issued. -/
def Mill.cancelReleased (m : Mill) (o : Fin 256) : Mill :=
  ((m.leaveList o).giveUp o ({ · with state := .cancelled, endReason := .host, wait := .none })).markOrder o .cancelled

end Sys2Proof.Machine
end

