-- ==== Sys2Proof/Machine/PackOut.lean ====
section
/-! DEFINITION. The Pack-out Controller (09_bagging_and_bulk_loadout.md): bagger, bags, fills, spout watch. -/

namespace Sys2Proof.Machine

/-! ### Controllers (R167) -/

/-- A change of the bagger, its changed unit words posted. -/
def Mill.updBagger (m : Mill) (f : Bagger → Bagger) : Mill :=
  let old := m.pack.bagger
  let new := f old
  { m with pack := { m.pack with bagger := new } }.postChanged .packOut .unit 6 [2, 3] old.word new.word

/-- A change of the loadout, its changed unit words posted. -/
def Mill.updLoadout (m : Mill) (f : Loadout → Loadout) : Mill :=
  let old := m.pack.loadout
  let new := f old
  { m with pack := { m.pack with loadout := new } }.postChanged .packOut .unit 7 [2, 3] old.word new.word

/-! ### The bagger (R169, R170, R174) -/

/-- The outcomes of the bagger's judgement (R170). -/
inductive BagOutcome where
  | waitLot
  | divert
  | blocked
  | bagging (o : Fin 256) (bagMass : Nat)
  deriving DecidableEq, Repr

/-- A remainder at the head is closed (R169). -/
def Mill.closedRemainder (m : Mill) (o : Fin 256) : Bool :=
  decide (1 < (m.lotsOf .bag).length) || ((m.order o).state = .finishing && !m.pelletHolds o)

/-- The judgement of the bag surge's head lot (R170); a BLOCKED bagger needs twice the bag mass of room. -/
def Mill.bagOutcome (m : Mill) : BagOutcome :=
  match m.headLot .bag with
  | some ⟨some o, .none, mass⟩ =>
    let bag := (m.order o).bagMass
    if mass < bag then (if m.closedRemainder o then .divert else .waitLot)
    else if m.reworkRoom < bag then .blocked
    else if m.pack.bagger.state = .blocked && decide (m.reworkRoom < 2 * bag) then .blocked
    else .bagging o bag
  | _ => .waitLot

/-- The bagger out of BAGGING: STOP, no order, its draw claim ended (R169). -/
def Mill.stopBagger (m : Mill) (s : BaggerState) : Mill :=
  let m1 := m.updBagger ({ · with state := s, order := none, bagMass := 0 })
  if m.pack.bagger.state = .bagging then m1.endClaim .bag else m1

/-- The Pack-out Controller tells the Status Unit whether an outlet waits for a lot before a head lot (R167, R197). -/
def Mill.reportWait (m : Mill) : Mill :=
  { m with reports := m.reports ++ [.condition .headWait (m.holds .headWait)] }

/-- The outcome of the bagger's judgement carried out (R170, R174). -/
def Mill.takeBagOutcome (m : Mill) : Mill :=
  match m.bagOutcome with
  | .waitLot => m.stopBagger .waitLot
  | .divert => (m.stopBagger .waitLot).claimDivert .bag
  | .blocked => m.stopBagger .blocked
  | .bagging o bag => (m.setClaim .bag).updBagger ({ · with state := .bagging, order := some o, bagMass := bag })

/-- A started bagger judges the bag surge and tells whether it waits before the head lot that its judgement leaves there, the
next one where it has diverted the head (R167, R170, log 12); an IDLE one does not. -/
def Mill.judgeBagger (m : Mill) : Mill :=
  if m.pack.bagger.state = .idle then m
  else
    let n := m.takeBagOutcome
    (n.updBagger ({ · with seesHead := (n.headLot .bag).isSome })).reportWait

/-- START of an IDLE bagger (R168): it leaves IDLE and judges its surge. -/
def Mill.startBagger (m : Mill) : Mill := (m.updBagger ({ · with state := .waitLot })).judgeBagger

/-! ### Bags (R171, R173) -/

/-- The verdict on a bag of the lot being bagged, and what it books (R171); an accepted bag that is neither counted nor
surplus goes to rework as surplus (log 20). -/
def Mill.bagVerdict (m : Mill) (credited : Option (Fin 256)) (bagMass w : Nat) : Mill × BagVerdict :=
  if w ≤ bagMass + m.plan.bagTolerance && bagMass ≤ w + m.plan.bagTolerance then
    let r := m.acceptBag credited
    match r.2 with
    | .counted => (r.1, .accepted)
    | .surplus | .ignored => (r.1.addRework w, .surplus)
  else ((m.rejectBag credited).addRework w, .rejected)

/-- The verdict and the next sequence number posted (R171, R173). -/
def Mill.postVerdict (m : Mill) (v : BagVerdict) : Mill := m.updBagger (fun b => { b with verdict := v, seq := b.seq + 1 })

/-- A BAG_CHECK sample (R171, R173). -/
def Mill.bagEvent (m : Mill) (s : Sample) : Mill :=
  if s.good && decide (0 < s.value) then
    let w := s.value.toNat
    if m.pack.bagger.state = .bagging then
      let bag := m.pack.bagger.bagMass
      let d := m.drawLots .bag w
      let r := d.1.bagVerdict (d.2.head?.join) bag w
      (r.1.postVerdict r.2).judgeBagger
    else
      let m1 := ((m.raise .unexpectedFlow).drawLots .bag w).1
      (m1.addRework w).postVerdict .stray
  else m.raise .stockDisagree

/-! ### Fills (R177 to R182) -/

/-- The outcomes of the loadout's judgement (R177). -/
inductive LoadOutcome where
  | waitTruck
  | waitLot
  | blocked
  | fill (t : Fin 8) (c : Nat) (o : Fin 256) (target : Nat)
  deriving DecidableEq, Repr

/-- The judgement of the LOADING trip and the bulk surge's head lot (R177, R178). -/
def Mill.loadOutcome (m : Mill) : LoadOutcome :=
  match m.loadingTrip with
  | none => .waitTruck
  | some t =>
    match m.headLot .bulk with
    | some ⟨some o, .none, mass⟩ =>
      let x := m.trip t
      match (x.unfilled m.plan.bulkTolerance).find? (fun c => x.compOrder c = some o) with
      | none => .waitLot
      | some c => if m.pack.loadout.channel.isFresh then .fill t c o (min (x.remaining c) mass) else .blocked
    | _ => .waitLot

/-- The outcome of the loadout's judgement carried out (R177, R178). -/
def Mill.takeLoadOutcome (m : Mill) : Mill :=
  match m.loadOutcome with
  | .waitTruck => m.updLoadout ({ · with state := .waitTruck })
  | .waitLot => m.updLoadout ({ · with state := .waitLot })
  | .blocked => m.updLoadout ({ · with state := .blocked })
  | .fill t c o target =>
    (m.setClaim .bulk).updLoadout (fun l =>
      { l with
        state := .filling
        spout := true
        truck := t.val
        comp := c
        target := target
        fill := some ⟨t, c, l.channel.value, target, some o, false⟩
        settle := none })

/-- A started loadout that is not FILLING judges the spout and tells whether it waits before a head lot (R167, R177). -/
def Mill.judgeLoadout (m : Mill) : Mill :=
  let l := m.pack.loadout
  if l.state = .idle || l.state = .filling then m
  else
    let n := m.takeLoadOutcome
    (n.updLoadout ({ · with seesHead := (n.headLot .bulk).isSome })).reportWait

/-- START of an IDLE loadout (R168). -/
def Mill.startLoadout (m : Mill) : Mill := (m.updLoadout ({ · with state := .waitTruck })).judgeLoadout

/-- A FEEDING fill cut off: STOP, the settle timer started (R179, R181). -/
def Mill.cutFill (m : Mill) : Mill :=
  match m.pack.loadout.fill with
  | some f =>
    if f.settling then m
    else m.updLoadout ({ · with spout := false, settle := some m.plan.settleTime, fill := some { f with settling := true } })
  | none => m

/-- A fill booked (R180): lots drawn, compartment raised, order credited, reference moved. Exhaustion is judged once
the fill has ended. A fill ended by RESTART makes no report to the Order Book (R181), and its lots wait for the orphan lots
that RESTART forms (R44, log 31). -/
def Mill.bookFill (m : Mill) (f : Fill) (mass : Nat) (report : Bool) : Mill :=
  let d := if report then m.drawLots .bulk mass else m.takeLots .bulk mass
  let order := (m.trip f.truck).compOrder f.comp
  let m1 := d.1.bookTrip f.truck f.comp mass
  let m2 := if report then m1.reportBulk order mass else m1
  let m3 := m2.updLoadout (fun l => { l with spoutRef := l.channel.latest })
  let m4 := m3.updLoadout ({ · with fill := none })
  if report then
    (order.toList ++ d.2.filterMap id).foldl (fun m o => m.tell (.judgeExhausted o)) m4
  else m4

/-- A fill ended at the channel's latest value (R179, R181, R182): booked when above 0, STOCK_DISAGREE when negative. -/
def Mill.endFill (m : Mill) (f : Fill) (next : LoadoutState) (report : Bool) : Mill :=
  let loaded := m.pack.loadout.channel.value - f.base
  let m1 := if 0 < loaded then m.bookFill f loaded.toNat report else m.raiseIf (decide (loaded < 0)) .stockDisagree
  let m2 := m1.updLoadout ({ · with state := next, spout := false, fill := none, settle := none, stopRequest := false })
  if report then m2.endClaim .bulk else m2.dropClaim .bulk

/-- The expiry of the loadout settle timer (R179, R181). -/
def Mill.settleFill (m : Mill) (f : Fill) : Mill :=
  if m.pack.loadout.stopRequest then m.endFill f .idle true else (m.endFill f .waitTruck true).judgeLoadout

/-- The expiry of TRUCK_NET's freshness timer (R182). -/
def Mill.truckStale (m : Mill) : Mill :=
  let m1 := m.updLoadout (fun l => { l with channel := { l.channel with fresh := none } })
  match m1.pack.loadout.fill with
  | some f => if f.settling then m1 else m1.endFill f .blocked true
  | none => m1

/-- The spout watch at a good sample while a trip is LOADING and no fill is in progress (R182). -/
def Mill.watchSpout (m : Mill) (v : Int) : Mill :=
  match m.loadingTrip with
  | none => m
  | some _ =>
    match m.pack.loadout.spoutRef with
    | none => m.updLoadout ({ · with spoutRef := some v })
    | some r =>
      m.raiseIf (m.pack.loadout.state ≠ .filling && decide (r + (m.plan.leakDelta : Int) < v)) .unexpectedFlow

/-- A TRUCK_NET sample (R176, R179, R182). -/
def Mill.truckSample (m : Mill) (s : Sample) : Mill :=
  if s.good then
    let v := s.value
    let m1 := (m.updLoadout ({ · with channel := Channel.take s m.plan.staleTime })).watchSpout v
    match m1.pack.loadout.fill with
    | some f =>
      if !f.settling && decide (f.base + (f.target : Int) - (m1.plan.spoutPreact : Int) ≤ v) then m1.cutFill else m1
    | none => if m1.pack.loadout.state = .blocked then m1.judgeLoadout else m1
  else m

/-- A trip became LOADING: the spout reference is taken afresh, also where the booking of the last fill has just set it
(log 46), and the spout judged (R177, R182). -/
def Mill.spoutGiven (m : Mill) : Mill := (m.updLoadout ({ · with spoutRef := none })).judgeLoadout

/-- The LOADING trip left LOADING: a FEEDING fill on it is cut off, else the spout judged (R177, R181). A fill that the
judgement after a booking has meanwhile begun on the next LOADING trip goes on. -/
def Mill.spoutTaken (m : Mill) : Mill :=
  match m.pack.loadout.fill with
  | some f => if (m.trip f.truck).state = .loading then m else m.cutFill
  | none => m.judgeLoadout

/-- The bulk surge's head lot changed its mark (R177, R181). -/
def Mill.bulkMarked (m : Mill) : Mill :=
  match m.headLot .bulk with
  | some l => if l.diverts then m.cutFill.judgeLoadout else m.judgeLoadout
  | none => m.judgeLoadout

end Sys2Proof.Machine
end

