-- ==== Sys2Proof/Machine/Notices.lean ====
section
/-! DEFINITION. How the blocks act on one another's notices, in arrival order (log 10), and the Action Executor's answers
(R19, R21). -/

namespace Sys2Proof.Machine

/-! ### Notices -/

/-- The route of the batch in the mixer stage leads to a bin of the kind. -/
def Mill.mixerRouteIs (m : Mill) (k : BinKind) : Bool :=
  match m.weigh.mixer.batch with
  | none => false
  | some b =>
    match toBin (m.batch b).route with
    | none => false
    | some i => (getAt m.stock.bins i).plan.kind = k

/-- The discharge claim made again, for a route to a bin of the kind (R141). -/
def Mill.reclaim (m : Mill) (k : BinKind) : Mill := if m.mixerRouteIs k then m.judgeDischarge else m

/-- A new head lot reported to the surge's consumer (R56). -/
def Mill.onHead (m : Mill) (s : Surge) : Mill :=
  match s with
  | .pellet => m.pelletSeek
  | .bag => m.judgeBagger
  | .bulk => m.judgeLoadout

/-- A mark change of the head lot reported to the surge's consumer (R161, R164, R170, R172, R177, R181). -/
def Mill.onMark (m : Mill) (s : Surge) : Mill :=
  match s with
  | .pellet => m.pelletMarked
  | .bag => m.judgeBagger
  | .bulk => m.bulkMarked

/-- The consumer of a surge (R58). -/
def Surge.consumer : Surge → Block
  | .pellet => .lineSupervisor
  | .bag | .bulk => .packOut

/-- The block that a notice is given to. An order's material is judged by the Order Book alone, for R97 and for R184
(DESIGN CHOICE, log 60). -/
def Notice.receiver (n : Notice) : Block :=
  match n with
  | .headChanged s | .headMarked s | .appended s => s.consumer
  | .surgeRoom _ | .reworkRoom | .pelletLeftTrip | .considerTake => .weighMix
  | .destRoom _ | .binLevel _ _ _ _ | .binAvailable _ _ _ => .lineSupervisor
  | .headCheck _ | .reworkFell => .stockUnit
  | .reworkLevel | .orderFinishing _ | .pelletGone | .tripLoading | .tripLeft => .packOut
  | .judgeExhausted _ => .orderBook

/-- One notice taken by its receiver. The Stock Unit tells of a fall of the REWORK level after its own re-checks (R60). -/
def Mill.onNotice (m : Mill) (n : Notice) : Mill :=
  match n with
  | .headChanged s => m.onHead s
  | .headMarked s => m.onMark s
  | .appended .bag => m.judgeBagger
  | .appended .bulk => m
  | .appended .pellet => m
  | .surgeRoom s => m.reclaim s.kind
  | .destRoom s => m.pelletUnblock s
  | .headCheck s => m.checkHead s
  | .binLevel b old new available => m.binReport b old new available
  | .binAvailable b level available => m.binReport b level level available
  | .reworkFell => (m.recheckDiverts.tell .reworkRoom).tell .reworkLevel
  | .reworkRoom => m.reclaim .rework
  | .reworkLevel => m.judgeBagger
  | .orderFinishing _ => m.judgeBagger
  | .pelletGone => m.judgeBagger
  | .pelletLeftTrip => m.reclaim .surgePellet
  | .considerTake => m.considerTake
  | .judgeExhausted o => m.judgeMaterial o
  | .tripLoading => m.spoutGiven
  | .tripLeft => m.spoutTaken

/-! ### The Action Executor's answers (R19, R21, R23) -/

/-- The ANSWER post and the zero ACTION post of an action (R21). -/
def Mill.postAnswer (m : Mill) (a : Action) (r : Answer) : Mill :=
  (m.post .actionExecutor (m.recordAddr a.record.kind a.record.idx a.record.kind.answerWord) 0xF
      (answerWord a.code r)).postNoted .actionExecutor
    (m.recordAddr a.record.kind a.record.idx a.record.kind.actionWord) 0 (.clearsMarker a.record)

/-- The action in execution answered; its entry leaves the queue when both posts have joined the lane (R21). -/
def Mill.answer (m : Mill) (r : Answer) : Mill :=
  match m.actions.queue.head? with
  | none => m
  | some a =>
    let m1 := m.postAnswer a r
    { m1 with actions := { m1.actions with inExec := .answered } }

/-- The entries of the queue not yet answered. -/
def Actions.unanswered (a : Actions) : List Action := if a.inExec = .answered then a.queue.tail else a.queue

/-- Every entry of the queue answered RESTARTED, and the queue emptied (R23, R24). -/
def Mill.answerRestarted (m : Mill) : Mill :=
  let m1 := m.actions.unanswered.foldl (fun m a => m.postAnswer a (ans resRestarted 0)) m
  { m1 with actions := { m1.actions with queue := [], inExec := .none } }

/-- The action in execution waits for the given event. -/
def Mill.awaits (m : Mill) (x : InExec) : Mill := { m with actions := { m.actions with inExec := x } }

end Sys2Proof.Machine
end

