-- ==== Sys2Proof/Machine/Tickets.lean ====
section
/-! DEFINITION. The Ticket Checker's walk (04_formula_tickets.md) and the Order Book's release (R83 to R86). -/

namespace Sys2Proof.Machine

/-! ### What a walk judges against (R70) -/

/-- The kind and class mask of a bin for the caller: the Stock Unit's book, or the load's own bins. -/
def Mill.verifyBin (m : Mill) (c : Caller) (b : Fin 48) : BinDef :=
  match c with
  | .release => (getAt m.stock.bins b).plan
  | .load => m.plan.binDefs.getD b.val .reset

/-! ### Walk stages (R70 to R73) -/

/-- A verification asked for (R70). -/
def Mill.requestVerify (m : Mill) (c : Caller) (head : Nat) : Mill :=
  { m with checker := { m.checker with requests := m.checker.requests ++ [⟨c, head⟩] } }

/-- Words of a ticket slot read by the Ticket Checker. -/
def Mill.readTicket (m : Mill) (slot : Nat) (ws : List Nat) (tag : ReadTag) : Mill :=
  ws.foldl (fun m w => m.postRead .ticketChecker (m.recordAddr .ticket slot w) tag) m

/-- The six header words of a slot read (R70). -/
def Mill.readHeader (m : Mill) (slot : Nat) : Mill := m.readTicket slot [0, 1, 2, 3, 4, 5] .ticketHeader

/-- A walk begun at its head slot. -/
def Mill.beginWalk (m : Mill) (c : Caller) (head : Nat) : Mill :=
  { m with checker := { m.checker with walk := some ⟨c, head, head, [head], 1, 0, 0, 0, [], none⟩ } }.readHeader head

/-- The walk ended, its state cleared. -/
def Mill.clearWalk (m : Mill) : Mill := { m with checker := { m.checker with walk := none } }

/-- The marks a position allows (R71). -/
def markAllowed (position : Nat) (mark : PartMark) : Bool :=
  match mark with
  | .only => position = 1
  | .first => position = 1
  | .middle => position = 2
  | .last => position = 2 || position = 3

/-- The chain goes on behind a slot of this mark. -/
def PartMark.links (p : PartMark) : Bool := p = .first || p = .middle

/-- A slot's header judged in the order of R71: the header, or none at the first failure. -/
def headerOf (position : Nat) (visited : List Nat) (ws : List Word) : Option Header :=
  match PartMark.ofCode (bits (ws.getD 0 0) 0 8) with
  | none => none
  | some mark =>
    let next := bits (ws.getD 1 0) 0 16
    let count := bits (ws.getD 2 0) 0 16
    let mix := bits (ws.getD 3 0) 0 16
    if !markAllowed position mark then none
    else if count < 1 || 24 < count then none
    else if position = 1 && (mix < 30 || 900 < mix) then none
    else if mark.links && (255 < next || visited.contains next) then none
    else some ⟨mark, next, count, (ws.getD 4 0).extractLsb' 0 16⟩

/-- A verdict of R73 on a slot. -/
def slotFault (r : BitVec 8) (slot low : Nat) : Verdict := .fail (ans r (slot * 256 + low))

/-- The sum of R69, modulo 65,536. -/
def checkSum (count : Nat) (ws : List Word) : BitVec 16 :=
  BitVec.ofNat 16 (count + (ws.map (fun w => bits w 0 16 + bits w 16 16)).sum)

/-- The fields of a line word (12.4). -/
def linePartsOf (w : Word) : Nat := bits w 0 16
def lineBinOf (w : Word) : Nat := bits w 16 8
def lineToleranceOf (w : Word) : Nat := bits w 24 4
def lineScaleOf (w : Word) : Nat := bits w 28 4

/-- A used line judged in the order of R72: the failing code, or the bin and scale. -/
def Mill.judgeLine (m : Mill) (c : Caller) (w : Word) : (Fin 48 × Scale) ⊕ BitVec 8 :=
  match toBin (lineBinOf w) with
  | none => .inr resTicketBin
  | some b =>
    if !(m.verifyBin c b).kind.ingredient then .inr resTicketBin
    else
      let sc : Option Scale :=
        if lineScaleOf w = 1 then some .one
        else if lineScaleOf w = 2 && m.presentUnit 1 then some .two
        else none
      match sc with
      | none => .inr resTicketBin
      | some sc => if 10000 < linePartsOf w then .inr resTicketParts else .inl (b, sc)

/-- The used lines of a slot judged in order; each that passes joins the walk (R72). -/
def Mill.walkLines (m : Mill) (w : Walk) (i : Nat) : List Word → Walk ⊕ Verdict
  | [] => .inl w
  | x :: xs =>
    match m.judgeLine w.caller x with
    | .inr r => .inr (slotFault r w.slot i)
    | .inl (b, sc) =>
      m.walkLines
        { w with
          parts := w.parts + linePartsOf x
          mask := w.mask ||| (m.verifyBin w.caller b).classMask
          lines := w.lines ++ [⟨w.slot, i, b, sc, lineToleranceOf x, linePartsOf x⟩] } (i + 1) xs

/-- The end check and the chain summary (R73). -/
def endVerdict (w : Walk) : Verdict :=
  if w.parts = 10000 then .ok ⟨w.head, w.visited, w.mixTime, w.lines, w.mask⟩
  else slotFault resTicketParts w.head 0xFF

/-- What a stage of a walk comes to. -/
inductive StageEnd where
  | goesOn (m : Mill)
  | ended (m : Mill) (c : Caller) (v : Verdict)

/-- A header stage whose reads have all returned (R71). -/
def Mill.headerStage (m : Mill) (w : Walk) : StageEnd :=
  let ws := m.readsOf .ticketHeader
  let m1 := m.takeReads .ticketHeader
  match headerOf w.position w.visited ws with
  | none => .ended m1.clearWalk w.caller (slotFault resTicketChain w.slot 0xFF)
  | some h =>
    let mix := if w.position = 1 then bits (ws.getD 3 0) 0 16 else w.mixTime
    let m2 := { m1 with checker := { m1.checker with walk := some { w with header := some h, mixTime := mix } } }
    .goesOn (m2.readTicket w.slot ((List.range h.lineCount).map (8 + ·)) .ticketLines)

/-- A line stage whose reads have all returned (R72). -/
def Mill.lineStage (m : Mill) (w : Walk) (h : Header) : StageEnd :=
  let ws := m.readsOf .ticketLines
  let m1 := m.takeReads .ticketLines
  if checkSum h.lineCount ws ≠ h.check then .ended m1.clearWalk w.caller (slotFault resTicketCheck w.slot 0xFF)
  else match m1.walkLines w 0 ws with
    | .inr v => .ended m1.clearWalk w.caller v
    | .inl w1 =>
      if h.mark.links then
        let w2 := { w1 with slot := h.next, visited := w1.visited ++ [h.next], position := w1.position + 1, header := none }
        .goesOn ({ m1 with checker := { m1.checker with walk := some w2 } }.readHeader h.next)
      else .ended m1.clearWalk w.caller (endVerdict w1)

/-! ### Release (R83 to R86) -/

/-- Words of an order's record read by the Order Book: the F words, 2 to 6 (12.3). -/
def Mill.readOrderFields (m : Mill) (o : Fin 256) (tag : ReadTag) : Mill :=
  [2, 3, 4, 5, 6].foldl (fun m w => m.postRead .orderBook (m.recordAddr .order o.val w) tag) m

/-- The verify interlock ended (R78). -/
def Mill.endInterlock (m : Mill) : Mill := { m with book := { m.book with interlock := none } }

/-- A release ended by a failure: the interlock ends and the answer is given (R83 to R85). -/
def Mill.failRelease (m : Mill) (r : Answer) : Mill := m.endInterlock.answer r

/-- The F fields of an order as the confirming read returned them (12.3). -/
structure OrderFields where
  ticket : Nat
  process : Option Process
  pack : Option Pack
  bagMass : Nat
  bagCount : Nat
  ordered : Nat
  request : Nat
  deriving DecidableEq, Repr

/-- The fields of words 2 to 6 (12.3). -/
def fieldsOf (ws : List Word) : OrderFields :=
  let route := ws.getD 1 0
  let bag := ws.getD 2 0
  ⟨bits route 0 8, Process.ofCode (bits route 8 8), Pack.ofCode (bits route 16 8), bits bag 0 16, bits bag 16 16,
    bits (ws.getD 3 0) 0 24, bits (ws.getD 4 0) 0 24⟩

/-- The first failing check of R84, as its detail. -/
def Mill.fieldFault (m : Mill) (verified : Nat) (f : OrderFields) : Option Nat :=
  if f.ticket ≠ verified then some 0x100
  else if f.process.isNone || (f.process = some .pellet && !m.presentUnit 5) then some 1
  else if f.pack.isNone || (f.pack = some .bag && !m.presentUnit 6) || (f.pack = some .bulk && !m.presentUnit 7) then
    some 2
  else if f.pack = some .bag then
    (if f.bagMass < 50 || 500 < f.bagMass then some 3 else if f.bagCount < 1 || 4000 < f.bagCount then some 4 else none)
  else if f.ordered < 5000 || 600000 < f.ordered then some 5
  else none

/-- n truncated down to a multiple of u. -/
def roundDown (n u : Nat) : Nat := if u = 0 then n else n / u * u

/-- The four quantities of R85: size unit, planned mass, batch size, make-up floor. -/
structure Quantities where
  unit : Nat
  planned : Nat
  batchSize : Nat
  floor : Nat
  deriving DecidableEq, Repr

/-- The quantities of an order (R85). -/
def quantitiesOf (f : OrderFields) (batchMin batchMax : Nat) : Quantities :=
  let u := if f.pack = some .bag then f.bagMass else 100
  let p := if f.pack = some .bag then f.bagCount * f.bagMass else roundUp f.ordered u
  let request := if f.request = 0 then batchMax else min f.request batchMax
  ⟨u, p, roundDown request u, roundUp batchMin u⟩

/-- The first failing mass rule of R85, as its detail. -/
def massFault (q : Quantities) (batchMin : Nat) : Option Nat :=
  if q.planned < batchMin then some 1
  else if q.batchSize < batchMin then some 2
  else if q.batchSize < q.planned && q.batchSize < batchMin + q.floor then some 3
  else none

/-- A release completed in one step (R86); the order's words are posted before the use count words (log 41). -/
def Mill.completeRelease (m : Mill) (o : Fin 256) (f : OrderFields) (q : Quantities) (c : Chain) : Mill :=
  let m1 := m.updOrder o (fun x =>
    { x with
      state := .released
      wait := .none
      endReason := .none
      classMask := c.mask
      batchesDone := 0
      planned := q.planned
      scheduled := q.planned
      remaining := q.planned
      inFlight := 0
      completed := 0
      bagsPacked := 0
      bagsRejected := 0
      loaded := 0
      entry := some ⟨f.process, f.pack, f.bagMass, f.bagCount, f.ordered, f.request, q.unit, q.batchSize, q.floor, some c, c.slots, 0⟩ })
  let m2 := ((m1.raiseUse c.slots).endInterlock).joinList o
  (m2.answer (ans resOk c.slots.length)).askPass

/-- The confirming read judged (R84, R85). -/
def Mill.confirmRelease (m : Mill) (o : Fin 256) (c : Chain) (ws : List Word) : Mill :=
  let f := fieldsOf ws
  match m.fieldFault c.head f with
  | some d => m.failRelease (ans resFieldRange d)
  | none =>
    let q := quantitiesOf f m.plan.batchMin m.plan.batchMax
    match massFault q m.plan.batchMin with
    | some d => m.failRelease (ans resMassRange d)
    | none => m.completeRelease o f q c

/-- The order of the action at the queue head. -/
def Mill.headSlot (m : Mill) : Option (Fin 256) := m.actions.queue.head?.bind (fun a => toSlot a.record.idx)

/-- A verdict taken by the Order Book (R83, R84). -/
def Mill.releaseVerdict (m : Mill) (v : Verdict) : Mill :=
  match v with
  | .fail a => m.failRelease a
  | .ok c =>
    match m.headSlot with
    | none => m
    | some o => (m.readOrderFields o .confirming).awaits (.releaseConfirm c)

/-- A verdict returned to its caller (R73). -/
def Mill.deliver (m : Mill) (c : Caller) (v : Verdict) : Mill :=
  match c with
  | .release => m.releaseVerdict v
  | .load =>
    match m.plan.load with
    | .stage3 item _ => { m with plan := { m.plan with load := .stage3 item (some v) } }
    | _ => m

/-- A stage's outcome as the blocks' next state. -/
def StageEnd.mill (e : StageEnd) : Mill :=
  match e with
  | .goesOn m => m
  | .ended m c v => m.deliver c v

end Sys2Proof.Machine
end

