-- ==== Sys2Proof/Machine/Plan.lean ====
section
/-! DEFINITION. The Plan Controller's control requests and load checks (02_the_plan.md, R26 to R39). -/

namespace Sys2Proof.Machine

/-! ### Control requests (R27, R28) -/

/-- The plan result codes (R28). -/
def planOk : Nat := 0x00
def planBusy : Nat := 0x01
def planBadControl : Nat := 0x02
def planWindowAlign : Nat := 0x03
def planWindowOverlap : Nat := 0x04
def planConstantRange : Nat := 0x05
def planChannelConflict : Nat := 0x06
def planChannelMissing : Nat := 0x07
def planBinDef : Nat := 0x08
def planRuleBad : Nat := 0x09
def planLineDef : Nat := 0x0A

/-- The plan control codes (R28). -/
def controlOpen : BitVec 8 := 1
def controlClose : BitVec 8 := 2
def controlRestart : BitVec 8 := 3

/-- A result of a control request: code and index. -/
structure PlanResult where
  code : Nat
  index : Nat
  deriving DecidableEq, Repr

/-- PLAN_STATE posted. -/
def Mill.postPlanState (m : Mill) (region : Addr) : Mill :=
  m.post .planController (addrPlus region 1) 0xF (wordOf [(m.plan.state.code, 0, 8)])

/-- PLAN_STATE, PLAN_RESULT and the zero control word posted; the request stays pending until the zero lands (R27). -/
def Mill.postOutcome (m : Mill) (region : Addr) (r : PlanResult) : Mill :=
  let m1 := (m.postPlanState region).post .planController (addrPlus region 2) 0xF
    (wordOf [(r.code, 0, 8), (r.index, 16, 16)])
  let m2 := m1.postNoted .planController region 0 .clearsControl
  { m2 with plan := { m2.plan with control := m2.plan.control.map (fun c => { c with stage := .answered }) } }

/-- The control request whose row is not yet taken. -/
def PlanCtl.requested (p : PlanCtl) : Option (BitVec 8) :=
  match p.control with
  | some ⟨code, .requested⟩ => some code
  | _ => none

/-- A pairing of code and plan state that R28 gives an outcome other than BAD_CONTROL. -/
def controlFits (code : BitVec 8) (s : PlanState) : Bool :=
  (code = controlOpen && (s = .unplanned || s = .running))
    || (code = controlClose && (s = .unplanned || s = .opened))
    || (code = controlRestart && s = .running)

/-! ### Idle check of reopen (R30) -/

/-- The unit of the present working line of lowest index, if any. -/
def Mill.workingUnit (m : Mill) : Option Nat :=
  (allLines.find? (fun l => m.presentLine l && (m.lineCtl l).state.works)).map lineUnit

/-- A started bagger or loadout that is not in WAIT_LOT, as its unit index (R30). -/
def Mill.busyOutlet (m : Mill) : Option Nat :=
  if m.pack.bagger.state = .bagging || m.pack.bagger.state = .blocked then some 6
  else match m.pack.loadout.state with
    | .waitTruck | .filling | .blocked => some 7
    | .idle | .waitLot => none

/-- The index of BUSY for a mill that is not idle (R30). -/
def Mill.busyIndex (m : Mill) : Option Nat :=
  match findAt m.book.orders (fun o => o.state.active) with
  | some o => some (0x100 + o.val)
  | none =>
    match findAt m.seq.batches (fun b => !b.state.final) with
    | some b => some (0x200 + b.val)
    | none =>
      match m.workingUnit with
      | some u => some (0x300 + u)
      | none =>
        match findAt m.trips.trips (fun t => t.state = .arrived || t.state = .loading) with
        | some t => some (0x400 + t.val)
        | none => m.busyOutlet.map (0x500 + ·)

/-! ### Stage 1: windows, constants, roles (R33 to R35) -/

/-- The alignment of each window (R33). -/
def windowAlign (k : RecordKind) : Nat :=
  match k with
  | .order => 16384
  | .ticket => 32768
  | .bin => 4096
  | .unit => 512
  | .batch => 2048
  | .truck => 512
  | .reading => 256
  | .status => 256

/-- The base of a kind's window. -/
def PlanCtl.baseOf (p : PlanCtl) (k : RecordKind) : Nat := p.const (4 + k.window.val)

/-- Two spans share a byte. -/
def spansMeet (a alen b blen : Nat) : Bool := decide (a < b + blen) && decide (b < a + alen)

/-- The check of R33. -/
def PlanCtl.checkWindows (p : PlanCtl) (region : Addr) : Option PlanResult :=
  match RecordKind.all.find? (fun k => p.baseOf k % windowAlign k ≠ 0) with
  | some k => some ⟨planWindowAlign, k.window.val⟩
  | none =>
    (RecordKind.all.find? (fun k =>
      spansMeet (p.baseOf k) k.span region.toNat 4096
        || (RecordKind.all.filter (fun j => j.window < k.window)).any (fun j =>
          spansMeet (p.baseOf k) k.span (p.baseOf j) j.span))).map (fun k => ⟨planWindowOverlap, k.window.val⟩)

/-- The range of a constant by its word (R34), in the unit it is held in; none where any value will do. -/
def PlanCtl.constRange (p : PlanCtl) (w : Nat) : Option (Nat × Nat) :=
  match w with
  | 12 => some (1000, 20000)
  | 13 => some (max 5000 (2 * p.batchMin), 80000)
  | 14 => some (10, 600)
  | 15 => some (5, 300)
  | 16 => some (200, 10000)
  | 17 => some (1, 60)
  | 18 => some (1, 500)
  | 19 => some (5, 1000)
  | 20 => some (10, 2000)
  | 21 => some (1, 120)
  | 22 => some (100, 5000)
  | 23 => some (1, 20)
  | 24 => some (10, 2000)
  | 25 => some (0, 1000)
  | 26 => some (60, 3600)
  | 27 => some (30, 1800)
  | 28 => some (5, 120)
  | 29 => some (100, 20000)
  | 30 => some (100, 20000)
  | 32 => some (0, 255)
  | 33 => some (p.batchMin, p.batchMax)
  | _ => none

/-- A constant lies in its range. -/
def PlanCtl.constOk (p : PlanCtl) (w : Nat) : Bool :=
  match p.constRange w with
  | none => true
  | some (lo, hi) => decide (lo ≤ p.const w) && decide (p.const w ≤ hi)

/-- A tolerance class lies in its ranges (R34). -/
def PlanCtl.toleranceOk (p : PlanCtl) (c : Nat) : Bool :=
  decide (p.toleranceAbs c ≤ 500) && decide (p.tolerancePerMille c ≤ 50)

/-- The check of R34: constants in word order, then the tolerance table. -/
def PlanCtl.checkConstants (p : PlanCtl) : Option PlanResult :=
  match ((List.range 22).map (12 + ·)).find? (fun w => !p.constOk w) with
  | some w => some ⟨planConstantRange, w⟩
  | none => ((List.range 16).find? (fun c => !p.toleranceOk c)).map (fun c => ⟨planConstantRange, 40 + c⟩)

/-- The unassigned channel value (R35). -/
def unassigned : Nat := 0xFF

def PlanCtl.assigned (p : PlanCtl) (r : Nat) : Bool := p.channel r ≠ unassigned

/-- The role is unassigned where its unit needs it: SCALE1's scale and the mixer always, another unit when it has some of
its roles (R35). -/
def PlanCtl.roleMissing (p : PlanCtl) (r : Role) : Bool :=
  !p.assigned r && (r = 0 || r = 2 || (unitRoles (roleUnit r)).any (fun q => p.assigned q))

/-- The checks of R35 at one role. -/
def PlanCtl.checkRole (p : PlanCtl) (r : Role) : Option PlanResult :=
  if 63 < p.channel r && p.assigned r then some ⟨planConstantRange, 120 + r⟩
  else if p.assigned r && (List.range r).any (fun q => p.channel q = p.channel r) then some ⟨planChannelConflict, r⟩
  else if p.roleMissing r then some ⟨planChannelMissing, r⟩
  else none

/-- The check of R35, in role order (log 14). -/
def PlanCtl.checkRoles (p : PlanCtl) : Option PlanResult := (List.finRange 13).findSome? p.checkRole

/-- The presence that the roles give (R35). -/
def PlanCtl.presence (p : PlanCtl) : Vector Bool 8 :=
  Vector.ofFn (fun u : Fin 8 => (unitRoles u).all (fun r => p.assigned r))

/-- The checks of stage 1. -/
def PlanCtl.checkStage1 (p : PlanCtl) (region : Addr) : Option PlanResult :=
  (p.checkWindows region).or (p.checkConstants.or p.checkRoles)

/-! ### Stage 2: bins (R36) -/

/-- A bin's plan fields from its words 2 to 5 (12.5). -/
def binDefOf (ws : List Word) (kind : BinKind) : BinDef :=
  let w2 := ws.getD 0 0
  ⟨kind, w2.extractLsb' 0 16, bits (ws.getD 1 0) 0 24, bits (ws.getD 2 0) 0 24, bits (ws.getD 3 0) 0 24, bits w2 16 16⟩

/-- A bin's marks and preact maximum pass (R36). -/
def BinDef.ok (b : BinDef) : Bool :=
  b.kind = .unused
    || (decide (b.low < b.high) && decide (b.high ≤ b.capacity) && decide (b.preactMax ≤ b.capacity))

/-- The bins of their P words, four words a bin, up to the first that fails (R36). -/
def readBins (words : List Word) : List BinDef ⊕ Nat :=
  (List.range 48).foldl (fun acc i =>
    match acc with
    | .inr n => .inr n
    | .inl bs =>
      let ws := (words.drop (4 * i)).take 4
      match BinKind.ofCode (bits (ws.getD 1 0) 24 8) with
      | none => .inr i
      | some k => if (binDefOf ws k).ok then .inl (bs ++ [binDefOf ws k]) else .inr i) (.inl [])

/-- The number of bins of a kind. -/
def kindCount (bs : List BinDef) (k : BinKind) : Nat := (bs.filter (fun b => b.kind = k)).length

/-- A kind's count is allowed: exactly one REWORK, one surge for a present consumer, at most one for an absent one. -/
def Mill.countOk (m : Mill) (bs : List BinDef) (k : BinKind) : Bool :=
  let n := kindCount bs k
  let surge (u : Nat) : Bool := if m.presentUnit u then n = 1 else decide (n ≤ 1)
  match k with
  | .rework => n = 1
  | .surgePellet => surge 5
  | .surgeBag => surge 6
  | .surgeBulk => surge 7
  | .unused | .raw | .ground | .premix => true

/-- The capacity of the REWORK bin. -/
def reworkCapacity (bs : List BinDef) : Nat := ((bs.find? (fun b => b.kind = .rework)).map (·.capacity)).getD 0

/-- The counts and the surge capacities (R36). -/
def Mill.checkKinds (m : Mill) (bs : List BinDef) : Option PlanResult :=
  match [BinKind.surgePellet, .surgeBag, .surgeBulk, .rework].find? (fun k => !m.countOk bs k) with
  | some k => some ⟨planBinDef, 0x100 + k.code⟩
  | none =>
    (bs.findIdx? (fun b => b.kind.isSurge && decide (reworkCapacity bs < b.capacity))).map (fun i => ⟨planBinDef, i⟩)

/-! ### Stage 3: rules (R37) -/

/-- What the rules from item n on come to: a failure, a chain to verify, or the end. -/
inductive RuleStep where
  | bad (item : Nat)
  | verify (item head : Nat)
  | finished
  deriving DecidableEq, Repr

/-- A rule is checked only when neither set is empty (R37). -/
def PlanCtl.ruleChecked (p : PlanCtl) (n : Nat) : Bool := p.ruleFrom n ≠ 0 && p.ruleTo n ≠ 0

/-- The rules of the list, in rule number order, then the default flush, item 32 (R37). -/
def PlanCtl.nextRule (p : PlanCtl) : List Nat → RuleStep
  | [] => .finished
  | n :: ns =>
    if n = 32 then .verify 32 p.flushTicket
    else if !p.ruleChecked n then p.nextRule ns
    else if p.ruleTreatment n = forbidCode then p.nextRule ns
    else if p.ruleTreatment n ≠ flushCode then .bad n
    else if p.ruleMass n < p.batchMin || p.batchMax < p.ruleMass n then .bad n
    else .verify n (p.ruleTicket n)

/-- The items from n on. -/
def rulesFrom (n : Nat) : List Nat := (List.range 33).drop n

/-! ### Stage 4: lines (R38) -/

/-- The parameter block of a line passes (R38); the adjust step is judged when adjust is enabled, the delay always
(log 14). -/
def PlanCtl.blockOk (p : PlanCtl) (l : Line) : Bool :=
  decide (p.ceilingMax l ≤ 1000) && decide (p.ceilingMin l ≤ p.ceilingMax l) && decide (p.rateFloor l ≤ p.ceilingMin l)
    && decide (p.loadTop l < p.loadTrip l)
    && decide (1 ≤ p.adjustDelay l) && decide (p.adjustDelay l ≤ 4)
    && (!p.adjustOn l || (decide (1 ≤ p.adjustStep l) && decide (p.adjustStep l ≤ 1000)))
    && (l ≠ .pellet || (decide (p.spanCode l ≤ 3) && decide (p.curveStart l < p.tempTrip l)))

/-- The parameter copies of a line's unit record, words 6 to 10, as stage 2 read them, equal the block (R38). -/
def PlanCtl.copyOk (p : PlanCtl) (l : Line) (copy : List Word) : Bool :=
  (List.range 5).all (fun k => copy.getD k 0 = p.block l k)

/-- The present lines, in unit order. -/
def Mill.presentLines (m : Mill) : List Line := allLines.filter m.presentLine

/-- The check of R38 over the present lines and their copies, five words a line. -/
def PlanCtl.checkLines (p : PlanCtl) : List Line → List Word → Option PlanResult
  | [], _ => none
  | l :: ls, ws =>
    if p.blockOk l && p.copyOk l (ws.take 5) then p.checkLines ls (ws.drop 5) else some ⟨planLineDef, lineUnit l⟩

/-! ### Reads of the stages (R32) -/

/-- Words of the plan region read. -/
def Mill.readRegion (m : Mill) (region : Addr) : Mill :=
  ((List.range 180).map (4 + ·)).foldl (fun m w => m.postRead .planController (addrPlus region w) .loadStage) m

/-- Words of a record read for a load stage. -/
def Mill.readRecord (m : Mill) (k : RecordKind) (idx : Nat) (ws : List Nat) (tag : ReadTag) : Mill :=
  ws.foldl (fun m w => m.postRead .planController (m.recordAddr k idx w) tag) m

/-- Words of every record of a kind read. -/
def Mill.readAll (m : Mill) (k : RecordKind) (ws : List Nat) : Mill :=
  (List.range k.count).foldl (fun m i => m.readRecord k i ws .loadStage) m

/-- The reads of stage 2: P words of the bins and of the present lines' unit records. -/
def Mill.readStage2 (m : Mill) : Mill :=
  m.presentLines.foldl (fun m l => m.readRecord .unit (lineUnit l) [6, 7, 8, 9, 10] .loadStage)
    (m.readAll .bin [2, 3, 4, 5])

/-- How many words stage 2 reads. -/
def Mill.stage2Size (m : Mill) : Nat := 192 + 5 * m.presentLines.length

/-- The retained words of a bin, an order and a truck (stage 5 of R32). -/
def binRetained : List Nat := [6, 9]
def orderRetained : List Nat := [3, 4, 5, 7, 8, 9, 10, 11, 12, 13, 14, 15]
def truckRetained : List Nat := [2, 3, 4, 5, 6, 7, 8, 9, 10, 11, 12, 13, 14, 15]

/-- The reads of stage 5. -/
def Mill.readStage5 (m : Mill) : Mill :=
  (((m.readAll .bin binRetained).readRecord .status 0 [2] .loadStage).readAll .order orderRetained).readAll .truck
    truckRetained

/-- How many words stage 5 reads. -/
def stage5Size : Nat := 48 * 2 + 1 + 256 * 12 + 8 * 14

/-- The load at a phase. -/
def Mill.atPhase (m : Mill) (p : LoadPhase) : Mill := { m with plan := { m.plan with load := p } }

/-! ### The end of a load (R39) -/

/-- A load that fails a check ends OPEN; its plan copy is discarded (R39). -/
def Mill.failLoad (m : Mill) (region : Addr) (r : PlanResult) : Mill :=
  let p : PlanCtl := { PlanCtl.reset with state := .opened, control := m.plan.control }
  { m with plan := p }.postOutcome region r

/-! ### Stages as steps -/

/-- What a load stage comes to: it goes on, or a check fails. -/
inductive LoadEnd where
  | goesOn (m : Mill)
  | fails (m : Mill) (r : PlanResult)

/-- The rules from item n on, then the lines, then the reads of stage 5 (R37, R38). -/
def Mill.loadRules (m : Mill) (n : Nat) : LoadEnd :=
  match m.plan.nextRule (rulesFrom n) with
  | .bad k => .fails m ⟨planRuleBad, k⟩
  | .verify k head => .goesOn ((m.atPhase (.stage3 k none)).requestVerify .load head)
  | .finished =>
    match m.plan.checkLines m.presentLines m.plan.unitWords with
    | some r => .fails m r
    | none => .goesOn (m.readStage5.atPhase .stage5)

/-- The checks of stage 1 on the words returned (R33 to R35). -/
def Mill.loadStage1 (m : Mill) (region : Addr) : LoadEnd :=
  let m1 := m.takeReads .loadStage
  let p := { m1.plan with words := m.readsOf .loadStage }
  match p.checkStage1 region with
  | some r => .fails m1 r
  | none => .goesOn ({ m1 with plan := { p with present := p.presence } }.readStage2.atPhase .stage2)

/-- The checks of stage 2 on the words returned (R36); the rules follow. -/
def Mill.loadStage2 (m : Mill) : LoadEnd :=
  let ws := m.readsOf .loadStage
  let m1 := m.takeReads .loadStage
  match readBins (ws.take 192) with
  | .inr i => .fails m1 ⟨planBinDef, i⟩
  | .inl bs =>
    match m1.checkKinds bs with
    | some r => .fails m1 r
    | none =>
      { m1 with
        plan := { m1.plan with
          binDefs := bs
          unitWords := ws.drop 192
          flushChains := List.replicate 32 none
          defaultFlush := none } }.loadRules 0

/-- A verdict on a flush chain (R37); the next rule follows. -/
def Mill.loadStage3 (m : Mill) (item : Nat) (v : Verdict) : LoadEnd :=
  match v with
  | .fail _ => .fails m ⟨planRuleBad, item⟩
  | .ok c =>
    let p := if item = 32 then { m.plan with defaultFlush := some c }
      else { m.plan with flushChains := m.plan.flushChains.set item (some c) }
    { m with plan := p }.loadRules (item + 1)

end Sys2Proof.Machine
end

