-- ==== Sys2Proof/Machine/Adoption.lean ====
section
/-! DEFINITION. Adoption and the sweep (R40 to R42), link walks (R79), reopen (R30) and RESTART (R43, R44). -/

namespace Sys2Proof.Machine

/-! ### Retained words of stage 5 (R32) -/

/-- The retained words of record i of a group that starts at word from. -/
def retained (ws : List Word) (start size i : Nat) : List Word := (ws.drop (start + size * i)).take size

def retainedBin (ws : List Word) (i : Nat) : List Word := retained ws 0 2 i
def retainedEnable (ws : List Word) : Word := ws.getD 96 0
def retainedOrder (ws : List Word) (i : Nat) : List Word := retained ws 97 12 i
def retainedTruck (ws : List Word) (i : Nat) : List Word := retained ws (97 + 256 * 12) 14 i

/-- Word w of an order's retained words. -/
def orderWordOf (ws : List Word) (w : Nat) : Word := ws.getD (orderRetained.findIdx (· = w)) 0

/-- The retained state of an order, none for an unknown code. -/
def retainedState (ws : List Word) : Option OrderState := OrderState.ofCode (bits (orderWordOf ws 7) 0 8)

/-! ### Link walks (R79) -/

/-- The slots whose retained state is PACKED, the first 64 in slot order (R41). -/
def packedSlots (ws : List Word) : List Nat :=
  ((List.range 256).filter (fun i => retainedState (retainedOrder ws i) = some .packed)).take Config.activeOrders

/-- The link walks to make, one for each adopted PACKED order. -/
def linkWalks (ws : List Word) : List LinkWalk :=
  (packedSlots ws).map (fun i =>
    let head := bits (orderWordOf (retainedOrder ws i) 3) 0 8
    ⟨i, head, [head]⟩)

/-- The part mark and next slot of a walk's slot read. -/
def Mill.readLink (m : Mill) (slot : Nat) : Mill :=
  [0, 1].foldl (fun m w => m.postRead .ticketChecker (m.recordAddr .ticket slot w) .linkWalk) m

/-- A walk after the mark and link of its slot have returned: on to the next slot, or ended (R79). -/
def LinkWalk.next (k : LinkWalk) (ws : List Word) : Option LinkWalk :=
  match PartMark.ofCode (bits (ws.getD 0 0) 0 8) with
  | none => none
  | some mark =>
    let link := bits (ws.getD 1 0) 0 16
    if markAllowed k.reached.length mark && mark.links && decide (link ≤ 255) && !k.reached.contains link then
      some { k with slot := link, reached := k.reached ++ [link] }
    else none

/-! ### Adoption (R40 to R42) -/

/-- A bin adopted, and whether its level or preact was clamped (R40); a surge bin has no preact (R204). -/
def adoptBin (d : BinDef) (ws : List Word) : Bin × Bool :=
  let level := bits (ws.getD 0 0) 0 24
  let preact := if d.kind.isSurge then 0 else bits (ws.getD 1 0) 0 16
  let b : Bin := { Bin.reset with plan := d, level := min level d.capacity, preact := min preact d.preactMax }
  let b1 := if d.kind.isSurge then b.orphaned else b
  (b1.judge, decide (d.capacity < level) || decide (d.preactMax < preact))

/-- An order's retained words (12.3): the short bin, the end reason and the class mask are adopted with the masses and counts
(log 37); no adopted order is on the release list, so none waits (R113). -/
def retainedFields (ws : List Word) (s : OrderState) : Order :=
  let w7 := orderWordOf ws 7
  let w8 := orderWordOf ws 8
  let w14 := orderWordOf ws 14
  { state := s
    wait := .none
    shortBin := bits w7 16 8
    endReason := EndReason.ofCode (bits w7 24 8)
    classMask := w8.extractLsb' 0 16
    batchesDone := bits w8 16 16
    planned := bits (orderWordOf ws 9) 0 24
    scheduled := bits (orderWordOf ws 10) 0 24
    remaining := bits (orderWordOf ws 11) 0 24
    inFlight := bits (orderWordOf ws 12) 0 24
    completed := bits (orderWordOf ws 13) 0 24
    bagsPacked := bits w14 0 16
    bagsRejected := bits w14 16 16
    loaded := bits (orderWordOf ws 15) 0 24
    entry := none }

/-- The table entry of an order adopted PACKED (R41, R80). Its batch size request is not among the words read at load (R32),
and without a confirming read it has no size unit, batch size and make-up floor: all four are held as 0 (log 48). -/
def adoptedEntry (ws : List Word) (slots : List Nat) : OrderEntry :=
  let w3 := orderWordOf ws 3
  let w4 := orderWordOf ws 4
  ⟨Process.ofCode (bits w3 8 8), Pack.ofCode (bits w3 16 8), bits w4 0 16, bits w4 16 16,
    bits (orderWordOf ws 5) 0 24, 0, 0, 0, 0, none, slots, 0⟩

/-- An order slot adopted by its retained state (R41); walk is its finished link walk, if it is adopted PACKED. -/
def adoptOrder (ws : List Word) (walk : Option LinkWalk) : Order :=
  match retainedState ws with
  | none => .reset
  | some .packed =>
    match walk with
    | some k => { retainedFields ws .packed with entry := some (adoptedEntry ws k.reached) }
    | none => retainedFields ws .closed
  | some .idle => retainedFields ws .idle
  | some .closed => retainedFields ws .closed
  | some .cancelled => retainedFields ws .cancelled
  | some .released | some .producing | some .finishing | some .cancelling =>
    { retainedFields ws .cancelled with endReason := .reset, inFlight := 0 }

/-- A trip adopted by its retained state (R42, R186). -/
def adoptTrip (ws : List Word) : Trip :=
  let w3 := ws.getD 1 0
  let loaded : Vector Nat 6 := Vector.ofFn (fun c : Fin 6 => bits (ws.getD (8 + c) 0) 0 24)
  let copy := copyOf (ws.getD 0 0) ((ws.drop 2).take 6)
  let mark := bits w3 8 1 = 1
  match TripState.ofCode (bits w3 0 8) with
  | some .opened => ⟨.opened, loaded, mark, copy⟩
  | some .loaded => ⟨.loaded, loaded, mark, copy⟩
  | some .departed => ⟨.departed, loaded, mark, copy⟩
  | some .arrived | some .loading | none => ⟨.opened, loaded, false, copy⟩

/-- A line after load (R42): IDLE at its maximum ceiling; a kept TRIPPED line keeps ceiling and cause. An absent line's
ceiling, which R42 does not give, is 0 (log 51). -/
def Mill.adoptLine (m : Mill) (l : Line) : LineCtl :=
  let c := m.lineCtl l
  if !m.presentLine l then .reset
  else if c.state = .tripped then
    { LineCtl.reset with state := .tripped, ceiling := c.ceiling, cause := c.cause, tripOut := m.plan.tripOutOn l }
  else { LineCtl.reset with ceiling := m.plan.ceilingMax l }

/-- The Line Supervisor after load (R42, R166). -/
def Mill.adoptLines (m : Mill) : Lines :=
  ⟨{ GrinderCtl.reset with line := m.adoptLine (.grinder .a) }, { GrinderCtl.reset with line := m.adoptLine (.grinder .b) },
    { PelletCtl.reset with line := m.adoptLine .pellet }⟩

/-- The slots of the flush chains kept (R76). -/
def PlanCtl.markedSlots (p : PlanCtl) : List Nat :=
  ((p.flushChains ++ [p.defaultFlush]).map (fun c => (c.map (·.slots)).getD [])).flatten

/-- The blocks' tables adopted from the retained words and the finished link walks (R40 to R42). Fields of the scales, the
mixer, the bagger and the loadout whose value after load is not stated are 0 (log 51). -/
def Mill.adopt (m : Mill) (ws : List Word) (walks : List LinkWalk) : Mill :=
  let bins : Vector (Bin × Bool) 48 :=
    Vector.ofFn (fun i : Fin 48 => adoptBin (m.plan.binDefs.getD i .reset) (retainedBin ws i))
  let orders : Vector Order 256 :=
    Vector.ofFn (fun i : Fin 256 => adoptOrder (retainedOrder ws i) (walks.find? (fun k => k.order = i.val)))
  let uses := (walks.map (·.reached)).flatten
  { m with
    actions := ⟨[], [], .none⟩
    checker := ⟨[], none, false⟩
    stock := ⟨bins.map (·.1), [], []⟩
    book :=
      { orders := orders
        releaseList := []
        useCount := Vector.ofFn (fun t : Fin 256 => uses.count t.val)
        planMark := Vector.ofFn (fun t : Fin 256 => m.plan.markedSlots.contains t.val)
        interlock := none }
    seq := .reset
    weigh := .reset
    lines := m.adoptLines
    pack := .reset
    trips := ⟨Vector.ofFn (fun t : Fin 8 => adoptTrip (retainedTruck ws t)), [], none, none⟩
    returned := []
    reports := if bins.toList.any (·.2) then [.event .stockDisagree] else [] }

/-! ### The sweep (R40 to R42) -/

/-- The order words that changed from what memory kept, posted. -/
def Mill.sweepOrders (m : Mill) (ws : List Word) : Mill :=
  (List.finRange 256).foldl (fun m (o : Fin 256) =>
    m.postChanged .orderBook .order o.val orderWords (orderWordOf (retainedOrder ws o)) (m.order o).word) m

/-- Every slot's use count and plan mark posted (R41). -/
def Mill.sweepTickets (m : Mill) : Mill :=
  (List.finRange 256).foldl (fun m t =>
    (m.postUse t).postRecord .orderBook .ticket t.val 7 (wordOf [(bit (getAt m.book.planMark t), 0, 1)])) m

/-- Every bin's words posted, by its layout (R204). -/
def Mill.sweepBins (m : Mill) : Mill :=
  (List.finRange 48).foldl (fun m i =>
    let b := getAt m.stock.bins i
    m.postAll .stockUnit .bin i.val b.words b.word) m

/-- Every batch record's words posted, zero (R42). -/
def Mill.sweepBatches (m : Mill) : Mill :=
  (List.finRange 32).foldl (fun m b => m.postAll .batchSequencer .batch b.val batchWords (m.batch b).word) m

/-- Every unit record's words posted (R42). -/
def Mill.sweepUnits (m : Mill) : Mill :=
  let m1 := [Scale.one, .two].foldl (fun m sc =>
    m.postAll .weighMix .unit (scaleUnit sc) [2, 3] (m.scale sc).word) m
  let m2 := m1.postAll .weighMix .unit 2 [2, 3] m1.weigh.mixer.word
  let m3 := allLines.foldl (fun m l => m.postAll .lineSupervisor .unit (lineUnit l) [2, 3, 4] (m.lineWord l)) m2
  (m3.postAll .packOut .unit 6 [2, 3] m3.pack.bagger.word).postAll .packOut .unit 7 [2, 3] m3.pack.loadout.word

/-- Every truck record's words posted (R42). -/
def Mill.sweepTrucks (m : Mill) : Mill :=
  (List.finRange 8).foldl (fun m t => m.postAll .tripTable .truck t.val tripWords (m.trip t).word) m

/-- The kinds of record that carry an ACTION word (section 1.7). -/
def actionKinds : List RecordKind := [.order, .batch, .bin, .unit, .truck, .status]

/-- The 353 ACTION words posted as zero (R42). -/
def Mill.sweepActions (m : Mill) : Mill :=
  actionKinds.foldl (fun m k =>
    (List.range k.count).foldl (fun m i => m.post .actionExecutor (m.recordAddr k i k.actionWord) 0xF 0) m) m

/-- The refusal record's three words posted as zero (R40). -/
def Mill.sweepRefusal (m : Mill) : Mill :=
  [3, 4, 5].foldl (fun m w => m.post .pathUnit (m.recordAddr .status 0 w) 0xF 0) m

/-- The whole sweep but for the Status Unit's words, block by block: orders, tickets, bins, batches, units, trips, ACTION
words, refusal record (the order is the model's choice, log 47). -/
def Mill.sweep (m : Mill) (ws : List Word) : Mill :=
  (((((((m.sweepOrders ws).sweepTickets).sweepBins).sweepBatches).sweepUnits).sweepTrucks).sweepActions).sweepRefusal

/-! ### RUNNING (R39, R59, R156, R190) -/

/-- A refill-setting read of every present grinder (R156). -/
def Mill.readRefills (m : Mill) : Mill :=
  [Grinder.a, .b].foldl (fun m g => if m.presentLine (.grinder g) then m.readRefill g false else m) m

/-- The plan becomes RUNNING: the outcome is posted, refill settings are read, orphan heads are checked in the order pellet,
bag, bulk (log 40), the spout and the take are judged (R39, R59, R122, R156, R190). -/
def Mill.becomeRunning (m : Mill) (region : Addr) : Mill :=
  let m1 := { m with plan := { m.plan with state := .running, load := .idle } }.postOutcome region ⟨planOk, 0⟩
  let m2 := (m1.readRefills).judgeArbiter
  { m2 with notices := m2.notices ++ [.headCheck .pellet, .headCheck .bag, .headCheck .bulk, .considerTake] }

/-! ### Reopen (R24, R30) -/

/-- A line at reopen: state, ceiling, cause and trip output kept, everything else discarded (R30, R166). -/
def LineCtl.atReopen (c : LineCtl) : LineCtl :=
  { LineCtl.reset with state := c.state, ceiling := c.ceiling, cause := c.cause, tripOut := c.tripOut }

/-- STOP posted into the present bagger's and loadout's command fields (R30, R167); an idle mill's are both STOP already. -/
def Mill.postStops (m : Mill) : Mill :=
  let m1 := if m.presentUnit 6 then m.postAll .packOut .unit 6 [2] m.pack.bagger.word else m
  if m.presentUnit 7 then m1.postAll .packOut .unit 7 [2] m.pack.loadout.word else m1

/-- The tables discarded at reopen, the line trips kept (R30). -/
def Mill.reopen (m : Mill) : Mill :=
  let m1 := m.answerRestarted.postStops
  { m1 with
    plan := { m1.plan with state := .opened }
    checker := ⟨[], none, false⟩
    stock := .reset
    book := .reset
    seq := .reset
    weigh := .reset
    lines :=
      ⟨{ GrinderCtl.reset with line := m1.lines.grinderA.line.atReopen },
        { GrinderCtl.reset with line := m1.lines.grinderB.line.atReopen },
        { PelletCtl.reset with line := m1.lines.pellet.line.atReopen }⟩
    pack := .reset
    trips := .reset
    returned := [] }

/-! ### RESTART (R43, R44) -/

/-- A fill in progress ended at the latest value and booked, without a report (R44, R181). A booking that fills the LOADING
trip makes it LOADED (R192), and the spout is given on, before the trips are returned to OPEN (log 38). -/
def Mill.restartFill (m : Mill) : Mill :=
  match m.pack.loadout.fill with
  | some f => m.endFill f .idle false
  | none => m

/-- A non-final batch made VOID and reported final, the target of a GOOD order batch moved back (R43, R90); that report may
close a PACKED BULK order within the RESTART (log 52). -/
def Mill.voidBatch (m : Mill) (b : Fin 32) : Mill :=
  let x := m.batch b
  if x.state.final then m
  else
    let p : Block := if x.state = .queued then .batchSequencer else .weighMix
    let m1 := m.updBatch p b ({ · with state := .void, attention := .reset })
    let m2 := match x.disposition, x.order with
      | .good, some o => m1.moveBack o x.target
      | _, _ => m1
    m2.reportFinal x.order x.chain

/-- The order of a RESTART: CANCELLED, with end reason RESTART and in-flight 0 (R43). -/
def Order.atRestart (x : Order) : Order := { x with state := .cancelled, endReason := .restart, wait := .none, inFlight := 0 }

/-- An order that was active when RESTART was taken made CANCELLED by it (R43); one whose cancellation the voiding has just
ended gets its end reason (log 36). -/
def Mill.restartOrder (was m : Mill) (o : Fin 256) : Mill :=
  if (m.order o).state.active then m.giveUp o Order.atRestart
  else if (was.order o).state.active && (m.order o).state = .cancelled then m.updOrder o Order.atRestart
  else m

/-- A bin at RESTART: reserved 0, DEFICIT re-evaluated, a surge's lots one orphan lot (R43, R46). -/
def Bin.atRestart (b : Bin) : Bin :=
  let b1 := { b with reserved := 0, claim := false }
  (if b.plan.kind.isSurge then b1.orphaned else b1).judge

/-- The places of a lot list from the first changed one on (R205); none where nothing changed. -/
def placesFrom (old new : List Lot) : List Nat :=
  match (changedPlaces old new).head? with
  | none => []
  | some k => allPlaces.filter (fun p => k ≤ p)

/-- One bin's book at RESTART, changed words posted; a changed lot list posts its count and its entries from the first
changed place on (R43, R205). -/
def Mill.restartBin (m : Mill) (i : Fin 48) : Mill :=
  let old := getAt m.stock.bins i
  let new := old.atRestart
  let m1 := { m with stock := { m.stock with bins := putAt m.stock.bins i new } }.postChanged .stockUnit .bin i.val
    old.figureWords old.word new.word
  if old.lots = new.lots then m1 else m1.postLots i (placesFrom old.lots new.lots)

/-- The book at RESTART (R43). -/
def Mill.restartStock (m : Mill) : Mill :=
  (List.finRange 48).foldl (fun m i => m.restartBin i)
    { m with stock := { m.stock with table := [], waitingDiverts := [] } }

/-- The scales and the mixer at RESTART; channels are kept (R44, R144). -/
def Mill.restartWeigh (m : Mill) : Mill :=
  let m1 := [Scale.one, .two].foldl (fun m sc =>
    m.updScale sc (fun c => { ScaleCtl.reset with bin := c.bin, channel := c.channel })) m
  let m2 := m1.updMixer (fun c => { MixerCtl.reset with route := c.route, channel := c.channel })
  { m2 with weigh := { m2.weigh with batch := none, cancelled := false, limit := none } }

/-- The bagger and the loadout at RESTART (R44, R185). -/
def Mill.restartPack (m : Mill) : Mill :=
  (m.updBagger ({ · with state := .idle, order := none, bagMass := 0 })).updLoadout (fun l =>
    { l with state := .idle, spout := false, fill := none, settle := none, stopRequest := false, spoutRef := none })

/-- The trips at RESTART (R44, R195). -/
def Mill.restartTrips (m : Mill) : Mill :=
  let m1 := (List.finRange 8).foldl (fun m t =>
    if (m.trip t).state = .arrived || (m.trip t).state = .loading then
      m.updTrip t ({ · with state := .opened, limitMark := false })
    else m) m
  { m1 with trips := { m1.trips with queue := [], limit := none, arriving := none } }

/-- A line at RESTART: a working one IDLE, a TRIPPED one kept (R44, R166). The channels are kept whole: the above counts of a
TRIPPED line are 0 already (R151), and those of a line that was IDLE stand (DESIGN CHOICE, log 63). -/
def LineCtl.atRestart (c : LineCtl) : LineCtl := if c.state.works then c.rest .idle else { c with adjust := none }

/-- A grinder at RESTART: its request set when its ground bin is low, its refill setting read afresh (R156, R158). -/
def Mill.restartGrinder (m : Mill) (g : Grinder) : Mill :=
  let m1 := m.updGrinder g (fun c =>
    { c with
      line := c.line.atRestart
      starved := false
      blocked := false
      autoStart :=
        match c.refill with
        | none => c.autoStart
        | some r => r.auto && (c.autoStart || m.groundLow r) })
  (if m1.presentLine (.grinder g) then m1.readRefill g false else m1).tryAutoStart g

/-- The lines at RESTART; the pellet line drops its orders without a notice (R44, R166). -/
def Mill.restartLines (m : Mill) : Mill :=
  let m1 := m.updPellet (fun c =>
    { c with
      line := c.line.atRestart
      current := none
      productOrder := .none
      drain := none
      drainWaits := false })
  (m1.restartGrinder .a).restartGrinder .b

/-- The queue and the pass at RESTART; the hold is kept (R43, R119). -/
def Mill.restartSequence (m : Mill) : Mill :=
  { m with
    book := { m.book with releaseList := [] }
    seq := { m.seq with queue := [], reference := none, pass := .idle, again := false } }

/-- The reads of an action or a release walk, abandoned by RESTART (R23, R74). -/
def ReadTag.ofAction : ReadTag → Bool
  | .releaseFields | .ticketHeader | .ticketLines | .confirming | .countValue | .arrive => true
  | .refill _ forStart => forStart
  | .loadStage | .linkWalk | .discarded => false

/-- RESTART over the blocks (R23, R43, R44); the surges' orphan heads are checked in the order pellet, bag, bulk (log 40).
The batches are voided and the orders cancelled in slot order (log 50). -/
def Mill.restart (m : Mill) : Mill :=
  let m1 := m.restartFill
  let m2 := (List.finRange 32).foldl (fun m b => m.voidBatch b) m1
  let m3 := ((List.finRange 256).foldl (fun m o => Mill.restartOrder m1 m o) m2).restartSequence
  let m4 := m3.restartStock.answerRestarted
  let m5 := (m4.endInterlock.restartWeigh).restartPack.restartTrips.restartLines
  { m5 with
    checker := ⟨[], none, false⟩
    returned := m5.returned.filter (fun r => !r.1.ofAction)
    notices := [.headCheck .pellet, .headCheck .bag, .headCheck .bulk] }

end Sys2Proof.Machine
end

