-- ==== Sys2Proof/Machine/Settle.lean ====
section
/-! DEFINITION. The end of a step: posts offered to the lane, notices taken, reports given to the Status Unit (log 10,
log 12); which blocks a step reaches and how it waits for them (R15, log 11); and how a row runs a block (log 1). -/

namespace Sys2Proof.Machine

/-- The base of the plan region (R26). -/
def State.region (s : State) : Addr := regionBase s.strap

/-- Where an address falls by the decode that applies (R4, R5). -/
def State.place (s : State) (a : Addr) : Place := locate s.region s.windows a

/-- The words of a transaction's granted beats. -/
def TxPhase.landed (p : TxPhase) : List Addr :=
  match p with
  | .waiting => []
  | .flagBeat as => as
  | .ended as => as

/-- A processor write in progress has a surviving beat at a place, granted or not: the transaction has not completed. A beat
refused whole does not count (DESIGN CHOICE, log 61). -/
def State.writes (s : State) (p : Place → Bool) : Bool :=
  match s.tx with
  | some (.write beats _ phase) => (beats.map (·.addr) ++ phase.landed).any (fun a => p (s.place a))
  | _ => false

/-- The place lies in a record. -/
def Place.isIn (p : Place) (k : RecordKind) (idx : Nat) : Bool :=
  match p with
  | .record k' i _ => k' = k && i = idx
  | .region _ => false
  | .outside => false

/-- The place lies in a window. -/
def Place.ofKind (p : Place) (k : RecordKind) : Bool :=
  match p with
  | .record k' _ _ => k' = k
  | .region _ => false
  | .outside => false

/-- The read of an ARRIVE posted once no processor write to the record is in progress (R188). -/
def State.postArrive (s : State) : State :=
  match s.mill.trips.arriving with
  | some (t, false) =>
    if s.writes (fun p => p.isIn .truck t) then s
    else
      let m := [2, 4, 5, 6, 7, 8, 9].foldl (fun m w => m.postRead .tripTable (m.recordAddr .truck t w) .arrive) s.mill
      { s with mill := { m with trips := { m.trips with arriving := some (t, true) } } }
  | _ => s

/-- The posts made in the step offered to the lane, in order (R13 to R15). -/
def State.flush (s : State) : State :=
  let r := s.mill.outbox.foldl offer (s.lane, s.waiting)
  { s with lane := r.1, waiting := r.2, mill := { s.mill with outbox := [] } }

/-- An answered action leaves the queue when both posts have joined the lane (R21). -/
def State.popAction (s : State) : State :=
  if s.mill.actions.inExec = .answered && !s.waits .actionExecutor then
    { s with
      mill := { s.mill with
        actions := { s.mill.actions with queue := s.mill.actions.queue.tail, inExec := .none } } }
  else s

/-- The transaction completed; a write that the Ticket Checker waited for has then completed (R70, R84). -/
def State.endTx (s : State) : State :=
  { s with tx := none, mill := { s.mill with checker := { s.mill.checker with awaitsWrite := false } } }

/-- A write completes once nothing of it is left to grant and the Path Unit's posts have joined the lane (R2, R8, R9). -/
def State.completeTx (s : State) : State :=
  match s.tx with
  | some (.write [] [] .waiting) => if s.waits .pathUnit then s else s.endTx
  | some (.write _ _ (.ended _)) => if s.waits .pathUnit then s else s.endTx
  | _ => s

/-! ### Blocks that wait to post (R15) -/

/-- The blocks that post into the internal lane. -/
def Block.all : List Block :=
  [.pathUnit, .actionExecutor, .planController, .stockUnit, .ticketChecker, .orderBook, .batchSequencer, .weighMix,
    .lineSupervisor, .packOut, .tripTable, .statusUnit]

/-- What a block holds differs between two states of the mill; the number of non-final batches is the Batch Sequencer's,
whichever block owned the batch that has become final (R104). A pass or a verification asked for waits at the Batch
Sequencer or the Ticket Checker as the request it is, and the Status Unit's reports wait at it (R15, R70, R108). -/
def Mill.holdsOther (m n : Mill) (b : Block) : Bool :=
  match b with
  | .actionExecutor => m.actions ≠ n.actions
  | .planController => m.plan ≠ n.plan
  | .stockUnit => m.stock ≠ n.stock
  | .ticketChecker => m.checker.walk ≠ n.checker.walk
  | .orderBook => m.book ≠ n.book
  | .batchSequencer =>
    m.seq.queue ≠ n.seq.queue || m.seq.hold ≠ n.seq.hold || m.seq.reference ≠ n.seq.reference
      || m.seq.nonFinal ≠ n.seq.nonFinal
  | .weighMix => m.weigh ≠ n.weigh
  | .lineSupervisor => m.lines ≠ n.lines
  | .packOut => m.pack ≠ n.pack
  | .tripTable => m.trips ≠ n.trips
  | .pathUnit | .statusUnit => false

/-- A block acts in what leads from m to n: it posts, or what it holds changes. -/
def Mill.acts (m n : Mill) (b : Block) : Bool := n.outbox.any (fun e => e.poster = b) || m.holdsOther n b

/-- A block that can take no event behind the given notices: it waits to post, or one of them waits at it (R15). -/
def State.barred (s : State) (kept : List Notice) (b : Block) : Bool :=
  s.waits b || (!s.waiting.isEmpty && kept.any (fun n => n.receiver = b))

/-- A block that can take no new event: it waits to post, or an earlier event waits at it (R15). -/
def State.busy (s : State) (b : Block) : Bool := s.barred s.mill.notices b

/-- What would lead to n reaches a block that can take no event behind the given notices. -/
def State.stops (s : State) (kept : List Notice) (n : Mill) : Bool :=
  !s.waiting.isEmpty && Block.all.any (fun b => s.barred kept b && s.mill.acts n b)

/-- An event that would lead to n reaches a block that can take no event; it waits, as a whole, until it can (log 11). -/
def State.reaches (s : State) (n : Mill) : Bool := s.stops s.mill.notices n

/-- The state with one notice of its list taken and the posts offered, the others kept. -/
def State.takeNotice (s : State) (x : Notice) (others : List Notice) : State :=
  { s with mill := { s.mill with notices := others }.onNotice x }.flush

/-- The oldest notice that can be taken: its receiver can take an event behind the notices kept before it, and the event
reaches no block that cannot (R15, log 10, log 11). -/
def State.nextNotice (s : State) (kept : List Notice) : List Notice → Option (Notice × List Notice)
  | [] => none
  | x :: xs =>
    if s.barred kept x.receiver || s.stops kept ({ s.mill with notices := kept ++ xs }.onNotice x) then
      s.nextNotice (kept ++ [x]) xs
    else some (x, kept ++ xs)

/-- The notices taken from the oldest, each with those it gives rise to, at most so many (log 10). -/
def State.drain : Nat → State → State
  | 0, s => s
  | n + 1, s =>
    match s.nextNotice [] s.mill.notices with
    | none => s
    | some (x, others) => State.drain n (s.takeNotice x others)

/-- Posts, notices and reports of a step. -/
def State.settle (s : State) : State :=
  ((s.flush.drain Config.noticeFuel).settleStatus.flush.completeTx.postArrive.flush).popAction

/-- A swept load becomes RUNNING when its posts have joined the lane and no processor transaction is in progress
(R29, R39). -/
def State.readyToRun (s : State) : Bool := s.mill.plan.load = .sweeping && s.waiting.isEmpty && s.tx.isNone

/-- The window decode table filled from the plan (R39). -/
def PlanCtl.table (p : PlanCtl) : Vector Addr 8 := Vector.ofFn (fun n : Fin 8 => p.windowBase n)

/-- The plan becomes RUNNING: its windows are decoded, and refusals and flags are posted at its status window from now on
(R9, R39, R201). -/
def State.run (s : State) : State :=
  { s with
    windows := some s.mill.plan.table
    status := { s.status with base := some (s.mill.plan.windowBase RecordKind.status.window) }
    mill := s.mill.becomeRunning s.region }

/-- The end of a step. -/
def State.finish (s : State) : State :=
  let s1 := s.settle
  if s1.readyToRun then s1.run.settle else s1

/-- A step from s that has come to t: the end of the step, or s while the step reaches a block that can take no event
(R15, log 11). -/
def State.stepTo (s t : State) : State := if s.reaches t.mill then s else t.finish

/-- The state after a step that leaves the blocks as m has them. -/
def State.leaves (s : State) (m : Mill) : State := s.stepTo { s with mill := m }

/-- A row of one or more blocks: it waits while RST_N is low or one of them can take no event (R15, R31), and changes
nothing where it has no occasion (log 1). -/
def State.runMill (s : State) (owners : List Block) (f : Mill → Option Mill) : Host.Outcome State Fault Refusal :=
  if s.rstN && !owners.any s.busy then
    match f s.mill with
    | none => noOccasion s
    | some m => .next (s.leaves m)
  else noOccasion s

/-! ### Reads abandoned (R23, R24, R74) -/

/-- A read whose data will be discarded. -/
def LaneEntry.discard (p : ReadTag → Bool) (e : LaneEntry) : LaneEntry :=
  match e.op with
  | .read t => if p t then { e with op := .read .discarded } else e
  | .write _ _ _ => e

/-- The reads that p picks discarded, in the lane and in the posts that wait. -/
def State.discardReads (s : State) (p : ReadTag → Bool) : State :=
  { s with
    lane := s.lane.map (·.discard p)
    waiting := s.waiting.map (fun w => { w with posts := w.posts.map (·.discard p) }) }

/-! ### The tick (R1, log 2) -/

/-- A channel's freshness timer after a tick. -/
def Channel.tick (c : Channel) : Channel := { c with fresh := c.fresh.tick }

def ScaleCtl.tick (c : ScaleCtl) : ScaleCtl :=
  { c with stall := c.stall.tick, settle := c.settle.tick, channel := c.channel.tick }

def MixerCtl.tick (c : MixerCtl) : MixerCtl :=
  { c with mix := c.mix.tick, hold := c.hold.tick, channel := c.channel.tick }

/-- The weigh-limit timer is suspended while either scale is in ATTENTION (R134). -/
def WeighMix.suspended (w : WeighMix) : Bool := w.scale1.state = .attention || w.scale2.state = .attention

def WeighMix.tick (w : WeighMix) : WeighMix :=
  { w with
    scale1 := w.scale1.tick
    scale2 := w.scale2.tick
    mixer := w.mixer.tick
    limit := if w.suspended then w.limit else w.limit.tick }

def TripChan.tick (c : TripChan) : TripChan := { c with fresh := c.fresh.tick }

def LineCtl.tick (c : LineCtl) : LineCtl := { c with adjust := c.adjust.tick, load := c.load.tick }

def GrinderCtl.tick (c : GrinderCtl) : GrinderCtl := { c with line := c.line.tick }

/-- A timer whose end no row takes: it stops by itself (log 17). -/
def Timer.lapse (t : Timer) : Timer :=
  match t.tick with
  | some 0 => none
  | x => x

def PelletCtl.tick (c : PelletCtl) : PelletCtl :=
  { c with line := c.line.tick, temp := c.temp.tick, drain := c.drain.tick, heard := Timer.lapse c.heard }

/-- One tick of every timer of the part (R1). -/
def Mill.tick (m : Mill) : Mill :=
  { m with
    weigh := m.weigh.tick
    lines := ⟨m.lines.grinderA.tick, m.lines.grinderB.tick, m.lines.pellet.tick⟩
    pack := { m.pack with
      loadout := { m.pack.loadout with
        settle := m.pack.loadout.settle.tick, channel := m.pack.loadout.channel.tick } }
    trips := { m.trips with limit := m.trips.limit.tick } }

/-- What a step does on an empty queue: one 1 ms tick (R1, log 2). -/
def State.tick (s : State) : State := { s with mill := s.mill.tick }

end Sys2Proof.Machine
end

