-- ==== Sys2Proof/Machine/Path.lean ====
section
/-! DEFINITION. The Path Unit (01_the_memory_path.md): beat judgement, hand-off, the arbiter, grants, reset. -/

namespace Sys2Proof.Machine

/-! ### Judging a write beat (R6 to R8, R18) -/

/-- A record's F bytes are in use (R6). -/
def Mill.inUse (m : Mill) (k : RecordKind) (idx : Nat) : Bool :=
  match k with
  | .order =>
    match toSlot idx with
    | none => false
    | some o => (m.order o).state.active || (m.order o).state = .packed
  | .ticket =>
    match toSlot idx with
    | none => false
    | some t => m.book.slotInUse t
  | .unit =>
    match lineOfUnit idx with
    | some (.grinder g) => (m.grinderCtl g).line.state.grinding
    | some .pellet => false
    | none => false
  | .truck => (m.trips.trips.toList.getD idx .reset).state ≠ .opened
  | .bin | .batch | .reading | .status => false

/-- The verify interlock covers a lane of a record (R7). -/
def Mill.interlocks (m : Mill) (k : RecordKind) (idx : Nat) (cls : FieldClass) : Bool :=
  match m.book.interlock with
  | none => false
  | some o => k = .ticket || (k = .order && idx = o.val && cls = .f)

/-- What a whole word of class A or C comes to (R6, R18). -/
inductive WordVerdict where
  | refused (r : Refused)
  | plain
  | taken
  deriving DecidableEq, Repr

/-- An ACTION or control word (R6, R18, R27): taken with all four lanes and a nonzero code. -/
def judgeWord (lanes : Lanes) (data : Word) (isPending full : Bool) : WordVerdict :=
  if lanes ≠ 0xF then .refused .actionPartial
  else if isPending then .refused .actionPending
  else if bits data 0 8 = 0 then .plain
  else if full then .refused .actionQueueFull
  else .taken

/-- The decision on an ACTION word, from the marker and the queue as they stand at the decode (R18). -/
def Mill.judgeAction (m : Mill) (r : RecordRef) (lanes : Lanes) (data : Word) : WordVerdict :=
  judgeWord lanes data (m.actions.marked.contains r) (decide (Config.actionDepth ≤ m.actions.queue.length))

/-- The decision on the control word (R27). -/
def Mill.judgeControl (m : Mill) (lanes : Lanes) (data : Word) : WordVerdict :=
  judgeWord lanes data m.plan.control.isSome false

def WordVerdict.reason (v : WordVerdict) : Option Refused :=
  match v with
  | .refused r => some r
  | .plain => none
  | .taken => none

/-- The decision on a lane of the plan region: the reason it is refused, if it is (R6). -/
def Mill.judgeRegionLane (m : Mill) (w : Nat) (lanes : Lanes) (data : Word) : Option Refused :=
  if m.plan.state = .loading then some .planBusy
  else match regionClass w with
    | .c => (m.judgeControl lanes data).reason
    | .d => some .deviceField
    | .p => if m.plan.state = .opened then none else some .planField
    | .w | .f | .a | .x => none

/-- The decision on a lane of a record (R6, R7). -/
def Mill.judgeRecordLane (m : Mill) (k : RecordKind) (idx w : Nat) (lanes : Lanes) (data : Word) (lane : Nat) :
    Option Refused :=
  let cls := recordClass (m.binKind idx) k idx w lane
  if m.interlocks k idx cls then some .verifyInterlock
  else match cls with
    | .w => none
    | .x => none
    | .p => some .planField
    | .f => if m.inUse k idx then some .frozen else none
    | .d => some .deviceField
    | .a => (m.judgeAction ⟨k, idx⟩ lanes data).reason
    | .c => none

/-- The decision on a lane of a beat. -/
def State.judgeLane (s : State) (p : Place) (lanes : Lanes) (data : Word) (lane : Nat) : Option Refused :=
  match p with
  | .region w => s.mill.judgeRegionLane w lanes data
  | .record k idx w => s.mill.judgeRecordLane k idx w lanes data lane
  | .outside => none

/-- The lanes refused of those enabled. -/
def State.refusedLanes (s : State) (p : Place) (lanes : Lanes) (data : Word) : Lanes :=
  lanes &&& lanesWhere (fun l => (s.judgeLane p lanes data l).isSome)

/-- The reason a beat is reported with: the first in R8's order among its refused lanes. -/
def State.refusedFor (s : State) (p : Place) (lanes : Lanes) (data : Word) : Nat :=
  let codes := ((List.range 4).filter (fun l => lanes.getLsbD l)).filterMap
    (fun l => (s.judgeLane p lanes data l).map (·.code))
  codes.foldl min 8

/-- What the grant of a beat also does (R10). -/
def State.meaningOf (s : State) (p : Place) (lanes : Lanes) (data : Word) : BeatMeaning :=
  match p with
  | .region w => if w = 0 && s.mill.judgeControl lanes data = .taken then .control else .plain
  | .record k idx w =>
    if recordClass (s.mill.binKind idx) k idx w 0 = .x then .flags
    else if recordClass (s.mill.binKind idx) k idx w 0 = .a && s.mill.judgeAction ⟨k, idx⟩ lanes data = .taken then
      .action ⟨k, idx⟩
    else .plain
  | .outside => .plain

/-- The word a beat hands to an owner: a sample of an assigned channel written with all four lanes, or the enable word
(R10, R11). -/
def State.handoffOf (s : State) (p : Place) (lanes : Lanes) (data : Word) : Option Handoff :=
  match p with
  | .record .reading ch _ =>
    if lanes = 0xF then
      (s.mill.plan.roleOfChannel ch).map (fun r => .sample ⟨r, data.extractLsb' 0 24, data.extractLsb' 24 8⟩)
    else none
  | .record .status _ 2 => if lanes ≠ 0 then some (.enable lanes data) else none
  | _ => none

/-! ### Refusals (R8, R9, R19) -/

/-- The words of the refusal record (12.10). -/
def RefusalRecord.word (r : RefusalRecord) : Nat → Word
  | 3 => wordOf [(r.addr.toNat, 0, 24)]
  | 4 => r.data
  | 5 => wordOf [(r.lanes.toNat, 0, 4), (r.reason.toNat, 8, 8)]
  | _ => 0

/-- The refusal record overwritten and its three words posted, at the status window of the plan last RUNNING (R9). -/
def State.recordRefusal (s : State) (r : RefusalRecord) : State :=
  let posts := match s.status.base with
    | none => []
    | some base => [3, 4, 5].map (fun w => (⟨.pathUnit, addrPlus base w, .write 0xF (r.word w) .none⟩ : LaneEntry))
  { s with refusal := some r, mill := ({ s.mill with outbox := s.mill.outbox ++ posts }).raise .writeRefused }

/-- The QUEUE_FULL answer of a refused action write (R19). -/
def Mill.answerFull (m : Mill) (r : RecordRef) (data : Word) : Mill :=
  (m.post .actionExecutor (m.recordAddr r.kind r.idx r.kind.answerWord) 0xF
    (answerWord (data.extractLsb' 0 8) (ans resQueueFull Config.actionDepth))).raise .actionFull

/-- The refusal of a beat's lanes, as R8, R9 and R19 give; the refusal record's words are posted before the QUEUE_FULL
answer, an order R19 leaves open (log 50). -/
def State.refuseBeat (s : State) (a : Addr) (b : WriteBeat) (refused : Lanes) (reason : Nat) : State :=
  let s1 := s.recordRefusal ⟨a, b.data, refused, BitVec.ofNat 8 reason⟩
  match s.place a with
  | .record k idx _ =>
    if reason = Refused.actionQueueFull.code then { s1 with mill := s1.mill.answerFull ⟨k, idx⟩ b.data } else s1
  | _ => s1

/-! ### Receiving a write (R2) -/

/-- What is left of a transaction so far: its surviving beats and its words to hand off. -/
structure Judged where
  beats : List TxBeat
  handoffs : List Handoff
  deriving DecidableEq, Repr

/-- One beat decoded and judged (R2, R6, R8); a beat with no surviving lanes is dropped (R3). -/
def State.judgeBeat (s : State) (j : Judged) (a : Addr) (b : WriteBeat) : State × Judged :=
  let p := s.place a
  let refused := s.refusedLanes p b.lanes b.data
  let left := b.lanes &&& ~~~ refused
  let meaning := s.meaningOf p b.lanes b.data
  let handoff := s.handoffOf p b.lanes b.data
  let s1 := if refused = 0 then s else s.refuseBeat a b refused (s.refusedFor p b.lanes b.data)
  (s1, ⟨if left = 0 then j.beats else j.beats ++ [⟨a, left, b.data, meaning⟩], j.handoffs ++ handoff.toList⟩)

/-- The beats of a transaction judged in beat order. -/
def State.judgeBeats (s : State) (j : Judged) (base : Addr) (n : Nat) : List WriteBeat → State × Judged
  | [] => (s, j)
  | b :: bs =>
    let r := s.judgeBeat j (addrPlus base n) b
    r.1.judgeBeats r.2 base (n + 1) bs

/-! ### The arbiter (R16, R17) -/

/-- Who is granted. -/
inductive Granted where
  | processor
  | lane
  | nobody
  deriving DecidableEq, Repr

/-- The owner of the word a beat carries, beside those handed over at once (R10). -/
def BeatMeaning.owner (x : BeatMeaning) : Option Block :=
  match x with
  | .plain => none
  | .action _ => some .actionExecutor
  | .control => some .planController
  | .flags => some .statusUnit

/-- A block that a write in progress waits for before it is presented: the Path Unit with refusal posts to make (R9), and
the owners of the words its beats carry (R10), while they wait to post (R15). -/
def State.withheld (s : State) (beats : List TxBeat) : Bool :=
  s.waits .pathUnit || beats.any (fun b => (b.meaning.owner.map s.waits).getD false)

/-- A processor transaction has been presented (R2, R10). -/
def State.presented (s : State) : Bool :=
  match s.tx with
  | some (.write (b :: bs) [] .waiting) => !s.withheld (b :: bs)
  | some (.read _ _) => true
  | _ => false

/-- A processor read is held (R17). -/
def State.readHeld (s : State) : Bool :=
  match s.tx with
  | some (.read _ (_ + 1)) => true
  | _ => false

/-- The port is in use by a burst whose flag-word beat is still to be issued (R12, log 9). -/
def State.portBusy (s : State) : Bool :=
  match s.tx with
  | some (.write _ _ (.flagBeat _)) => true
  | _ => false

/-- The table of R16. -/
def State.arbiter (s : State) : Granted :=
  if s.portBusy then .nobody
  else if s.readHeld then (if s.lane.isEmpty then .nobody else .lane)
  else if !s.lane.isEmpty && s.grantCount = Config.grantLimit then .lane
  else if s.presented then .processor
  else if !s.lane.isEmpty then .lane
  else .nobody

/-- The grant count after a processor grant (R16). -/
def raisedCount (n : Nat) : Nat := min Config.grantLimit (n + 1)

/-! ### Bursts (R3) -/

/-- The 32-byte block of an address. -/
def blockOf (a : Addr) : Nat := a.toNat / 32

/-- Addresses split into memory bursts: runs of consecutive words, split at 32-byte boundaries (R3). -/
def splitBursts (isWrite : Bool) : List Addr → List Burst
  | [] => []
  | a :: as =>
    match splitBursts isWrite as with
    | ⟨w, b :: bs⟩ :: rest =>
      if b = addrPlus a 1 && blockOf b = blockOf a then ⟨w, a :: b :: bs⟩ :: rest
      else ⟨isWrite, [a]⟩ :: ⟨w, b :: bs⟩ :: rest
    | rest => ⟨isWrite, [a]⟩ :: rest

/-! ### Grants (R3, R10, R16) -/

/-- A beat landing in memory. -/
def landBeat (mem : Memory) (b : TxBeat) : Memory := mem.writeWord b.addr b.lanes b.data

/-- What the grant of a beat also does: an action queued, a control request taken (R10, R18, R27). -/
def Mill.grantBeat (m : Mill) (b : TxBeat) : Mill :=
  match b.meaning with
  | .action r =>
    { m with
      actions := { m.actions with
        queue := m.actions.queue ++ [⟨r, b.data.extractLsb' 0 8, b.data.extractLsb' 8 24⟩]
        marked := m.actions.marked ++ [r] } }
  | .control => { m with plan := { m.plan with control := some ⟨b.data.extractLsb' 0 8, .requested⟩ } }
  | .plain => m
  | .flags => m

/-- The grant of a write: every beat but the flag word's lands (R3, R12, log 9). -/
def State.grantWrite (s : State) (beats : List TxBeat) : State :=
  let plain := beats.filter (fun b => b.meaning ≠ .flags)
  let flags := beats.filter (fun b => b.meaning = .flags)
  { s with
    mem := plain.foldl landBeat s.mem
    mill := plain.foldl (fun m b => m.grantBeat b) s.mill
    bursts := splitBursts true (beats.map (·.addr))
    grantCount := raisedCount s.grantCount
    tx := some (.write flags [] (if flags.isEmpty then .ended (plain.map (·.addr)) else .flagBeat (plain.map (·.addr)))) }

/-- The grant of a read: the memory contents of every beat (R2, R3). -/
def State.grantRead (s : State) (addrs : List Addr) : State :=
  { s with
    readData := addrs.map s.mem.readWord
    bursts := splitBursts false addrs
    grantCount := raisedCount s.grantCount
    tx := none }

/-- The hold counted down at a lane grant (R17). -/
def Tx.granted (t : Tx) : Tx :=
  match t with
  | .read addrs n => .read addrs (n - 1)
  | .write b h p => .write b h p

/-- What the landing of an internal write also does (R21, R27). -/
def Mill.landNote (m : Mill) (n : LandNote) : Mill :=
  match n with
  | .none => m
  | .clearsMarker r => { m with actions := { m.actions with marked := m.actions.marked.filter (· ≠ r) } }
  | .clearsControl => { m with plan := { m.plan with control := none } }

/-- The lane head granted: a write lands, a read returns its data (R13, R16). -/
def State.grantLane (s : State) (e : LaneEntry) (rest : List LaneEntry) : State :=
  let s1 := { s with lane := rest, grantCount := 0, tx := s.tx.map (·.granted) }
  match e.op with
  | .write mask d note => { s1 with mem := s.mem.writeWord e.addr mask d, mill := s.mill.landNote note }
  | .read tag =>
    if tag = .discarded then s1
    else { s1 with mill := { s.mill with returned := s.mill.returned ++ [(tag, s.mem.readWord e.addr)] } }

/-! ### The flag word (R12, R198) -/

/-- An ungranted lane write of a word takes the given data in all four lanes (R12). -/
def replaceData (a : Addr) (d : Word) (lane : List LaneEntry) : List LaneEntry :=
  lane.map (fun e =>
    match e.op with
    | .write _ _ n => if e.addr = a then { e with op := .write 0xF d n } else e
    | .read _ => e)

/-- The clear request of a flag-word beat, and the beat's landing with the flag value that results (R12, R198). A write of
the flag word that waits for lane space carries that value too. -/
def State.clearFlags (s : State) (b : TxBeat) (rest : List TxBeat) (landed : List Addr) : State :=
  let u := s.status.clear (b.data &&& laneBits b.lanes)
  let done := landed ++ [b.addr]
  { s with
    status := u
    mem := s.mem.writeWord b.addr 0xF u.flags
    lane := replaceData b.addr u.flags s.lane
    waiting := s.waiting.map (fun w => { w with posts := replaceData b.addr u.flags w.posts })
    tx := some (.write rest [] (if rest.isEmpty then .ended done else .flagBeat done)) }

/-! ### Hand-offs (R10, R11) -/

/-- The owner of a role (R11). -/
def roleOwner (r : Role) : Block :=
  if r.val ≤ 2 then .weighMix else if r.val ≤ 10 then .lineSupervisor else .packOut

/-- The owner of a word that waits. -/
def handoffOwner (h : Handoff) : Block :=
  match h with
  | .sample x => roleOwner x.role
  | .enable _ _ => .statusUnit

/-- The words of the transaction that wait to be taken. -/
def State.handoffs (s : State) : List Handoff :=
  match s.tx with
  | some (.write _ hs _) => hs
  | _ => []

/-- The first word that waits for a block. -/
def State.handoffFor (s : State) (b : Block) : Option Handoff := s.handoffs.find? (fun h => handoffOwner h = b)

/-- The first word that waits for a block taken away. -/
def Tx.taken (t : Tx) (b : Block) : Tx :=
  match t with
  | .write beats hs p => .write beats (hs.eraseP (fun h => handoffOwner h = b)) p
  | .read addrs n => .read addrs n

/-- The word that waits for a block at the hand-off taken away. -/
def State.takes (s : State) (b : Block) : State := { s with tx := s.tx.map (fun (t : Tx) => t.taken b) }

/-- The state after a step of a block that takes its word at the hand-off and leaves the blocks as m has them. -/
def State.takesTo (s : State) (b : Block) (m : Mill) : State := s.stepTo { s.takes b with mill := m }

/-- A sample row of a block: the word at the front of its hand-offs, if it is a sample of the row's roles (R10, R11). -/
def State.sampleRow (s : State) (b : Block) (mine : Role → Bool) (f : Sample → Mill → Mill) :
    Host.Outcome State Fault Refusal :=
  match s.handoffFor b with
  | some (.sample x) =>
    if mine x.role && s.rstN && !s.busy b then .next (s.takesTo b (f x s.mill)) else noOccasion s
  | _ => noOccasion s

end Sys2Proof.Machine
end

