-- ==== Sys2Proof/Machine/Actions.lean ====
section
/-! DEFINITION. How an action row executes the head of the action queue (R20), and BAD_ACTION. -/

namespace Sys2Proof.Machine

/-- The action codes (R20). -/
def codeRelease : BitVec 8 := 0x01
def codeHold : BitVec 8 := 0x02
def codeResume : BitVec 8 := 0x03
def codeCancel : BitVec 8 := 0x04
def codeClose : BitVec 8 := 0x05
def codeClear : BitVec 8 := 0x06
def codeAccept : BitVec 8 := 0x10
def codeTopUp : BitVec 8 := 0x11
def codeSkipLine : BitVec 8 := 0x12
def codeRetry : BitVec 8 := 0x13
def codeAbort : BitVec 8 := 0x14
def codeCount : BitVec 8 := 0x20
def codeLockout : BitVec 8 := 0x21
def codeReturn : BitVec 8 := 0x22
def codeDivertHead : BitVec 8 := 0x23
def codeStart : BitVec 8 := 0x30
def codeStop : BitVec 8 := 0x31
def codeClearTrip : BitVec 8 := 0x32
def codeArrive : BitVec 8 := 0x40
def codeFinish : BitVec 8 := 0x41
def codeDepart : BitVec 8 := 0x42
def codeWithdraw : BitVec 8 := 0x43
def codeQueueHold : BitVec 8 := 0x50
def codeQueueResume : BitVec 8 := 0x51

/-- The codes of each record kind (R20). -/
def codesOf (k : RecordKind) : List (BitVec 8) :=
  match k with
  | .order => [codeRelease, codeHold, codeResume, codeCancel, codeClose, codeClear]
  | .batch => [codeAccept, codeTopUp, codeSkipLine, codeRetry, codeAbort]
  | .bin => [codeCount, codeLockout, codeReturn, codeDivertHead]
  | .unit => [codeStart, codeStop, codeClearTrip]
  | .truck => [codeArrive, codeFinish, codeDepart, codeWithdraw]
  | .status => [codeQueueHold, codeQueueResume]
  | .ticket | .reading => []

/-- The block that executes an action on a record (R20): ABORT of a QUEUED batch is the Batch Sequencer's, every other batch
action the Weigh-and-Mix Controller's. -/
def Mill.executor (m : Mill) (r : RecordRef) (code : BitVec 8) : Block :=
  match r.kind with
  | .order => .orderBook
  | .batch =>
    if code = codeAbort && (m.seq.batches.toList.getD r.idx .reset).state = .queued then .batchSequencer else .weighMix
  | .bin => .stockUnit
  | .unit => if r.idx ≤ 5 then .lineSupervisor else .packOut
  | .truck => .tripTable
  | .status => .batchSequencer
  | .ticket | .reading => .actionExecutor

/-- The head action may be taken: none is in execution (R20). -/
def Mill.headAction (m : Mill) : Option Action := if m.actions.inExec = .none then m.actions.queue.head? else none

/-- An action row: the head action of that kind and code handed to its owner (R20). -/
def State.actionRow (s : State) (k : RecordKind) (code : BitVec 8) (f : Action → Mill → Mill) :
    Host.Outcome State Fault Refusal :=
  match s.mill.headAction with
  | some a =>
    if a.record.kind = k && a.code = code then
      s.runMill [.actionExecutor, s.mill.executor a.record a.code] (fun m => some (f a m))
    else noOccasion s
  | none => noOccasion s

/-- A WRONG_STATE answer. -/
def Mill.wrongState (m : Mill) (detail : Nat) : Mill := m.answer (ans resWrongState detail)

/-- An OK answer. -/
def Mill.ok (m : Mill) (detail : Nat) : Mill := m.answer (ans resOk detail)

/-- BAD_ACTION: a code not in its record kind's row (R20). -/
def execBadAction (s : State) : Host.Outcome State Fault Refusal :=
  match s.mill.headAction with
  | some a =>
    if (codesOf a.record.kind).contains a.code then noOccasion s
    else s.runMill [.actionExecutor] (fun m => some (m.answer (ans resBadAction 0)))
  | none => noOccasion s

end Sys2Proof.Machine
end

