-- ==== Sys2Proof/Machine/BatchRows.lean ====
section
/-! DEFINITION. The rows of the batch actions, the queue actions and the admission pass (06 and 07, R109, R118, R129 to
R133). -/

namespace Sys2Proof.Machine

/-- The batch slot of an index. -/
def toBatch (n : Nat) : Option (Fin 32) := if h : n < 32 then some ⟨n, h⟩ else none

/-- A batch action on the slot of its record. -/
def State.batchRow (s : State) (code : BitVec 8) (f : Fin 32 → BitVec 24 → Mill → Mill) :
    Host.Outcome State Fault Refusal :=
  s.actionRow .batch code (fun a m =>
    match toBatch a.record.idx with
    | none => m
    | some b => f b a.arg m)

/-- The scale an argument names, if it is 1 or 2 and present (R129). -/
def Mill.scaleArg (m : Mill) (arg : BitVec 24) : Option Scale :=
  if arg = 1 && m.presentUnit 0 then some .one
  else if arg = 2 && m.presentUnit 1 then some .two
  else none

/-- A line action judged in the order of R129, then carried out. -/
def Mill.lineAction (m : Mill) (b : Fin 32) (arg : BitVec 24) (accepts : Cause → Bool) (f : Scale → Mill → Mill) :
    Mill :=
  let x := m.batch b
  if x.state ≠ .weighing then m.wrongState x.state.code
  else match m.scaleArg arg with
    | none => m.answer ⟨resFieldRange, arg.extractLsb' 0 16⟩
    | some sc =>
      let c := m.scale sc
      if c.state ≠ .attention then m.wrongState (0x100 + c.state.code)
      else if !accepts c.cause then m.wrongState (0x200 + c.cause.code)
      else f sc m

/-- The causes that ACCEPT, SKIP_LINE, RETRY and TOP_UP accept (R130, R131). -/
def acceptCause (c : Cause) : Bool := c = .under || c = .over
def skipCause (c : Cause) : Bool := c = .stalled || c = .under || c = .over
def retryCause (c : Cause) : Bool := c = .stalled
def topUpCause (c : Cause) : Bool := c = .under

/-- The attention line finished (R130). -/
def Mill.finishAttention (m : Mill) (b : Fin 32) (sc : Scale) : Mill :=
  let l := (m.scale sc).current
  ((m.leaveAttention b sc).finishLine b sc).ok l

/-- ACCEPT (R130). -/
def execAccept (s : State) : Host.Outcome State Fault Refusal :=
  s.batchRow codeAccept (fun b arg m => m.lineAction b arg acceptCause (fun sc m => m.finishAttention b sc))

/-- SKIP_LINE (R130). -/
def execSkipLine (s : State) : Host.Outcome State Fault Refusal :=
  s.batchRow codeSkipLine (fun b arg m => m.lineAction b arg skipCause (fun sc m => m.finishAttention b sc))

/-- A later phase of the attention line (R130, R131). -/
def Mill.nextPhase (m : Mill) (b : Fin 32) (sc : Scale) (target : Nat) : Mill :=
  ((m.leaveAttention b sc).updScale sc (fun c => { c with phase := c.phase + 1 })).startPhase b sc target

/-- RETRY carried out: the unbooked reservation fed, or the tolerance check at once (R130); the scale leaves ATTENTION before
that check, also where it gives OVER (DESIGN CHOICE, log 57). -/
def Mill.retryLine (m : Mill) (b : Fin 32) (sc : Scale) : Mill :=
  let l := (m.scale sc).current
  let rest := m.stock.unbooked b l
  (if rest = 0 then (m.leaveAttention b sc).checkTolerance b sc else m.nextPhase b sc rest).ok l

/-- RETRY (R130). -/
def execRetry (s : State) : Host.Outcome State Fault Refusal :=
  s.batchRow codeRetry (fun b arg m => m.lineAction b arg retryCause (fun sc m => m.retryLine b sc))

/-- TOP_UP carried out: the deficit reserved and fed, or STOCK (R131). -/
def Mill.topUpLine (m : Mill) (b : Fin 32) (sc : Scale) : Mill :=
  let x := m.batch b
  let l := (m.scale sc).current
  let deficit := x.lineTarget l - x.lineActual l
  let bin := (x.chainLine l).bin
  match m.reserveLine b ⟨l, bin, deficit⟩ with
  | none => m.answer (ans resStock bin.val)
  | some m1 => (m1.nextPhase b sc deficit).ok l

/-- TOP_UP (R131). -/
def execTopUp (s : State) : Host.Outcome State Fault Refusal :=
  s.batchRow codeTopUp (fun b arg m => m.lineAction b arg topUpCause (fun sc m => m.topUpLine b sc))

/-- ABORT executed (R115, R133). -/
def Mill.abortBatch (m : Mill) (b : Fin 32) : Mill :=
  let x := m.batch b
  match x.state with
  | .queued => (m.removeBatches [b]).ok 0
  | .weighing | .weighed => if m.weigh.cancelled then m.ok 1 else (m.cancelWeighing b).ok 0
  | .filling | .mixing | .mixed => if x.disposition = .good then (m.reworkMixed b).ok 0 else m.ok 1
  | .free | .discharging | .done | .removed | .void => m.wrongState x.state.code

/-- ABORT (R115, R133). -/
def execAbort (s : State) : Host.Outcome State Fault Refusal := s.batchRow codeAbort (fun b _ m => m.abortBatch b)

/-- QUEUE_HOLD executed (R118). -/
def Mill.holdQueue (m : Mill) : Mill :=
  if m.seq.hold then m.wrongState 1 else { m with seq := { m.seq with hold := true } }.ok 0

/-- QUEUE_HOLD (R118). -/
def execQueueHold (s : State) : Host.Outcome State Fault Refusal :=
  s.actionRow .status codeQueueHold (fun _ m => m.holdQueue)

/-- QUEUE_RESUME executed (R118). -/
def Mill.resumeQueue (m : Mill) : Mill :=
  if m.seq.hold then (({ m with seq := { m.seq with hold := false } }.ok 0).askPass).tell .considerTake
  else m.wrongState 0

/-- QUEUE_RESUME (R118). -/
def execQueueResume (s : State) : Host.Outcome State Fault Refusal :=
  s.actionRow .status codeQueueResume (fun _ m => m.resumeQueue)

/-- ADMISSION_PASS: so many steps of the running pass (R109 to R112, log 13). -/
def execAdmissionPass (steps : Nat) (s : State) : Host.Outcome State Fault Refusal :=
  if steps = 0 then .refused .malformed
  else s.runMill [.batchSequencer] (fun m => if m.seq.pass = .idle then none else some (m.passSteps steps))

end Sys2Proof.Machine
end

