-- ==== Sys2Proof/Machine/BinRows.lean ====
section
/-! DEFINITION. The rows of the bin actions (R63 to R66). -/

namespace Sys2Proof.Machine

/-- A bin action on the bin of its record. -/
def State.binRow (s : State) (code : BitVec 8) (f : Fin 48 → Mill → Mill) : Host.Outcome State Fault Refusal :=
  s.actionRow .bin code (fun a m =>
    match toBin a.record.idx with
    | none => m
    | some b => f b m)

/-- COUNT executed: the read of the count value word (R63, R204). -/
def Mill.countBin (m : Mill) (b : Fin 48) : Mill :=
  let k := (getAt m.stock.bins b).plan.kind
  if k.ingredient || k = .rework then
    (m.postRead .stockUnit (m.recordAddr .bin b.val 10) .countValue).awaits .countValue
  else m.wrongState 0

/-- COUNT (R63). -/
def execCount (s : State) : Host.Outcome State Fault Refusal := s.binRow codeCount (fun b m => m.countBin b)

/-- The counted value judged (R63); one both below the reserved mass and above the capacity is answered detail 1
(DESIGN CHOICE, log 55). -/
def Mill.counted (m : Mill) (b : Fin 48) (value : Nat) : Mill :=
  let x := getAt m.stock.bins b
  if value < x.reserved then m.answer (ans resStock 1)
  else if x.plan.capacity < value then m.answer (ans resStock 2)
  else
    let m1 := (m.updBin b ({ · with level := value })).ok 0
    if x.level < value then m1.askPass else m1

/-- COUNT_READ_RETURN (R63). -/
def execCountReadReturn (s : State) : Host.Outcome State Fault Refusal :=
  s.runMill [.stockUnit] (fun m =>
    match m.actions.inExec, m.readsOf .countValue, m.actions.queue.head?.bind (fun a => toBin a.record.idx) with
    | .countValue, w :: _, some b => some ((m.takeReads .countValue).counted b (bits w 0 24))
    | _, _, _ => none)

/-- LOCKOUT executed (R64). R64 gives no order between its refusals: a bin already LOCKED_OUT is answered WRONG_STATE also
where it is reserved or in a grind job, and the reserved mass is judged before the grind job (DESIGN CHOICE, log 39). -/
def Mill.lockOut (m : Mill) (b : Fin 48) : Mill :=
  let x := getAt m.stock.bins b
  if !x.plan.kind.ingredient then m.wrongState 0
  else if x.lockedOut then m.wrongState 1
  else if 0 < x.reserved then m.answer (ans resBinInUse 1)
  else if m.inGrindJob b.val then m.answer (ans resBinInUse 2)
  else (m.updBin b ({ · with lockedOut := true })).ok 0

/-- LOCKOUT (R64). -/
def execLockout (s : State) : Host.Outcome State Fault Refusal := s.binRow codeLockout (fun b m => m.lockOut b)

/-- RETURN executed (R65). -/
def Mill.returnToUse (m : Mill) (b : Fin 48) : Mill :=
  if (getAt m.stock.bins b).lockedOut then ((m.updBin b ({ · with lockedOut := false })).ok 0).askPass
  else m.wrongState 0

/-- RETURN (R65). -/
def execReturnBin (s : State) : Host.Outcome State Fault Refusal := s.binRow codeReturn (fun b m => m.returnToUse b)

/-- DIVERT_HEAD executed: the mark HOST, the answer, then the divert (R66). -/
def Mill.divertHead (m : Mill) (b : Fin 48) : Mill :=
  let x := getAt m.stock.bins b
  match x.plan.kind.surge with
  | none => m.wrongState 0
  | some s => if x.lots.isEmpty then m.wrongState 1 else ((m.remark s hostMark).ok x.lots.length).checkHead s

/-- DIVERT_HEAD (R66). -/
def execDivertHead (s : State) : Host.Outcome State Fault Refusal := s.binRow codeDivertHead (fun b m => m.divertHead b)

end Sys2Proof.Machine
end

