-- ==== Sys2Proof/Machine/LineRows.lean ====
section
/-! DEFINITION. The rows of the lines' samples and timers (08_grinding_and_pelleting_lines.md). -/

namespace Sys2Proof.Machine

/-- TRIP_CHANNEL_SAMPLE (R147, R149, R151). -/
def execTripChannelSample (s : State) : Host.Outcome State Fault Refusal :=
  s.sampleRow .lineSupervisor (fun r => (tripChannelOf r).isSome) (fun x m =>
    match tripChannelOf x.role with
    | none => m
    | some ch => m.tripSample ch x)

/-- GRINDER_TOTAL_SAMPLE (R147, R160). -/
def execGrinderTotalSample (s : State) : Host.Outcome State Fault Refusal :=
  s.sampleRow .lineSupervisor (fun r => r = 4 || r = 6) (fun x m =>
    m.grinderTotal (if x.role = 4 then .a else .b) x)

/-- PL_FEED_SAMPLE (R147, R162). -/
def execPlFeedSample (s : State) : Host.Outcome State Fault Refusal :=
  s.sampleRow .lineSupervisor (fun r => r = 9) (fun x m => m.pelletFeed x)

/-- PL_PRODUCT_SAMPLE (R147, R163, R164). -/
def execPlProductSample (s : State) : Host.Outcome State Fault Refusal :=
  s.sampleRow .lineSupervisor (fun r => r = 10) (fun x m => m.pelletProduct x)

/-- A row of the Line Supervisor's timers. -/
def State.lineRow (s : State) (f : Mill → Option Mill) : Host.Outcome State Fault Refusal :=
  s.runMill [.lineSupervisor] f

/-- TRIP_CHANNEL_STALE (R152). -/
def execTripChannelStale (ch : TripChannel) (s : State) : Host.Outcome State Fault Refusal :=
  s.lineRow (fun m => if Timer.due (m.chan ch).fresh then some (m.tripStale ch) else none)

/-- ADJUST_TIMER_EXPIRY (R150). -/
def execAdjustTimerExpiry (line : Line) (s : State) : Host.Outcome State Fault Refusal :=
  s.lineRow (fun m => if Timer.due (m.lineCtl line).adjust then some (m.adjustExpiry line) else none)

/-- The drain timer's end: the drain ends if PL_PRODUCT has been heard, and waits otherwise (R164, log 17). -/
def Mill.drainExpiry (m : Mill) : Mill :=
  if m.lines.pellet.heard.isSome then m.endDrain else m.updPellet ({ · with drain := none, drainWaits := true })

/-- DRAIN_TIMER_EXPIRY (R164). -/
def execDrainTimerExpiry (s : State) : Host.Outcome State Fault Refusal :=
  s.lineRow (fun m => if Timer.due m.lines.pellet.drain then some m.drainExpiry else none)

end Sys2Proof.Machine
end

