-- ==== Sys2Proof/Machine/OrderRows.lean ====
section
/-! DEFINITION. The rows of the order actions and of a release (05_the_order_book.md, 04_formula_tickets.md). -/

namespace Sys2Proof.Machine

/-- An order action on the slot of its record. -/
def State.orderRow (s : State) (code : BitVec 8) (f : Fin 256 → Mill → Mill) : Host.Outcome State Fault Refusal :=
  s.actionRow .order code (fun a m =>
    match toSlot a.record.idx with
    | none => m
    | some o => f o m)

/-! ### Release (R83 to R86) -/

/-- RELEASE executed: the checks before the read, then the read of the F words (R83). -/
def Mill.release (m : Mill) (o : Fin 256) : Mill :=
  if (m.order o).state ≠ .idle then m.wrongState (m.order o).state.code
  else if Config.activeOrders ≤ m.book.entries then m.answer (ans resActiveLimit Config.activeOrders)
  else (m.readOrderFields o .releaseFields).awaits .releaseFields

/-- RELEASE (R83). -/
def execRelease (s : State) : Host.Outcome State Fault Refusal := s.orderRow codeRelease (fun o m => m.release o)

/-- The chain handed to the Ticket Checker, the verify interlock begun (R83, R78). -/
def Mill.handChain (m : Mill) (o : Fin 256) : Mill :=
  let f := fieldsOf (m.readsOf .releaseFields)
  let m1 := m.takeReads .releaseFields
  ({ m1 with book := { m1.book with interlock := some o } }.requestVerify .release f.ticket).awaits .releaseVerify

/-- A processor write is in progress. -/
def State.writing (s : State) : Bool :=
  match s.tx with
  | some (.write _ _ _) => true
  | _ => false

/-- The Ticket Checker's first read waits for a processor write in progress at the hand-off, decoded before the interlock
began (R70, R84). -/
def Mill.awaitWrite (m : Mill) (writing : Bool) : Mill := { m with checker := { m.checker with awaitsWrite := writing } }

/-- RELEASE_FIELDS_READ (R83). -/
def execReleaseFieldsRead (s : State) : Host.Outcome State Fault Refusal :=
  s.runMill [.orderBook] (fun m =>
    if m.actions.inExec = .releaseFields && (m.readsOf .releaseFields).length = 5 then
      m.headSlot.map (fun o => (m.handChain o).awaitWrite s.writing)
    else none)

/-- The oldest verification request taken (R70). -/
def Mill.takeRequest (m : Mill) : Option Mill :=
  match m.checker.walk, m.checker.requests with
  | none, r :: rs => some ({ m with checker := { m.checker with requests := rs } }.beginWalk r.caller r.head)
  | _, _ => none

/-- VERIFY_WALK_START: a release's first read waits until every processor write decoded before the interlock has completed
(R70, R84). -/
def execVerifyWalkStart (s : State) : Host.Outcome State Fault Refusal :=
  s.runMill [.ticketChecker] (fun m => if m.checker.awaitsWrite then none else m.takeRequest)

/-- TICKET_HEADER_STAGE (R71). -/
def execTicketHeaderStage (s : State) : Host.Outcome State Fault Refusal :=
  s.runMill [.ticketChecker] (fun m =>
    match m.checker.walk with
    | some w =>
      if w.header.isNone && (m.readsOf .ticketHeader).length = 6 then some (m.headerStage w).mill else none
    | none => none)

/-- TICKET_LINE_STAGE (R72, R73). -/
def execTicketLineStage (s : State) : Host.Outcome State Fault Refusal :=
  s.runMill [.ticketChecker] (fun m =>
    match m.checker.walk with
    | some w =>
      match w.header with
      | some h => if (m.readsOf .ticketLines).length = h.lineCount then some (m.lineStage w h).mill else none
      | none => none
    | none => none)

/-- CONFIRMING_READ (R84 to R86). -/
def execConfirmingRead (s : State) : Host.Outcome State Fault Refusal :=
  s.runMill [.orderBook] (fun m =>
    match m.actions.inExec with
    | .releaseConfirm c =>
      if (m.readsOf .confirming).length = 5 then
        m.headSlot.map (fun o => (m.takeReads .confirming).confirmRelease o c (m.readsOf .confirming))
      else none
    | _ => none)

/-! ### Hold, resume, cancel, close, clear (R93 to R95, R101, R102) -/

/-- HOLD and RESUME are taken from RELEASED or PRODUCING (R93, R94). -/
def OrderState.holdable (s : OrderState) : Bool := s = .released || s = .producing

/-- HOLD executed (R93). -/
def Mill.holdOrder (m : Mill) (o : Fin 256) : Mill :=
  let x := m.order o
  if !x.state.holdable then m.wrongState x.state.code
  else if x.wait = .held then m.wrongState (0x100 + x.state.code)
  else (m.updOrder o ({ · with wait := .held })).ok 0

/-- HOLD (R93). -/
def execHold (s : State) : Host.Outcome State Fault Refusal := s.orderRow codeHold (fun o m => m.holdOrder o)

/-- RESUME executed (R94). -/
def Mill.resumeOrder (m : Mill) (o : Fin 256) : Mill :=
  let x := m.order o
  if !x.state.holdable then m.wrongState x.state.code
  else if x.wait ≠ .held then m.wrongState (0x100 + x.state.code)
  else ((m.updOrder o ({ · with wait := .none })).ok 0).askPass

/-- RESUME (R94). -/
def execResume (s : State) : Host.Outcome State Fault Refusal := s.orderRow codeResume (fun o m => m.resumeOrder o)

/-- CANCEL executed (R95). -/
def Mill.cancelOrder (m : Mill) (o : Fin 256) : Mill :=
  match (m.order o).state with
  | .released => (m.cancelReleased o).ok 0
  | .producing | .finishing => ((m.beginCancel o).ok 1).handCancel o
  | .idle | .packed | .closed | .cancelling | .cancelled => m.wrongState (m.order o).state.code

/-- CANCEL (R95). -/
def execCancel (s : State) : Host.Outcome State Fault Refusal := s.orderRow codeCancel (fun o m => m.cancelOrder o)

/-- CLOSE executed (R101). -/
def Mill.closePacked (m : Mill) (o : Fin 256) : Mill :=
  let x := m.order o
  if x.state ≠ .packed then m.wrongState x.state.code
  else if 0 < x.nonFinal then m.wrongState (0x400 + x.state.code)
  else (m.closeOrder o).ok 0

/-- CLOSE (R101). -/
def execClose (s : State) : Host.Outcome State Fault Refusal := s.orderRow codeClose (fun o m => m.closePacked o)

/-- A trip in ARRIVED, LOADING or LOADED names the slot: the lowest such truck slot (R194). -/
def Mill.tripAtMill (m : Mill) (o : Fin 256) : Option (Fin 8) :=
  findAt m.trips.trips (fun t => (t.state = .arrived || t.state = .loading || t.state = .loaded) && t.names o)

/-- The product order becomes orphan at the CLEAR of its slot (R163). -/
def Mill.orphanProduct (m : Mill) (o : Fin 256) : Mill :=
  match m.lines.pellet.productOrder with
  | .order p d => if p = o then m.updPellet ({ · with productOrder := .orphan d }) else m
  | .none => m
  | .orphan _ => m

/-- CLEAR executed (R102). -/
def Mill.clearOrder (m : Mill) (o : Fin 256) : Mill :=
  let x := m.order o
  if x.state ≠ .closed && x.state ≠ .cancelled then m.wrongState x.state.code
  else if m.hasLot o then m.wrongState 0x200
  else match m.tripAtMill o with
    | some t => m.wrongState (0x300 + t.val)
    | none => ((m.updOrder o (fun _ => .reset)).orphanProduct o).ok 0

/-- CLEAR (R102). -/
def execClear (s : State) : Host.Outcome State Fault Refusal := s.orderRow codeClear (fun o m => m.clearOrder o)

end Sys2Proof.Machine
end

