-- ==== Sys2Proof/Machine/PackRows.lean ====
section
/-! DEFINITION. The rows of the outlets' samples and timers (09_bagging_and_bulk_loadout.md). -/

namespace Sys2Proof.Machine

/-- BAG_EVENT (R171, R173). -/
def execBagEvent (s : State) : Host.Outcome State Fault Refusal :=
  s.sampleRow .packOut (fun r => r = 11) (fun x m => m.bagEvent x)

/-- TRUCK_NET_SAMPLE (R176, R179, R182). -/
def execTruckNetSample (s : State) : Host.Outcome State Fault Refusal :=
  s.sampleRow .packOut (fun r => r = 12) (fun x m => m.truckSample x)

/-- LOADOUT_SETTLE_EXPIRY (R179). -/
def execLoadoutSettleExpiry (s : State) : Host.Outcome State Fault Refusal :=
  s.runMill [.packOut] (fun m =>
    match m.pack.loadout.fill with
    | some f => if Timer.due m.pack.loadout.settle then some (m.settleFill f) else none
    | none => none)

/-- TRUCK_NET_STALE (R182). -/
def execTruckNetStale (s : State) : Host.Outcome State Fault Refusal :=
  s.runMill [.packOut] (fun m =>
    if Timer.due m.pack.loadout.channel.fresh then some m.truckStale else none)

end Sys2Proof.Machine
end

