-- ==== Sys2Proof/WellFormed.lean ====
section
/-! DEFINITION. Which terms of Instr are commands of the part. -/

namespace Sys2Proof

/-- A transaction has 1 to 8 beats (R2). -/
def burstWf (n : Nat) : Bool := 1 ≤ n && n ≤ 8

/-- A well-formed command: a transaction of 1 to 8 beats (R2), a pass of at least one step (log 13); every other row's
operands are all of their types' values. -/
def Instr.wf : Instr → Bool
  | .processorWrite _ beats => burstWf beats.length
  | .processorRead _ enables => burstWf enables.length
  | .admissionPass steps => 1 ≤ steps
  | .rstNLow | .rstNRelease _ | .processorGrant | .laneWriteLand | .postAdmitted | .flagClear | .enableWrite
  | .planOpen | .planClose | .restart | .badControl | .loadStage1 | .loadStage2 | .loadStage3 | .loadStage5
  | .badAction | .release | .releaseFieldsRead | .verifyWalkStart | .ticketHeaderStage | .ticketLineStage
  | .confirmingRead | .hold | .resume | .cancel | .close | .clear | .accept | .topUp | .skipLine | .retry | .abort
  | .count | .countReadReturn | .lockout | .returnBin | .divertHead | .start | .stop | .clearTrip
  | .refillSettingRead _ | .arrive | .arriveReadReturn | .finish | .depart | .withdraw | .queueHold | .queueResume
  | .scaleSample | .mixerSample | .scaleStale _ | .mixerStale | .stallTimerExpiry _ | .settleExpiry _
  | .weighLimitExpiry | .mixTimerExpiry | .holdLimitExpiry | .tripChannelSample | .tripChannelStale _
  | .adjustTimerExpiry _ | .grinderTotalSample | .plFeedSample | .plProductSample | .drainTimerExpiry | .bagEvent
  | .truckNetSample | .loadoutSettleExpiry | .truckNetStale | .tripLimitExpiry => true

end Sys2Proof
end

