-- ==== Sys2Proof/Machine/PathRows.lean ====
section
/-! DEFINITION. The rows of the memory path: reset, processor transactions, grants, posts, flag clear, enable write. -/

namespace Sys2Proof.Machine

/-- RST_N_LOW: every block's table empty, memory untouched, the strap value held (R25, R26, R31). -/
def execRstNLow (s : State) : Host.Outcome State Fault Refusal :=
  .next { State.reset with pending := s.pending, mem := s.mem, strap := s.strap }

/-- RST_N_RELEASE: the strap value sampled (R26); no occasion while RST_N is high. -/
def execRstNRelease (plansel : BitVec 2) (s : State) : Host.Outcome State Fault Refusal :=
  if s.rstN then noOccasion s else .next { s with rstN := true, strap := plansel }

/-- The port can take a transaction: RST_N is high, none is in progress and the Path Unit does not wait to post (R2, R15,
log 7). -/
def State.ready (s : State) : Bool := s.rstN && s.tx.isNone && !s.waits .pathUnit

/-- PROCESSOR_WRITE: the beats received, judged and handed off (R2, R6 to R11, R18, R19). -/
def execProcessorWrite (addr : Addr) (beats : List WriteBeat) (s : State) : Host.Outcome State Fault Refusal :=
  if !burstWf beats.length then .refused .malformed
  else if !s.ready then noOccasion s
  else
    let r := s.judgeBeats ⟨[], []⟩ (wordAddr addr) 0 beats
    .next (s.stepTo { r.1 with tx := some (.write r.2.beats r.2.handoffs .waiting) })

/-- The number of lane entries to be granted before a read of these words: through the latest write to one of them
(R17). -/
def holdOf (addrs : List Addr) : List LaneEntry → Nat
  | [] => 0
  | e :: es =>
    let n := holdOf addrs es
    if 0 < n then n + 1
    else match e.op with
      | .write _ _ _ => if addrs.contains e.addr then 1 else 0
      | .read _ => 0

/-- PROCESSOR_READ: the beats decoded for the read hold and presented (R2, R17). -/
def execProcessorRead (addr : Addr) (enables : List Lanes) (s : State) : Host.Outcome State Fault Refusal :=
  if !burstWf enables.length then .refused .malformed
  else if !s.ready then noOccasion s
  else
    let addrs := (List.range enables.length).map (addrPlus (wordAddr addr))
    .next { s with tx := some (.read addrs (holdOf addrs s.lane)) }

/-- PROCESSOR_GRANT: the presented transaction granted whole, where the arbiter's table grants it (R3, R16). -/
def execProcessorGrant (s : State) : Host.Outcome State Fault Refusal :=
  if s.arbiter = .processor then
    match s.tx with
    | some (.write beats _ _) => .next (s.grantWrite beats).finish
    | some (.read addrs _) => .next (s.grantRead addrs).finish
    | none => noOccasion s
  else noOccasion s

/-- LANE_WRITE_LAND: the lane head granted, where the arbiter's table grants it (R13, R16, log 8). -/
def execLaneWriteLand (s : State) : Host.Outcome State Fault Refusal :=
  if s.arbiter = .lane then
    match s.lane with
    | e :: rest => .next (s.grantLane e rest).finish
    | [] => noOccasion s
  else noOccasion s

/-- POST_ADMITTED: a freed entry admits the post of the block that began to wait first (R15). -/
def execPostAdmitted (s : State) : Host.Outcome State Fault Refusal :=
  if s.waiting.isEmpty || decide (Config.laneDepth ≤ s.lane.length) then noOccasion s
  else
    let r := admitPost s.lane s.waiting
    .next { s with lane := r.1, waiting := r.2 }.finish

/-- FLAG_CLEAR: the flag-word beat of a granted burst (R12, R198). The Status Unit took its clear request with the grant. -/
def execFlagClear (s : State) : Host.Outcome State Fault Refusal :=
  match s.tx with
  | some (.write (b :: rest) _ (.flagBeat landed)) => .next (s.clearFlags b rest landed).finish
  | _ => noOccasion s

/-- ENABLE_WRITE: the enable copy takes the lanes handed off, and ALERT_N is judged (R199). -/
def execEnableWrite (s : State) : Host.Outcome State Fault Refusal :=
  match s.handoffFor .statusUnit with
  | some (.enable lanes data) =>
    if s.rstN && !s.waits .statusUnit then
      .next { s.takes .statusUnit with status := s.status.takeEnable lanes data }.finish
    else noOccasion s
  | _ => noOccasion s

end Sys2Proof.Machine
end

