-- ==== Sys2Proof/Machine/PlanRows.lean ====
section
/-! DEFINITION. The rows of the plan: control requests and load stages (02_the_plan.md). -/

namespace Sys2Proof.Machine

/-- The Plan Controller may take an event: RST_N is high and it does not wait to post (R15, R31). -/
def State.planFree (s : State) : Bool := s.rstN && !s.busy .planController

/-- OPEN of an UNPLANNED plan (R28). -/
def State.openPlan (s : State) : State :=
  let m := { s.mill with plan := { s.mill.plan with state := .opened } }
  { s with mill := m.postOutcome s.region ⟨planOk, 0⟩ }

/-- OPEN of an idle RUNNING plan: reopen (R30); reads still in the lane will be discarded (R24, R74). -/
def State.reopenPlan (s : State) : State :=
  { s.discardReads (fun _ => true) with windows := none, mill := s.mill.reopen.postOutcome s.region ⟨planOk, 0⟩ }

/-- PLAN_OPEN (R28 to R30); a change of plan state waits for a transaction in progress (R29). -/
def execPlanOpen (s : State) : Host.Outcome State Fault Refusal :=
  if s.planFree && s.mill.plan.requested = some controlOpen then
    match s.mill.plan.state with
    | .unplanned => if s.tx.isNone then .next (s.stepTo s.openPlan) else noOccasion s
    | .running =>
      match s.mill.busyIndex with
      | some i => .next (s.leaves (s.mill.postOutcome s.region ⟨planBusy, i⟩))
      | none => if s.tx.isNone then .next (s.stepTo s.reopenPlan) else noOccasion s
    | .opened | .loading => noOccasion s
  else noOccasion s

/-- CLOSE taken: LOADING is posted and the reads of stage 1 begin (R28, R32). -/
def State.closePlan (s : State) : State :=
  let p := { s.mill.plan with
    state := .loading
    load := .stage1
    words := []
    control := s.mill.plan.control.map (fun c => { c with stage := .loading }) }
  { s with mill := (({ s.mill with plan := p }).postPlanState s.region).readRegion s.region }

/-- PLAN_CLOSE (R28, R32). -/
def execPlanClose (s : State) : Host.Outcome State Fault Refusal :=
  if s.planFree && s.mill.plan.requested = some controlClose && controlFits controlClose s.mill.plan.state
      && s.tx.isNone then
    .next (s.stepTo s.closePlan)
  else noOccasion s

/-- RESTART carried out: the blocks, then the outcome; the reads of abandoned actions will be discarded (R23, R43). -/
def State.restartPlan (s : State) : State :=
  { s.discardReads (·.ofAction) with mill := s.mill.restart.postOutcome s.region ⟨planOk, 0⟩ }

/-- RESTART (R28, R43, R44). -/
def execRestart (s : State) : Host.Outcome State Fault Refusal :=
  if s.planFree && s.mill.plan.requested = some controlRestart && s.mill.plan.state = .running then
    .next (s.stepTo s.restartPlan)
  else noOccasion s

/-- BAD_CONTROL: any other pairing of code and state (R28). -/
def execBadControl (s : State) : Host.Outcome State Fault Refusal :=
  match s.mill.plan.requested with
  | some code =>
    if s.planFree && !controlFits code s.mill.plan.state then
      .next (s.leaves (s.mill.postOutcome s.region ⟨planBadControl, code.toNat⟩))
    else noOccasion s
  | none => noOccasion s

/-- A load stage's outcome; a failed check changes the plan state and waits for a transaction in progress (R29, R39). -/
def State.endStage (s : State) (e : LoadEnd) : Host.Outcome State Fault Refusal :=
  match e with
  | .goesOn m => .next (s.leaves m)
  | .fails m r => if s.tx.isNone then .next (s.leaves (m.failLoad s.region r)) else noOccasion s

/-- The stage's reads have all returned. -/
def Mill.readsDone (m : Mill) (t : ReadTag) (n : Nat) : Bool := (m.readsOf t).length = n

/-- LOAD_STAGE_1 (R33 to R35). -/
def execLoadStage1 (s : State) : Host.Outcome State Fault Refusal :=
  if s.planFree && s.mill.plan.load = .stage1 && s.mill.readsDone .loadStage 180 then
    s.endStage (s.mill.loadStage1 s.region)
  else noOccasion s

/-- LOAD_STAGE_2 (R36). -/
def execLoadStage2 (s : State) : Host.Outcome State Fault Refusal :=
  if s.planFree && s.mill.plan.load = .stage2 && s.mill.readsDone .loadStage s.mill.stage2Size then
    s.endStage s.mill.loadStage2
  else noOccasion s

/-- LOAD_STAGE_3: a flush chain's verdict, once for each (R37, R38, log 23). -/
def execLoadStage3 (s : State) : Host.Outcome State Fault Refusal :=
  match s.mill.plan.load with
  | .stage3 item (some v) => if s.planFree then s.endStage (s.mill.loadStage3 item v) else noOccasion s
  | _ => noOccasion s

/-- The Status Unit after adoption: flags from zero, the retained enable word, the adopted conditions (R40, R201); the
status window of the plan last RUNNING stays in use until this plan is RUNNING (R9, R201, log 29). -/
def Mill.adoptedStatus (m : Mill) (enable : Word) (base : Option Addr) : Status :=
  Status.report ⟨0, 0, enable, 0, false, 0, 0, base, false⟩ m.reports m.condition

/-- Adoption and the sweep; the plan becomes RUNNING when the sweep's posts have joined the lane (R39 to R42). -/
def State.adoptAll (s : State) (ws : List Word) (walks : List LinkWalk) : State :=
  let m := (s.mill.adopt ws walks).sweep ws
  let u := m.adoptedStatus (retainedEnable ws) s.status.base
  let posts := statusWords.map (fun w => (⟨.statusUnit, m.recordAddr .status 0 w, .write 0xF (u.word w) .none⟩ : LaneEntry))
  { s with
    refusal := some ⟨0, 0, 0, 0⟩
    status := u
    mill := { m with reports := [], outbox := m.outbox ++ posts }.atPhase .sweeping }

/-- The next link walk begun, or adoption after the last (R79). -/
def State.nextWalk (s : State) (ws : List Word) (done todo : List LinkWalk) : State :=
  match todo with
  | [] => s.adoptAll ws done
  | k :: ks => { s with mill := (s.mill.atPhase (.links ws done (k :: ks))).readLink k.slot }

/-- LOAD_STAGE_5: the retained words, then each link walk's reads, then adoption (R32, R40, R79, log 23). -/
def execLoadStage5 (s : State) : Host.Outcome State Fault Refusal :=
  if s.planFree then
    match s.mill.plan.load with
    | .stage5 =>
      if s.mill.readsDone .loadStage stage5Size then
        let ws := s.mill.readsOf .loadStage
        .next (s.stepTo ({ s with mill := s.mill.takeReads .loadStage }.nextWalk ws [] (linkWalks ws)))
      else noOccasion s
    | .links ws done (k :: ks) =>
      if s.mill.readsDone .linkWalk 2 then
        let s1 := { s with mill := s.mill.takeReads .linkWalk }
        match k.next (s.mill.readsOf .linkWalk) with
        | some k' => .next (s.stepTo (s1.nextWalk ws done (k' :: ks)))
        | none => .next (s.stepTo (s1.nextWalk ws (done ++ [k]) ks))
      else noOccasion s
    | _ => noOccasion s
  else noOccasion s

end Sys2Proof.Machine
end

