-- ==== Sys2Proof/Machine/TripRows.lean ====
section
/-! DEFINITION. The rows of the truck actions and of the trip limit (10_delivery_trips.md). -/

namespace Sys2Proof.Machine

/-- The truck slot of an index. -/
def toTruck (n : Nat) : Option (Fin 8) := if h : n < 8 then some ⟨n, h⟩ else none

/-- A truck action on the slot of its record. -/
def State.truckRow (s : State) (code : BitVec 8) (f : Fin 8 → Mill → Mill) : Host.Outcome State Fault Refusal :=
  s.actionRow .truck code (fun a m =>
    match toTruck a.record.idx with
    | none => m
    | some t => f t m)

/-- ARRIVE executed: ARRIVED at once, the read to be posted (R188). -/
def Mill.arrive (m : Mill) (t : Fin 8) : Mill :=
  if (m.trip t).state ≠ .opened then m.wrongState (m.trip t).state.code
  else
    let m1 := m.updTrip t ({ · with state := .arrived })
    { m1 with trips := { m1.trips with arriving := some (t, false) } }.awaits .arriveRead

/-- ARRIVE (R188). -/
def execArrive (s : State) : Host.Outcome State Fault Refusal := s.truckRow codeArrive (fun t m => m.arrive t)

/-- The trip read returned: the copy replaced, the check made, dropped orders reported (R188, R189). -/
def Mill.arrived (m : Mill) (t : Fin 8) (ws : List Word) : Mill :=
  let old := (m.trip t).copy
  let new := copyOf (ws.getD 0 0) (ws.drop 1)
  let m1 := m.updTrip t ({ · with copy := new })
  let m2 := { m1 with trips := { m1.trips with arriving := none } }
  let m3 := match m2.arrivalFault (m2.trip t) with
    | some d => (m2.updTrip t ({ · with state := .opened })).answer (ans resTruckBad d)
    | none =>
      (({ m2 with trips := { m2.trips with queue := m2.trips.queue ++ [t] } }).ok new.length).judgeArbiter
  m3.reportDropped (droppedOrders old new)

/-- ARRIVE_READ_RETURN (R188, R189). -/
def execArriveReadReturn (s : State) : Host.Outcome State Fault Refusal :=
  s.runMill [.tripTable] (fun m =>
    match m.trips.arriving with
    | some (t, true) =>
      if m.actions.inExec = .arriveRead && (m.readsOf .arrive).length = 7 then
        some ((m.takeReads .arrive).arrived t (m.readsOf .arrive))
      else none
    | _ => none)

/-- FINISH executed (R192); its answer is posted before what the spout arbiter posts (log 49). -/
def Mill.finishTrip (m : Mill) (t : Fin 8) : Mill :=
  let x := m.trip t
  if x.state ≠ .loading then m.wrongState x.state.code
  else ((m.endLoading t false).ok (x.unfilled m.plan.bulkTolerance).length).judgeArbiter

/-- FINISH (R192). -/
def execFinish (s : State) : Host.Outcome State Fault Refusal := s.truckRow codeFinish (fun t m => m.finishTrip t)

/-- A fill is in progress for the trip (R193). -/
def Mill.fillingTrip (m : Mill) (t : Fin 8) : Bool := (m.pack.loadout.fill.map (·.truck)) == some t

/-- DEPART executed (R193, R194). -/
def Mill.depart (m : Mill) (t : Fin 8) : Mill :=
  let x := m.trip t
  if x.state ≠ .loaded then m.wrongState x.state.code
  else if m.fillingTrip t then m.wrongState 0x100
  else ((m.updTrip t ({ · with state := .departed })).reportDropped (droppedOrders x.copy [])).ok 0

/-- DEPART (R193). -/
def execDepart (s : State) : Host.Outcome State Fault Refusal := s.truckRow codeDepart (fun t m => m.depart t)

/-- WITHDRAW executed (R193). -/
def Mill.withdraw (m : Mill) (t : Fin 8) : Mill :=
  let x := m.trip t
  match x.state with
  | .arrived =>
    let m1 := m.updTrip t ({ · with state := .opened })
    ({ m1 with trips := { m1.trips with queue := m1.trips.queue.filter (· ≠ t) } }).ok 0
  | .departed => (m.updTrip t (fun _ => .reset)).ok 1
  | .opened | .loading | .loaded => m.wrongState x.state.code

/-- WITHDRAW (R193). -/
def execWithdraw (s : State) : Host.Outcome State Fault Refusal := s.truckRow codeWithdraw (fun t m => m.withdraw t)

/-- TRIP_LIMIT_EXPIRY (R191). -/
def execTripLimitExpiry (s : State) : Host.Outcome State Fault Refusal :=
  s.runMill [.tripTable] (fun m =>
    match m.loadingTrip with
    | some t => if Timer.due m.trips.limit then some (m.tripLimitExpiry t) else none
    | none => none)

end Sys2Proof.Machine
end

