-- ==== Sys2Proof/Machine/UnitRows.lean ====
section
/-! DEFINITION. The rows of the unit actions and of the refill-setting read (R154 to R158, R161, R168). -/

namespace Sys2Proof.Machine

/-- The detail of a unit action that its unit never accepts (R155, R168). -/
def neverDetail : Nat := 0xFFFF

/-! ### START (R155, R157, R161, R168) -/

/-- START of the IDLE pellet line: the ceiling, the answer, then the taking (R161). -/
def Mill.startPellet (m : Mill) : Mill :=
  match m.firstFailing .pellet (fun _ c => c.fresh.isSome) with
  | some ch => m.answer (ans resConditionActive (chanRole ch).val)
  | none => ((m.updLine .pellet ({ · with ceiling := m.plan.ceilingMax .pellet })).ok 0).pelletTake

/-- START of a line (R155). -/
def Mill.startLine (m : Mill) (l : Line) : Mill :=
  if !m.presentLine l then m.answer (ans resAbsent 0)
  else if (m.lineCtl l).state ≠ .idle then m.wrongState (m.lineCtl l).state.code
  else match l with
    | .grinder g => (m.readRefill g true).awaits (.startRefill g)
    | .pellet => m.startPellet

/-- START executed, by unit index (R155, R168). -/
def Mill.startUnit (m : Mill) (u : Nat) : Mill :=
  match lineOfUnit u with
  | some l => m.startLine l
  | none =>
    if u = 6 then
      if !m.presentUnit 6 then m.answer (ans resAbsent 0)
      else if m.pack.bagger.state ≠ .idle then m.wrongState m.pack.bagger.state.code
      else m.startBagger.ok 0
    else if u = 7 then
      if !m.presentUnit 7 then m.answer (ans resAbsent 0)
      else if m.pack.loadout.state ≠ .idle then m.wrongState m.pack.loadout.state.code
      else m.startLoadout.ok 0
    else m.wrongState neverDetail

/-- START (R155, R168). -/
def execStart (s : State) : Host.Outcome State Fault Refusal :=
  s.actionRow .unit codeStart (fun a m => m.startUnit a.record.idx)

/-! ### STOP (R155, R168) -/

/-- The auto-start request cleared (R158). -/
def Mill.clearAutoStart (m : Mill) (g : Grinder) : Mill := m.updGrinder g ({ · with autoStart := false })

/-- STOP of a line (R155). -/
def Mill.stopLine (m : Mill) (l : Line) : Mill :=
  if !m.presentLine l then m.answer (ans resAbsent 0)
  else match (m.lineCtl l).state with
    | .tripped => m.wrongState (m.lineCtl l).state.code
    | .idle =>
      match l with
      | .grinder g => ((m.clearAutoStart g).readRefill g false).ok 1
      | .pellet => m.ok 1
    | .running | .starved | .blocked | .draining =>
      match l with
      | .grinder g => ((m.clearAutoStart g).endWork l .idle).ok 0
      | .pellet => (m.endWork l .idle).ok 0

/-- STOP of the bagger (R168). -/
def Mill.stopBaggerAction (m : Mill) : Mill :=
  if !m.presentUnit 6 then m.answer (ans resAbsent 0)
  else if m.pack.bagger.state = .idle then m.ok 1
  else (m.stopBagger .idle).ok 0

/-- STOP of the loadout (R168, R181). -/
def Mill.stopLoadoutAction (m : Mill) : Mill :=
  if !m.presentUnit 7 then m.answer (ans resAbsent 0)
  else if m.pack.loadout.state = .idle then m.ok 1
  else if m.pack.loadout.state = .filling then ((m.updLoadout ({ · with stopRequest := true })).cutFill).ok 0
  else (m.updLoadout ({ · with state := .idle, spout := false })).ok 0

/-- STOP executed, by unit index. -/
def Mill.stopUnit (m : Mill) (u : Nat) : Mill :=
  match lineOfUnit u with
  | some l => m.stopLine l
  | none =>
    if u = 6 then m.stopBaggerAction else if u = 7 then m.stopLoadoutAction else m.wrongState neverDetail

/-- STOP (R155, R168). -/
def execStop (s : State) : Host.Outcome State Fault Refusal :=
  s.actionRow .unit codeStop (fun a m => m.stopUnit a.record.idx)

/-! ### CLEAR_TRIP (R154, R155, R168) -/

/-- A trip channel passes the check of CLEAR_TRIP: fresh, good and not above its limit (R154). -/
def Mill.chanClear (m : Mill) (ch : TripChannel) (c : TripChan) : Bool :=
  c.fresh.isSome && (match c.latest with
    | some x => !m.countsAbove ch x
    | none => false)

/-- A TRIPPED line back to IDLE: the line's fields, the answer, then the refill setting of a grinder, and what the pellet line
tells (R154). -/
def Mill.untrip (m : Mill) (l : Line) : Mill :=
  let m1 := ((m.updLine l (fun c => { c with state := .idle, cause := .none, tripOut := false })).clearAbove l).ok 0
  match l with
  | .grinder g => (m1.readRefill g false).tryAutoStart g
  | .pellet => m1.tell .pelletLeftTrip

/-- CLEAR_TRIP of a line (R154). -/
def Mill.clearLine (m : Mill) (l : Line) : Mill :=
  if !m.presentLine l then m.answer (ans resAbsent 0)
  else if (m.lineCtl l).state ≠ .tripped then m.wrongState (m.lineCtl l).state.code
  else match m.firstFailing l m.chanClear with
    | some ch => m.answer (ans resConditionActive (chanRole ch).val)
    | none => m.untrip l

/-- CLEAR_TRIP executed, by unit index. -/
def Mill.clearUnit (m : Mill) (u : Nat) : Mill :=
  match lineOfUnit u with
  | some l => m.clearLine l
  | none => if 6 ≤ u && !m.presentUnit u then m.answer (ans resAbsent 0) else m.wrongState neverDetail

/-- CLEAR_TRIP (R154, R155, R168). -/
def execClearTrip (s : State) : Host.Outcome State Fault Refusal :=
  s.actionRow .unit codeClearTrip (fun a m => m.clearUnit a.record.idx)

/-! ### The refill-setting read (R156 to R158) -/

/-- A returned refill-setting read of a grinder. -/
def isRefill (g : Grinder) (t : ReadTag) : Bool := t = .refill g true || t = .refill g false

/-- The START of a grinder judged at the return of its read (R157). -/
def Mill.judgeStart (m : Mill) (g : Grinder) (r : Refill) : Mill :=
  match m.grindChecks g r with
  | some a => m.answer a
  | none => (m.beginJob g r).ok 0

/-- A grinder's refill setting taken from the oldest read returned for it (R156 to R158). -/
def Mill.refillRead (m : Mill) (g : Grinder) : Option Mill :=
  match m.returned.find? (fun r => isRefill g r.1) with
  | none => none
  | some r =>
    let m1 := { m with returned := m.returned.eraseP (fun x => isRefill g x.1) }.takeRefill g r.2
    if r.1 = .refill g true && m.actions.inExec = .startRefill g then some (m1.judgeStart g (refillOf r.2))
    else some (m1.tryAutoStart g)

/-- REFILL_SETTING_READ (R156 to R158). -/
def execRefillSettingRead (g : Grinder) (s : State) : Host.Outcome State Fault Refusal :=
  s.runMill [.lineSupervisor] (fun m => m.refillRead g)

end Sys2Proof.Machine
end

