-- ==== Sys2Proof/Machine/WeighRows.lean ====
section
/-! DEFINITION. The rows of the scales' and the mixer's samples and timers (07_weighing_mixing_and_discharge.md). -/

namespace Sys2Proof.Machine

/-- The scale of a role. -/
def scaleOfRole (r : Role) : Scale := if r = 0 then .one else .two

/-- SCALE_SAMPLE (R120). -/
def execScaleSample (s : State) : Host.Outcome State Fault Refusal :=
  s.sampleRow .weighMix (fun r => r = 0 || r = 1) (fun x m => m.scaleSample (scaleOfRole x.role) x)

/-- MIXER_SAMPLE (R120, R137, R143). -/
def execMixerSample (s : State) : Host.Outcome State Fault Refusal :=
  s.sampleRow .weighMix (fun r => r = 2) (fun x m => m.mixerSample x)

/-- A row of the Weigh-and-Mix Controller's timers. -/
def State.weighRow (s : State) (f : Mill → Option Mill) : Host.Outcome State Fault Refusal := s.runMill [.weighMix] f

/-- A scale's channel goes stale: a stall while FEEDING (R120, R125). -/
def Mill.scaleStale (m : Mill) (sc : Scale) : Mill :=
  let m1 := m.updScale sc (fun c => { c with channel := { c.channel with fresh := none } })
  if (m1.scale sc).state = .feeding then m1.endPhase sc .stall else m1

/-- SCALE_STALE (R120, R125). -/
def execScaleStale (sc : Scale) (s : State) : Host.Outcome State Fault Refusal :=
  s.weighRow (fun m => if Timer.due (m.scale sc).channel.fresh then some (m.scaleStale sc) else none)

/-- MIXER_STALE (R120). -/
def execMixerStale (s : State) : Host.Outcome State Fault Refusal :=
  s.weighRow (fun m =>
    if Timer.due m.weigh.mixer.channel.fresh then
      some (m.updMixer (fun c => { c with channel := { c.channel with fresh := none } }))
    else none)

/-- STALL_TIMER_EXPIRY (R125). -/
def execStallTimerExpiry (sc : Scale) (s : State) : Host.Outcome State Fault Refusal :=
  s.weighRow (fun m => if Timer.due (m.scale sc).stall then some (m.endPhase sc .stall) else none)

/-- SETTLE_EXPIRY (R126). -/
def execSettleExpiry (sc : Scale) (s : State) : Host.Outcome State Fault Refusal :=
  s.weighRow (fun m =>
    match m.weigh.batch with
    | some b => if Timer.due (m.scale sc).settle then some (m.settleScale b sc) else none
    | none => none)

/-- WEIGH_LIMIT_EXPIRY: weighing is cancelled and WEIGH_LIMIT raised (R134); none while the timer is suspended. -/
def execWeighLimitExpiry (s : State) : Host.Outcome State Fault Refusal :=
  s.weighRow (fun m =>
    match m.weigh.batch with
    | some b =>
      if Timer.due m.weigh.limit && !m.weigh.suspended then some ((m.cancelWeighing b).raise .weighLimit) else none
    | none => none)

/-- The mix timer's end: MIXED, the hold-limit timer started, discharge permission judged (R138). -/
def Mill.mixed (m : Mill) (b : Fin 32) : Mill :=
  ((m.updMixer ({ · with state := .mixed, mix := none, hold := some (minutes m.plan.mixHold) })).ownBatch b
    ({ · with state := .mixed })).judgeDischarge

/-- MIX_TIMER_EXPIRY (R138). -/
def execMixTimerExpiry (s : State) : Host.Outcome State Fault Refusal :=
  s.weighRow (fun m =>
    match m.weigh.mixer.batch with
    | some b => if Timer.due m.weigh.mixer.mix then some (m.mixed b) else none
    | none => none)

/-- The hold limit's end: attention HELD (R139). -/
def Mill.held (m : Mill) (b : Fin 32) : Mill :=
  (m.updMixer ({ · with hold := none })).ownBatch b (fun x => { x with attention := { Attention.reset with cause := .held } })

/-- HOLD_LIMIT_EXPIRY (R139). -/
def execHoldLimitExpiry (s : State) : Host.Outcome State Fault Refusal :=
  s.weighRow (fun m =>
    match m.weigh.mixer.batch with
    | some b => if Timer.due m.weigh.mixer.hold then some (m.held b) else none
    | none => none)

end Sys2Proof.Machine
end

