-- ==== Sys2Proof/Machine/Dispatch.lean ====
section
/-! DEFINITION. One arm for each command: one direct call of its meaning. -/

namespace Sys2Proof.Machine

def exec (i : Instr) (s : State) : Host.Outcome State Fault Refusal :=
  match i with
  | .rstNLow => Sys2Proof.Machine.execRstNLow s
  | .rstNRelease plansel => Sys2Proof.Machine.execRstNRelease plansel s
  | .processorWrite addr beats => Sys2Proof.Machine.execProcessorWrite addr beats s
  | .processorRead addr enables => Sys2Proof.Machine.execProcessorRead addr enables s
  | .processorGrant => Sys2Proof.Machine.execProcessorGrant s
  | .laneWriteLand => Sys2Proof.Machine.execLaneWriteLand s
  | .postAdmitted => Sys2Proof.Machine.execPostAdmitted s
  | .flagClear => Sys2Proof.Machine.execFlagClear s
  | .enableWrite => Sys2Proof.Machine.execEnableWrite s
  | .planOpen => Sys2Proof.Machine.execPlanOpen s
  | .planClose => Sys2Proof.Machine.execPlanClose s
  | .restart => Sys2Proof.Machine.execRestart s
  | .badControl => Sys2Proof.Machine.execBadControl s
  | .loadStage1 => Sys2Proof.Machine.execLoadStage1 s
  | .loadStage2 => Sys2Proof.Machine.execLoadStage2 s
  | .loadStage3 => Sys2Proof.Machine.execLoadStage3 s
  | .loadStage5 => Sys2Proof.Machine.execLoadStage5 s
  | .badAction => Sys2Proof.Machine.execBadAction s
  | .release => Sys2Proof.Machine.execRelease s
  | .releaseFieldsRead => Sys2Proof.Machine.execReleaseFieldsRead s
  | .verifyWalkStart => Sys2Proof.Machine.execVerifyWalkStart s
  | .ticketHeaderStage => Sys2Proof.Machine.execTicketHeaderStage s
  | .ticketLineStage => Sys2Proof.Machine.execTicketLineStage s
  | .confirmingRead => Sys2Proof.Machine.execConfirmingRead s
  | .hold => Sys2Proof.Machine.execHold s
  | .resume => Sys2Proof.Machine.execResume s
  | .cancel => Sys2Proof.Machine.execCancel s
  | .close => Sys2Proof.Machine.execClose s
  | .clear => Sys2Proof.Machine.execClear s
  | .accept => Sys2Proof.Machine.execAccept s
  | .topUp => Sys2Proof.Machine.execTopUp s
  | .skipLine => Sys2Proof.Machine.execSkipLine s
  | .retry => Sys2Proof.Machine.execRetry s
  | .abort => Sys2Proof.Machine.execAbort s
  | .count => Sys2Proof.Machine.execCount s
  | .countReadReturn => Sys2Proof.Machine.execCountReadReturn s
  | .lockout => Sys2Proof.Machine.execLockout s
  | .returnBin => Sys2Proof.Machine.execReturnBin s
  | .divertHead => Sys2Proof.Machine.execDivertHead s
  | .start => Sys2Proof.Machine.execStart s
  | .stop => Sys2Proof.Machine.execStop s
  | .clearTrip => Sys2Proof.Machine.execClearTrip s
  | .refillSettingRead g => Sys2Proof.Machine.execRefillSettingRead g s
  | .arrive => Sys2Proof.Machine.execArrive s
  | .arriveReadReturn => Sys2Proof.Machine.execArriveReadReturn s
  | .finish => Sys2Proof.Machine.execFinish s
  | .depart => Sys2Proof.Machine.execDepart s
  | .withdraw => Sys2Proof.Machine.execWithdraw s
  | .queueHold => Sys2Proof.Machine.execQueueHold s
  | .queueResume => Sys2Proof.Machine.execQueueResume s
  | .admissionPass steps => Sys2Proof.Machine.execAdmissionPass steps s
  | .scaleSample => Sys2Proof.Machine.execScaleSample s
  | .mixerSample => Sys2Proof.Machine.execMixerSample s
  | .scaleStale sc => Sys2Proof.Machine.execScaleStale sc s
  | .mixerStale => Sys2Proof.Machine.execMixerStale s
  | .stallTimerExpiry sc => Sys2Proof.Machine.execStallTimerExpiry sc s
  | .settleExpiry sc => Sys2Proof.Machine.execSettleExpiry sc s
  | .weighLimitExpiry => Sys2Proof.Machine.execWeighLimitExpiry s
  | .mixTimerExpiry => Sys2Proof.Machine.execMixTimerExpiry s
  | .holdLimitExpiry => Sys2Proof.Machine.execHoldLimitExpiry s
  | .tripChannelSample => Sys2Proof.Machine.execTripChannelSample s
  | .tripChannelStale ch => Sys2Proof.Machine.execTripChannelStale ch s
  | .adjustTimerExpiry line => Sys2Proof.Machine.execAdjustTimerExpiry line s
  | .grinderTotalSample => Sys2Proof.Machine.execGrinderTotalSample s
  | .plFeedSample => Sys2Proof.Machine.execPlFeedSample s
  | .plProductSample => Sys2Proof.Machine.execPlProductSample s
  | .drainTimerExpiry => Sys2Proof.Machine.execDrainTimerExpiry s
  | .bagEvent => Sys2Proof.Machine.execBagEvent s
  | .truckNetSample => Sys2Proof.Machine.execTruckNetSample s
  | .loadoutSettleExpiry => Sys2Proof.Machine.execLoadoutSettleExpiry s
  | .truckNetStale => Sys2Proof.Machine.execTruckNetStale s
  | .tripLimitExpiry => Sys2Proof.Machine.execTripLimitExpiry s

end Sys2Proof.Machine
end

