-- ==== Sys2Proof/Safety.lean ====
section
/-! DEFINITION. What counts as a safe step, and what holds of every state between two steps. -/

namespace Sys2Proof.Machine

/-- A safe step answers a next state: no transaction of the part is left without completion by an error (R2). -/
def Safe (s : State) : Prop := ∃ t, step s = .next t

/-- The words that the lane's writes are to, in lane order. -/
def writtenWords (lane : List LaneEntry) : List Addr :=
  lane.filterMap (fun e => match e.op with
    | .write _ _ _ => some e.addr
    | .read _ => none)

/-- The lane as section 1.5 has it: at most 32 entries, no two of its ungranted writes to the same word. -/
def laneOk (lane : List LaneEntry) : Prop := lane.length ≤ Config.laneDepth ∧ (writtenWords lane).Nodup

/-- The hold target of a held read is an entry of the lane (R17). -/
def holdOk (tx : Option Tx) (lane : List LaneEntry) : Prop :=
  match tx with
  | some (.read _ hold) => hold ≤ lane.length
  | _ => True

/-- The memory path between two steps: memory in its canonical form, the lane within its bounds, no block waiting to post
twice, the grant count from 0 to 4 (R13 to R17). -/
structure PathOk (s : State) : Prop where
  mem : s.mem.wf = true
  lane : laneOk s.lane
  waiting : (s.waiting.map (·.block)).Nodup
  hold : holdOk s.tx s.lane
  count : s.grantCount ≤ Config.grantLimit

/-- The Status Unit between two steps: bits 31 to 17 of the flag value 0 (R196), the condition bits of event flags 0 and
the flag of every condition that holds set (R197, R198), ALERT_N active exactly when some flag is set in both the flag
value and the enable copy (R199). -/
structure StatusOk (u : Status) : Prop where
  flags : u.flags &&& ~~~allFlags = 0
  cond : u.cond &&& ~~~(flagsOf conditionFlags) = 0
  held : u.cond &&& ~~~u.flags = 0
  alert : u.alert = decide (u.flags &&& u.enable ≠ 0)

/-- Nothing that a step posts or reports is left undelivered at its end, but reports that wait at a Status Unit waiting to
post (R13, R15, R196). -/
def Delivered (s : State) : Prop := s.mill.outbox = [] ∧ (s.waits .statusUnit = false → s.mill.reports = [])

/-- A block takes its next event: RST_N is high, the block does not wait to post and no earlier event waits at it (R15,
R31). -/
def State.free (s : State) (b : Block) : Prop := s.rstN = true ∧ s.busy b = false

/-- The head of the action queue is this action, and it can be handed to its owner (R20). -/
def State.hands (s : State) (r : RecordRef) (code : BitVec 8) (arg : BitVec 24) : Prop :=
  s.mill.headAction = some ⟨r, code, arg⟩ ∧ s.free .actionExecutor ∧ s.free (s.mill.executor r code)

/-- The sample waits at the hand-off, its owner's oldest word there, and the owner takes events (R10, R11). -/
def State.samples (s : State) (b : Block) (x : Sample) : Prop := s.handoffFor b = some (.sample x) ∧ s.free b

end Sys2Proof.Machine
end

