-- ==== Sys2Proof/Certificates/Slice0/Obligations.lean ====
section
/-! DEFINITION. The statements for the provers. A row that works on a block ends with State.leaves: the blocks as named,
then the end of the step (posts offered to the lane, notices taken, reports given). While the step would reach a block
that
waits to post it waits as a whole, and State.leaves is then the state before it (R15, the model's choice, log 11);
Obligations.QuietEnd says when. -/

open Sys2Proof Sys2Proof.Machine

/-! ### The queue, reset, and what every step keeps -/

/-- A step takes the command at the front of the queue and runs it with the queue's rest. -/
def Obligations.StepTakesFront : Prop :=
  ∀ (c : Instr) (rest : List Instr) (s : State), s.pending = c :: rest → step s = exec c { s with pending := rest }

/-- On an empty queue one tick passes (the model's choice, log 2): a running timer counts down by 1 and one that is due
stays due, the weigh-limit timer is suspended while a scale is in ATTENTION, the time since PL_PRODUCT was heard stops by
itself (log 17), and nothing but timers changes. -/
def Obligations.EmptyQueueTicks : Prop :=
  ∀ s : State, s.pending = [] →
    ∃ t, step s = .next t ∧ t = { s with mill := t.mill } ∧
      (∀ n, Timer.tick (some (n + 1)) = some n) ∧ Timer.tick (some 0) = some 0 ∧ Timer.tick none = none ∧
      t.mill = { s.mill with weigh := t.mill.weigh, lines := t.mill.lines, pack := t.mill.pack, trips := t.mill.trips } ∧
      t.mill.weigh = { s.mill.weigh with
        scale1 := t.mill.weigh.scale1, scale2 := t.mill.weigh.scale2, mixer := t.mill.weigh.mixer
        limit := t.mill.weigh.limit } ∧
      (∀ sc, let c := s.mill.scale sc
        t.mill.scale sc = { c with
          stall := c.stall.tick, settle := c.settle.tick, channel := { c.channel with fresh := c.channel.fresh.tick } }) ∧
      (let c := s.mill.weigh.mixer
       t.mill.weigh.mixer = { c with
         mix := c.mix.tick, hold := c.hold.tick, channel := { c.channel with fresh := c.channel.fresh.tick } }) ∧
      (s.mill.weigh.suspended = true → t.mill.weigh.limit = s.mill.weigh.limit) ∧
      (s.mill.weigh.suspended = false → t.mill.weigh.limit = s.mill.weigh.limit.tick) ∧
      (∀ g, let c := s.mill.grinderCtl g
        t.mill.grinderCtl g = { c with
          line := { c.line with
            adjust := c.line.adjust.tick, load := { c.line.load with fresh := c.line.load.fresh.tick } } }) ∧
      (let c := s.mill.lines.pellet
       t.mill.lines.pellet = { c with
         line := { c.line with adjust := c.line.adjust.tick, load := { c.line.load with fresh := c.line.load.fresh.tick } }
         temp := { c.temp with fresh := c.temp.fresh.tick }, drain := c.drain.tick, heard := t.mill.lines.pellet.heard } ∧
       (∀ n, c.heard = some (n + 2) → t.mill.lines.pellet.heard = some (n + 1)) ∧
       (c.heard = none ∨ c.heard = some 0 ∨ c.heard = some 1 → t.mill.lines.pellet.heard = none)) ∧
      (let l := s.mill.pack.loadout
       t.mill.pack = { s.mill.pack with
         loadout := { l with settle := l.settle.tick, channel := { l.channel with fresh := l.channel.fresh.tick } } }) ∧
      t.mill.trips = { s.mill.trips with limit := s.mill.trips.limit.tick }

/-- After power-on, with RST_N low: UNPLANNED, plan copy empty, no request, windows not decoded, lane, action queue and
markers empty, grant count 0, refusal record empty, interlock inactive, flags 0, every trip output and ALERT_N inactive.
The invariants below hold after reset. -/
def Obligations.ResetValues : Prop :=
  (let s := State.reset
   s.pending = [] ∧ s.rstN = false ∧ s.mill.plan.state = .unplanned ∧ s.mill.plan.words = [] ∧
     s.mill.plan.control = none ∧ s.mill.plan.present.toList = List.replicate 8 false ∧ s.windows = none ∧ s.lane = [] ∧
     s.waiting = [] ∧ s.tx = none ∧ s.grantCount = 0 ∧ s.refusal = none ∧ s.mill.actions.queue = [] ∧
     s.mill.actions.marked = [] ∧ s.mill.book.interlock = none ∧ s.status.flags = 0 ∧ s.status.enable = 0 ∧
     s.status.alert = false ∧ (∀ l ∈ allLines, (s.mill.lineCtl l).tripOut = false)) ∧
  (PathOk State.reset ∧ StatusOk State.reset.status ∧ Delivered State.reset)

/-- Every step keeps the memory path in order: memory in its canonical form, at most 32 lane entries with no two writes to
one word, no block waiting twice, a held read's target in the lane, the grant count at most 4. -/
def Obligations.EveryStepKeepsThePath : Prop := ∀ s t : State, PathOk s → step s = .next t → PathOk t

/-- Every step keeps the Status Unit in order: bits 31 to 17 of the flag value 0, a flag set while its condition holds,
ALERT_N active exactly when some flag is set in both the flag value and the enable copy. -/
def Obligations.EveryStepKeepsTheFlags : Prop := ∀ s t : State, StatusOk s.status → step s = .next t → StatusOk t.status

/-- Every well-formed command answers a next state; any other, a transaction of 0 or more than 8 beats or a pass of no
step, is refused as malformed. That a command without an occasion answers its state unchanged is the model's choice
(log 1), and so is a pass in steps (log 13). -/
def Obligations.WellFormedCommandsComplete : Prop :=
  ∀ (c : Instr) (s : State),
    (c.wf = true → ∃ t, exec c s = .next t) ∧ (c.wf = false → exec c s = .refused .malformed)

/-- What commands leave of the memory path: memory changes at the two grants and the flag-word beat alone, the data
returned and the bursts at a processor grant, the grant count at the grants, the refusal record at a processor write and
at the sweep, the pins at the two reset rows; the queue never. -/
def Obligations.PathFrame : Prop :=
  ∀ (c : Instr) (s t : State), exec c s = .next t →
    t.pending = s.pending ∧
    (c ≠ .processorGrant → c ≠ .laneWriteLand → c ≠ .flagClear → ∀ a, t.mem.readByte a = s.mem.readByte a) ∧
    (c ≠ .processorGrant → c ≠ .rstNLow → t.readData = s.readData ∧ t.bursts = s.bursts) ∧
    (c ≠ .processorGrant → c ≠ .laneWriteLand → c ≠ .rstNLow → t.grantCount = s.grantCount) ∧
    (c ≠ .loadStage5 → c ≠ .rstNLow → (∀ a bs, c ≠ .processorWrite a bs) → t.refusal = s.refusal) ∧
    (c ≠ .rstNLow → (∀ p, c ≠ .rstNRelease p) → t.rstN = s.rstN ∧ t.strap = s.strap)

/-- A step that leaves the blocks as m has them waits as a whole while it would reach a block that waits to post (the
model's choice, log 11); while no block waits it reaches none. With no notice waiting, no trip read to be posted and no
sweep in progress, its end changes nothing of the blocks but what it delivers, the entry of an answered action and the
Ticket Checker's wait for a write; nor memory, queue, pins, grant count, refusal record. Its posts are offered to the
lane in order, those of the Status Unit behind them; reports stay undelivered only while the Status Unit waits to post,
and are given to it otherwise. Notices are taken from the oldest, each by its receiver and each with those it gives rise
to, while no block waits (log 10); one whose receiver can take no event waits, and the next is looked at (log 11). A
step that changes the number of non-final batches waits while the Batch Sequencer waits to post (R104). The RETURN of a
bin reaches no block that waits. An order's material is judged by the Order Book, whatever the Pack-out Controller waits
for (the model's choice, log 60). -/
def Obligations.QuietEnd : Prop :=
  (∀ (s : State) (m : Mill), m.notices = [] → (∀ t, m.trips.arriving ≠ some (t, false)) → m.plan.load ≠ .sweeping →
    (s.waiting = [] → s.reaches m = false) ∧ (s.reaches m = true → s.leaves m = s) ∧
    (s.reaches m = false →
      ∃ (a : Actions) (k : Checker) (e : List Report) (more : List LaneEntry),
        (a = m.actions ∨ (m.actions.inExec = .answered ∧ a = ⟨m.actions.queue.tail, m.actions.marked, .none⟩)) ∧
        (k = m.checker ∨ k = { m.checker with awaitsWrite := false }) ∧
        (e = [] ∨ ((s.leaves m).waits .statusUnit = true ∧ e = m.reports)) ∧
        (s.leaves m).mill = { m with actions := a, checker := k, outbox := [], reports := e } ∧
        (∀ x ∈ more, x.poster = .statusUnit) ∧
        ((s.leaves m).lane, (s.leaves m).waiting) = (m.outbox ++ more).foldl offer (s.lane, s.waiting)) ∧
    (s.leaves m).mem = s.mem ∧ (s.leaves m).pending = s.pending ∧ (s.leaves m).rstN = s.rstN ∧
    (s.leaves m).strap = s.strap ∧ (s.leaves m).grantCount = s.grantCount ∧ (s.leaves m).refusal = s.refusal) ∧
  (∀ (s : State) (m : Mill), m.notices = [] → (∀ t, m.trips.arriving ≠ some (t, false)) → m.plan.load ≠ .sweeping →
    s.reaches m = false → s.waits .statusUnit = false → (∀ e ∈ m.outbox, e.poster ≠ .statusUnit) →
    (s.leaves m).status = (s.status.report m.reports m.condition).summarise m) ∧
  (∀ (s : State) (m : Mill), s.waits .batchSequencer = true → m.seq.nonFinal ≠ s.mill.seq.nonFinal →
    s.leaves m = s) ∧
  (∀ (s : State) (x : Notice) (xs : List Notice), s.mill.notices = x :: xs →
    s.drain 0 = s ∧
    (s.waiting = [] → ∀ n, s.drain (n + 1) =
      (State.flush { s with mill := { s.mill with notices := xs }.onNotice x }).drain n) ∧
    (s.waits x.receiver = true → s.nextNotice [] s.mill.notices = s.nextNotice [x] xs)) ∧
  (∀ (s : State) (n : Nat), s.mill.notices = [] → s.drain n = s) ∧
  (∀ (m : Mill) (g : Surge) (b : Fin 48) (old new available : Nat) (o : Fin 256),
    m.onNotice (.headChanged .pellet) = m.pelletSeek ∧ m.onNotice (.headChanged .bag) = m.judgeBagger ∧
    m.onNotice (.headChanged .bulk) = m.judgeLoadout ∧ m.onNotice (.headMarked .pellet) = m.pelletMarked ∧
    m.onNotice (.headMarked .bag) = m.judgeBagger ∧ m.onNotice (.headMarked .bulk) = m.bulkMarked ∧
    m.onNotice (.appended .bag) = m.judgeBagger ∧ m.onNotice (.appended .bulk) = m ∧ m.onNotice (.appended .pellet) = m ∧
    m.onNotice (.surgeRoom g) = m.reclaim g.kind ∧ m.onNotice (.destRoom g) = m.pelletUnblock g ∧
    m.onNotice (.headCheck g) = m.checkHead g ∧
    m.onNotice (.binLevel b old new available) = m.binReport b old new available ∧
    m.onNotice (.binAvailable b new available) = m.binReport b new new available ∧
    m.onNotice .reworkFell = (m.recheckDiverts.tell .reworkRoom).tell .reworkLevel ∧
    m.onNotice .reworkRoom = m.reclaim .rework ∧ m.onNotice .reworkLevel = m.judgeBagger ∧
    m.onNotice (.orderFinishing o) = m.judgeBagger ∧ m.onNotice .pelletGone = m.judgeBagger ∧
    m.onNotice .pelletLeftTrip = m.reclaim .surgePellet ∧ m.onNotice .considerTake = m.considerTake ∧
    m.onNotice (.judgeExhausted o) = (m.judgeCancelled o).judgeMakeUp o ∧ m.onNotice .tripLoading = m.spoutGiven ∧
    m.onNotice .tripLeft = m.spoutTaken) ∧
  (∀ (s : State) (b : Fin 48) (arg : BitVec 24), s.hands ⟨.bin, b⟩ 0x22 arg → s.mill.outbox = [] →
    s.reaches (((s.mill.updBin b (fun y => { y with lockedOut := false })).answer ⟨0x00, 0⟩).askPass) = false ∧
    s.reaches (s.mill.answer ⟨0x03, 0⟩) = false)

/-! ### Reset, transactions, grants -/

/-- RST_N low empties every block and leaves memory and the strap value; the release of RST_N samples the straps, which
select the base of the plan region; while RST_N is high it has no effect. -/
def Obligations.ResetRows : Prop :=
  (∀ s : State, exec .rstNLow s = .next { State.reset with pending := s.pending, mem := s.mem, strap := s.strap }) ∧
  (∀ (s : State) (p : BitVec 2), s.rstN = false →
    exec (.rstNRelease p) s = .next { s with rstN := true, strap := p }) ∧
  (∀ (s : State) (p : BitVec 2), s.rstN = true → exec (.rstNRelease p) s = .next s) ∧
  regionBase 0 = 0x000000 ∧ regionBase 1 = 0x100000 ∧ regionBase 2 = 0x7FF000 ∧ regionBase 3 = 0xFFF000

/-- The decision on one enabled lane of a write beat, by its class, the plan state, the verify interlock and the
record's use state; the decision on a whole ACTION word, from the pending marker and the queue at the decode, the
control word judged alike with the pending control request; the class of each lane of a record (that the lanes of a
ticket's header words are class F beside their fields is the model's reading, log 18); when a record is in use; what the
verify interlock covers; what a word means to its owner. -/
def Obligations.WriteDecisions : Prop :=
  ((∀ (m : Mill) w lanes data, m.plan.state = .loading → m.judgeRegionLane w lanes data = some .planBusy) ∧
   (∀ (m : Mill) w lanes data, m.plan.state ≠ .loading →
     (w = 0 → m.judgeRegionLane w lanes data = (m.judgeControl lanes data).reason) ∧
     (w = 1 ∨ w = 2 → m.judgeRegionLane w lanes data = some .deviceField) ∧
     (4 ≤ w → w ≤ 183 → m.plan.state = .opened → m.judgeRegionLane w lanes data = none) ∧
     (4 ≤ w → w ≤ 183 → m.plan.state ≠ .opened → m.judgeRegionLane w lanes data = some .planField) ∧
     (w = 3 ∨ 184 ≤ w → m.judgeRegionLane w lanes data = none)) ∧
   (∀ (m : Mill) k i w lanes data l, m.interlocks k i (recordClass (m.binKind i) k i w l) = true →
     m.judgeRecordLane k i w lanes data l = some .verifyInterlock) ∧
   (∀ (m : Mill) k i w lanes data l, m.interlocks k i (recordClass (m.binKind i) k i w l) = false →
     m.judgeRecordLane k i w lanes data l = match recordClass (m.binKind i) k i w l with
       | .w | .x | .c => none
       | .p => some .planField
       | .f => if m.inUse k i then some .frozen else none
       | .d => some .deviceField
       | .a => (m.judgeAction ⟨k, i⟩ lanes data).reason) ∧
   (∀ (s : State) lanes data l, s.judgeLane .outside lanes data l = none)) ∧
  (∀ (m : Mill) (r : RecordRef) (lanes : Lanes) (data : Word),
     (lanes ≠ 0xF → m.judgeAction r lanes data = .refused .actionPartial ∧
       m.judgeControl lanes data = .refused .actionPartial) ∧
     (lanes = 0xF → r ∈ m.actions.marked → m.judgeAction r lanes data = .refused .actionPending) ∧
     (lanes = 0xF → m.plan.control.isSome = true → m.judgeControl lanes data = .refused .actionPending) ∧
     (lanes = 0xF → r ∉ m.actions.marked → bits data 0 8 = 0 → m.judgeAction r lanes data = .plain) ∧
     (lanes = 0xF → r ∉ m.actions.marked → bits data 0 8 ≠ 0 → m.actions.queue.length < 16 →
       m.judgeAction r lanes data = .taken) ∧
     (lanes = 0xF → r ∉ m.actions.marked → bits data 0 8 ≠ 0 → 16 ≤ m.actions.queue.length →
       m.judgeAction r lanes data = .refused .actionQueueFull) ∧
     (lanes = 0xF → m.plan.control = none → bits data 0 8 = 0 → m.judgeControl lanes data = .plain) ∧
     (lanes = 0xF → m.plan.control = none → bits data 0 8 ≠ 0 → m.judgeControl lanes data = .taken)) ∧
  (∀ (b : BinKind) (i l : Nat), l < 4 →
     (recordClass b .order i 0 l = .a ∧ recordClass b .order i 1 l = .d ∧ recordClass b .order i 2 l = .f ∧
       recordClass b .order i 4 l = .f ∧ (∀ w, w = 3 ∨ w = 5 ∨ w = 6 → recordClass b .order i w l = if l = 3 then .w else .f) ∧
       (∀ w, 7 ≤ w → recordClass b .order i w l = .d)) ∧
     (∀ w, recordClass b .ticket i w l = if w = 6 ∨ w = 7 then .d else .f) ∧
     (recordClass b .bin i 0 l = .a ∧ recordClass b .bin i 1 l = .d ∧ recordClass b .bin i 2 l = .p ∧
       recordClass b .bin i 3 l = .p ∧ (∀ w, w = 4 ∨ w = 5 → recordClass b .bin i w l = if l = 3 then .d else .p) ∧
       recordClass b .bin i 6 l = .d ∧ recordClass b .bin i 7 l = .d ∧
       (∀ w, 8 ≤ w → recordClass b .bin i w l = if b.isSurge ∨ w ≤ 9 then .d else .w)) ∧
     (recordClass b .unit i 0 l = .a ∧ (∀ w, 1 ≤ w → w ≤ 3 → recordClass b .unit i w l = .d) ∧
       (∀ w, 4 ≤ w → i < 3 ∨ 5 < i → recordClass b .unit i w l = .w) ∧
       (3 ≤ i → i ≤ 5 → recordClass b .unit i 4 l = .d ∧
         recordClass b .unit i 5 l = (if i = 5 ∨ l = 3 then .w else .f) ∧
         (∀ w, 6 ≤ w → recordClass b .unit i w l = if w ≤ 10 then .p else .w))) ∧
     (recordClass b .batch i 0 l = .a ∧ (∀ w, 1 ≤ w → recordClass b .batch i w l = .d)) ∧
     (recordClass b .truck i 0 l = .a ∧ recordClass b .truck i 1 l = .d ∧
       recordClass b .truck i 2 l = (if l = 3 then .w else .f) ∧ recordClass b .truck i 3 l = .d ∧
       (∀ w, 4 ≤ w → recordClass b .truck i w l = if w ≤ 9 then .f else .d)) ∧
     (∀ w, recordClass b .reading i w l = .w) ∧
     (recordClass b .status i 0 l = .x ∧ recordClass b .status i 1 l = .d ∧ recordClass b .status i 2 l = .w ∧
       (∀ w, 3 ≤ w → w ≤ 9 → recordClass b .status i w l = .d) ∧ recordClass b .status i 10 l = .a ∧
       recordClass b .status i 11 l = .d ∧ (∀ w, 12 ≤ w → recordClass b .status i w l = .w))) ∧
  (∀ m : Mill,
     (∀ o : Fin 256, m.inUse .order o = true ↔ (m.order o).state = .released ∨ (m.order o).state = .producing ∨
       (m.order o).state = .finishing ∨ (m.order o).state = .cancelling ∨ (m.order o).state = .packed) ∧
     (∀ t : Fin 256, m.inUse .ticket t = true ↔ 0 < getAt m.book.useCount t ∨ getAt m.book.planMark t = true) ∧
     (∀ g, m.inUse .unit (lineUnit (.grinder g)) = true ↔ (m.grinderCtl g).line.state = .running ∨
       (m.grinderCtl g).line.state = .starved ∨ (m.grinderCtl g).line.state = .blocked) ∧
     (∀ i, i ≤ 2 ∨ 5 ≤ i → m.inUse .unit i = false) ∧
     (∀ t : Fin 8, m.inUse .truck t = true ↔ (m.trip t).state ≠ .opened) ∧
     (m.book.interlock = none → ∀ k i r, m.interlocks k i r = false) ∧
     (∀ o : Fin 256, m.book.interlock = some o → ∀ k i r,
       m.interlocks k i r = true ↔ k = .ticket ∨ (k = .order ∧ i = o.val ∧ r = .f))) ∧
  (∀ (s : State) (lanes : Lanes) (data : Word),
     s.meaningOf (.region 0) lanes data = (if s.mill.judgeControl lanes data = .taken then .control else .plain) ∧
     (∀ w, w ≠ 0 → s.meaningOf (.region w) lanes data = .plain) ∧ s.meaningOf .outside lanes data = .plain ∧
     (∀ k i w, recordClass (s.mill.binKind i) k i w 0 = .x → s.meaningOf (.record k i w) lanes data = .flags) ∧
     (∀ k i w, recordClass (s.mill.binKind i) k i w 0 = .a → s.meaningOf (.record k i w) lanes data =
       if s.mill.judgeAction ⟨k, i⟩ lanes data = .taken then .action ⟨k, i⟩ else .plain) ∧
     (∀ k i w, recordClass (s.mill.binKind i) k i w 0 ≠ .x → recordClass (s.mill.binKind i) k i w 0 ≠ .a →
       s.meaningOf (.record k i w) lanes data = .plain) ∧
     (∀ ch w, s.handoffOf (.record .reading ch w) lanes data = if lanes = 0xF then
       (s.mill.plan.roleOfChannel ch).map (fun r => .sample ⟨r, data.extractLsb' 0 24, data.extractLsb' 24 8⟩) else none) ∧
     (∀ i, s.handoffOf (.record .status i 2) lanes data = if lanes = 0 then none else some (.enable lanes data)))

/-- PROCESSOR_WRITE: a transaction of 1 to 8 beats at a free port is judged beat by beat and presented; a beat outside all
decode passes as written and carries no meaning; while a transaction is in progress, RST_N is low or the Path Unit waits
to post another changes nothing (the model's choice, log 7). -/
def Obligations.WriteReceived : Prop :=
  (∀ (addr : Addr) (beats : List WriteBeat) (s : State), 1 ≤ beats.length → beats.length ≤ 8 → s.rstN = true →
    s.tx = none → s.waits .pathUnit = false →
    exec (.processorWrite addr beats) s = .next
      (let r := s.judgeBeats ⟨[], []⟩ (wordAddr addr) 0 beats
       s.stepTo { r.1 with tx := some (.write r.2.beats r.2.handoffs .waiting) })) ∧
  (∀ (s : State) (j : Judged) (base : Addr) (n : Nat) (b : WriteBeat) (bs : List WriteBeat),
    s.judgeBeats j base n [] = (s, j) ∧
    s.judgeBeats j base n (b :: bs) =
      (s.judgeBeat j (addrPlus base n) b).1.judgeBeats (s.judgeBeat j (addrPlus base n) b).2 base (n + 1) bs) ∧
  (∀ (s : State) (j : Judged) (a : Addr) (b : WriteBeat), s.place a = .outside → b.lanes ≠ 0 →
    s.judgeBeat j a b = (s, ⟨j.beats ++ [⟨a, b.lanes, b.data, .plain⟩], j.handoffs⟩)) ∧
  (∀ (addr : Addr) (beats : List WriteBeat) (s : State), 1 ≤ beats.length → beats.length ≤ 8 →
    (s.rstN = false ∨ s.tx.isSome = true ∨ s.waits .pathUnit = true) → exec (.processorWrite addr beats) s = .next s)

/-- A refused beat: the lanes refused are those enabled whose decision is a refusal; the refusal record takes its address,
the data presented, those lanes and the first of their reasons in the table's order; WRITE_REFUSED is raised; the three
words are posted where a status window is known, none otherwise; the lanes that were not refused go on with the word's
meaning, and a beat with none left is dropped. A refusal for a full queue posts the answer QUEUE_FULL with detail 16
(behind the three words, the model's choice, log 50) and raises ACTION_FULL; nothing else changes. A beat with no
refused lane changes nothing and goes on whole. -/
def Obligations.RefusedBeat : Prop :=
  ∀ (s : State) (j : Judged) (a : Addr) (b : WriteBeat),
    let p := s.place a
    let refused := s.refusedLanes p b.lanes b.data
    let reason := s.refusedFor p b.lanes b.data
    let record : RefusalRecord := ⟨a, b.data, refused, BitVec.ofNat 8 reason⟩
    let posts : List LaneEntry := match s.status.base with
      | none => []
      | some base => [3, 4, 5].map (fun w => ⟨.pathUnit, addrPlus base w, .write 0xF (record.word w) .none⟩)
    let left := b.lanes &&& ~~~refused
    let r := s.judgeBeat j a b
    (∀ l, l < 4 → refused.getLsbD l = (b.lanes.getLsbD l && (s.judgeLane p b.lanes b.data l).isSome)) ∧
    r.2 = ⟨if left = 0 then j.beats else j.beats ++ [⟨a, left, b.data, s.meaningOf p b.lanes b.data⟩],
      j.handoffs ++ (s.handoffOf p b.lanes b.data).toList⟩ ∧
    (refused = 0 → r.1 = s) ∧
    (refused ≠ 0 →
      (∃ l x, l < 4 ∧ b.lanes.getLsbD l = true ∧ s.judgeLane p b.lanes b.data l = some x ∧ reason = x.code) ∧
      (∀ l x, l < 4 → b.lanes.getLsbD l = true → s.judgeLane p b.lanes b.data l = some x → reason ≤ x.code) ∧
      ((∀ k i w, p = .record k i w → reason ≠ 5) → r.1 = { s with
        refusal := some record
        mill := { s.mill with outbox := s.mill.outbox ++ posts, reports := s.mill.reports ++ [.event .writeRefused] } }) ∧
      (∀ k i w, p = .record k i w → reason = 5 → r.1 = { s with
        refusal := some record
        mill := { s.mill with
          outbox := s.mill.outbox ++ posts ++ [⟨.actionExecutor, s.mill.recordAddr k i k.answerWord,
            .write 0xF ((16 : BitVec 16) ++ (0x01 : BitVec 8) ++ b.data.extractLsb' 0 8) .none⟩]
          reports := s.mill.reports ++ [.event .writeRefused, .event .actionFull] } })) ∧
    (∀ q : RefusalRecord, q.word 3 = q.addr.setWidth 32 ∧ q.word 4 = q.data ∧
      q.word 5 = (0 : BitVec 16) ++ q.reason ++ (0 : BitVec 4) ++ q.lanes) ∧
    [Refused.planBusy, .verifyInterlock, .actionPartial, .actionPending, .actionQueueFull, .frozen, .planField,
      .deviceField].map (·.code) = [1, 2, 3, 4, 5, 6, 7, 8]

/-- PROCESSOR_READ: presented with its hold: the number of lane entries through the latest write to one of its words, 0
where there is none. -/
def Obligations.ReadPresented : Prop :=
  (∀ (addr : Addr) (enables : List Lanes) (s : State), 1 ≤ enables.length → enables.length ≤ 8 → s.rstN = true →
    s.tx = none → s.waits .pathUnit = false →
    exec (.processorRead addr enables) s = .next
      (let addrs := (List.range enables.length).map (addrPlus (wordAddr addr))
       { s with tx := some (.read addrs (holdOf addrs s.lane)) })) ∧
  (∀ (addrs : List Addr) (lane : List LaneEntry),
    (holdOf addrs lane = 0 ↔ ∀ w ∈ writtenWords lane, w ∉ addrs) ∧
    (∀ n, holdOf addrs lane = n + 1 →
      (∃ w, writtenWords (lane.drop n) = w :: writtenWords (lane.drop (n + 1)) ∧ w ∈ addrs) ∧
      ∀ w ∈ writtenWords (lane.drop (n + 1)), w ∉ addrs))

/-- The arbiter's table, in its order, while the port is free (section 1.6). When a transaction is presented rests on
section 1.4 (R10), the refusal record's post of 1.3 (R9) and the waiting of 1.5 (R15): a write once every word handed over
has been taken and neither the Path Unit nor an owner of a word its beats carry waits to post, which for a flag-word beat
means that the Status Unit does not wait (the model's choice, log 9); a read at once. -/
def Obligations.ArbiterTable : Prop :=
  (∀ s : State, s.portBusy = false →
    (s.readHeld = true → s.lane ≠ [] → s.arbiter = .lane) ∧
    (s.readHeld = false → s.lane ≠ [] → s.grantCount = 4 → s.arbiter = .lane) ∧
    (s.readHeld = false → s.lane = [] ∨ s.grantCount ≠ 4 → s.presented = true → s.arbiter = .processor) ∧
    (s.presented = false → s.lane ≠ [] → s.arbiter = .lane) ∧
    (s.presented = false → s.lane = [] → s.arbiter = .nobody)) ∧
  (∀ s : State,
    (∀ addrs n, s.tx = some (.read addrs n) → s.presented = true ∧ (s.readHeld = true ↔ 0 < n)) ∧
    (s.tx = none → s.presented = false) ∧
    (∀ b bs h hs, s.tx = some (.write (b :: bs) (h :: hs) .waiting) → s.presented = false) ∧
    (∀ b bs, s.tx = some (.write (b :: bs) [] .waiting) →
      (s.presented = true ↔ s.waits .pathUnit = false ∧
        ∀ x ∈ b :: bs, (∀ r, x.meaning = .action r → s.waits .actionExecutor = false) ∧
          (x.meaning = .control → s.waits .planController = false) ∧
          (x.meaning = .flags → s.waits .statusUnit = false))))

/-- PROCESSOR_GRANT of a write: granted whole, every beat but a flag-word beat lands, the count rises by 1 and stays at 4,
an ACTION beat queues its action and marks its record, a control beat becomes the pending request; every byte outside the
surviving lanes reads as before. PROCESSOR_GRANT of a read: the memory contents of every beat are returned, the
transaction completes, the count rises by 1 and stays at 4, and memory is unchanged. The beats are issued in runs of
consecutive words within one 32-byte block. The model's choices: the grant and the end of its cycles are one step (log 8),
a flag-word beat is left to FLAG_CLEAR with the port busy until then (log 9), whole words are returned (log 35). -/
def Obligations.ProcessorGrants : Prop :=
  ((∀ (s : State) (beats : List TxBeat) (hs : List Handoff) (p : TxPhase), s.arbiter = .processor →
     s.tx = some (.write beats hs p) →
     ∃ t, exec .processorGrant s = .next t ∧ t = (s.grantWrite beats).finish ∧
       t.mem = (beats.filter (fun b => b.meaning ≠ .flags)).foldl landBeat s.mem ∧
       t.bursts = splitBursts true (beats.map (·.addr)) ∧ t.grantCount = min 4 (s.grantCount + 1) ∧
       ((s.grantWrite beats).portBusy = true ↔ ∃ b ∈ beats, b.meaning = .flags) ∧
       (s.grantWrite beats).mill = beats.foldl (fun m b => m.grantBeat b) s.mill ∧
       (∀ a, (∀ b ∈ beats, b.meaning ≠ .flags → ∀ n, n < 4 → b.lanes.getLsbD n = true → a ≠ laneKey b.addr n) →
         t.mem.readByte a = s.mem.readByte a)) ∧
   (∀ (m : Mill) (a : Addr) (l : Lanes) (d : Word) (r : RecordRef),
     (m.grantBeat ⟨a, l, d, .action r⟩).actions.queue =
       m.actions.queue ++ [⟨r, d.extractLsb' 0 8, d.extractLsb' 8 24⟩] ∧
     r ∈ (m.grantBeat ⟨a, l, d, .action r⟩).actions.marked ∧
     (m.grantBeat ⟨a, l, d, .control⟩).plan.control = some ⟨d.extractLsb' 0 8, .requested⟩ ∧
     m.grantBeat ⟨a, l, d, .plain⟩ = m ∧ m.grantBeat ⟨a, l, d, .flags⟩ = m)) ∧
  (∀ (s : State) (addrs : List Addr) (hold : Nat), s.arbiter = .processor → s.tx = some (.read addrs hold) →
     ∃ t, exec .processorGrant s = .next t ∧ t.readData = addrs.map s.mem.readWord ∧ t.mem = s.mem ∧ t.tx = none ∧
       t.bursts = splitBursts false addrs ∧ t.grantCount = min 4 (s.grantCount + 1)) ∧
  (∀ (w : Bool) (a b : Addr) (as : List Addr),
     splitBursts w [] = [] ∧ splitBursts w [a] = [⟨w, [a]⟩] ∧
     (b = addrPlus a 1 → b.toNat / 32 = a.toNat / 32 → ∃ xs rest, splitBursts w (b :: as) = ⟨w, b :: xs⟩ :: rest ∧
       splitBursts w (a :: b :: as) = ⟨w, a :: b :: xs⟩ :: rest) ∧
     (b ≠ addrPlus a 1 ∨ b.toNat / 32 ≠ a.toNat / 32 →
       splitBursts w (a :: b :: as) = ⟨w, [a]⟩ :: splitBursts w (b :: as)))

/-- LANE_WRITE_LAND: the lane head is granted and the count becomes 0; a write lands in its lanes, every other byte
reads as before, and its landing clears the marker or request it stands for; a read gives its word back to its poster.
That this row grants the reads too, and that a grant and the end of its cycle are one step, is the model's choice (log
8). -/
def Obligations.LaneHeadGranted : Prop :=
  (∀ (s : State) (e : LaneEntry) (rest : List LaneEntry), s.arbiter = .lane → s.lane = e :: rest →
    ∃ t, exec .laneWriteLand s = .next t ∧ t = (s.grantLane e rest).finish ∧ t.grantCount = 0 ∧
      (∀ k d n, e.op = .write k d n → t.mem = s.mem.writeWord e.addr k d ∧
        (∀ a, (∀ i, i < 4 → k.getLsbD i = true → a ≠ laneKey e.addr i) → t.mem.readByte a = s.mem.readByte a) ∧
        (s.mem.wf = true → ∀ i, i < 4 → k.getLsbD i = true → t.mem.readByte (laneKey e.addr i) = laneByte d i)) ∧
      (∀ tag, e.op = .read tag → t.mem = s.mem)) ∧
  (∀ (s : State) (e : LaneEntry) (rest : List LaneEntry),
    (∀ k d r, e.op = .write k d (.clearsMarker r) → r ∉ (s.grantLane e rest).mill.actions.marked ∧
      ∀ q, q ≠ r → (q ∈ (s.grantLane e rest).mill.actions.marked ↔ q ∈ s.mill.actions.marked)) ∧
    (∀ k d, e.op = .write k d .clearsControl → (s.grantLane e rest).mill.plan.control = none) ∧
    (∀ tag, e.op = .read tag → tag ≠ .discarded →
      (s.grantLane e rest).mill.returned = s.mill.returned ++ [(tag, s.mem.readWord e.addr)]))

/-- POST_ADMITTED: while an entry is free, the front post of the block that began to wait first joins the lane, merged
or at the tail, its posts behind it that merge join at once, and with posts left it stays the first to wait (the model's
reading, log 11); the other blocks keep their places. A post of a block that does not wait: it merges into the ungranted
write of its word, which keeps its place, takes the OR of the masks and the new data in the new lanes; else it joins the
tail while an entry is free and no block waits; else the block waits behind the others. A post of a block that waits
joins the posts it waits with. Reads never merge. -/
def Obligations.PostsJoin : Prop :=
  (∀ (s : State) (w : Waiter) (ws : List Waiter) (e : LaneEntry) (es : List LaneEntry), s.waiting = w :: ws →
     w.posts = e :: es → s.lane.length < 32 →
     ∃ (lane : List LaneEntry) (waiting : List Waiter),
       exec .postAdmitted s = .next (State.finish { s with lane := lane, waiting := waiting }) ∧
       (∀ l, laneMerge e s.lane = some l → lane = (mergeRun l es).1 ∧
         ((mergeRun l es).2 = [] → waiting = ws) ∧
         ((mergeRun l es).2 ≠ [] → waiting = ⟨w.block, (mergeRun l es).2⟩ :: ws)) ∧
       (laneMerge e s.lane = none → lane = (mergeRun (s.lane ++ [e]) es).1 ∧ lane.length = s.lane.length + 1 ∧
         (lane[s.lane.length]?.map (fun x => (x.poster, x.addr))) = some (e.poster, e.addr) ∧
         ((mergeRun (s.lane ++ [e]) es).2 = [] → waiting = ws) ∧
         ((mergeRun (s.lane ++ [e]) es).2 ≠ [] → waiting = ⟨w.block, (mergeRun (s.lane ++ [e]) es).2⟩ :: ws))) ∧
  (∀ (lane l : List LaneEntry) (e : LaneEntry) (es : List LaneEntry), mergeRun lane [] = (lane, []) ∧
     (laneMerge e lane = some l → mergeRun lane (e :: es) = mergeRun l es) ∧
     (laneMerge e lane = none → mergeRun lane (e :: es) = (lane, e :: es))) ∧
  ((∀ (pre post : List LaneEntry) (ws : List Waiter) (p q : Block) (a : Addr) (k k' : Lanes) (d d' : Word)
       (n n' : LandNote), a ∉ writtenWords pre → (∀ w ∈ ws, w.block ≠ q) →
     offer (pre ++ ⟨p, a, .write k d n⟩ :: post, ws) ⟨q, a, .write k' d' n'⟩ =
       (pre ++ ⟨p, a, .write (k ||| k') ((d' &&& laneBits k') ||| (d &&& ~~~ laneBits k')) (n.merge n')⟩ :: post, ws)) ∧
   (∀ (lane : List LaneEntry) (ws : List Waiter) (q : Block) (a : Addr) (op : LaneOp),
     (∀ k d n, op = .write k d n → a ∉ writtenWords lane) → (∀ w ∈ ws, w.block ≠ q) →
     (ws = [] → lane.length < 32 → offer (lane, ws) ⟨q, a, op⟩ = (lane ++ [⟨q, a, op⟩], ws)) ∧
     (ws ≠ [] ∨ 32 ≤ lane.length → offer (lane, ws) ⟨q, a, op⟩ = (lane, ws ++ [⟨q, [⟨q, a, op⟩]⟩]))) ∧
   (∀ (lane : List LaneEntry) (pre post : List Waiter) (w : Waiter) (e : LaneEntry), e.poster = w.block →
     (∀ x ∈ pre ++ post, x.block ≠ w.block) →
     offer (lane, pre ++ w :: post) e = (lane, pre ++ ⟨w.block, w.posts ++ [e]⟩ :: post)))

/-! ### Flags -/

/-- FLAG_CLEAR: of the flags requested by the 1s of the enabled lanes each event flag is cleared, and each condition flag
whose condition bit is 0; the beat lands with all four lanes carrying the new flag value, a flag-word write that is not
granted, in the lane or waiting for it, takes the same data, the condition word is unchanged, a request of 0s changes no
flag, no byte outside the word changes; a write to the flag word is never refused and one to the condition word is refused
DEVICE_FIELD. That the beat is a step of its own is the model's choice (log 9). -/
def Obligations.FlagWordCleared : Prop :=
  (∀ (s : State) (b : TxBeat) (rest : List TxBeat) (hs : List Handoff) (landed : List Addr),
    s.tx = some (.write (b :: rest) hs (.flagBeat landed)) →
    let request := b.data &&& laneBits b.lanes
    let t := s.clearFlags b rest landed
    exec .flagClear s = .next t.finish ∧
      t.status.flags = s.status.flags &&&
        ~~~(request &&& (flagsOf eventFlags ||| (flagsOf conditionFlags &&& ~~~s.status.cond))) ∧
      t.status.cond = s.status.cond ∧ (request = 0 → t.status.flags = s.status.flags) ∧
      t.finish.mem = s.mem.writeWord b.addr 0xF t.status.flags ∧
      (∀ a, (∀ i, i < 4 → a ≠ laneKey b.addr i) → t.finish.mem.readByte a = s.mem.readByte a) ∧
      (∀ e ∈ t.lane ++ (t.waiting.map (·.posts)).flatten, ∀ k d n, e.op = .write k d n → e.addr = b.addr →
        k = 0xF ∧ d = t.status.flags) ∧
      t.lane.map (·.addr) = s.lane.map (·.addr) ∧ t.waiting.map (·.block) = s.waiting.map (·.block)) ∧
  (∀ (m : Mill) lanes data l, m.judgeRecordLane .status 0 0 lanes data l = none ∧
    m.judgeRecordLane .status 0 1 lanes data l = some .deviceField)

/-- ENABLE_WRITE: the enable copy takes the enabled lanes of the word handed off and keeps the others; the flag value and
the condition word are unchanged by it, ALERT_N is judged, and the enable word passes to memory as written. -/
def Obligations.EnableCopied : Prop :=
  (∀ (s : State) (lanes : Lanes) (data : Word), s.free .statusUnit →
    s.handoffFor .statusUnit = some (.enable lanes data) →
    exec .enableWrite s = .next
      (State.finish { s.takes .statusUnit with status := s.status.takeEnable lanes data }) ∧
      (s.status.takeEnable lanes data).enable = (data &&& laneBits lanes) ||| (s.status.enable &&& ~~~ laneBits lanes) ∧
      (s.status.takeEnable lanes data).flags = s.status.flags ∧
      (s.status.takeEnable lanes data).cond = s.status.cond ∧
      (s.status.takeEnable lanes data).alert =
        decide (s.status.flags &&& (s.status.takeEnable lanes data).enable &&& 0x1FFFF ≠ 0)) ∧
  (∀ (m : Mill) lanes data l, m.judgeRecordLane .status 0 2 lanes data l = none)

/-- The reports of a step, taken in order: an event sets its flag; a condition's truth is held in its bit, and its flag
set
where it turns true; no flag is cleared. The condition word then is what holds now. While the Status Unit waits to post
the reports wait at it; else each word of its window that has changed is posted, also one that a report on the way changed
and a later one changed back. Each condition flag's condition: a batch with an attention, one with attention HELD, an
order that waits SHORT or FORBID, a bin in DEFICIT or LOW, a TRIPPED line, a line above its top limit, an outlet that
waits for a lot and whose latest judgement left a head lot. That the reports of a step are taken together at its end, and
that the outlet's latest judgement is what it knows of the head, are the model's choices (log 12). -/
def Obligations.ReportsSetFlags : Prop :=
  (∀ (u : Status) (f : Flag) (b : Bool) (w x : Nat) (r : Report) (rs : List Report),
    u.take (.event f) = { u with flags := u.flags ||| f.mask } ∧ u.take (.figure w) = u ∧
    (f ∈ conditionFlags →
      u.take (.condition f true) = { u with flags := u.flags ||| (f.mask &&& ~~~u.cond), cond := u.cond ||| f.mask } ∧
      u.take (.condition f false) = { u with cond := u.cond &&& ~~~f.mask }) ∧
    (f ∈ eventFlags → u.take (.condition f b) = u) ∧
    u.changedOnTheWay [] w = false ∧
    u.changedOnTheWay (r :: rs) w = (u.changedBy r w || (u.take r).changedOnTheWay rs w) ∧
    u.changedBy (.event f) w = false ∧ (u.changedBy (.figure x) w = true ↔ w = x) ∧
    (u.changedBy (.condition f b) w = true ↔ w = 1 ∧ (u.take (.condition f b)).cond ≠ u.cond)) ∧
  (∀ (u : Status) (reports : List Report) (m : Mill), let v := reports.foldl Status.take u
    (u.report reports m.condition).cond = m.condition ∧
    (u.report reports m.condition).flags = v.flags ||| (m.condition &&& ~~~v.cond) ∧
    (u.report reports m.condition).enable = u.enable ∧
    (∀ f ∈ conditionFlags, m.holds f = true → m.condition &&& f.mask = f.mask) ∧
    (∀ f ∈ conditionFlags, m.holds f = false → m.condition &&& f.mask = 0) ∧
    (∀ f ∈ eventFlags, m.condition &&& f.mask = 0)) ∧
  (∀ s : State, (s.waits .statusUnit = true → s.settleStatus = s) ∧
    (s.waits .statusUnit = false →
      s.settleStatus.status = (s.status.report s.mill.reports s.mill.condition).summarise s.mill ∧
      s.settleStatus.mill.reports = [] ∧
      (∀ base w, s.settleStatus.status.base = some base → w ∈ statusWords →
        s.status.word w ≠ s.settleStatus.status.word w ∨ s.status.changedOnTheWay s.mill.reports w = true →
        (⟨.statusUnit, addrPlus base w, .write 0xF (s.settleStatus.status.word w) .none⟩ : LaneEntry) ∈
          s.settleStatus.mill.outbox) ∧
      (s.settleStatus.status.base = none → s.settleStatus.mill.outbox = s.mill.outbox))) ∧
  (∀ m : Mill,
    (m.holds .attention = true ↔ ∃ b, (m.batch b).attention.cause ≠ .none) ∧
    (m.holds .mixHeld = true ↔ ∃ b, (m.batch b).attention.cause = .held) ∧
    (m.holds .short = true ↔ ∃ o, (m.order o).wait = .short) ∧
    (m.holds .forbid = true ↔ ∃ o, (m.order o).wait = .forbid) ∧
    (m.holds .deficit = true ↔ ∃ i, (getAt m.stock.bins i).deficit = true) ∧
    (m.holds .low = true ↔ ∃ i, (getAt m.stock.bins i).lowC = true) ∧
    (m.holds .lineTrip = true ↔ ∃ l, (m.lineCtl l).state = .tripped) ∧
    (m.holds .topExceeded = true ↔ ∃ l, (m.lineCtl l).top = true) ∧
    (m.holds .headWait = true ↔ (m.pack.bagger.state = .waitLot ∧ m.pack.bagger.seesHead = true) ∨
      (m.pack.loadout.state = .waitLot ∧ m.pack.loadout.seesHead = true)))

/-! ### The plan -/

/-- PLAN_OPEN: an UNPLANNED plan becomes OPEN with OK; a RUNNING plan whose mill is not idle answers BUSY and stays; an
idle one is reopened with OK, its windows no longer decoded, its queue's unanswered actions answered RESTARTED, STOP
posted to a present bagger and loadout, every table discarded but each line's state, ceiling, trip cause and trip
output. The mill is idle, and the index of BUSY, as the five classes give in their order. A change of state waits for a
transaction in progress, the row then leaving the state as it is (the model's reading, log 30). -/
def Obligations.PlanOpened : Prop :=
  (∀ s : State, s.free .planController → s.mill.plan.requested = some 1 →
    (s.mill.plan.state = .unplanned → s.tx = none → exec .planOpen s = .next (s.leaves
      (Mill.postOutcome { s.mill with plan := { s.mill.plan with state := .opened } } s.region ⟨0, 0⟩))) ∧
    (∀ i, s.mill.plan.state = .running → s.mill.busyIndex = some i →
      exec .planOpen s = .next (s.leaves (s.mill.postOutcome s.region ⟨1, i⟩))) ∧
    (s.mill.plan.state = .running → s.mill.busyIndex = none → s.tx = none →
      exec .planOpen s = .next (s.stepTo s.reopenPlan) ∧ s.reopenPlan.windows = none ∧
        s.reopenPlan.mill.plan.state = .opened ∧ s.reopenPlan.mill.actions.queue = [] ∧
        s.reopenPlan.mill.stock = .reset ∧ s.reopenPlan.mill.book = .reset ∧ s.reopenPlan.mill.seq = .reset ∧
        s.reopenPlan.mill.trips = .reset ∧ s.reopenPlan.mill.pack = .reset ∧
        (∀ l ∈ allLines, (s.reopenPlan.mill.lineCtl l).state = (s.mill.lineCtl l).state ∧
          (s.reopenPlan.mill.lineCtl l).tripOut = (s.mill.lineCtl l).tripOut)) ∧
    (s.tx.isSome = true →
      s.mill.plan.state = .unplanned ∨ (s.mill.plan.state = .running ∧ s.mill.busyIndex = none) →
      exec .planOpen s = .next s)) ∧
  (∀ s : State,
    let kept (c : LineCtl) : LineCtl :=
      { LineCtl.reset with state := c.state, ceiling := c.ceiling, cause := c.cause, tripOut := c.tripOut }
    let answers : List LaneEntry := s.mill.actions.unanswered.flatMap (fun a =>
      [⟨.actionExecutor, s.mill.recordAddr a.record.kind a.record.idx a.record.kind.answerWord,
          .write 0xF ((0 : BitVec 16) ++ (0x10 : BitVec 8) ++ a.code) .none⟩,
       ⟨.actionExecutor, s.mill.recordAddr a.record.kind a.record.idx a.record.kind.actionWord,
          .write 0xF 0 (.clearsMarker a.record)⟩])
    let stop (u : Nat) (w : Word) : List LaneEntry := if s.mill.presentUnit u = true then
        [⟨.packOut, s.mill.recordAddr .unit u 2, .write (s.mill.deviceMask .unit u 2) w .none⟩] else []
    s.reopenPlan = { s.discardReads (fun _ => true) with
      windows := none
      mill := { s.mill with
        plan := { s.mill.plan with
          state := .opened, control := s.mill.plan.control.map (fun c => { c with stage := .answered }) }
        actions := ⟨[], s.mill.actions.marked, .none⟩
        checker := ⟨[], none, false⟩
        stock := .reset
        book := .reset
        seq := .reset
        weigh := .reset
        lines := ⟨{ GrinderCtl.reset with line := kept s.mill.lines.grinderA.line },
          { GrinderCtl.reset with line := kept s.mill.lines.grinderB.line },
          { PelletCtl.reset with line := kept s.mill.lines.pellet.line }⟩
        pack := .reset
        trips := .reset
        returned := []
        outbox := s.mill.outbox ++ answers ++ stop 6 (s.mill.pack.bagger.word 2) ++ stop 7 (s.mill.pack.loadout.word 2) ++
          [⟨.planController, addrPlus s.region 1, .write 0xF 1 .none⟩,
           ⟨.planController, addrPlus s.region 2, .write 0xF 0 .none⟩,
           ⟨.planController, s.region, .write 0xF 0 .clearsControl⟩] } } ∧
    (s.discardReads (fun _ => true)).lane.map (fun e => (e.poster, e.addr)) = s.lane.map (fun e => (e.poster, e.addr)) ∧
    (∀ e : LaneEntry, (∀ tag, e.op = .read tag → e.discard (fun _ => true) = { e with op := .read .discarded }) ∧
      (∀ k d n, e.op = .write k d n → e.discard (fun _ => true) = e))) ∧
  (∀ m : Mill,
    let atMill (r : Fin 8) : Prop := (m.trip r).state = .arrived ∨ (m.trip r).state = .loading
    let works (l : Line) : Prop := m.presentLine l = true ∧ (m.lineCtl l).state.works = true
    (∀ o, (m.order o).state.active = true → (∀ p, p < o → (m.order p).state.active = false) →
      m.busyIndex = some (0x100 + o.val)) ∧
    ((∀ o, (m.order o).state.active = false) →
      (∀ b, (m.batch b).state.final = false → (∀ c, c < b → (m.batch c).state.final = true) →
        m.busyIndex = some (0x200 + b.val)) ∧
      ((∀ b, (m.batch b).state.final = true) →
        (∀ l, works l → (∀ k, lineUnit k < lineUnit l → ¬works k) → m.busyIndex = some (0x300 + lineUnit l)) ∧
        ((∀ l, ¬works l) →
          (∀ r, atMill r → (∀ q, q < r → ¬atMill q) → m.busyIndex = some (0x400 + r.val)) ∧
          ((∀ r, ¬atMill r) →
            (m.pack.bagger.state = .bagging ∨ m.pack.bagger.state = .blocked → m.busyIndex = some 0x506) ∧
            (m.pack.bagger.state = .idle ∨ m.pack.bagger.state = .waitLot →
              (m.pack.loadout.state = .idle ∨ m.pack.loadout.state = .waitLot → m.busyIndex = none) ∧
              (m.pack.loadout.state ≠ .idle → m.pack.loadout.state ≠ .waitLot → m.busyIndex = some 0x507)))))))

/-- PLAN_CLOSE from UNPLANNED or OPEN: LOADING is posted, the request stays pending and the reads of stage 1, one for each
of words 4 to 183 of the plan region, are posted. -/
def Obligations.PlanClosed : Prop :=
  ∀ s : State, s.free .planController → s.mill.plan.requested = some 2 →
    (s.mill.plan.state = .unplanned ∨ s.mill.plan.state = .opened) → s.tx = none →
    exec .planClose s = .next (s.stepTo s.closePlan) ∧ s.closePlan.mill.plan.state = .loading ∧
      s.closePlan.mill.plan.load = .stage1 ∧ s.closePlan.mill.plan.control.isSome = true ∧
      s.closePlan.mill.outbox = s.mill.outbox ++
        [⟨.planController, addrPlus s.region 1, .write 0xF 2 .none⟩] ++
        (List.range 180).map (fun w => ⟨.planController, addrPlus s.region (4 + w), .read .loadStage⟩)

/-- RESTART of a RUNNING plan: the restart is carried out with OK; it empties the action queue, the mixer queue, the
release list, the reservation table and the arrival queue, ends the verify interlock and the admission pass, and keeps
the queue hold, the lane's length, the windows, the grant count and the refusal record. Every non-final batch becomes
VOID, every active order CANCELLED with end reason RESTART and in-flight 0, no other order active, every surge's lots
one orphan lot of its level (its mark NONE is the model's choice, log 62), the scales, mixer, bagger, loadout and pellet
line stop, no trip is at the spout or in the arrival queue. Each action not yet answered is answered RESTARTED with
detail 0. The model's choices: a fill in progress is booked first (log 38), a cancelled order has the wait reason NONE
(log 28), one whose cancellation the voiding ends has end reason RESTART too (log 36); batches are voided, then orders
cancelled, in slot order (log 50). -/
def Obligations.RestartCarriedOut : Prop :=
  (∀ s : State, s.free .planController → s.mill.plan.requested = some 3 → s.mill.plan.state = .running →
    let t := s.mill.restart
    exec .restart s = .next (s.stepTo s.restartPlan) ∧
      s.restartPlan.mill = t.postOutcome s.region ⟨0, 0⟩ ∧
      t.actions.queue = [] ∧ t.book.interlock = none ∧ t.book.releaseList = [] ∧ t.stock.table = [] ∧
      t.seq = { t.seq with queue := [], reference := none, pass := .idle, again := false } ∧
      t.seq.hold = s.mill.seq.hold ∧
      t.trips.queue = [] ∧ t.trips.limit = none ∧ t.checker = ⟨[], none, false⟩ ∧
      s.restartPlan.windows = s.windows ∧ s.restartPlan.grantCount = s.grantCount ∧
      s.restartPlan.refusal = s.refusal ∧ s.restartPlan.lane.length = s.lane.length) ∧
  (∀ m : Mill, let t := m.restart
    (∀ b, (t.batch b).state = if (m.batch b).state.final then (m.batch b).state else .void) ∧
    (∀ o, (m.order o).state.active = true → (t.order o).state = .cancelled ∧ (t.order o).endReason = .restart ∧
      (t.order o).wait = .none ∧ (t.order o).inFlight = 0 ∧ (t.order o).entry = none) ∧
    (∀ o, (t.order o).state.active = false) ∧
    (∀ i, let x := getAt t.stock.bins i
      x.reserved = 0 ∧ x.claim = false ∧
        (x.plan.kind.isSurge = true → x.lots = if x.level = 0 then [] else [⟨none, .none, x.level⟩])) ∧
    t.stock.waitingDiverts = [] ∧
    (∀ sc, (t.scale sc).state = .idle) ∧ t.weigh.batch = none ∧ t.weigh.mixer.state = .empty ∧ t.weigh.limit = none ∧
    t.pack.bagger.state = .idle ∧ t.pack.loadout.state = .idle ∧ t.pack.loadout.fill = none ∧
    (∀ r, (t.trip r).state ≠ .arrived ∧ (t.trip r).state ≠ .loading) ∧
    (t.lineCtl .pellet).state.works = false ∧ t.lines.pellet.current = none) ∧
  (∀ m : Mill, m.actions.unanswered = (if m.actions.inExec = .answered then m.actions.queue.tail else m.actions.queue) ∧
    m.answerRestarted = { m with
      actions := ⟨[], m.actions.marked, .none⟩
      outbox := m.outbox ++ m.actions.unanswered.flatMap (fun a =>
        [⟨.actionExecutor, m.recordAddr a.record.kind a.record.idx a.record.kind.answerWord,
            .write 0xF ((0 : BitVec 16) ++ (0x10 : BitVec 8) ++ a.code) .none⟩,
         ⟨.actionExecutor, m.recordAddr a.record.kind a.record.idx a.record.kind.actionWord,
            .write 0xF 0 (.clearsMarker a.record)⟩]) }) ∧
  (∀ m : Mill, (m.pack.loadout.fill = none → m.restartFill = m) ∧
    (∀ f, m.pack.loadout.fill = some f → m.restartFill = m.endFill f .idle false))

/-- BAD_CONTROL: any other pairing of code and plan state is answered BAD_CONTROL with the code, and changes no state.
The outcome of a control request posts PLAN_STATE, then PLAN_RESULT, then the zero control word; the request stays
pending. -/
def Obligations.BadControlAnswered : Prop :=
  (∀ (s : State) (code : BitVec 8), s.free .planController → s.mill.plan.requested = some code →
     ¬(code = 1 ∧ (s.mill.plan.state = .unplanned ∨ s.mill.plan.state = .running)) →
     ¬(code = 2 ∧ (s.mill.plan.state = .unplanned ∨ s.mill.plan.state = .opened)) →
     ¬(code = 3 ∧ s.mill.plan.state = .running) →
     exec .badControl s = .next (s.leaves (s.mill.postOutcome s.region ⟨2, code.toNat⟩))) ∧
  (∀ (m : Mill) (region : Addr) (r : PlanResult),
     (m.postOutcome region r).outbox = m.outbox ++
       [⟨.planController, addrPlus region 1, .write 0xF (wordOf [(m.plan.state.code, 0, 8)]) .none⟩,
        ⟨.planController, addrPlus region 2, .write 0xF (wordOf [(r.code, 0, 8), (r.index, 16, 16)]) .none⟩,
        ⟨.planController, region, .write 0xF 0 .clearsControl⟩] ∧
     (m.postOutcome region r).plan.control.isSome = m.plan.control.isSome ∧
     (m.postOutcome region r).plan.state = m.plan.state)

/-- LOAD_STAGE_1, 2 and 3 with their reads or verdict returned: the load goes on, or a failed check ends it OPEN with
the plan copy discarded, once no transaction is in progress (log 30); one LOAD_STAGE_3 for each verdict (log 23). Stage
1 passes with every window aligned and apart from the plan region and the other windows, every constant in its range,
and every role's channel assigned where it must be and to one role; the first failing window, constant, tolerance class
or role is answered, the roles in role order (log 14). Stage 2 passes with every bin's kind, marks and preact maximum in
range and one bin of each kind that must be there; stage 3 with every checked rule a FORBID, or a FLUSH whose mass is in
range and whose chain verifies, kept as the rule's flush chain; the lines with their blocks in range and their copies
equal, the delay of a line judged always (log 14). A passing stage posts the reads of the next, or asks for the next
chain. -/
def Obligations.LoadStages : Prop :=
  (∀ (s : State) (m : Mill), s.free .planController →
    (s.mill.plan.load = .stage1 → s.mill.readsDone .loadStage 180 = true → s.mill.loadStage1 s.region = .goesOn m →
      exec .loadStage1 s = .next (s.leaves m)) ∧
    (s.mill.plan.load = .stage2 → s.mill.readsDone .loadStage s.mill.stage2Size = true → s.mill.loadStage2 = .goesOn m →
      exec .loadStage2 s = .next (s.leaves m)) ∧
    (∀ item v, s.mill.plan.load = .stage3 item (some v) → s.mill.loadStage3 item v = .goesOn m →
      exec .loadStage3 s = .next (s.leaves m))) ∧
  (∀ (s : State) (m : Mill) (r : PlanResult), s.free .planController → s.tx = none →
    (s.mill.plan.load = .stage1 → s.mill.readsDone .loadStage 180 = true → s.mill.loadStage1 s.region = .fails m r →
      exec .loadStage1 s = .next (s.leaves (m.failLoad s.region r))) ∧
    (s.mill.plan.load = .stage2 → s.mill.readsDone .loadStage s.mill.stage2Size = true → s.mill.loadStage2 = .fails m r →
      exec .loadStage2 s = .next (s.leaves (m.failLoad s.region r))) ∧
    (∀ item v, s.mill.plan.load = .stage3 item (some v) → s.mill.loadStage3 item v = .fails m r →
      exec .loadStage3 s = .next (s.leaves (m.failLoad s.region r)))) ∧
  (∀ (m : Mill) (region : Addr) (r : PlanResult), (m.failLoad region r).plan.state = .opened ∧
    (m.failLoad region r).plan.words = [] ∧ (m.failLoad region r).plan.load = .idle ∧
    (m.failLoad region r).stock = m.stock ∧ (m.failLoad region r).book = m.book) ∧
  (∀ (m : Mill) (region : Addr), let p := { m.plan with words := m.readsOf .loadStage }
    (∀ r, p.checkStage1 region = some r → m.loadStage1 region = .fails (m.takeReads .loadStage) r) ∧
    (p.checkStage1 region = none → ∃ n, m.loadStage1 region = .goesOn n ∧ n.plan.load = .stage2 ∧
      n.plan.present = p.presence)) ∧
  (∀ s : State, s.free .planController → s.mill.plan.load = .stage1 → s.mill.readsDone .loadStage 180 = true →
    let m := s.mill.takeReads .loadStage
    let p := { s.mill.plan with words := s.mill.readsOf .loadStage }
    let n : Mill := { m with plan := { p with present := p.presence, load := .stage2 } }
    let reads (k : RecordKind) (i : Nat) (ws : List Nat) : List LaneEntry :=
      ws.map (fun w => ⟨.planController, n.recordAddr k i w, .read .loadStage⟩)
    (p.checkStage1 s.region = none → exec .loadStage1 s = .next (s.leaves { n with
      outbox := m.outbox ++ (List.range 48).flatMap (fun i => reads .bin i [2, 3, 4, 5]) ++
        (allLines.filter n.presentLine).flatMap (fun l => reads .unit (lineUnit l) [6, 7, 8, 9, 10]) })) ∧
    (∀ r, p.checkStage1 s.region = some r →
      (s.tx = none → exec .loadStage1 s = .next (s.leaves (m.failLoad s.region r))) ∧
      (s.tx.isSome = true → exec .loadStage1 s = .next s))) ∧
  (∀ (s : State), s.free .planController →
    let fails (i : Instr) (m : Mill) (r : PlanResult) : Prop :=
      (s.tx = none → exec i s = .next (s.leaves (m.failLoad s.region r))) ∧ (s.tx.isSome = true → exec i s = .next s)
    let goesOn (i : Instr) (m : Mill) (n : Nat) : Prop :=
      let items := (List.range 33).drop n
      let reads (k : RecordKind) (j : Nat) (ws : List Nat) : List LaneEntry :=
        ws.map (fun w => ⟨.planController, m.recordAddr k j w, .read .loadStage⟩)
      (∀ k, m.plan.nextRule items = .bad k → fails i m ⟨9, k⟩) ∧
      (∀ k head, m.plan.nextRule items = .verify k head → exec i s = .next (s.leaves { m with
        plan := { m.plan with load := .stage3 k none }
        checker := { m.checker with requests := m.checker.requests ++ [⟨.load, head⟩] } })) ∧
      (m.plan.nextRule items = .finished →
        (∀ r, m.plan.checkLines (allLines.filter m.presentLine) m.plan.unitWords = some r → fails i m r) ∧
        (m.plan.checkLines (allLines.filter m.presentLine) m.plan.unitWords = none → exec i s = .next (s.leaves { m with
          plan := { m.plan with load := .stage5 }
          outbox := m.outbox ++ (List.range 48).flatMap (fun j => reads .bin j [6, 9]) ++ reads .status 0 [2] ++
            (List.range 256).flatMap (fun j => reads .order j [3, 4, 5, 7, 8, 9, 10, 11, 12, 13, 14, 15]) ++
            (List.range 8).flatMap (fun j => reads .truck j [2, 3, 4, 5, 6, 7, 8, 9, 10, 11, 12, 13, 14, 15]) })))
    (s.mill.plan.load = .stage2 → s.mill.readsDone .loadStage s.mill.stage2Size = true →
      let ws := s.mill.readsOf .loadStage
      let m := s.mill.takeReads .loadStage
      (∀ i, readBins (ws.take 192) = .inr i → fails .loadStage2 m ⟨8, i⟩) ∧
      (∀ bs, readBins (ws.take 192) = .inl bs →
        (∀ r, m.checkKinds bs = some r → fails .loadStage2 m r) ∧
        (m.checkKinds bs = none → goesOn .loadStage2 { m with plan := { m.plan with
          binDefs := bs, unitWords := ws.drop 192, flushChains := List.replicate 32 none, defaultFlush := none } } 0))) ∧
    (∀ item a, s.mill.plan.load = .stage3 item (some (.fail a)) → fails .loadStage3 s.mill ⟨9, item⟩) ∧
    (∀ item c, s.mill.plan.load = .stage3 item (some (.ok c)) →
      goesOn .loadStage3 { s.mill with plan := { s.mill.plan with
        defaultFlush := if item = 32 then some c else s.mill.plan.defaultFlush
        flushChains := if item = 32 then s.mill.plan.flushChains else s.mill.plan.flushChains.set item (some c) } }
        (item + 1)) ∧
    s.mill.stage2Size = 192 + 5 * (allLines.filter s.mill.presentLine).length) ∧
  (∀ ws : List Word,
    let kind (i : Nat) : Option BinKind := BinKind.ofCode (bits (ws.getD (4 * i + 1) 0) 24 8)
    let defOf (i : Nat) (k : BinKind) : BinDef := ⟨k, (ws.getD (4 * i) 0).extractLsb' 0 16,
      bits (ws.getD (4 * i + 1) 0) 0 24, bits (ws.getD (4 * i + 2) 0) 0 24, bits (ws.getD (4 * i + 3) 0) 0 24,
      bits (ws.getD (4 * i) 0) 16 16⟩
    let passes (i : Nat) : Prop := ∃ k, kind i = some k ∧ (defOf i k).ok = true
    (∀ bs, readBins ws = .inl bs → bs.length = 48 ∧
      ∀ i, i < 48 → ∃ k, kind i = some k ∧ (defOf i k).ok = true ∧ bs[i]? = some (defOf i k)) ∧
    (∀ i, readBins ws = .inr i → i < 48 ∧ ¬passes i ∧ ∀ j, j < i → passes j)) ∧
  (∀ (p : PlanCtl) (region : Addr),
    (p.checkStage1 region = none ↔
      p.checkWindows region = none ∧ p.checkConstants = none ∧ p.checkRoles = none) ∧
    (p.checkWindows region = none → p.checkConstants = none → p.checkStage1 region = p.checkRoles) ∧
    (∀ k : RecordKind,
      let shares (k : RecordKind) : Prop :=
        (p.baseOf k < region.toNat + 4096 ∧ region.toNat < p.baseOf k + k.span) ∨
        ∃ j : RecordKind, j.window < k.window ∧ p.baseOf k < p.baseOf j + j.span ∧ p.baseOf j < p.baseOf k + k.span
      (∀ j, p.baseOf j % windowAlign j = 0) → shares k → (∀ j : RecordKind, j.window < k.window → ¬shares j) →
      p.checkStage1 region = some ⟨4, k.window.val⟩) ∧
    (∀ c, c < 16 → (∀ w, 12 ≤ w → w ≤ 33 → p.constOk w = true) → 500 < p.toleranceAbs c ∨ 50 < p.tolerancePerMille c →
      (∀ d, d < c → p.toleranceAbs d ≤ 500 ∧ p.tolerancePerMille d ≤ 50) →
      p.checkWindows region = none → p.checkStage1 region = some ⟨5, 40 + c⟩) ∧
    (∀ (r : Role) (x : PlanResult), p.checkRole r = some x → (∀ q : Role, q < r → p.checkRole q = none) →
      p.checkRoles = some x) ∧
    (∀ r : Role,
      (p.channel r ≠ 0xFF → 63 < p.channel r → p.checkRole r = some ⟨5, 120 + r.val⟩) ∧
      (p.channel r ≤ 63 → (∃ q : Role, q < r ∧ p.channel q = p.channel r) → p.checkRole r = some ⟨6, r.val⟩) ∧
      (p.channel r ≤ 63 → (∀ q : Role, q < r → p.channel q ≠ p.channel r) → p.checkRole r = none) ∧
      (p.channel r = 0xFF → (r = 0 ∨ r = 2 ∨ ∃ q ∈ unitRoles (roleUnit r), p.channel q ≠ 0xFF) →
        p.checkRole r = some ⟨7, r.val⟩) ∧
      (p.channel r = 0xFF → r ≠ 0 → r ≠ 2 → (∀ q ∈ unitRoles (roleUnit r), p.channel q = 0xFF) →
        p.checkRole r = none)) ∧
    (p.checkWindows region = none ↔ ∀ k, p.baseOf k % windowAlign k = 0 ∧
      ¬(p.baseOf k < region.toNat + 4096 ∧ region.toNat < p.baseOf k + k.span) ∧
      ∀ j : RecordKind, j.window < k.window →
        ¬(p.baseOf k < p.baseOf j + j.span ∧ p.baseOf j < p.baseOf k + k.span)) ∧
    (∀ k : RecordKind, p.baseOf k % windowAlign k ≠ 0 →
      (∀ j : RecordKind, j.window < k.window → p.baseOf j % windowAlign j = 0) →
      p.checkStage1 region = some ⟨3, k.window.val⟩) ∧
    RecordKind.all.map windowAlign = [16384, 32768, 4096, 512, 2048, 512, 256, 256] ∧
    RecordKind.all.map (·.span) = [16384, 32768, 3072, 512, 2048, 512, 256, 256] ∧
    (p.checkConstants = none ↔ (∀ w, 12 ≤ w → w ≤ 33 → p.constOk w = true) ∧
      ∀ c, c < 16 → p.toleranceAbs c ≤ 500 ∧ p.tolerancePerMille c ≤ 50) ∧
    (∀ w, 12 ≤ w → w ≤ 33 → p.constOk w = false → (∀ v, 12 ≤ v → v < w → p.constOk v = true) →
      p.checkWindows region = none → p.checkStage1 region = some ⟨5, w⟩) ∧
    (∀ w lo hi, p.constRange w = some (lo, hi) → (p.constOk w = true ↔ lo ≤ p.const w ∧ p.const w ≤ hi)) ∧
    ((List.range 22).map (fun n => p.constRange (12 + n)) =
      [some (1000, 20000), some (max 5000 (2 * p.batchMin), 80000), some (10, 600), some (5, 300), some (200, 10000),
        some (1, 60), some (1, 500), some (5, 1000), some (10, 2000), some (1, 120), some (100, 5000), some (1, 20),
        some (10, 2000), some (0, 1000), some (60, 3600), some (30, 1800), some (5, 120), some (100, 20000),
        some (100, 20000), none, some (0, 255), some (p.batchMin, p.batchMax)]) ∧
    (p.checkRoles = none ↔ ∀ r : Role,
      (p.channel r ≠ 0xFF → p.channel r ≤ 63 ∧ ∀ q : Role, q < r → p.channel q ≠ p.channel r) ∧
      (p.channel r = 0xFF → r ≠ 0 ∧ r ≠ 2 ∧ ∀ q ∈ unitRoles (roleUnit r), p.channel q = 0xFF)) ∧
    (∀ u : Fin 8, getAt p.presence u = true ↔ ∀ r ∈ unitRoles u, p.channel r ≠ 0xFF)) ∧
  (∀ b : BinDef, b.ok = true ↔
    b.kind = .unused ∨ (b.low < b.high ∧ b.high ≤ b.capacity ∧ b.preactMax ≤ b.capacity)) ∧
  (∀ (m : Mill) (bs : List BinDef), m.checkKinds bs = none ↔
    kindCount bs .rework = 1 ∧
    (∀ k u, (k, u) ∈ [(BinKind.surgePellet, 5), (.surgeBag, 6), (.surgeBulk, 7)] →
      kindCount bs k ≤ 1 ∧ (m.presentUnit u = true → kindCount bs k = 1)) ∧
    ∀ b ∈ bs, b.kind.isSurge = true → b.capacity ≤ reworkCapacity bs) ∧
  (∀ (m : Mill) (bs : List BinDef),
    let kinds := [BinKind.surgePellet, .surgeBag, .surgeBulk, .rework]
    let counts (k : BinKind) : Prop := match k with
      | .rework => kindCount bs k = 1
      | .surgePellet => kindCount bs k ≤ 1 ∧ (m.presentUnit 5 = true → kindCount bs k = 1)
      | .surgeBag => kindCount bs k ≤ 1 ∧ (m.presentUnit 6 = true → kindCount bs k = 1)
      | .surgeBulk => kindCount bs k ≤ 1 ∧ (m.presentUnit 7 = true → kindCount bs k = 1)
      | _ => True
    (∀ pre k post, kinds = pre ++ k :: post → (∀ j ∈ pre, counts j) → ¬counts k →
      m.checkKinds bs = some ⟨8, 0x100 + k.code⟩) ∧
    (∀ pre b post, (∀ k ∈ kinds, counts k) → bs = pre ++ b :: post → b.kind.isSurge = true →
      reworkCapacity bs < b.capacity → (∀ d ∈ pre, d.kind.isSurge = true → d.capacity ≤ reworkCapacity bs) →
      m.checkKinds bs = some ⟨8, pre.length⟩)) ∧
  (∀ (p : PlanCtl) (n : Nat) (ns : List Nat), n ≠ 32 →
    (p.ruleFrom n = 0 ∨ p.ruleTo n = 0 → p.nextRule (n :: ns) = p.nextRule ns) ∧
    (p.ruleFrom n ≠ 0 → p.ruleTo n ≠ 0 →
      (p.ruleTreatment n = 2 → p.nextRule (n :: ns) = p.nextRule ns) ∧
      (p.ruleTreatment n ≠ 1 → p.ruleTreatment n ≠ 2 → p.nextRule (n :: ns) = .bad n) ∧
      (p.ruleTreatment n = 1 → p.batchMin ≤ p.ruleMass n → p.ruleMass n ≤ p.batchMax →
        p.nextRule (n :: ns) = .verify n (p.ruleTicket n)) ∧
      (p.ruleTreatment n = 1 → p.ruleMass n < p.batchMin ∨ p.batchMax < p.ruleMass n →
        p.nextRule (n :: ns) = .bad n))) ∧
  (∀ (p : PlanCtl) (ns : List Nat), p.nextRule (32 :: ns) = .verify 32 p.flushTicket ∧ p.nextRule [] = .finished) ∧
  (∀ (m : Mill) (item : Nat) (a : Answer), m.loadStage3 item (.fail a) = .fails m ⟨9, item⟩) ∧
  (∀ (p : PlanCtl) (l : Line) (ls : List Line) (ws : List Word),
    (p.blockOk l = true ↔ p.ceilingMax l ≤ 1000 ∧ p.ceilingMin l ≤ p.ceilingMax l ∧ p.rateFloor l ≤ p.ceilingMin l ∧
      p.loadTop l < p.loadTrip l ∧ 1 ≤ p.adjustDelay l ∧ p.adjustDelay l ≤ 4 ∧
      (p.adjustOn l = true → 1 ≤ p.adjustStep l ∧ p.adjustStep l ≤ 1000) ∧
      (l = .pellet → p.spanCode l ≤ 3 ∧ p.curveStart l < p.tempTrip l)) ∧
    p.checkLines [] ws = none ∧
    (p.blockOk l = true → (∀ k, k < 5 → ws.getD k 0 = p.block l k) →
      p.checkLines (l :: ls) ws = p.checkLines ls (ws.drop 5)) ∧
    (p.blockOk l = false ∨ (∃ k, k < 5 ∧ ws.getD k 0 ≠ p.block l k) →
      p.checkLines (l :: ls) ws = some ⟨10, lineUnit l⟩))

/-- LOAD_STAGE_5 with the retained words returned: the first link walk begins, or with no PACKED order adoption and the
sweep; each link walk's reads move it on or end it (a slot whose own part mark fails is counted as reached all the same,
log 34), the last one's end bringing adoption and the sweep (one row for each of these, log 23). Adoption: a bin's level
and preact at most its capacity and preact maximum, a surge's lots one orphan lot of its level (its mark NONE is the
model's choice, log 62); an order by its retained state, an active one CANCELLED, a PACKED one with its link walk's
slots in its entry or CLOSED without one, none waiting (log 28); the use counts and plan marks; a trip by its retained
state; a present line IDLE at its maximum ceiling or TRIPPED with its ceiling, cause and trip output kept. The status
window of the plan last RUNNING stays in use until this one is (log 29). The sweep posts the changed words of the
orders, all words of the bins, batches, units, trips and ticket slots, every ACTION word and the refusal record as zero,
and the status words (its order is the model's choice, log 47, and so are the unit fields that the manual gives no
value, log 51). The plan becomes RUNNING, its windows decoded, when the sweep's posts have joined the lane and no
transaction is in progress (log 30). -/
def Obligations.LoadStageFive : Prop :=
  (∀ s : State, s.free .planController → s.mill.plan.load = .stage5 → s.mill.readsDone .loadStage stage5Size = true →
    let ws := s.mill.readsOf .loadStage
    exec .loadStage5 s = .next
      (s.stepTo (State.nextWalk { s with mill := s.mill.takeReads .loadStage } ws [] (linkWalks ws)))) ∧
  (∀ (s : State) (ws : List Word) (done : List LinkWalk) (k : LinkWalk) (ks : List LinkWalk), s.free .planController →
    s.mill.plan.load = .links ws done (k :: ks) → s.mill.readsDone .linkWalk 2 = true →
    (∀ k', k.next (s.mill.readsOf .linkWalk) = some k' → exec .loadStage5 s = .next
      (s.stepTo (State.nextWalk { s with mill := s.mill.takeReads .linkWalk } ws done (k' :: ks)))) ∧
    (k.next (s.mill.readsOf .linkWalk) = none → exec .loadStage5 s = .next
      (s.stepTo (State.nextWalk { s with mill := s.mill.takeReads .linkWalk } ws (done ++ [k]) ks)))) ∧
  (∀ (s : State) (ws : List Word) (done : List LinkWalk) (k : LinkWalk) (ks : List LinkWalk),
    (s.nextWalk ws done (k :: ks)).mill.plan.load = .links ws done (k :: ks) ∧
    (s.nextWalk ws done (k :: ks)).mill.outbox = s.mill.outbox ++ [0, 1].map (fun w =>
      ⟨.ticketChecker, s.mill.recordAddr .ticket k.slot w, .read .linkWalk⟩) ∧
    s.nextWalk ws done [] = s.adoptAll ws done) ∧
  (∀ (ws : List Word), linkWalks ws = (((List.range 256).filter (fun i =>
      retainedState (retainedOrder ws i) = some .packed)).take 64).map (fun i =>
    ⟨i, bits (orderWordOf (retainedOrder ws i) 3) 0 8, [bits (orderWordOf (retainedOrder ws i) 3) 0 8]⟩)) ∧
  (∀ (k k' : LinkWalk) (ws : List Word), let link := bits (ws.getD 1 0) 0 16
    k.next ws = some k' ↔ (∃ mark, PartMark.ofCode (bits (ws.getD 0 0) 0 8) = some mark ∧
        markAllowed k.reached.length mark = true ∧ mark.links = true) ∧ link ≤ 255 ∧ link ∉ k.reached ∧
      k' = ⟨k.order, link, k.reached ++ [link]⟩) ∧
  (∀ (ws : List Word) (i w : Nat), retainedBin ws i = (ws.drop (2 * i)).take 2 ∧ retainedEnable ws = ws.getD 96 0 ∧
    retainedOrder ws i = (ws.drop (97 + 12 * i)).take 12 ∧ retainedTruck ws i = (ws.drop (3169 + 14 * i)).take 14 ∧
    ([3, 4, 5, 7, 8, 9, 10, 11, 12, 13, 14, 15].idxOf? w = some i → orderWordOf ws w = ws.getD i 0) ∧
    retainedState ws = OrderState.ofCode (bits (orderWordOf ws 7) 0 8)) ∧
  (∀ (s : State) (ws : List Word) (done : List LinkWalk), let t := s.adoptAll ws done
    t = { s with refusal := some ⟨0, 0, 0, 0⟩, status := t.status, mill := t.mill } ∧
    t.mill.plan = { s.mill.plan with load := .sweeping } ∧ t.mill.checker = ⟨[], none, false⟩ ∧ t.mill.returned = [] ∧
    t.mill.actions = ⟨[], [], .none⟩ ∧ t.mill.stock.table = [] ∧ t.mill.stock.waitingDiverts = [] ∧
    t.mill.trips.limit = none ∧ t.mill.trips.arriving = none ∧
    t.mill.lines = ⟨{ GrinderCtl.reset with line := s.mill.adoptLine (.grinder .a) },
      { GrinderCtl.reset with line := s.mill.adoptLine (.grinder .b) },
      { PelletCtl.reset with line := s.mill.adoptLine .pellet }⟩ ∧
    t.status = ⟨t.status.flags, t.mill.condition, retainedEnable ws, 0, false, 0, 0, s.status.base,
      decide (t.status.flags &&& retainedEnable ws &&& allFlags ≠ 0)⟩ ∧
    t.status.flags = (t.status.flags &&& Flag.stockDisagree.mask) ||| t.mill.condition ∧
    t.refusal = some ⟨0, 0, 0, 0⟩ ∧ t.mill.plan.load = .sweeping ∧ t.mill.plan.state = s.mill.plan.state ∧
    t.status.enable = retainedEnable ws ∧ t.status.base = s.status.base ∧ t.windows = s.windows ∧
    t.mill.actions.queue = [] ∧ t.mill.seq = .reset ∧ t.mill.weigh = .reset ∧ t.mill.pack = .reset ∧
    t.mill.book.releaseList = [] ∧ t.mill.book.interlock = none ∧ t.mill.trips.queue = [] ∧
    (∀ i, getAt t.mill.stock.bins i = (adoptBin (s.mill.plan.binDefs.getD i .reset) (retainedBin ws i)).1) ∧
    (∀ o, t.mill.order o = adoptOrder (retainedOrder ws o) (done.find? (fun k => k.order = o.val))) ∧
    (∀ n, getAt t.mill.book.useCount n = (done.map (fun k => k.reached.count n.val)).sum) ∧
    (∀ n, getAt t.mill.book.planMark n = true ↔
      ∃ c, some c ∈ s.mill.plan.flushChains ++ [s.mill.plan.defaultFlush] ∧ n.val ∈ c.slots) ∧
    (∀ r, t.mill.trip r = adoptTrip (retainedTruck ws r)) ∧ (∀ l, t.mill.lineCtl l = s.mill.adoptLine l) ∧
    (t.mill.reports = [] ∧ (t.status.flags &&& Flag.stockDisagree.mask ≠ 0 ↔
      ∃ i : Fin 48, (adoptBin (s.mill.plan.binDefs.getD i .reset) (retainedBin ws i)).2 = true))) ∧
  (∀ (s : State) (ws : List Word) (done : List LinkWalk), let t := s.adoptAll ws done
    (∀ k ∈ actionKinds, ∀ i, i < k.count →
      (⟨.actionExecutor, s.mill.recordAddr k i k.actionWord, .write 0xF 0 .none⟩ : LaneEntry) ∈ t.mill.outbox) ∧
    (∀ w ∈ [3, 4, 5],
      (⟨.pathUnit, s.mill.recordAddr .status 0 w, .write 0xF 0 .none⟩ : LaneEntry) ∈ t.mill.outbox) ∧
    (∀ w ∈ statusWords,
      (⟨.statusUnit, s.mill.recordAddr .status 0 w, .write 0xF (t.status.word w) .none⟩ : LaneEntry) ∈
        t.mill.outbox) ∧
    (∀ (o : Fin 256) w, w ∈ orderWords → orderWordOf (retainedOrder ws o) w ≠ (t.mill.order o).word w →
      (⟨.orderBook, s.mill.recordAddr .order o w,
        .write (t.mill.deviceMask .order o w) ((t.mill.order o).word w) .none⟩ : LaneEntry) ∈ t.mill.outbox) ∧
    (∀ n : Fin 256,
      (⟨.orderBook, s.mill.recordAddr .ticket n 6, .write (t.mill.deviceMask .ticket n 6)
        (wordOf [(getAt t.mill.book.useCount n, 0, 16)]) .none⟩ : LaneEntry) ∈ t.mill.outbox ∧
      (⟨.orderBook, s.mill.recordAddr .ticket n 7, .write (t.mill.deviceMask .ticket n 7)
        (wordOf [(bit (getAt t.mill.book.planMark n), 0, 1)]) .none⟩ : LaneEntry) ∈ t.mill.outbox) ∧
    (∀ (i : Fin 48) w, w ∈ (getAt t.mill.stock.bins i).words →
      (⟨.stockUnit, s.mill.recordAddr .bin i w, .write (t.mill.deviceMask .bin i w)
        ((getAt t.mill.stock.bins i).word w) .none⟩ : LaneEntry) ∈ t.mill.outbox) ∧
    (∀ (b : Fin 32) w, w ∈ batchWords →
      (⟨.batchSequencer, s.mill.recordAddr .batch b w, .write (t.mill.deviceMask .batch b w) (Batch.reset.word w)
        .none⟩ : LaneEntry) ∈ t.mill.outbox) ∧
    (∀ l w, w ∈ [2, 3, 4] →
      (⟨.lineSupervisor, s.mill.recordAddr .unit (lineUnit l) w, .write (t.mill.deviceMask .unit (lineUnit l) w)
        (t.mill.lineWord l w) .none⟩ : LaneEntry) ∈ t.mill.outbox) ∧
    (∀ w, w ∈ [2, 3] →
      (∀ sc, (⟨.weighMix, s.mill.recordAddr .unit (scaleUnit sc) w, .write (t.mill.deviceMask .unit (scaleUnit sc) w)
        (ScaleCtl.reset.word w) .none⟩ : LaneEntry) ∈ t.mill.outbox) ∧
      (⟨.weighMix, s.mill.recordAddr .unit 2 w, .write (t.mill.deviceMask .unit 2 w) (MixerCtl.reset.word w)
        .none⟩ : LaneEntry) ∈ t.mill.outbox ∧
      (⟨.packOut, s.mill.recordAddr .unit 6 w, .write (t.mill.deviceMask .unit 6 w) (Bagger.reset.word w)
        .none⟩ : LaneEntry) ∈ t.mill.outbox ∧
      (⟨.packOut, s.mill.recordAddr .unit 7 w, .write (t.mill.deviceMask .unit 7 w) (Loadout.reset.word w)
        .none⟩ : LaneEntry) ∈ t.mill.outbox) ∧
    (∀ (r : Fin 8) w, w ∈ tripWords →
      (⟨.tripTable, s.mill.recordAddr .truck r w, .write (t.mill.deviceMask .truck r w) ((t.mill.trip r).word w)
        .none⟩ : LaneEntry) ∈ t.mill.outbox)) ∧
  (∀ (d : BinDef) (ws : List Word), let b := (adoptBin d ws).1
    let level := bits (ws.getD 0 0) 0 24
    let preact := bits (ws.getD 1 0) 0 16
    b.plan = d ∧ b.level = min level d.capacity ∧ b.reserved = 0 ∧ b.lockedOut = false ∧
    (d.kind.isSurge = true → b.preact = 0 ∧ b.lots = if b.level = 0 then [] else [⟨none, .none, b.level⟩]) ∧
    (d.kind.isSurge = false → b.preact = min preact d.preactMax ∧ b.lots = [] ∧
      ((adoptBin d ws).2 = true ↔ d.capacity < level ∨ d.preactMax < preact))) ∧
  (∀ (ws : List Word) (walk : Option LinkWalk), let x := adoptOrder ws walk
    (retainedState ws = none → x = .reset) ∧
    (∀ k, retainedState ws = some .packed → walk = some k → x.state = .packed ∧
      x.entry = some ⟨Process.ofCode (bits (orderWordOf ws 3) 8 8), Pack.ofCode (bits (orderWordOf ws 3) 16 8),
        bits (orderWordOf ws 4) 0 16, bits (orderWordOf ws 4) 16 16, bits (orderWordOf ws 5) 0 24, 0, 0, 0, 0, none,
        k.reached, 0⟩ ∧
      x.entry.map (·.slots) = some k.reached ∧ x.nonFinal = 0) ∧
    (retainedState ws = some .packed → walk = none → x.state = .closed ∧ x.entry = none) ∧
    (∀ st, retainedState ws = some st → st.active = true → x.state = .cancelled ∧ x.inFlight = 0 ∧ x.entry = none) ∧
    (∀ st, retainedState ws = some st → st.active = false → st ≠ .packed → x.state = st ∧ x.entry = none) ∧
    (∀ st, retainedState ws = some st → x.wait = .none ∧ x.planned = bits (orderWordOf ws 9) 0 24 ∧
      x.scheduled = bits (orderWordOf ws 10) 0 24 ∧ x.remaining = bits (orderWordOf ws 11) 0 24 ∧
      x.completed = bits (orderWordOf ws 13) 0 24 ∧ x.bagsPacked = bits (orderWordOf ws 14) 0 16 ∧
      x.bagsRejected = bits (orderWordOf ws 14) 16 16 ∧ x.loaded = bits (orderWordOf ws 15) 0 24)) ∧
  (∀ ws : List Word, let x := adoptTrip ws
    let code := bits (ws.getD 1 0) 0 8
    (TripState.ofCode code = some .loaded → x.state = .loaded) ∧
    (TripState.ofCode code = some .departed → x.state = .departed) ∧
    (TripState.ofCode code ≠ some .loaded → TripState.ofCode code ≠ some .departed → x.state = .opened) ∧
    (TripState.ofCode code = some .arrived ∨ TripState.ofCode code = some .loading ∨ TripState.ofCode code = none →
      x.limitMark = false) ∧
    (∀ n : Fin 6, x.loaded[n] = bits (ws.getD (8 + n) 0) 0 24) ∧ x.copy = copyOf (ws.getD 0 0) ((ws.drop 2).take 6)) ∧
  (∀ (m : Mill) (l : Line), m.presentLine l = true →
    ((m.lineCtl l).state = .tripped → (m.adoptLine l).state = .tripped ∧
      (m.adoptLine l).ceiling = (m.lineCtl l).ceiling ∧ (m.adoptLine l).cause = (m.lineCtl l).cause ∧
      (m.adoptLine l).tripOut = m.plan.tripOutOn l) ∧
    ((m.lineCtl l).state ≠ .tripped → (m.adoptLine l).state = .idle ∧ (m.adoptLine l).cause = .none ∧
      (m.adoptLine l).ceiling = m.plan.ceilingMax l ∧ (m.adoptLine l).tripOut = false)) ∧
  (∀ s : State, (s.readyToRun = true ↔ s.mill.plan.load = .sweeping ∧ s.waiting = [] ∧ s.tx = none) ∧
    (s.settle.readyToRun = true → s.finish = s.settle.run.settle ∧ s.finish.mill.plan.state = .running ∧
      s.finish.mill.plan.load = .idle ∧ s.finish.windows = some s.settle.mill.plan.table ∧
      s.finish.status.base = some (s.settle.mill.plan.windowBase 7))) ∧
  (∀ (p : PlanCtl) (n : Fin 8), p.table[n] = p.windowBase n)

/-! ### Actions -/

/-- An answer posts the ANSWER word with the code, the result and the detail, then the zero ACTION word whose landing
clears the record's marker, and changes nothing else of the blocks.
BAD_ACTION: a code not in its record kind's row is answered BAD_ACTION with detail 0. -/
def Obligations.ActionsAnswered : Prop :=
  (∀ (m : Mill) (a : Action) (rest : List Action) (r : Answer), m.actions.queue = a :: rest →
     m.answer r = { m with
       actions := { m.actions with inExec := .answered }
       outbox := m.outbox ++
         [⟨.actionExecutor, m.recordAddr a.record.kind a.record.idx a.record.kind.answerWord,
             .write 0xF (r.detail ++ r.result ++ a.code) .none⟩,
          ⟨.actionExecutor, m.recordAddr a.record.kind a.record.idx a.record.kind.actionWord,
             .write 0xF 0 (.clearsMarker a.record)⟩] }) ∧
  (∀ (s : State) (a : Action), s.mill.headAction = some a → s.free .actionExecutor → a.code ∉ codesOf a.record.kind →
     exec .badAction s = .next (s.leaves (s.mill.answer ⟨0x02, 0⟩)))

/-- RELEASE: WRONG_STATE unless the order is IDLE, ACTIVE_LIMIT with 64 entries in use; otherwise the F words are read and
the action stays in execution. -/
def Obligations.ReleaseBegun : Prop :=
  ∀ (s : State) (o : Fin 256) (arg : BitVec 24), s.hands ⟨.order, o⟩ 0x01 arg →
    ((s.mill.order o).state ≠ .idle →
      exec .release s = .next (s.leaves (s.mill.answer ⟨0x03, BitVec.ofNat 16 (s.mill.order o).state.code⟩))) ∧
    ((s.mill.order o).state = .idle → 64 ≤ s.mill.book.entries →
      exec .release s = .next (s.leaves (s.mill.answer ⟨0x0A, 64⟩))) ∧
    ((s.mill.order o).state = .idle → s.mill.book.entries < 64 →
      exec .release s = .next (s.leaves { s.mill with
        actions := { s.mill.actions with inExec := .releaseFields }
        outbox := s.mill.outbox ++ [2, 3, 4, 5, 6].map (fun w =>
          ⟨.orderBook, s.mill.recordAddr .order o w, .read .releaseFields⟩) }))

/-- RELEASE_FIELDS_READ: the verify interlock begins and the ticket slot read goes to the Ticket Checker; a processor
write then in progress is one the checker waits for. VERIFY_WALK_START: the oldest request's walk begins at its head
slot with the header reads, once every write that the checker waits for has completed. -/
def Obligations.VerificationBegun : Prop :=
  (∀ (s : State) (o : Fin 256), s.free .orderBook → s.mill.actions.inExec = .releaseFields →
    (s.mill.readsOf .releaseFields).length = 5 → s.mill.headSlot = some o →
    let m := (s.mill.handChain o).awaitWrite s.writing
    exec .releaseFieldsRead s = .next (s.leaves m) ∧ m.book.interlock = some o ∧
      m.checker.requests = s.mill.checker.requests ++ [⟨.release, (fieldsOf (s.mill.readsOf .releaseFields)).ticket⟩] ∧
      m.actions.inExec = .releaseVerify ∧
      m.checker.awaitsWrite = s.writing ∧
      (s.writing = true ↔ ∃ bs hs p, s.tx = some (.write bs hs p))) ∧
  (∀ (s : State) (r : VerifyRequest) (rs : List VerifyRequest), s.free .ticketChecker → s.mill.checker.walk = none →
    s.mill.checker.requests = r :: rs →
    (s.mill.checker.awaitsWrite = false →
      exec .verifyWalkStart s = .next (s.leaves
        { s.mill with
          checker := ⟨rs, some ⟨r.caller, r.head, r.head, [r.head], 1, 0, 0, 0, [], none⟩, false⟩
          outbox := s.mill.outbox ++ [0, 1, 2, 3, 4, 5].map (fun w =>
            ⟨.ticketChecker, s.mill.recordAddr .ticket r.head w, .read .ticketHeader⟩) })) ∧
    (s.mill.checker.awaitsWrite = true → exec .verifyWalkStart s = .next s)) ∧
  (∀ s : State, s.endTx.tx = none ∧ s.endTx.mill.checker.awaitsWrite = false)

/-- TICKET_HEADER_STAGE and TICKET_LINE_STAGE: the slot's header or lines are judged when their reads have returned; a
failing header ends the walk with TICKET_CHAIN, a wrong check word with TICKET_CHECK, and a parts sum other than 10,000
with TICKET_PARTS; a passing header reads its lines, passing lines the next header where the mark links, and the last
slot's end the walk with the chain summary. The verdict goes to its caller: a failed release is answered and its
interlock ended, a passed one reads the F words afresh, a load keeps it for its stage. A line names an ingredient bin, a
present scale and at most 10,000 parts, judged in this order; one that passes joins the walk's lines, its parts and its
bin's class mask. -/
def Obligations.TicketStages : Prop :=
  (∀ (s : State) (w : Walk), s.free .ticketChecker → s.mill.checker.walk = some w → w.header = none →
    (s.mill.readsOf .ticketHeader).length = 6 →
    exec .ticketHeaderStage s = .next (s.leaves (s.mill.headerStage w).mill) ∧
      (headerOf w.position w.visited (s.mill.readsOf .ticketHeader) = none →
        s.mill.headerStage w = .ended (s.mill.takeReads .ticketHeader).clearWalk w.caller
          (.fail ⟨0x05, BitVec.ofNat 16 (w.slot * 256 + 0xFF)⟩))) ∧
  (∀ (s : State) (w : Walk), s.free .ticketChecker → s.mill.checker.walk = some w → w.header = none →
    (s.mill.readsOf .ticketHeader).length = 6 →
    let ws := s.mill.readsOf .ticketHeader
    let m := s.mill.takeReads .ticketHeader
    let ended : Mill := { m with checker := { m.checker with walk := none } }
    (headerOf w.position w.visited ws = none → exec .ticketHeaderStage s = .next (s.leaves
      (ended.deliver w.caller (.fail ⟨0x05, BitVec.ofNat 16 (w.slot * 256 + 0xFF)⟩)))) ∧
    (∀ h, headerOf w.position w.visited ws = some h → exec .ticketHeaderStage s = .next (s.leaves { m with
      checker := { m.checker with walk := some { w with
        header := some h, mixTime := if w.position = 1 then bits (ws.getD 3 0) 0 16 else w.mixTime } }
      outbox := m.outbox ++ (List.range h.lineCount).map (fun i =>
        ⟨.ticketChecker, m.recordAddr .ticket w.slot (8 + i), .read .ticketLines⟩) }))) ∧
  (∀ (s : State) (w : Walk) (h : Header), s.free .ticketChecker → s.mill.checker.walk = some w → w.header = some h →
    (s.mill.readsOf .ticketLines).length = h.lineCount →
    let ws := s.mill.readsOf .ticketLines
    let m := s.mill.takeReads .ticketLines
    let ended : Mill := { m with checker := { m.checker with walk := none } }
    (checkSum h.lineCount ws ≠ h.check → exec .ticketLineStage s = .next (s.leaves
      (ended.deliver w.caller (.fail ⟨0x06, BitVec.ofNat 16 (w.slot * 256 + 0xFF)⟩)))) ∧
    (checkSum h.lineCount ws = h.check →
      (∀ v, m.walkLines w 0 ws = .inr v → exec .ticketLineStage s = .next (s.leaves (ended.deliver w.caller v))) ∧
      (∀ w1, m.walkLines w 0 ws = .inl w1 → h.mark.links = true →
        exec .ticketLineStage s = .next (s.leaves { m with
          checker := { m.checker with walk := some { w1 with
            slot := h.next, visited := w1.visited ++ [h.next], position := w1.position + 1, header := none } }
          outbox := m.outbox ++ [0, 1, 2, 3, 4, 5].map (fun i =>
            ⟨.ticketChecker, m.recordAddr .ticket h.next i, .read .ticketHeader⟩) })) ∧
      (∀ w1, m.walkLines w 0 ws = .inl w1 → h.mark.links = false →
        exec .ticketLineStage s = .next (s.leaves (ended.deliver w.caller (endVerdict w1)))))) ∧
  (∀ (m : Mill) (c : Chain) (v : Verdict),
    (∀ a, m.deliver .release (.fail a) = Mill.answer { m with book := { m.book with interlock := none } } a) ∧
    (∀ o, m.headSlot = some o → m.deliver .release (.ok c) = { m with
      actions := { m.actions with inExec := .releaseConfirm c }
      outbox := m.outbox ++ [2, 3, 4, 5, 6].map (fun w =>
        ⟨.orderBook, m.recordAddr .order o w, .read .confirming⟩) }) ∧
    (∀ item x, m.plan.load = .stage3 item x →
      m.deliver .load v = { m with plan := { m.plan with load := .stage3 item (some v) } })) ∧
  (∀ (n : Nat) (ws : List Word) (x : Word),
    checkSum n [] = BitVec.ofNat 16 n ∧
    checkSum n (x :: ws) = checkSum n ws + BitVec.ofNat 16 (bits x 0 16 + bits x 16 16) ∧
    (∀ p, markAllowed p .only = decide (p = 1) ∧ markAllowed p .first = decide (p = 1) ∧
      markAllowed p .middle = decide (p = 2) ∧ markAllowed p .last = decide (p = 2 ∨ p = 3)) ∧
    (∀ k : PartMark, k.links = true ↔ k = .first ∨ k = .middle)) ∧
  (∀ (s : State) (w : Walk) (h : Header), s.free .ticketChecker → s.mill.checker.walk = some w → w.header = some h →
    (s.mill.readsOf .ticketLines).length = h.lineCount →
    exec .ticketLineStage s = .next (s.leaves (s.mill.lineStage w h).mill) ∧
      (checkSum h.lineCount (s.mill.readsOf .ticketLines) ≠ h.check →
        s.mill.lineStage w h = .ended (s.mill.takeReads .ticketLines).clearWalk w.caller
          (.fail ⟨0x06, BitVec.ofNat 16 (w.slot * 256 + 0xFF)⟩))) ∧
  (∀ w : Walk, (w.parts = 10000 → endVerdict w = .ok ⟨w.head, w.visited, w.mixTime, w.lines, w.mask⟩) ∧
    (w.parts ≠ 10000 → endVerdict w = .fail ⟨0x07, BitVec.ofNat 16 (w.head * 256 + 0xFF)⟩)) ∧
  (∀ (position : Nat) (visited : List Nat) (ws : List Word) (h : Header),
    headerOf position visited ws = some h ↔
      PartMark.ofCode (bits (ws.getD 0 0) 0 8) = some h.mark ∧ h.next = bits (ws.getD 1 0) 0 16 ∧
      h.lineCount = bits (ws.getD 2 0) 0 16 ∧ h.check = (ws.getD 4 0).extractLsb' 0 16 ∧
      markAllowed position h.mark = true ∧ 1 ≤ h.lineCount ∧ h.lineCount ≤ 24 ∧
      (position = 1 → 30 ≤ bits (ws.getD 3 0) 0 16 ∧ bits (ws.getD 3 0) 0 16 ≤ 900) ∧
      (h.mark.links = true → h.next ≤ 255 ∧ h.next ∉ visited)) ∧
  (∀ (m : Mill) (c : Caller) (x : Word) (b : Fin 48), bits x 16 8 = b.val →
    let kind := (m.verifyBin c b).kind
    let scaleOk := bits x 28 4 = 1 ∨ (bits x 28 4 = 2 ∧ m.presentUnit 1 = true)
    (kind.ingredient = false ∨ ¬scaleOk → m.judgeLine c x = .inr 0x08) ∧
    (kind.ingredient = true → scaleOk → 10000 < bits x 0 16 → m.judgeLine c x = .inr 0x07) ∧
    (kind.ingredient = true → scaleOk → bits x 0 16 ≤ 10000 →
      m.judgeLine c x = .inl (b, if bits x 28 4 = 1 then .one else .two))) ∧
  (∀ (m : Mill) (c : Caller) (x : Word), 48 ≤ bits x 16 8 → m.judgeLine c x = .inr 0x08) ∧
  (∀ (m : Mill) (w : Walk) (i : Nat) (x : Word) (xs : List Word),
    m.walkLines w i [] = .inl w ∧
    (∀ r, m.judgeLine w.caller x = .inr r →
      m.walkLines w i (x :: xs) = .inr (.fail ⟨r, BitVec.ofNat 16 (w.slot * 256 + i)⟩)) ∧
    (∀ b sc, m.judgeLine w.caller x = .inl (b, sc) → m.walkLines w i (x :: xs) = m.walkLines
      { w with
        parts := w.parts + bits x 0 16
        mask := w.mask ||| (m.verifyBin w.caller b).classMask
        lines := w.lines ++ [⟨w.slot, i, b, sc, bits x 24 4, bits x 0 16⟩] } (i + 1) xs))

/-- CONFIRMING_READ: the first failing field check answers FIELD_RANGE and the first failing mass rule MASS_RANGE, the
interlock ended; otherwise the release completes: the order RELEASED at the tail of the release list with its accounts set
and its entry taken from the values read, the interlock ended, the use count of each slot of its chain raised by 1, the
number of slots answered, a pass asked for. The order's own words are posted before the use count words (the model's
choice, log 41), and both before the answer. -/
def Obligations.ReleaseConfirmed : Prop :=
  (∀ (s : State) (o : Fin 256) (c : Chain), s.free .orderBook → s.mill.actions.inExec = .releaseConfirm c →
    (s.mill.readsOf .confirming).length = 5 → s.mill.headSlot = some o →
    let m := s.mill.takeReads .confirming
    let f := fieldsOf (s.mill.readsOf .confirming)
    let q := quantitiesOf f m.plan.batchMin m.plan.batchMax
    (∀ d, m.fieldFault c.head f = some d →
      exec .confirmingRead s = .next (s.leaves (m.endInterlock.answer ⟨0x04, BitVec.ofNat 16 d⟩))) ∧
    (∀ d, m.fieldFault c.head f = none → massFault q m.plan.batchMin = some d →
      exec .confirmingRead s = .next (s.leaves (m.endInterlock.answer ⟨0x09, BitVec.ofNat 16 d⟩))) ∧
    (m.fieldFault c.head f = none → massFault q m.plan.batchMin = none →
      exec .confirmingRead s = .next (s.leaves (m.completeRelease o f q c)))) ∧
  (∀ (m : Mill) (o : Fin 256) (f : OrderFields) (q : Quantities) (c : Chain),
    let t := m.completeRelease o f q c
    (t.order o).state = .released ∧ (t.order o).planned = q.planned ∧ (t.order o).scheduled = q.planned ∧
      (t.order o).remaining = q.planned ∧ (t.order o).inFlight = 0 ∧ (t.order o).completed = 0 ∧
      (t.order o).bagsPacked = 0 ∧ (t.order o).loaded = 0 ∧ (t.order o).classMask = c.mask ∧
      (t.order o).wait = .none ∧ (t.order o).nonFinal = 0 ∧ t.book.interlock = none ∧
      t.book.releaseList = m.book.releaseList ++ [o] ∧
      (t.order o).entry = some ⟨f.process, f.pack, f.bagMass, f.bagCount, f.ordered, f.request, q.unit, q.batchSize,
        q.floor, some c, c.slots, 0⟩ ∧
      (∀ p, p ≠ o → t.order p = m.order p) ∧
      (∀ n : Fin 256, getAt t.book.useCount n = getAt m.book.useCount n + c.slots.count n.val) ∧
      (m.plan.state = .running → m.seq.pass = .idle → t.seq.pass = .visiting 0) ∧
      (m.plan.state = .running → m.seq.pass ≠ .idle → t.seq.again = true) ∧
      (∀ a rest, m.actions.queue = a :: rest → t.actions.inExec = .answered ∧
        ∃ words uses, t.outbox = m.outbox ++ words ++ uses ++
          [⟨.actionExecutor, m.recordAddr a.record.kind a.record.idx a.record.kind.answerWord,
              .write 0xF (BitVec.ofNat 16 c.slots.length ++ (0x00 : BitVec 8) ++ a.code) .none⟩,
           ⟨.actionExecutor, m.recordAddr a.record.kind a.record.idx a.record.kind.actionWord,
              .write 0xF 0 (.clearsMarker a.record)⟩] ∧
          (∀ e ∈ words, e.poster = .orderBook ∧ ∃ w ∈ orderWords, e.addr = m.recordAddr .order o w) ∧
          uses.map (fun e => (e.poster, e.addr)) = (c.slots.filter (· < 256)).map (fun n =>
            (.orderBook, m.recordAddr .ticket n 6)))) ∧
  (∀ (m : Mill) (verified : Nat) (f : OrderFields),
    let processOk := f.process = some .mash ∨ (f.process = some .pellet ∧ m.presentUnit 5 = true)
    let packOk := (f.pack = some .bag ∧ m.presentUnit 6 = true) ∨ (f.pack = some .bulk ∧ m.presentUnit 7 = true)
    (f.ticket ≠ verified → m.fieldFault verified f = some 0x100) ∧
    (f.ticket = verified →
      (¬processOk → m.fieldFault verified f = some 1) ∧
      (processOk → ¬packOk → m.fieldFault verified f = some 2) ∧
      (processOk → packOk →
        (f.pack = some .bag →
          (f.bagMass < 50 ∨ 500 < f.bagMass → m.fieldFault verified f = some 3) ∧
          (50 ≤ f.bagMass → f.bagMass ≤ 500 →
            (f.bagCount < 1 ∨ 4000 < f.bagCount → m.fieldFault verified f = some 4) ∧
            (1 ≤ f.bagCount → f.bagCount ≤ 4000 → m.fieldFault verified f = none))) ∧
        (f.pack = some .bulk →
          (f.ordered < 5000 ∨ 600000 < f.ordered → m.fieldFault verified f = some 5) ∧
          (5000 ≤ f.ordered → f.ordered ≤ 600000 → m.fieldFault verified f = none))))) ∧
  (∀ (f : OrderFields) (lo hi : Nat), let q := quantitiesOf f lo hi
    (f.pack = some .bag → q.unit = f.bagMass ∧ q.planned = f.bagCount * f.bagMass) ∧
    (f.pack ≠ some .bag → q.unit = 100 ∧ q.planned = (f.ordered + 99) / 100 * 100) ∧
    (0 < q.unit → q.unit ∣ q.batchSize ∧ q.unit ∣ q.floor ∧ lo ≤ q.floor ∧ q.floor < lo + q.unit ∧
      (f.request = 0 → q.batchSize ≤ hi ∧ hi < q.batchSize + q.unit) ∧
      (f.request ≠ 0 → q.batchSize ≤ min f.request hi ∧ min f.request hi < q.batchSize + q.unit))) ∧
  (∀ (q : Quantities) (lo : Nat),
    (q.planned < lo → massFault q lo = some 1) ∧
    (lo ≤ q.planned → q.batchSize < lo → massFault q lo = some 2) ∧
    (lo ≤ q.planned → lo ≤ q.batchSize → q.batchSize < q.planned → q.batchSize < lo + q.floor →
      massFault q lo = some 3) ∧
    (lo ≤ q.planned → lo ≤ q.batchSize → q.planned ≤ q.batchSize ∨ lo + q.floor ≤ q.batchSize →
      massFault q lo = none))

/-- HOLD (R93) and RESUME (R94): taken from RELEASED or PRODUCING; HOLD makes the wait reason HELD and RESUME of a held
order makes it NONE and asks for a pass, with OK; the other cases are answered WRONG_STATE with the state code, or 0x100
plus it. A pass asked for while none runs begins at the head of the release list; at each place it visits the order of
that place, and one that waits for NONE, SHORT or FORBID is asked for its next batch, in a step of the pass as the model
cuts it (log 13). -/
def Obligations.HoldAndResume : Prop :=
  (∀ (s : State) (o : Fin 256) (arg : BitVec 24),
    let x := s.mill.order o
    let holdable := x.state = .released ∨ x.state = .producing
    (s.hands ⟨.order, o⟩ 0x02 arg →
      (holdable → x.wait ≠ .held → exec .hold s = .next (s.leaves
        ((s.mill.updOrder o (fun y => { y with wait := .held })).answer ⟨0x00, 0⟩))) ∧
      (holdable → x.wait = .held →
        exec .hold s = .next (s.leaves (s.mill.answer ⟨0x03, BitVec.ofNat 16 (0x100 + x.state.code)⟩))) ∧
      (¬holdable → exec .hold s = .next (s.leaves (s.mill.answer ⟨0x03, BitVec.ofNat 16 x.state.code⟩)))) ∧
    (s.hands ⟨.order, o⟩ 0x03 arg →
      (holdable → x.wait = .held → exec .resume s = .next (s.leaves
        ((s.mill.updOrder o (fun y => { y with wait := .none })).answer ⟨0x00, 0⟩).askPass)) ∧
      (holdable → x.wait ≠ .held →
        exec .resume s = .next (s.leaves (s.mill.answer ⟨0x03, BitVec.ofNat 16 (0x100 + x.state.code)⟩))) ∧
      (¬holdable → exec .resume s = .next (s.leaves (s.mill.answer ⟨0x03, BitVec.ofNat 16 x.state.code⟩))))) ∧
  (∀ m : Mill, m.plan.state = .running →
    (m.seq.pass = .idle → m.askPass.seq.pass = .visiting 0) ∧ (m.seq.pass ≠ .idle → m.askPass.seq.again = true)) ∧
  (∀ (m : Mill) (pos : Nat) (o : Fin 256) (e : OrderEntry) (size : Nat), m.seq.pass = .visiting pos →
    m.seq.queue.length < 8 → m.book.releaseList[pos]? = some o → (m.order o).entry = some e →
    (m.order o).wait = .none ∨ (m.order o).wait = .short ∨ (m.order o).wait = .forbid →
    nextSize (m.order o).remaining e.batchSize e.floor m.plan.batchMin = some size →
    m.passStep = { m with
      seq := { m.seq with pass := .sized pos ⟨o, size, lineMasses (e.chain.getD .reset) size⟩ } })

/-- CANCEL: from RELEASED the order becomes CANCELLED at once with end reason HOST, off the release list, its entry
given up and its chain's use counts lowered, its lots marked and each surge's head then checked, answered 0; from
PRODUCING or FINISHING it becomes CANCELLING with end reason HOST, off the release list, answered 1, and the cancel is
handed to the queue, the scales and mixer, the lots and the pellet line, in this order; the answer is posted before what
the hand-offs post (log 32), the order's QUEUED batches go in queue order (log 50), its batch in the scale stage before
the one in the mixer (log 54); from any other state it is answered WRONG_STATE. A cancellation ends CANCELLED when no
batch, lot, line or fill holds the order. -/
def Obligations.CancelTaken : Prop :=
  (∀ (s : State) (o : Fin 256) (arg : BitVec 24), s.hands ⟨.order, o⟩ 0x04 arg →
    let x := s.mill.order o
    (x.state = .released → exec .cancel s = .next (s.leaves ((s.mill.cancelReleased o).answer ⟨0x00, 0⟩))) ∧
    (x.state = .producing ∨ x.state = .finishing →
      exec .cancel s = .next (s.leaves (((s.mill.beginCancel o).answer ⟨0x00, 1⟩).handCancel o))) ∧
    (x.state = .idle ∨ x.state = .packed ∨ x.state = .closed ∨ x.state = .cancelling ∨ x.state = .cancelled →
      exec .cancel s = .next (s.leaves (s.mill.answer ⟨0x03, BitVec.ofNat 16 x.state.code⟩)))) ∧
  (∀ (m : Mill) (o : Fin 256), ((m.beginCancel o).order o).state = .cancelling ∧
    ((m.beginCancel o).order o).endReason = .host ∧ ((m.beginCancel o).order o).wait = .none ∧
    o ∉ (m.beginCancel o).book.releaseList ∧
    (∀ p, p ≠ o → (m.beginCancel o).order p = m.order p)) ∧
  (∀ (m : Mill) (o : Fin 256), let t := m.cancelReleased o
    (t.order o).state = .cancelled ∧ (t.order o).endReason = .host ∧ (t.order o).wait = .none ∧
    (t.order o).entry = none ∧ o ∉ t.book.releaseList ∧ (∀ p, p ≠ o → t.order p = m.order p) ∧
    (∀ n : Fin 256, getAt t.book.useCount n = getAt m.book.useCount n - (m.order o).slots.count n.val) ∧
    (∀ g l, l ∈ t.lotsOf g → l.owner = some o → l.mark = .cancelled)) ∧
  (∀ (m : Mill) (o : Fin 256) (mark : Mark),
    (∀ g, (m.markSurges o mark).lotsOf g = (m.lotsOf g).map (fun l =>
      if l.owner = some o ∧ (mark = .cancelled ∨ l.mark = .none) then { l with mark := mark } else l)) ∧
    m.markOrder o mark = (((m.markSurges o mark).checkHead .pellet).checkHead .bag).checkHead .bulk) ∧
  (∀ (m : Mill) (o : Fin 256),
    m.handCancel o = ((((m.removeBatches (m.queuedOf o)).cancelBatch o).markOrder o .cancelled).cancelLine o).judgeCancelled
      o ∧
    m.queuedOf o = m.seq.queue.filter (fun b => (m.batch b).order = some o) ∧
    (∀ b, m.weigh.batch = some b → (m.batch b).order = some o →
      m.cancelBatch o = (m.cancelWeighing b).cancelMixed o) ∧
    ((∀ b, m.weigh.batch = some b → (m.batch b).order ≠ some o) → m.cancelBatch o = m.cancelMixed o) ∧
    (m.weigh.mixer.batch = none → m.cancelMixed o = m) ∧
    (∀ b, m.weigh.mixer.batch = some b → let x := m.batch b
      (x.order = some o → x.disposition = .good → x.state = .filling ∨ x.state = .mixing ∨ x.state = .mixed →
        m.cancelMixed o = m.reworkMixed b) ∧
      (x.order ≠ some o ∨ x.disposition ≠ .good ∨ (x.state ≠ .filling ∧ x.state ≠ .mixing ∧ x.state ≠ .mixed) →
        m.cancelMixed o = m)) ∧
    (m.lines.pellet.current = some o →
      m.lines.pellet.line.state = .running ∨ m.lines.pellet.line.state = .blocked → m.cancelLine o = m.beginDrain) ∧
    (m.lines.pellet.current ≠ some o ∨
      (m.lines.pellet.line.state ≠ .running ∧ m.lines.pellet.line.state ≠ .blocked) → m.cancelLine o = m)) ∧
  (∀ (m : Mill) (o : Fin 256), let x := m.order o
    (x.state = .cancelling → x.nonFinal = 0 → m.exhausted o = true →
      m.judgeCancelled o = m.giveUp o (fun y => { y with state := .cancelled })) ∧
    (x.state ≠ .cancelling ∨ 0 < x.nonFinal ∨ m.exhausted o = false → m.judgeCancelled o = m) ∧
    (m.exhausted o = true ↔ m.hasLot o = false ∧ m.lines.pellet.current ≠ some o ∧ m.fillHolds o = false))

/-- CLOSE of a PACKED order with no non-final batch makes it CLOSED, its entry given up; CLEAR of a CLOSED or CANCELLED
order with no lot and no trip at the mill makes it IDLE with every device field zero; the checks that fail are answered
WRONG_STATE with their details, the lowest trip ARRIVED, LOADING or LOADED that names the order among them. A PACKED
BULK order with no non-final batch that no trip but DEPARTED ones names is closed by itself. An active order whose
remaining and in-flight are both 0 becomes FINISHING, off the release list; one that is exhausted with a shortfall gets
a make-up credit: PRODUCING again at the tail of the release list, MAKE_UP raised, a pass asked for. The final report of
a batch. -/
def Obligations.CloseAndClear : Prop :=
  (∀ (s : State) (o : Fin 256) (arg : BitVec 24),
    let x := s.mill.order o
    (s.hands ⟨.order, o⟩ 0x05 arg →
      (x.state = .packed → x.nonFinal = 0 → exec .close s = .next (s.leaves
        (((s.mill.updOrder o (fun y => { y with state := .closed, entry := none })).lowerUse x.slots).answer ⟨0x00, 0⟩))) ∧
      (x.state = .packed → 0 < x.nonFinal →
        exec .close s = .next (s.leaves (s.mill.answer ⟨0x03, BitVec.ofNat 16 (0x400 + x.state.code)⟩))) ∧
      (x.state ≠ .packed → exec .close s = .next (s.leaves (s.mill.answer ⟨0x03, BitVec.ofNat 16 x.state.code⟩)))) ∧
    (s.hands ⟨.order, o⟩ 0x06 arg →
      (x.state ≠ .closed → x.state ≠ .cancelled →
        exec .clear s = .next (s.leaves (s.mill.answer ⟨0x03, BitVec.ofNat 16 x.state.code⟩))) ∧
      (x.state = .closed ∨ x.state = .cancelled →
        (s.mill.hasLot o = true → exec .clear s = .next (s.leaves (s.mill.answer ⟨0x03, 0x200⟩))) ∧
        (∀ t, s.mill.hasLot o = false → s.mill.tripAtMill o = some t →
          exec .clear s = .next (s.leaves (s.mill.answer ⟨0x03, BitVec.ofNat 16 (0x300 + t.val)⟩))) ∧
        (s.mill.hasLot o = false → s.mill.tripAtMill o = none → exec .clear s = .next (s.leaves
          (((s.mill.updOrder o (fun _ => Order.reset)).orphanProduct o).answer ⟨0x00, 0⟩)))))) ∧
  (∀ (m : Mill) (o : Fin 256),
    let atMill (r : Fin 8) : Prop :=
      ((m.trip r).state = .arrived ∨ (m.trip r).state = .loading ∨ (m.trip r).state = .loaded) ∧
      ∃ k ∈ (m.trip r).copy, k.order = o
    (m.hasLot o = true ↔ ∃ g l, l ∈ m.lotsOf g ∧ l.owner = some o) ∧
    (m.tripAtMill o = none ↔ ∀ r, ¬atMill r) ∧
    (∀ r, m.tripAtMill o = some r ↔ atMill r ∧ ∀ q, q < r → ¬atMill q) ∧
    (m.lines.pellet.productOrder = .none → m.orphanProduct o = m) ∧
    (∀ d, m.lines.pellet.productOrder = .order o d →
      m.orphanProduct o = m.updPellet (fun c => { c with productOrder := .orphan d })) ∧
    (∀ p d, p ≠ o → m.lines.pellet.productOrder = .order p d → m.orphanProduct o = m) ∧
    (∀ d, m.lines.pellet.productOrder = .orphan d → m.orphanProduct o = m)) ∧
  (∀ (m : Mill) (o : Fin 256), let x := m.order o
    let closes := x.state = .packed ∧ x.pack = some .bulk ∧ x.nonFinal = 0 ∧
      ∀ r, (m.trip r).state = .departed ∨ ∀ k ∈ (m.trip r).copy, k.order ≠ o
    (closes → m.autoClose o = (m.updOrder o (fun y => { y with state := .closed, entry := none })).lowerUse x.slots) ∧
    (¬closes → m.autoClose o = m)) ∧
  (∀ (m : Mill) (o : Fin 256), let x := m.order o
    let ends := (x.state = .released ∨ x.state = .producing) ∧ x.remaining = 0 ∧ x.inFlight = 0
    (ends → m.judgeFinishing o = (((m.leaveList o).updOrder o (fun y => { y with state := .finishing, wait := .none })).tell
      (.orderFinishing o)).judgeMakeUp o) ∧
    (¬ends → m.judgeFinishing o = m) ∧ o ∉ (m.leaveList o).book.releaseList ∧
    (m.leaveList o).book.releaseList = m.book.releaseList.filter (· ≠ o)) ∧
  (∀ (m : Mill) (o : Fin 256), let x := m.order o
    let short := x.shortfall m.plan.bulkTolerance
    let credit := x.credit short
    let made := x.state = .finishing ∧ m.exhausted o = true ∧ 0 < short ∧ x.scheduled + credit ≤ 2 ^ 24 - 1
    (made →
      let m1 := m.updOrder o (fun y => { y with
        scheduled := y.scheduled + credit, remaining := y.remaining + credit, state := .producing, wait := .none })
      m.judgeMakeUp o = (Mill.raise { m1 with book := { m1.book with releaseList := m1.book.releaseList ++ [o] } }
        .makeUp).askPass) ∧
    (¬made → m.judgeMakeUp o = m)) ∧
  (∀ (x : Order) (e : OrderEntry) (tol n : Nat), x.entry = some e →
    (e.pack = some .bag → x.shortfall tol = (e.bagCount - x.bagsPacked) * e.bagMass) ∧
    (e.pack = some .bulk →
      (tol < x.planned - x.loaded → x.shortfall tol = x.planned - x.loaded) ∧
      (x.planned - x.loaded ≤ tol → x.shortfall tol = 0)) ∧
    (0 < e.unit → e.unit ∣ e.floor → e.unit ∣ x.credit n ∧ n ≤ x.credit n ∧ e.floor ≤ x.credit n ∧
      (x.credit n = e.floor ∨ x.credit n < n + e.unit))) ∧
  (∀ (m : Mill) (o : Fin 256) (c : Chain) (target : Nat),
    m.reportFinal none c = m.lowerUse c.slots ∧
    m.reportFinal (some o) c =
      (((m.lowerUse c.slots).updEntry o (fun e => { e with nonFinal := e.nonFinal - 1 })).judgeCancelled o).autoClose o ∧
    m.completed o target = (m.updOrder o (fun x => { x with
      inFlight := x.inFlight - target, completed := x.completed + target
      batchesDone := x.batchesDone + 1 })).judgeFinishing o ∧
    (∀ slots, (m.lowerUse slots).book.orders = m.book.orders ∧ ∀ n : Fin 256,
      getAt (m.lowerUse slots).book.useCount n = getAt m.book.useCount n - slots.count n.val))

/-- ACCEPT, SKIP_LINE, RETRY and TOP_UP on a scale in ATTENTION with a cause that the action accepts: the line is
finished, the unbooked reservation is fed, or the deficit is reserved and fed (STOCK when it is short), answered with
the line. With no reservation left a RETRY makes the tolerance check at once, after the scale has left ATTENTION (the
model's choice, log 57). The order in which each of the four is judged: the batch WEIGHING, the argument a present scale,
the scale in ATTENTION, its cause accepted; the first that fails is answered. -/
def Obligations.LineActions : Prop :=
  (∀ (s : State) (b : Fin 32) (sc : Scale),
     let arg : BitVec 24 := BitVec.ofNat 24 (scaleNo sc)
     let c := s.mill.scale sc
     let x := s.mill.batch b
     let line := BitVec.ofNat 16 c.current
     x.state = .weighing → s.mill.presentUnit (scaleUnit sc) = true → c.state = .attention →
     (s.hands ⟨.batch, b⟩ 0x10 arg → c.cause = .under ∨ c.cause = .over → exec .accept s = .next (s.leaves
       (((s.mill.leaveAttention b sc).finishLine b sc).answer ⟨0x00, line⟩))) ∧
     (s.hands ⟨.batch, b⟩ 0x12 arg → c.cause = .stalled ∨ c.cause = .under ∨ c.cause = .over →
       exec .skipLine s = .next (s.leaves (((s.mill.leaveAttention b sc).finishLine b sc).answer ⟨0x00, line⟩))) ∧
     (s.hands ⟨.batch, b⟩ 0x13 arg → c.cause = .stalled →
       (0 < s.mill.stock.unbooked b c.current → exec .retry s = .next (s.leaves
         ((s.mill.nextPhase b sc (s.mill.stock.unbooked b c.current)).answer ⟨0x00, line⟩))) ∧
       (s.mill.stock.unbooked b c.current = 0 → exec .retry s = .next (s.leaves
         (((s.mill.leaveAttention b sc).checkTolerance b sc).answer ⟨0x00, line⟩)))) ∧
     (s.hands ⟨.batch, b⟩ 0x11 arg → c.cause = .under →
       let deficit := x.lineTarget c.current - x.lineActual c.current
       let bin := (x.chainLine c.current).bin
       (deficit ≤ (getAt s.mill.stock.bins bin).available → exec .topUp s = .next (s.leaves
         (((s.mill.makeEntry b ⟨c.current, bin, deficit⟩).nextPhase b sc deficit).answer ⟨0x00, line⟩))) ∧
       ((getAt s.mill.stock.bins bin).available < deficit →
         exec .topUp s = .next (s.leaves (s.mill.answer ⟨0x0B, BitVec.ofNat 16 bin.val⟩))))) ∧
  (∀ (code : BitVec 8) (i : Instr) (causes : List Cause),
     (code, i, causes) ∈ [((0x10 : BitVec 8), Instr.accept, [Cause.under, .over]), (0x11, .topUp, [.under]),
       (0x12, .skipLine, [.stalled, .under, .over]), (0x13, .retry, [.stalled])] →
     ∀ (s : State) (b : Fin 32) (arg : BitVec 24), s.hands ⟨.batch, b⟩ code arg →
     ((s.mill.batch b).state ≠ .weighing →
       exec i s = .next (s.leaves (s.mill.answer ⟨0x03, BitVec.ofNat 16 (s.mill.batch b).state.code⟩))) ∧
     ((s.mill.batch b).state = .weighing → s.mill.scaleArg arg = none →
       exec i s = .next (s.leaves (s.mill.answer ⟨0x04, arg.extractLsb' 0 16⟩))) ∧
     (∀ sc, (s.mill.batch b).state = .weighing → s.mill.scaleArg arg = some sc →
       ((s.mill.scale sc).state ≠ .attention → exec i s = .next (s.leaves
         (s.mill.answer ⟨0x03, BitVec.ofNat 16 (0x100 + (s.mill.scale sc).state.code)⟩))) ∧
       ((s.mill.scale sc).state = .attention → (s.mill.scale sc).cause ∉ causes →
         exec i s = .next (s.leaves
           (s.mill.answer ⟨0x03, BitVec.ofNat 16 (0x200 + (s.mill.scale sc).cause.code)⟩))))) ∧
  (∀ (m : Mill) (arg : BitVec 24) (sc : Scale),
     m.scaleArg arg = some sc ↔ arg = BitVec.ofNat 24 (scaleNo sc) ∧ m.presentUnit (scaleUnit sc) = true) ∧
  (∀ (m : Mill) (b : Fin 32) (sc : Scale) (target : Nat), let c := m.scale sc
     m.finishLine b sc = (m.releaseEntry b c.current).startLines b sc c.lines.tail ∧
     m.nextPhase b sc target = ((m.leaveAttention b sc).updScale sc (fun c => { c with phase := c.phase + 1 })).startPhase
       b sc target ∧
     ((m.batch b).attention.scale ≠ scaleNo sc → (m.leaveAttention b sc).batch b = m.batch b) ∧
     ((m.batch b).attention.scale = scaleNo sc →
       ((m.scale (otherScale sc)).state ≠ .attention →
         ((m.leaveAttention b sc).batch b).attention = ⟨.none, 0, 0, 0, 0⟩) ∧
       ((m.scale (otherScale sc)).state = .attention → let d := m.scale (otherScale sc)
         ((m.leaveAttention b sc).batch b).attention = ⟨d.cause, scaleNo (otherScale sc), d.current,
           (m.batch b).lineTarget d.current, (m.batch b).lineActual d.current⟩)))

/-- ABORT by the batch's state: a QUEUED batch is removed, weighing is cancelled, a GOOD batch in the mixer becomes
REWORK; where that is done already the answer is OK with detail 1; a DISCHARGING or final batch answers WRONG_STATE. A
removal: the reservations released, the batch REMOVED and out of the queue, reported; each gap it opens is re-checked
(from the queue's head, the model's choice, log 53), and a default flush batch is put before a follower that some rule
matches, reserved by force if need be; a pass is asked for if a place in the queue has come free. Cancelled weighing:
disposition REWORK and the route to the REWORK bin, a feeding scale settles, one in ATTENTION is DONE, SCALE1's first
(log 43); whether a word of the batch record that has not changed is posted again is the model's choice (log 56). -/
def Obligations.AbortTaken : Prop :=
  (∀ (s : State) (b : Fin 32) (arg : BitVec 24), s.hands ⟨.batch, b⟩ 0x14 arg →
    let x := s.mill.batch b
    (x.state = .queued → exec .abort s = .next (s.leaves ((s.mill.removeBatches [b]).answer ⟨0x00, 0⟩))) ∧
    (x.state = .weighing ∨ x.state = .weighed →
      (s.mill.weigh.cancelled = false → exec .abort s = .next (s.leaves ((s.mill.cancelWeighing b).answer ⟨0x00, 0⟩))) ∧
      (s.mill.weigh.cancelled = true → exec .abort s = .next (s.leaves (s.mill.answer ⟨0x00, 1⟩)))) ∧
    (x.state = .filling ∨ x.state = .mixing ∨ x.state = .mixed →
      (x.disposition = .good → exec .abort s = .next (s.leaves ((s.mill.reworkMixed b).answer ⟨0x00, 0⟩))) ∧
      (x.disposition = .rework → exec .abort s = .next (s.leaves (s.mill.answer ⟨0x00, 1⟩)))) ∧
    (x.state = .discharging ∨ x.state.final = true →
      exec .abort s = .next (s.leaves (s.mill.answer ⟨0x03, BitVec.ofNat 16 x.state.code⟩)))) ∧
  (∀ (m : Mill) (b : Fin 32), let x := m.batch b
    let m1 := (m.releaseBatch b).updBatch .batchSequencer b (fun y => { y with state := .removed })
    let m2 := Mill.restate { m1 with seq := { m1.seq with queue := m1.seq.queue.filter (· ≠ b) } } 6
    (x.order = none → m.removeOne b = m2.reportFinal none x.chain) ∧
    (∀ o, x.order = some o → m.removeOne b = (m2.returnMass o x.target).reportFinal (some o) x.chain)) ∧
  (∀ (m : Mill) (rs : List (Fin 32)),
    let gs := gapsOf (fun b => (m.batch b).member) rs m.seq.reference false m.seq.queue
    let t := (rs.foldl (fun m b => m.removeOne b) m).recheckGaps gs
    m.removeBatches [] = m ∧
    (rs ≠ [] → (t.seq.queue.length < m.seq.queue.length → m.removeBatches rs = t.askPass) ∧
      (m.seq.queue.length ≤ t.seq.queue.length → m.removeBatches rs = t))) ∧
  (∀ (who : Fin 32 → Reference) (rs : List (Fin 32)) (ahead : Option Reference) (run : Bool) (b : Fin 32)
    (t : List (Fin 32)), gapsOf who rs ahead run [] = [] ∧
    (b ∈ rs → gapsOf who rs ahead run (b :: t) = gapsOf who rs ahead true t) ∧
    (b ∉ rs → gapsOf who rs ahead run (b :: t) =
      (if run then [⟨ahead, b⟩] else []) ++ gapsOf who rs (some (who b)) false t)) ∧
  (∀ (m : Mill) (g : Gap) (gs : List Gap),
    m.recheckGaps [] = m ∧
    (m.gapMatches g = true → m.recheckGaps (g :: gs) = (m.substitute g.follower).recheckGaps gs) ∧
    (m.gapMatches g = false → m.recheckGaps (g :: gs) = m.recheckGaps gs) ∧
    (∀ r, g.ahead = some r → r.isFlush = true → m.gapMatches g = false) ∧
    ((∀ r, g.ahead = some r → r.isFlush = false) → (m.gapMatches g = true ↔ ∃ n, n < 32 ∧
      m.plan.ruleFrom n &&& ((g.ahead.map (·.mask)).getD m.plan.initialMask) ≠ 0 ∧
      m.plan.ruleTo n &&& (m.batch g.follower).mask ≠ 0 ∧
      (m.plan.ruleTreatment n = 1 ∨ m.plan.ruleTreatment n = 2)))) ∧
  (∀ (m : Mill) (follower b : Fin 32) (c : Chain), m.allocate = some b → m.plan.defaultFlush = some c →
    let x := m.flushBatch c m.plan.flushMass
    let ls := reserveLines c x.masses
    let m1 := (m.makeEntries b ls).newBatch b x
    let m2 := m1.raiseUse c.slots
    m.substitute follower = Mill.restate { m2 with seq := { m2.seq with
      queue := m2.seq.queue.flatMap (fun q => if q = follower then [b, follower] else [q]) } } 6) ∧
  (∀ (m : Mill) (b : Fin 32), (m.weigh.cancelled = true → m.cancelWeighing b = m) ∧
    (m.weigh.cancelled = false →
      let m1 := Mill.makeRework { m with weigh := { m.weigh with cancelled := true, limit := none } } b
      m.cancelWeighing b = (m1.scales.foldl (fun m sc => m.cancelScale b sc) m1).judgeWeighed b)) ∧
  (∀ (m : Mill) (b : Fin 32), let x := m.batch b
    let m1 := m.updBatch .weighMix b (fun y => { y with disposition := .rework, route := m.routeTo .rework })
    (∀ o, x.disposition = .good → x.order = some o → m.makeRework b = m1.returnMass o x.target) ∧
    (x.disposition = .rework ∨ x.order = none → m.makeRework b = m1) ∧
    m.reworkMixed b = (m.makeRework b).judgeDischarge) ∧
  (∀ (m : Mill) (b : Fin 32) (sc : Scale), let t := m.cancelScale b sc
    ((m.scale sc).state = .feeding → (t.scale sc).state = .settling ∧ (t.scale sc).ended = .cancelled ∧
      (t.scale sc).stall = none ∧ (t.scale sc).settle = some m.plan.settleTime) ∧
    ((m.scale sc).state = .attention → (t.scale sc).state = .done ∧ (t.scale sc).lines = [] ∧
      (t.scale sc).cause = .none) ∧
    ((m.scale sc).state ≠ .feeding → (m.scale sc).state ≠ .attention → t = m)) ∧
  (∀ (m : Mill) (o : Fin 256) (target : Nat), let m1 := (m.moveBack o target).judgeFinishing o
    ((m.moveBack o target).order o).inFlight = (m.order o).inFlight - target ∧
    ((m.moveBack o target).order o).remaining = (m.order o).remaining + target ∧
    (o ∈ m1.book.releaseList → (m1.order o).wait ≠ .held → m.returnMass o target = m1.askPass) ∧
    (o ∉ m1.book.releaseList ∨ (m1.order o).wait = .held → m.returnMass o target = m1))

/-- QUEUE_HOLD and QUEUE_RESUME by the queue hold state, with their answers; while the queue is held the scales do not
take the head; the hold state is reported for the summary word. -/
def Obligations.QueueHoldAndResume : Prop :=
  (∀ (s : State) (arg : BitVec 24), s.hands ⟨.status, 0⟩ 0x50 arg →
    (s.mill.seq.hold = false → exec .queueHold s = .next (s.leaves
      (Mill.answer { s.mill with seq := { s.mill.seq with hold := true } } ⟨0x00, 0⟩))) ∧
    (s.mill.seq.hold = true → exec .queueHold s = .next (s.leaves (s.mill.answer ⟨0x03, 1⟩)))) ∧
  (∀ (s : State) (arg : BitVec 24), s.hands ⟨.status, 0⟩ 0x51 arg →
    (s.mill.seq.hold = true → exec .queueResume s = .next (s.leaves
      (((Mill.answer { s.mill with seq := { s.mill.seq with hold := false } } ⟨0x00, 0⟩).askPass).tell .considerTake))) ∧
    (s.mill.seq.hold = false → exec .queueResume s = .next (s.leaves (s.mill.answer ⟨0x03, 0⟩)))) ∧
  (∀ m : Mill, m.seq.hold = true → m.considerTake = m) ∧
  (∀ (u : Status) (m : Mill), m.plan.state = .running → (u.summarise m).hold = m.seq.hold)

/-- COUNT reads the count value word of an ingredient or REWORK bin and answers WRONG_STATE on another;
COUNT_READ_RETURN sets the level to the value, or answers STOCK with 1 below the reserved mass and 2 above the capacity
(1 where both hold, the model's choice, log 55); a rise of the level asks for a pass. -/
def Obligations.CountTaken : Prop :=
  (∀ (s : State) (b : Fin 48) (arg : BitVec 24), s.hands ⟨.bin, b⟩ 0x20 arg →
    let k := (getAt s.mill.stock.bins b).plan.kind
    (k = .raw ∨ k = .ground ∨ k = .premix ∨ k = .rework → exec .count s = .next (s.leaves { s.mill with
      actions := { s.mill.actions with inExec := .countValue }
      outbox := s.mill.outbox ++ [⟨.stockUnit, s.mill.recordAddr .bin b 10, .read .countValue⟩] })) ∧
    (k = .unused ∨ k = .surgePellet ∨ k = .surgeBag ∨ k = .surgeBulk →
      exec .count s = .next (s.leaves (s.mill.answer ⟨0x03, 0⟩)))) ∧
  (∀ (s : State) (b : Fin 48) (a : Action) (rest : List Action) (w : Word) (ws : List Word), s.free .stockUnit →
    s.mill.actions.inExec = .countValue → s.mill.actions.queue = a :: rest → a.record.idx = b →
    s.mill.readsOf .countValue = w :: ws →
    let m := s.mill.takeReads .countValue
    let x := getAt s.mill.stock.bins b
    let value := bits w 0 24
    (value < x.reserved → exec .countReadReturn s = .next (s.leaves (m.answer ⟨0x0B, 1⟩))) ∧
    (x.reserved ≤ value → x.plan.capacity < value → exec .countReadReturn s = .next (s.leaves (m.answer ⟨0x0B, 2⟩))) ∧
    (x.reserved ≤ value → value ≤ x.plan.capacity →
      (value ≤ x.level → exec .countReadReturn s = .next (s.leaves
        ((m.updBin b (fun y => { y with level := value })).answer ⟨0x00, 0⟩))) ∧
      (x.level < value → exec .countReadReturn s = .next (s.leaves
        (((m.updBin b (fun y => { y with level := value })).answer ⟨0x00, 0⟩).askPass)))))

/-- LOCKOUT: WRONG_STATE on a bin that is no ingredient bin (0) or locked out already (1), BIN_IN_USE while it has
reserved mass (1) or serves a grind job (2); a bin locked out already is answered so whatever else holds of it, and the
reserved mass is judged before the grind job (the model's choice, log 39); otherwise the bin is LOCKED_OUT and has no
available mass. -/
def Obligations.LockoutTaken : Prop :=
  (∀ (s : State) (b : Fin 48) (arg : BitVec 24), s.hands ⟨.bin, b⟩ 0x21 arg →
    let x := getAt s.mill.stock.bins b
    (x.plan.kind.ingredient = false → exec .lockout s = .next (s.leaves (s.mill.answer ⟨0x03, 0⟩))) ∧
    (x.plan.kind.ingredient = true →
      (x.lockedOut = true → exec .lockout s = .next (s.leaves (s.mill.answer ⟨0x03, 1⟩))) ∧
      (x.lockedOut = false → 0 < x.reserved → exec .lockout s = .next (s.leaves (s.mill.answer ⟨0x0F, 1⟩))) ∧
      (x.lockedOut = false → x.reserved = 0 → s.mill.inGrindJob b = true →
        exec .lockout s = .next (s.leaves (s.mill.answer ⟨0x0F, 2⟩))) ∧
      (x.lockedOut = false → x.reserved = 0 → s.mill.inGrindJob b = false → exec .lockout s = .next (s.leaves
        ((s.mill.updBin b (fun y => { y with lockedOut := true })).answer ⟨0x00, 0⟩))))) ∧
  (∀ x : Bin, x.lockedOut = true → x.available = 0)

/-- RETURN: on a LOCKED_OUT bin the condition clears, its available mass is its level less its reserved mass, the answer
is OK with detail 0 and an admission pass is asked for; on any other bin it is answered WRONG_STATE with detail 0. -/
def Obligations.ReturnTaken : Prop :=
  (∀ (s : State) (b : Fin 48) (arg : BitVec 24), s.hands ⟨.bin, b⟩ 0x22 arg →
    let x := getAt s.mill.stock.bins b
    (x.lockedOut = true → exec .returnBin s = .next (s.leaves
      (((s.mill.updBin b (fun y => { y with lockedOut := false })).answer ⟨0x00, 0⟩).askPass))) ∧
    (x.lockedOut = false → exec .returnBin s = .next (s.leaves (s.mill.answer ⟨0x03, 0⟩)))) ∧
  (∀ x : Bin, x.lockedOut = false → x.available = x.level - x.reserved) ∧
  (∀ m : Mill, m.plan.state = .running →
    (m.seq.pass = .idle → m.askPass.seq.pass = .visiting 0) ∧ (m.seq.pass ≠ .idle → m.askPass.seq.again = true))

/-- DIVERT_HEAD: WRONG_STATE on a bin that is no surge bin (0) or has no lot (1); otherwise the head lot takes the mark
HOST unless it is marked, the answer is the lot count before the divert, and the lot is then diverted: at once when the
lot is not claimed and the REWORK bin has room for it, and in its turn among the waiting diverts otherwise (the order of
its posts: log 50; the place of a surge that waits again after a divert, or whose waiting lot was drawn out, is the
model's choice, log 59). -/
def Obligations.DivertHeadTaken : Prop :=
  (∀ (s : State) (b : Fin 48) (arg : BitVec 24), s.hands ⟨.bin, b⟩ 0x23 arg →
    let x := getAt s.mill.stock.bins b
    (x.plan.kind.surge = none → exec .divertHead s = .next (s.leaves (s.mill.answer ⟨0x03, 0⟩))) ∧
    (∀ g, x.plan.kind.surge = some g → x.lots = [] →
      exec .divertHead s = .next (s.leaves (s.mill.answer ⟨0x03, 1⟩))) ∧
    (∀ g, x.plan.kind.surge = some g → x.lots ≠ [] → exec .divertHead s = .next (s.leaves
      (((s.mill.remark g hostMark).answer ⟨0x00, BitVec.ofNat 16 x.lots.length⟩).checkHead g)))) ∧
  (∀ (l : Lot) (t : List Lot), (l.mark = .none → hostMark (l :: t) = { l with mark := .host } :: t) ∧
    (l.mark ≠ .none → hostMark (l :: t) = l :: t)) ∧
  (∀ (m : Mill) (g : Surge) (i : Fin 48) (n : Nat), m.surgeBin g = some i →
    let b := getAt m.stock.bins i
    let dropped := { m with stock := { m.stock with waitingDiverts := m.stock.waitingDiverts.filter (· ≠ g) } }
    (b.lots = [] → m.checkHeads g (n + 1) = dropped) ∧
    (∀ l t, b.lots = l :: t →
      (l.diverts = true ↔ l.owner = none ∨ l.mark ≠ .none) ∧
      (l.diverts = false → m.checkHeads g (n + 1) = dropped) ∧
      (l.diverts = true → b.claim = true → m.checkHeads g (n + 1) = m) ∧
      (l.diverts = true → b.claim = false → l.mass ≤ m.reworkRoom →
        m.checkHeads g (n + 1) = (m.divert g i l).checkHeads g n) ∧
      (l.diverts = true → b.claim = false → m.reworkRoom < l.mass → m.checkHeads g (n + 1) =
        if m.stock.waitingDiverts.contains g then m
        else { m with stock := { m.stock with waitingDiverts := m.stock.waitingDiverts ++ [g] } }) ∧
      (∀ r, m.reworkBin = some r → l.mass ≤ m.reworkRoom →
        let t' := m.divert g i l
        (getAt t'.stock.bins i).lots = t ∧ (getAt t'.stock.bins i).claim = false ∧
        (getAt t'.stock.bins i).level = b.level - l.mass ∧ (getAt t'.stock.bins i).divertMass = l.mass ∧
        (getAt t'.stock.bins i).divertSeq = b.divertSeq + 1 ∧
        ((getAt m.stock.bins r).level ≤ (getAt m.stock.bins r).plan.capacity →
          (getAt t'.stock.bins r).level = (getAt m.stock.bins r).level + l.mass) ∧
        Report.event .diverted ∈ t'.reports ∧ g ∉ t'.stock.waitingDiverts)) ∧
    m.checkHead g = m.checkHeads g 9)

/-- START by unit: the scales and the mixer WRONG_STATE 0xFFFF, an absent unit ABSENT, a unit not IDLE WRONG_STATE with
its state; an IDLE grinder reads its refill setting and stays in execution, an IDLE pellet line with fresh trip channels
takes its ceiling and looks for a lot, an IDLE bagger or loadout is started and judges its surge. -/
def Obligations.StartTaken : Prop :=
  ∀ (s : State) (u : Nat) (arg : BitVec 24), s.hands ⟨.unit, u⟩ 0x30 arg →
    (u ≤ 2 → exec .start s = .next (s.leaves (s.mill.answer ⟨0x03, 0xFFFF⟩))) ∧
    (3 ≤ u → u ≤ 7 → s.mill.presentUnit u = false → exec .start s = .next (s.leaves (s.mill.answer ⟨0x0D, 0⟩))) ∧
    (∀ l, lineOfUnit u = some l → s.mill.presentLine l = true → (s.mill.lineCtl l).state ≠ .idle →
      exec .start s = .next (s.leaves (s.mill.answer ⟨0x03, BitVec.ofNat 16 (s.mill.lineCtl l).state.code⟩))) ∧
    (∀ g, lineOfUnit u = some (.grinder g) → s.mill.presentLine (.grinder g) = true →
      (s.mill.lineCtl (.grinder g)).state = .idle →
      exec .start s = .next (s.leaves ((s.mill.readRefill g true).awaits (.startRefill g)))) ∧
    (u = 5 → s.mill.presentLine .pellet = true → (s.mill.lineCtl .pellet).state = .idle →
      (∀ ch, s.mill.firstFailing .pellet (fun _ c => c.fresh.isSome) = some ch →
        exec .start s = .next (s.leaves (s.mill.answer ⟨0x0C, BitVec.ofNat 16 (chanRole ch).val⟩))) ∧
      (s.mill.firstFailing .pellet (fun _ c => c.fresh.isSome) = none → exec .start s = .next (s.leaves
        (((s.mill.updLine .pellet (fun c => { c with ceiling := s.mill.plan.ceilingMax .pellet })).answer
          ⟨0x00, 0⟩).pelletTake)))) ∧
    (u = 6 → s.mill.presentUnit 6 = true → s.mill.pack.bagger.state ≠ .idle → exec .start s = .next (s.leaves
      (s.mill.answer ⟨0x03, BitVec.ofNat 16 s.mill.pack.bagger.state.code⟩))) ∧
    (u = 7 → s.mill.presentUnit 7 = true → s.mill.pack.loadout.state ≠ .idle → exec .start s = .next (s.leaves
      (s.mill.answer ⟨0x03, BitVec.ofNat 16 s.mill.pack.loadout.state.code⟩))) ∧
    (u = 6 → s.mill.presentUnit 6 = true → s.mill.pack.bagger.state = .idle → exec .start s = .next (s.leaves
      (((s.mill.updBagger (fun b => { b with state := .waitLot })).judgeBagger).answer ⟨0x00, 0⟩))) ∧
    (u = 7 → s.mill.presentUnit 7 = true → s.mill.pack.loadout.state = .idle → exec .start s = .next (s.leaves
      (((s.mill.updLoadout (fun l => { l with state := .waitTruck })).judgeLoadout).answer ⟨0x00, 0⟩)))

/-- STOP by unit: a working line's work ends IDLE, answered 0; an IDLE unit is answered 1, a grinder's auto-start
request cleared and its setting read; a TRIPPED line answers WRONG_STATE; the bagger stops, and the loadout stops at
once or after the fill in progress. A line's work ends with its adjust timer idle and its top state false, a grind job's
with the refill setting read afresh, the pellet line's with its current order dropped and its draw claim ended, a
bagger's with its draw claim ended; a claim that ends has the head lot checked at once; a FEEDING fill is cut off: the
spout closed, the settle timer started. Whether a drop of no current order posts that field is the model's choice (log
56), and so is that the Order Book alone judges the dropped order's material (log 60). -/
def Obligations.StopTaken : Prop :=
  (∀ (s : State) (u : Nat) (arg : BitVec 24), s.hands ⟨.unit, u⟩ 0x31 arg →
    (u ≤ 2 → exec .stop s = .next (s.leaves (s.mill.answer ⟨0x03, 0xFFFF⟩))) ∧
    (3 ≤ u → u ≤ 7 → s.mill.presentUnit u = false → exec .stop s = .next (s.leaves (s.mill.answer ⟨0x0D, 0⟩))) ∧
    (∀ l, lineOfUnit u = some l → s.mill.presentLine l = true → (s.mill.lineCtl l).state = .tripped →
      exec .stop s = .next (s.leaves (s.mill.answer ⟨0x03, BitVec.ofNat 16 LineState.tripped.code⟩))) ∧
    (∀ g, lineOfUnit u = some (.grinder g) → s.mill.presentLine (.grinder g) = true →
      ((s.mill.lineCtl (.grinder g)).state = .idle →
        exec .stop s = .next (s.leaves (((s.mill.clearAutoStart g).readRefill g false).answer ⟨0x00, 1⟩))) ∧
      ((s.mill.lineCtl (.grinder g)).state.works = true →
        exec .stop s = .next (s.leaves (((s.mill.clearAutoStart g).endWork (.grinder g) .idle).answer ⟨0x00, 0⟩)))) ∧
    (u = 5 → s.mill.presentLine .pellet = true →
      ((s.mill.lineCtl .pellet).state = .idle → exec .stop s = .next (s.leaves (s.mill.answer ⟨0x00, 1⟩))) ∧
      ((s.mill.lineCtl .pellet).state.works = true →
        exec .stop s = .next (s.leaves ((s.mill.endWork .pellet .idle).answer ⟨0x00, 0⟩)))) ∧
    (u = 6 → s.mill.presentUnit 6 = true →
      (s.mill.pack.bagger.state = .idle → exec .stop s = .next (s.leaves (s.mill.answer ⟨0x00, 1⟩))) ∧
      (s.mill.pack.bagger.state ≠ .idle →
        exec .stop s = .next (s.leaves ((s.mill.stopBagger .idle).answer ⟨0x00, 0⟩)))) ∧
    (u = 7 → s.mill.presentUnit 7 = true →
      (s.mill.pack.loadout.state = .idle → exec .stop s = .next (s.leaves (s.mill.answer ⟨0x00, 1⟩))) ∧
      (s.mill.pack.loadout.state = .filling → exec .stop s = .next (s.leaves
        (((s.mill.updLoadout (fun l => { l with stopRequest := true })).cutFill).answer ⟨0x00, 0⟩))) ∧
      (s.mill.pack.loadout.state ≠ .idle → s.mill.pack.loadout.state ≠ .filling → exec .stop s = .next (s.leaves
        ((s.mill.updLoadout (fun l => { l with state := .idle, spout := false })).answer ⟨0x00, 0⟩))))) ∧
  (∀ (m : Mill) (g : Grinder) (st : LineState),
    let m1 := (m.updLine (.grinder g) (fun c => { c with state := st, adjust := none, top := false })).updGrinder g
      (fun c => { c with starved := false, blocked := false })
    ((m.lineCtl (.grinder g)).state.works = true → m.endWork (.grinder g) st = m1.readRefill g false) ∧
    ((m.lineCtl (.grinder g)).state.works = false → m.endWork (.grinder g) st = m1) ∧
    m.endWork .pellet st = (m.updLine .pellet (fun c => { c with state := st, adjust := none, top := false })).dropCurrent) ∧
  (∀ m : Mill,
    let m1 := (m.updPellet (fun c => { c with current := none, drain := none, drainWaits := false })).endClaim .pellet
    (m.lines.pellet.current = none → m.dropCurrent = m1) ∧
    (∀ o, m.lines.pellet.current = some o → m.dropCurrent = (m1.tell (.judgeExhausted o)).tell .pelletGone)) ∧
  (∀ (m : Mill) (g : Surge),
    (m.surgeBin g = none → m.endClaim g = m) ∧
    (∀ i, m.surgeBin g = some i → (getAt m.stock.bins i).claim = false → m.endClaim g = m) ∧
    (∀ i, m.surgeBin g = some i → (getAt m.stock.bins i).claim = true →
      m.endClaim g = (m.updBin i (fun b => { b with claim := false })).checkHead g)) ∧
  (∀ (m : Mill) (st : BaggerState),
    let m1 := m.updBagger (fun b => { b with state := st, order := none, bagMass := 0 })
    (m.pack.bagger.state = .bagging → m.stopBagger st = m1.endClaim .bag) ∧
    (m.pack.bagger.state ≠ .bagging → m.stopBagger st = m1)) ∧
  (∀ m : Mill, (m.pack.loadout.fill = none → m.cutFill = m) ∧
    (∀ f, m.pack.loadout.fill = some f → f.settling = true → m.cutFill = m) ∧
    (∀ f, m.pack.loadout.fill = some f → f.settling = false → m.cutFill = m.updLoadout (fun l =>
      { l with spout := false, settle := some m.plan.settleTime, fill := some { f with settling := true } })))

/-- CLEAR_TRIP: judged for presence, TRIPPED, and every trip channel fresh, good and not above its limit, in that order;
when every channel passes the line is IDLE with trip cause NONE, its trip output inactive and its above counts 0, the
answer is OK with detail 0, the pellet line tells that it has left TRIPPED, and a grinder then reads its refill setting
and starts at once if its auto-start request is set and the checks of a start pass. -/
def Obligations.ClearTripTaken : Prop :=
  (∀ (s : State) (u : Nat) (arg : BitVec 24), s.hands ⟨.unit, u⟩ 0x32 arg →
    (u ≤ 2 → exec .clearTrip s = .next (s.leaves (s.mill.answer ⟨0x03, 0xFFFF⟩))) ∧
    (3 ≤ u → u ≤ 7 → s.mill.presentUnit u = false → exec .clearTrip s = .next (s.leaves (s.mill.answer ⟨0x0D, 0⟩))) ∧
    (u = 6 ∨ u = 7 → s.mill.presentUnit u = true → exec .clearTrip s = .next (s.leaves (s.mill.answer ⟨0x03, 0xFFFF⟩))) ∧
    (∀ l, lineOfUnit u = some l → s.mill.presentLine l = true →
      ((s.mill.lineCtl l).state ≠ .tripped →
        exec .clearTrip s = .next (s.leaves (s.mill.answer ⟨0x03, BitVec.ofNat 16 (s.mill.lineCtl l).state.code⟩))) ∧
      (∀ ch, (s.mill.lineCtl l).state = .tripped → s.mill.firstFailing l s.mill.chanClear = some ch →
        exec .clearTrip s = .next (s.leaves (s.mill.answer ⟨0x0C, BitVec.ofNat 16 (chanRole ch).val⟩))) ∧
      ((s.mill.lineCtl l).state = .tripped → s.mill.firstFailing l s.mill.chanClear = none →
        exec .clearTrip s = .next (s.leaves (s.mill.untrip l))))) ∧
  (∀ m : Mill, m.untrip .pellet = Mill.tell (((m.updLine .pellet (fun c =>
      { c with state := .idle, cause := .none, tripOut := false })).clearAbove .pellet).answer ⟨0x00, 0⟩) .pelletLeftTrip ∧
    ((m.untrip .pellet).lineCtl .pellet).state = .idle ∧
    ((m.untrip .pellet).lineCtl .pellet).cause = .none ∧ ((m.untrip .pellet).lineCtl .pellet).tripOut = false ∧
    ((m.untrip .pellet).lineCtl .pellet).ceiling = (m.lineCtl .pellet).ceiling ∧
    ∀ ch ∈ lineChannels .pellet, ((m.untrip .pellet).chan ch).above = 0) ∧
  (∀ (m : Mill) (g : Grinder),
    let c := (m.untrip (.grinder g)).lineCtl (.grinder g)
    let m1 := (((m.updLine (.grinder g) (fun c => { c with state := .idle, cause := .none, tripOut := false })).clearAbove
      (.grinder g)).answer ⟨0x00, 0⟩).readRefill g false
    m.untrip (.grinder g) = m1.tryAutoStart g ∧ (m1.lineCtl (.grinder g)).state = .idle ∧
    c.cause = .none ∧ c.tripOut = false ∧ c.load.above = 0 ∧
    ((m.grinderCtl g).autoStart = false → c.state = .idle ∧ c.ceiling = (m.lineCtl (.grinder g)).ceiling)) ∧
  (∀ (m : Mill) (ch : TripChannel) (c : TripChan), m.chanClear ch c = true ↔
    c.fresh ≠ none ∧ ∃ x, c.latest = some x ∧ x.quality = 0 ∧ x.raw.toInt ≤ m.tripLimit ch)

/-- REFILL_SETTING_READ: the setting is taken from the oldest read returned for the grinder; for the START in execution
the first failing check is answered, or the job begins with OK; otherwise a set auto-start request is tried. The checks
of a start, in their order: the line IDLE, the raw bin a RAW bin, the ground bin a GROUND bin, the load channel fresh,
the ground bin below its high mark, the raw bin's available mass above the stop margin. A running job is STARVED at the
stop margin, and BLOCKED below the block margin of room, until twice the margin; it runs at its ceiling. At a report of
a bin's level and available mass a job whose ground bin is at its high mark ends IDLE; else both conditions are judged,
the reported bin's on the figures reported and the other's on the book (log 10); a ground bin that falls below its low
mark sets the auto-start request of an auto-refill setting, one at or above it clears it, and a set request is tried. A
setting that comes while a job runs changes its bins (log 44). -/
def Obligations.RefillSettingTaken : Prop :=
  (∀ (s : State) (g : Grinder) (forStart : Bool) (w : Word) (rest : List (ReadTag × Word)), s.free .lineSupervisor →
    s.mill.returned = (.refill g forStart, w) :: rest →
    let m := Mill.takeRefill { s.mill with returned := rest } g w
    (forStart = true → s.mill.actions.inExec = .startRefill g →
      (∀ a, m.grindChecks g (refillOf w) = some a → exec (.refillSettingRead g) s = .next (s.leaves (m.answer a))) ∧
      (m.grindChecks g (refillOf w) = none →
        exec (.refillSettingRead g) s = .next (s.leaves ((m.beginJob g (refillOf w)).answer ⟨0x00, 0⟩)))) ∧
    (forStart = false → exec (.refillSettingRead g) s = .next (s.leaves (m.tryAutoStart g))) ∧
    (m.grinderCtl g).refill = some ⟨bits w 0 8, bits w 8 8, bits w 16 1 = 1⟩) ∧
  (∀ (m : Mill) (g : Grinder) (r : Refill), let c := (m.grinderCtl g).line
    (c.state ≠ .idle → m.grindChecks g r = some ⟨0x03, BitVec.ofNat 16 c.state.code⟩) ∧
    (c.state = .idle →
      (m.binIfKind r.raw .raw = none → m.grindChecks g r = some ⟨0x04, 1⟩) ∧
      (∀ x, m.binIfKind r.raw .raw = some x → m.binIfKind r.ground .ground = none →
        m.grindChecks g r = some ⟨0x04, 2⟩) ∧
      (∀ x y, m.binIfKind r.raw .raw = some x → m.binIfKind r.ground .ground = some y →
        (c.load.fresh = none →
          m.grindChecks g r = some ⟨0x0C, BitVec.ofNat 16 (match g with | .a => 3 | .b => 5)⟩) ∧
        (c.load.fresh ≠ none → y.plan.high ≤ y.level → m.grindChecks g r = some ⟨0x03, 0x200⟩) ∧
        (c.load.fresh ≠ none → y.level < y.plan.high → x.available ≤ m.plan.stopMargin →
          m.grindChecks g r = some ⟨0x03, 0x300⟩) ∧
        (c.load.fresh ≠ none → y.level < y.plan.high → m.plan.stopMargin < x.available →
          m.grindChecks g r = none)))) ∧
  (∀ (m : Mill) (i : Nat) (k : BinKind) (x : Bin),
    m.binIfKind i k = some x ↔ ∃ b : Fin 48, b.val = i ∧ x = getAt m.stock.bins b ∧ x.plan.kind = k) ∧
  (∀ (m : Mill) (g : Grinder) (r : Refill),
    m.beginJob g r = (m.updGrinder g (fun c =>
      { c with
        line := { c.line with ceiling := m.plan.ceilingMax (.grinder g) }
        total := none
        autoStart := false
        starved := false
        blocked := false })).judgeGrind g r ∧
    (∀ x, (m.grinderCtl g).refill = some x →
      ((m.grinderCtl g).autoStart = true → (m.lineCtl (.grinder g)).state = .idle → m.grindChecks g x = none →
        m.tryAutoStart g = m.beginJob g x) ∧
      ((m.grinderCtl g).autoStart = false ∨ (m.lineCtl (.grinder g)).state ≠ .idle ∨ m.grindChecks g x ≠ none →
        m.tryAutoStart g = m)) ∧
    ((m.grinderCtl g).refill = none → m.tryAutoStart g = m)) ∧
  (∀ (m : Mill) (g : Grinder) (r : Refill) (raw ground : Fin 48), r.raw = raw.val → r.ground = ground.val →
    let c := m.grinderCtl g
    let t := (m.judgeGrind g r).grinderCtl g
    let avail := (getAt m.stock.bins raw).available
    let room := (getAt m.stock.bins ground).room
    (t.starved = true ↔ avail ≤ m.plan.stopMargin ∨ (c.starved = true ∧ avail < 2 * m.plan.stopMargin)) ∧
    (t.blocked = true ↔ room < m.plan.blockMargin ∨ (c.blocked = true ∧ room < 2 * m.plan.blockMargin)) ∧
    (t.starved = true → t.line.state = .starved) ∧
    (t.starved = false → t.blocked = true → t.line.state = .blocked) ∧
    (t.starved = false → t.blocked = false → t.line.state = .running ∧ t.line.rate = c.line.ceiling) ∧
    (t.line.state ≠ .running → t.line.rate = 0)) ∧
  (∀ (m : Mill) (g : Grinder) (b : Fin 48) (old new available : Nat), let c := m.grinderCtl g
    m.binReport b old new available = (m.grinderReport .a b old new available).grinderReport .b b old new available ∧
    (c.refill = none → m.grinderReport g b old new available = m) ∧
    (∀ r, c.refill = some r → r.raw ≠ b.val → r.ground ≠ b.val → m.grinderReport g b old new available = m) ∧
    (∀ r, c.refill = some r → r.raw = b.val ∨ r.ground = b.val →
      let plan := (getAt m.stock.bins b).plan
      let runs := c.line.state = .running ∨ c.line.state = .starved ∨ c.line.state = .blocked
      let m1 := if runs then
          if r.ground = b.val ∧ plan.high ≤ new then m.endWork (.grinder g) .idle else m.reportGrind g r b new available
        else m
      (r.ground = b.val → old ≠ new → r.auto = true → m.grinderReport g b old new available =
        (m1.updGrinder g (fun c =>
          { c with autoStart := decide (new < plan.low ∧ (c.autoStart = true ∨ plan.low ≤ old)) })).tryAutoStart g) ∧
      (r.ground ≠ b.val ∨ old = new ∨ r.auto = false →
        m.grinderReport g b old new available = m1.tryAutoStart g))) ∧
  (∀ (m : Mill) (g : Grinder) (r : Refill) (b : Fin 48) (level available : Nat),
    let c := m.grinderCtl g
    let t := (m.reportGrind g r b level available).grinderCtl g
    (∀ raw : Fin 48, r.raw = raw.val →
      let avail := if raw = b then available else (getAt m.stock.bins raw).available
      (t.starved = true ↔ avail ≤ m.plan.stopMargin ∨ (c.starved = true ∧ avail < 2 * m.plan.stopMargin))) ∧
    (48 ≤ r.raw → t.starved = c.starved) ∧
    (∀ ground : Fin 48, r.ground = ground.val →
      let x := getAt m.stock.bins ground
      let room := x.plan.capacity - (if ground = b then level else x.level)
      (t.blocked = true ↔ room < m.plan.blockMargin ∨ (c.blocked = true ∧ room < 2 * m.plan.blockMargin))) ∧
    (48 ≤ r.ground → t.blocked = c.blocked) ∧
    (t.starved = true → t.line.state = .starved) ∧
    (t.starved = false → t.blocked = true → t.line.state = .blocked) ∧
    (t.starved = false → t.blocked = false → t.line.state = .running ∧ t.line.rate = c.line.ceiling) ∧
    (t.line.state ≠ .running → t.line.rate = 0))

/-- ARRIVE of an OPEN trip makes it ARRIVED at once, its read still to be posted, and stays in execution; from another
state it answers WRONG_STATE. ARRIVE_READ_RETURN replaces the compartment copy; a failing check answers TRUCK_BAD with
the trip OPEN again, a passing one joins the arrival queue with the compartment count and the spout is judged; orders
that the new copy no longer names are reported. The read is posted once no processor write to the record is in progress,
granted beats included (a beat refused whole does not count, the model's choice, log 61). -/
def Obligations.ArriveTaken : Prop :=
  (∀ (s : State) (t : Fin 8) (arg : BitVec 24), s.hands ⟨.truck, t⟩ 0x40 arg →
    ((s.mill.trip t).state = .opened →
      exec .arrive s = .next (s.leaves (s.mill.arrive t)) ∧ ((s.mill.arrive t).trip t).state = .arrived ∧
        (s.mill.arrive t).trips.arriving = some (t, false) ∧ (s.mill.arrive t).actions.inExec = .arriveRead ∧
        (s.mill.arrive t).trips.queue = s.mill.trips.queue) ∧
    ((s.mill.trip t).state ≠ .opened →
      exec .arrive s = .next (s.leaves (s.mill.answer ⟨0x03, BitVec.ofNat 16 (s.mill.trip t).state.code⟩)))) ∧
  (∀ (s : State) (t : Fin 8), s.free .tripTable → s.mill.trips.arriving = some (t, true) →
    s.mill.actions.inExec = .arriveRead → (s.mill.readsOf .arrive).length = 7 →
    let ws := s.mill.readsOf .arrive
    let old := (s.mill.trip t).copy
    let new := copyOf (ws.getD 0 0) (ws.drop 1)
    let m1 := (s.mill.takeReads .arrive).updTrip t (fun x => { x with copy := new })
    let m2 := { m1 with trips := { m1.trips with arriving := none } }
    (∀ d, m2.arrivalFault (m2.trip t) = some d → exec .arriveReadReturn s = .next (s.leaves
      (((m2.updTrip t (fun x => { x with state := .opened })).answer ⟨0x0E, BitVec.ofNat 16 d⟩).reportDropped
        (droppedOrders old new)))) ∧
    (m2.arrivalFault (m2.trip t) = none → exec .arriveReadReturn s = .next (s.leaves
      (((Mill.answer { m2 with trips := { m2.trips with queue := m2.trips.queue ++ [t] } }
        ⟨0x00, BitVec.ofNat 16 new.length⟩).judgeArbiter).reportDropped (droppedOrders old new))))) ∧
  (∀ (s : State) (t : Fin 8), s.mill.trips.arriving = some (t, false) →
    let busy := s.writes (fun p => p.isIn .truck t)
    (busy = true → s.postArrive = s) ∧
    (busy = false → s.postArrive = { s with mill := { s.mill with
      outbox := s.mill.outbox ++ [2, 4, 5, 6, 7, 8, 9].map (fun w =>
        ⟨.tripTable, s.mill.recordAddr .truck t w, .read .arrive⟩)
      trips := { s.mill.trips with arriving := some (t, true) } } })) ∧
  (∀ (s : State) (bs : List TxBeat) (hs : List Handoff) (p : TxPhase) (q : Place → Bool), s.tx = some (.write bs hs p) →
    (s.writes q = true ↔ (∃ b ∈ bs, q (s.place b.addr) = true) ∨ ∃ a ∈ p.landed, q (s.place a) = true)) ∧
  (∀ (m : Mill) (x : Trip),
    (x.copy = [] → m.arrivalFault x = some 0xFF) ∧
    (m.arrivalFault x = none ↔ x.copy ≠ [] ∧ (∀ k ∈ x.copy, 0 < k.target ∧ (m.order k.order).state.active = true ∧
      (m.order k.order).pack = some .bulk ∧
      m.spoken k.order + (m.order k.order).loaded ≤ (m.order k.order).planned + m.plan.bulkTolerance)) ∧
    (∀ c, c < 6 → m.arrivalFault x = some c → ∃ k, x.copy[c]? = some k ∧ (k.target = 0 ∨
      (m.order k.order).state.active = false ∨ (m.order k.order).pack ≠ some .bulk)))

/-- FINISH makes a LOADING trip LOADED, stops its timer, tells the loadout, answers the number of unfilled compartments
and has the spout judged; from another state it answers WRONG_STATE. TRIP_LIMIT_EXPIRY makes it LOADED with the limit
mark and raises TRUCK_LIMIT. A fill is booked into its compartment; a LOADING trip with every compartment filled becomes
LOADED without the mark. The spout goes to the first trip of the queue while none is LOADING, its limit timer started;
one already filled becomes LOADED at once, without the mark, and the next is taken. The answer of FINISH is posted
before what the spout arbiter posts (the model's choice, log 49). -/
def Obligations.LoadingEnded : Prop :=
  (∀ (s : State) (t : Fin 8) (arg : BitVec 24), s.hands ⟨.truck, t⟩ 0x41 arg →
    ((s.mill.trip t).state = .loading → exec .finish s = .next (s.leaves
      (((s.mill.endLoading t false).answer
        ⟨0x00, BitVec.ofNat 16 ((s.mill.trip t).unfilled s.mill.plan.bulkTolerance).length⟩).judgeArbiter))) ∧
    ((s.mill.trip t).state ≠ .loading →
      exec .finish s = .next (s.leaves (s.mill.answer ⟨0x03, BitVec.ofNat 16 (s.mill.trip t).state.code⟩)))) ∧
  (∀ (s : State) (t : Fin 8), s.free .tripTable → s.mill.loadingTrip = some t → s.mill.trips.limit = some 0 →
    exec .tripLimitExpiry s = .next (s.leaves (((s.mill.endLoading t true).raise .truckLimit).judgeArbiter))) ∧
  (∀ (m : Mill) (t : Fin 8) (mark : Bool), ((m.endLoading t mark).trip t).state = .loaded ∧
    ((m.endLoading t mark).trip t).limitMark = mark ∧
    ((m.endLoading t mark).trip t).loaded = (m.trip t).loaded ∧ (m.endLoading t mark).trips.limit = none ∧
    (∀ u, u ≠ t → (m.endLoading t mark).trip u = m.trip u) ∧
    (m.endLoading t mark).notices = m.notices ++ [.tripLeft]) ∧
  (∀ (m : Mill) (t : Fin 8) (c : Fin 6) (mass : Nat),
    let m1 := m.updTrip t (fun x => { x with loaded := putAt x.loaded c (min (2 ^ 24 - 1) (getAt x.loaded c + mass)) })
    ((m.trip t).state = .loading → (m1.trip t).unfilled m.plan.bulkTolerance = [] →
      m.bookTrip t c mass = (m1.endLoading t false).judgeArbiter) ∧
    ((m.trip t).state ≠ .loading ∨ (m1.trip t).unfilled m.plan.bulkTolerance ≠ [] → m.bookTrip t c mass = m1)) ∧
  (∀ (m : Mill), (∀ t, m.loadingTrip = some t → m.judgeArbiter = m) ∧
    (m.trips.queue = [] → m.judgeArbiter = m) ∧
    (∀ t ts, m.loadingTrip = none → m.trips.queue = t :: ts →
      let m1 := m.updTrip t (fun x => { x with state := .loading })
      let m2 := Mill.tell { m1 with trips := { m1.trips with
        queue := ts
        limit := some (1000 * (m.plan.loadBase + ((m.trip t).copy.length + 1) * m.plan.loadComp)) } } .tripLoading
      ((m.trip t).unfilled m.plan.bulkTolerance ≠ [] → m.judgeArbiter = m2) ∧
      ((m.trip t).unfilled m.plan.bulkTolerance = [] → m.judgeArbiter = (m2.endLoading t false).arbitrate ts))) ∧
  (∀ (m : Mill) (t : Fin 8) (ts : List (Fin 8)),
    let m1 := m.updTrip t (fun x => { x with state := .loading })
    let m2 := Mill.tell { m1 with trips := { m1.trips with
      queue := ts
      limit := some (1000 * (m.plan.loadBase + ((m.trip t).copy.length + 1) * m.plan.loadComp)) } } .tripLoading
    m.arbitrate [] = { m with trips := { m.trips with queue := [] } } ∧
    ((m.trip t).unfilled m.plan.bulkTolerance ≠ [] → m.arbitrate (t :: ts) = m2) ∧
    ((m.trip t).unfilled m.plan.bulkTolerance = [] →
      m.arbitrate (t :: ts) = (m2.endLoading t false).arbitrate ts)) ∧
  (∀ (x : Trip) (tol c : Nat), c ∈ x.unfilled tol ↔
    ∃ k, x.copy[c]? = some k ∧ tol < k.target - x.loaded.toList.getD c 0)

/-- WITHDRAW and DEPART by the trip's state at execution, with their answers: an ARRIVED trip leaves the arrival queue and
is OPEN with copy and loaded masses standing; a DEPARTED one is OPEN with loaded masses 0, no limit mark and no
compartments, names no order and can be written again; a LOADED one with no fill in progress for it is DEPARTED and its
orders are reported; the others answer WRONG_STATE. -/
def Obligations.WithdrawAndDepart : Prop :=
  ∀ (s : State) (t : Fin 8) (arg : BitVec 24),
    let x := s.mill.trip t
    (s.hands ⟨.truck, t⟩ 0x43 arg →
      (x.state = .arrived → exec .withdraw s = .next (s.leaves
        (let m1 := s.mill.updTrip t (fun y => { y with state := .opened })
         Mill.answer { m1 with trips := { m1.trips with queue := m1.trips.queue.filter (· ≠ t) } } ⟨0x00, 0⟩))) ∧
      (x.state = .departed → exec .withdraw s = .next (s.leaves
        ((s.mill.updTrip t (fun _ => ⟨.opened, Vector.replicate 6 0, false, []⟩)).answer ⟨0x00, 1⟩)) ∧
        (∀ o, Trip.names ⟨.opened, Vector.replicate 6 0, false, []⟩ o = false)) ∧
      (x.state = .opened ∨ x.state = .loading ∨ x.state = .loaded →
        exec .withdraw s = .next (s.leaves (s.mill.answer ⟨0x03, BitVec.ofNat 16 x.state.code⟩)))) ∧
    (s.hands ⟨.truck, t⟩ 0x42 arg →
      (x.state = .loaded → (∀ f, s.mill.pack.loadout.fill = some f → f.truck ≠ t) →
        exec .depart s = .next (s.leaves
          (((s.mill.updTrip t (fun y => { y with state := .departed })).reportDropped (droppedOrders x.copy [])).answer
            ⟨0x00, 0⟩))) ∧
      (∀ f, x.state = .loaded → s.mill.pack.loadout.fill = some f → f.truck = t →
        exec .depart s = .next (s.leaves (s.mill.answer ⟨0x03, 0x100⟩))) ∧
      (x.state ≠ .loaded →
        exec .depart s = .next (s.leaves (s.mill.answer ⟨0x03, BitVec.ofNat 16 x.state.code⟩)))) ∧
    (x.state = .opened → s.mill.inUse .truck t = false) ∧ (x.state ≠ .opened → s.mill.inUse .truck t = true)

/-! ### Admission -/

/-- ADMISSION_PASS: while a pass runs, so many of its steps are taken (the steps are the model's cut of a pass, log 13);
a step with the queue full, or past the end of the release list, ends the pass, which begins again when another was
asked for (a pass whose batch has just filled the queue ends at its next step, log 42); a held order is passed over, and
so is one with no next batch; another's next batch is sized and its line masses given. A sized batch is judged against
the tail of the sequence: FORBID makes the order wait; a wait reason is set, with SHORT its short bin, on an order on
the release list that is not held (log 14), and each setting posts the order's word and reports both conditions, also
one that repeats what the order holds; FLUSH puts a flush batch of the rule's mass and chain ahead of it, after which it
is judged again; a clear one is reserved, reported created and admitted at the tail. The verdict: FORBID with a matching
FORBID rule; else the first matching FLUSH rule of the largest mass; else clear; a flush ahead of the batch counts for a
FLUSH verdict. The queue never holds more than 8 batches. -/
def Obligations.AdmissionPassRuns : Prop :=
  (∀ (s : State) (n : Nat), s.free .batchSequencer → s.mill.seq.pass ≠ .idle →
    exec (.admissionPass (n + 1)) s = .next (s.leaves (s.mill.passStep.passSteps n))) ∧
  (∀ (m : Mill) (n : Nat), m.passSteps 0 = m ∧ m.passSteps (n + 1) = m.passStep.passSteps n ∧
    (m.seq.pass = .idle → m.passStep = m)) ∧
  (∀ (m : Mill) (pos : Nat) (o : Fin 256), m.seq.pass = .visiting pos → m.seq.queue.length < 8 →
    m.book.releaseList[pos]? = some o → (m.order o).wait ≠ .held →
    let on : Mill := { m with seq := { m.seq with pass := .visiting (pos + 1) } }
    ((m.order o).entry = none → m.passStep = on) ∧
    (∀ e, (m.order o).entry = some e →
      (nextSize (m.order o).remaining e.batchSize e.floor m.plan.batchMin = none → m.passStep = on) ∧
      (∀ c size, e.chain = some c → nextSize (m.order o).remaining e.batchSize e.floor m.plan.batchMin = some size →
        m.passStep = { m with seq := { m.seq with pass := .sized pos ⟨o, size, lineMasses c size⟩ } }))) ∧
  (∀ (m : Mill) (pos : Nat), m.seq.pass = .visiting pos →
    (8 ≤ m.seq.queue.length ∨ m.book.releaseList.length ≤ pos → m.passStep = { m with
      seq := { m.seq with pass := if m.seq.again then .visiting 0 else .idle, again := false } }) ∧
    (∀ o, m.seq.queue.length < 8 → m.book.releaseList[pos]? = some o → (m.order o).wait = .held →
      m.passStep = { m with seq := { m.seq with pass := .visiting (pos + 1) } })) ∧
  (∀ (m : Mill) (pos : Nat) (x : Sized), m.seq.pass = .sized pos x →
    (8 ≤ m.seq.queue.length → m.passStep = m.endPass) ∧
    (m.seq.queue.length < 8 →
      (m.judgeCandidate (m.order x.order).classMask = .forbid →
        m.passStep = (m.setWait x.order .forbid none).nextOrder pos x.order) ∧
      (∀ n, m.judgeCandidate (m.order x.order).classMask = .flush n → m.passStep = m.insertFlush pos x n) ∧
      (m.judgeCandidate (m.order x.order).classMask = .clear → m.passStep = m.admitOrder pos x))) ∧
  (∀ (m : Mill) (o : Fin 256) (r : WaitReason) (short : Option (Fin 48)),
    let x : Order := { m.order o with wait := r, shortBin := (short.map (·.val)).getD (m.order o).shortBin }
    let n : Mill := { m with book := { m.book with orders := putAt m.book.orders o x } }
    (o ∈ m.book.releaseList → (m.order o).wait ≠ .held → m.setWait o r short = { n with
      outbox := m.outbox ++ [⟨.orderBook, m.recordAddr .order o 7, .write (m.deviceMask .order o 7) (x.word 7) .none⟩]
      reports := m.reports ++ [.condition .short (n.holds .short), .condition .forbid (n.holds .forbid)] }) ∧
    (o ∉ m.book.releaseList ∨ (m.order o).wait = .held → m.setWait o r short = m)) ∧
  (∀ (m : Mill) (pos : Nat) (x : Sized),
    (m.allocate = none → m.admitOrder pos x = m.endPass) ∧
    (∀ b, m.allocate = some b →
      let r := m.orderBatch x
      (∀ short, m.reserve b (reserveLines r.chain x.masses) = .inr short →
        m.admitOrder pos x = (m.setWait x.order .short (some short)).nextOrder pos x.order) ∧
      (∀ m1, m.reserve b (reserveLines r.chain x.masses) = .inl m1 →
        (m1.created x.order x.size = none → m.admitOrder pos x = (m1.releaseBatch b).nextOrder pos x.order) ∧
        (∀ m2, m1.created x.order x.size = some m2 → m.admitOrder pos x = (m2.admitBatch b r).stayAt pos)))) ∧
  (∀ (m : Mill) (pos n : Nat) (x : Sized) (c : Chain), m.plan.flushChains.getD n none = some c →
    (m.allocate = none → m.insertFlush pos x n = m.endPass) ∧
    (∀ b, m.allocate = some b →
      let r := m.flushBatch c (m.plan.ruleMass n)
      (∀ short, m.reserve b (reserveLines c r.masses) = .inr short →
        m.insertFlush pos x n = (m.setWait x.order .short (some short)).nextOrder pos x.order) ∧
      (∀ m1, m.reserve b (reserveLines c r.masses) = .inl m1 →
        let m2 := (m1.admitBatch b r).raiseUse c.slots
        (8 ≤ m2.seq.queue.length → m.insertFlush pos x n = m2.endPass) ∧
        (m2.seq.queue.length < 8 →
          (m2.judgeCandidate (m2.order x.order).classMask = .forbid →
            m.insertFlush pos x n = (m2.setWait x.order .forbid none).nextOrder pos x.order) ∧
          (m2.judgeCandidate (m2.order x.order).classMask ≠ .forbid → m.insertFlush pos x n = m2.admitOrder pos x))))) ∧
  (∀ (m : Mill) (b : Fin 32) (x : Batch),
    (m.admitBatch b x).seq.queue = m.seq.queue ++ [b] ∧ (m.admitBatch b x).batch b = x ∧
    (∀ c, c ≠ b → (m.admitBatch b x).batch c = m.batch c) ∧
    (m.seq.queue = [] → Notice.considerTake ∈ (m.admitBatch b x).notices) ∧
    (∀ c, m.allocate = some c → (m.batch c).state.final = true ∧ ∀ d, d < c → (m.batch d).state.final = false) ∧
    (m.allocate = none → ∀ d, (m.batch d).state.final = false)) ∧
  (∀ (m : Mill) (mask : BitVec 16), let v := m.plan.judgePair m.tailMask mask
    (v = .forbid → m.judgeCandidate mask = .forbid) ∧ (v = .clear → m.judgeCandidate mask = .clear) ∧
    (∀ n, v = .flush n → (∀ r, m.tail = some r → r.isFlush = false) → m.judgeCandidate mask = .flush n) ∧
    (∀ n r, v = .flush n → m.tail = some r → r.isFlush = true → m.judgeCandidate mask = .clear) ∧
    (∀ q b, m.seq.queue = q ++ [b] → m.tail = some ⟨(m.batch b).mask, (m.batch b).order.isNone⟩) ∧
    (m.seq.queue = [] → m.tail = m.seq.reference) ∧
    (∀ r, m.tail = some r → r.isFlush = false → m.tailMask = r.mask) ∧
    (m.tail = none ∨ (∃ r, m.tail = some r ∧ r.isFlush = true) → m.tailMask = m.plan.initialMask)) ∧
  (∀ (p : PlanCtl) (prev next : BitVec 16),
    let hit (n : Nat) (treatment : Nat) : Prop := n < 32 ∧ p.ruleFrom n &&& prev ≠ 0 ∧ p.ruleTo n &&& next ≠ 0 ∧
      p.ruleTreatment n = treatment
    (p.judgePair prev next = .forbid ↔ ∃ n, hit n 2) ∧
    (p.judgePair prev next = .clear ↔ ∀ n, ¬hit n 1 ∧ ¬hit n 2) ∧
    (∀ n, p.judgePair prev next = .flush n ↔ (∀ k, ¬hit k 2) ∧ hit n 1 ∧ (∀ k, hit k 1 → p.ruleMass k ≤ p.ruleMass n) ∧
      ∀ k, hit k 1 → k < n → p.ruleMass k < p.ruleMass n)) ∧
  (∀ (m : Mill) (o : Fin 256) (target : Nat), let x := m.order o
    (x.state ≠ .released → x.state ≠ .producing → m.created o target = none) ∧
    (x.wait = .held → m.created o target = none) ∧
    (x.state = .released ∨ x.state = .producing → x.wait ≠ .held → ∃ t, m.created o target = some t ∧
      (t.order o).state = .producing ∧ (t.order o).wait = .none ∧ (t.order o).remaining = x.remaining - target ∧
      (t.order o).inFlight = x.inFlight + target ∧ (∀ e, x.entry = some e → (t.order o).nonFinal = e.nonFinal + 1) ∧
      ∀ n : Fin 256, getAt t.book.useCount n = getAt m.book.useCount n + x.slots.count n.val)) ∧
  (∀ (m : Mill) (n : Nat), m.seq.queue.length ≤ 8 → (m.passSteps n).seq.queue.length ≤ 8)

/-- A reserve claim is all or nothing: a short claim changes nothing and names the bin of the first line that is not
covered by its bin's available mass less what the claim's earlier lines take of it; a covered claim, one whose every
line is covered, has an entry for each line and raises each bin's reserved mass by the mass of its lines on it, and
leaves every other block as it was. A forced reserve does the same whatever is available. A release lowers the reserved
mass by what is left unbooked; a draw is booked against the entry. -/
def Obligations.ReserveAllOrNothing : Prop :=
  (∀ (m : Mill) (b : Fin 32) (ls : List ReserveLine),
    let covered (pre : List ReserveLine) (l : ReserveLine) : Prop :=
      l.mass = 0 ∨ massOn pre l.bin + l.mass ≤ (getAt m.stock.bins l.bin).available
    (∀ short, m.reserve b ls = .inr short → ∃ pre l post, ls = pre ++ l :: post ∧ l.bin = short ∧ l.mass ≠ 0 ∧
      (getAt m.stock.bins l.bin).available < massOn pre l.bin + l.mass ∧
      ∀ pre' l' post', pre = pre' ++ l' :: post' → covered pre' l') ∧
    (∀ m', m.reserve b ls = .inl m' → m' = m.makeEntries b ls ∧
      (∀ pre l post, ls = pre ++ l :: post → covered pre l) ∧
      m'.book = m.book ∧
      m'.seq = m.seq ∧ m'.weigh = m.weigh ∧ m'.lines = m.lines ∧ m'.pack = m.pack ∧ m'.trips = m.trips ∧
      m'.plan = m.plan ∧ m'.actions = m.actions) ∧
    (m.makeEntries b ls).stock.table = m.stock.table ++ ls.map (fun l => ⟨b, l.line, l.bin, l.mass⟩) ∧
    (∀ i, (getAt (m.makeEntries b ls).stock.bins i).reserved = (getAt m.stock.bins i).reserved + massOn ls i ∧
      (getAt (m.makeEntries b ls).stock.bins i).level = (getAt m.stock.bins i).level)) ∧
  (∀ (m : Mill) (b : Fin 32) (l : ReserveLine),
    (l.mass ≤ (getAt m.stock.bins l.bin).available → m.reserveLine b l = some (m.makeEntry b l)) ∧
    ((getAt m.stock.bins l.bin).available < l.mass → m.reserveLine b l = none)) ∧
  (∀ (m : Mill) (b : Fin 32) (line : Nat),
    (m.stock.entry b line = none → m.releaseEntry b line = m) ∧
    (∀ e, m.stock.entry b line = some e → let t := m.releaseEntry b line
      t.stock.entry b line = none ∧
      (getAt t.stock.bins e.bin).reserved = (getAt m.stock.bins e.bin).reserved - e.unbooked ∧
      (getAt t.stock.bins e.bin).level = (getAt m.stock.bins e.bin).level ∧
      ∀ i, i ≠ e.bin → getAt t.stock.bins i = getAt m.stock.bins i)) ∧
  (∀ (m : Mill) (b : Fin 32) (line : Nat) (bin : Fin 48),
    m.bookDraw b line bin 0 = m ∧
    (∀ inc : Int, inc < 0 → m.bookDraw b line bin inc = m.raise .stockDisagree) ∧
    (∀ mass : Nat, 0 < mass → let t := m.bookDraw b line bin mass
      let x := getAt m.stock.bins bin
      let cut := min mass (m.stock.unbooked b line)
      (getAt t.stock.bins bin).level = x.level - mass ∧ (getAt t.stock.bins bin).reserved = x.reserved - cut ∧
      t.stock.unbooked b line = m.stock.unbooked b line - cut ∧
      (x.level < mass → Report.event .stockDisagree ∈ t.reports) ∧
      ∀ i, i ≠ bin → getAt t.stock.bins i = getAt m.stock.bins i))

/-- The size of an order's next batch, for R above 0 and the mass rules of a release: by the three cases; it is a multiple
of u between BATCH_MIN and B when R is, and leaves 0 or at least BATCH_MIN; with R 0 there is none. -/
def Obligations.NextBatchSize : Prop :=
  (∀ B m min : Nat, nextSize 0 B m min = none) ∧
  (∀ R B m min : Nat, 0 < R →
    (R ≤ B → nextSize R B m min = some R) ∧
    (B < R → min ≤ R - B → nextSize R B m min = some B) ∧
    (B < R → R - B < min → nextSize R B m min = some (R - m))) ∧
  (∀ R B m min u n : Nat, 0 < u → u ∣ R → u ∣ B → u ∣ m → min ≤ m → min ≤ R → min ≤ B → (B < R → min + m ≤ B) →
    nextSize R B m min = some n → u ∣ n ∧ min ≤ n ∧ n ≤ B ∧ (R - n = 0 ∨ min ≤ R - n))

/-- The line masses of a batch, given with its size in chain line order from the chain summary: size × parts / 10,000
truncated, the remainder added to the first line with the largest parts; where the parts sum to 10,000 they sum exactly
to the size, a line of 0 parts has a mass of 0, and each line has its reservation entry. A flush batch takes its masses
by the same rule, and its admission changes no order. -/
def Obligations.LineMassesSum : Prop :=
  (∀ (c : Chain) (size : Nat),
    let parts := c.lines.map (·.parts)
    let shares := parts.map (fun p => size * p / 10000)
    parts.sum = 10000 →
      (lineMasses c size).length = parts.length ∧ (lineMasses c size).sum = size ∧
      (∀ i, i < parts.length → parts.getD i 0 = 0 → (lineMasses c size).getD i 0 = 0) ∧
      ∃ k, k < parts.length ∧ (∀ i, i < parts.length → parts.getD i 0 ≤ parts.getD k 0) ∧
        (∀ i, i < k → parts.getD i 0 < parts.getD k 0) ∧
        (∀ i, i < parts.length → i ≠ k → (lineMasses c size).getD i 0 = size * parts.getD i 0 / 10000) ∧
        (lineMasses c size).getD k 0 = size * parts.getD k 0 / 10000 + (size - shares.sum)) ∧
  (∀ (m : Mill) (s : Sized), (m.orderBatch s).masses = s.masses ∧ (m.orderBatch s).order = some s.order) ∧
  (∀ (c : Chain) (masses : List Nat), masses.length = c.lines.length →
    (reserveLines c masses).map (·.mass) = masses ∧ (reserveLines c masses).length = c.lines.length) ∧
  (∀ (m : Mill) (c : Chain) (mass : Nat) (b : Fin 32) (o : Fin 256),
    (m.flushBatch c mass).masses = lineMasses c mass ∧ (m.flushBatch c mass).order = none ∧
    (m.admitBatch b (m.flushBatch c mass)).order o = m.order o)

/-! ### Samples and timers -/

/-- SCALE_SAMPLE and MIXER_SAMPLE take the sample waiting: one of nonzero quality is not used; a good one restarts the
freshness timer at the stale time, and at a FEEDING scale a value at or above the cut-off point is the cut-off, one at
or above the stall reference plus the stall delta moves the reference. A sample at a DUMPING scale at or below the empty
threshold makes it IDLE, and the mixer MIXING after the last; at an IDLE or DONE scale it is judged for a leak, against
a reference that is its first good sample after a load (log 33); a scale that has dumped names no batch (log 15); a
mixer that reads empty ends a discharge, or takes a WEIGHED batch, its latest good value counting while it is fresh (log
16); whether a word of the batch record that has not changed is posted again is the model's choice (log 56). -/
def Obligations.WeighSamples : Prop :=
  (∀ (s : State) (x : Sample), s.samples .weighMix x → x.role = 0 ∨ x.role = 1 →
    exec .scaleSample s = .next (s.takesTo .weighMix (s.mill.scaleSample (if x.role = 0 then .one else .two) x))) ∧
  (∀ (s : State) (x : Sample), s.samples .weighMix x → x.role = 2 →
    exec .mixerSample s = .next (s.takesTo .weighMix (s.mill.mixerSample x))) ∧
  (∀ (m : Mill) (sc : Scale) (x : Sample), x.quality ≠ 0 → m.scaleSample sc x = m ∧ m.mixerSample x = m) ∧
  (∀ (m : Mill) (sc : Scale) (x : Sample) (b : Fin 32), x.quality = 0 → (m.scale sc).state = .feeding →
    m.weigh.batch = some b →
    let v := x.raw.toInt
    let c := m.scale sc
    let t := (m.scaleSample sc x).scale sc
    let preact := (getAt m.stock.bins ((m.batch b).chainLine c.current).bin).preact
    t.channel = ⟨some v, some m.plan.staleTime⟩ ∧
      (c.base + (c.target : Int) - (preact : Int) ≤ v →
        t.state = .settling ∧ t.ended = .cutOff ∧ t.stall = none ∧ t.settle = some m.plan.settleTime) ∧
      (v < c.base + (c.target : Int) - (preact : Int) → c.stallRef + (m.plan.stallDelta : Int) ≤ v →
        t.state = .feeding ∧ t.stallRef = v ∧ t.stall = some (1000 * m.plan.stallWindow)) ∧
      (v < c.base + (c.target : Int) - (preact : Int) → v < c.stallRef + (m.plan.stallDelta : Int) →
        t.state = .feeding ∧ t.stallRef = c.stallRef ∧ t.stall = c.stall)) ∧
  (∀ (m : Mill) (sc : Scale) (x : Sample), x.quality = 0 → let v := x.raw.toInt
    let m1 := m.updScale sc (fun c => { c with
      channel := ⟨some v, some m.plan.staleTime⟩, leakRef := some (c.leakRef.getD v) })
    ((m.scale sc).state = .dumping → m.scaleSample sc x = m1.dumpSample sc v) ∧
    ((m.scale sc).state = .idle ∨ (m.scale sc).state = .done → m.scaleSample sc x = m1.leakSample sc v) ∧
    ((m.scale sc).state = .settling ∨ (m.scale sc).state = .attention → m.scaleSample sc x = m1)) ∧
  (∀ (m : Mill) (sc : Scale) (v r : Int), (m.scale sc).leakRef = some r →
    (v ≤ r + (m.plan.leakDelta : Int) → m.leakSample sc v = m) ∧
    (r + (m.plan.leakDelta : Int) < v →
      (∀ b, (m.scale sc).state = .done → m.weigh.batch = some b →
        m.leakSample sc v = (m.raise .unexpectedFlow).updBatch .weighMix b (fun y => { y with leak := true })) ∧
      ((m.scale sc).state = .idle → m.leakSample sc v = m.raise .unexpectedFlow))) ∧
  (∀ (m : Mill) (sc : Scale) (v : Int),
    ((m.plan.emptyThreshold : Int) < v → m.dumpSample sc v = m) ∧
    (v ≤ (m.plan.emptyThreshold : Int) →
      let m1 := m.updScale sc (fun c => { c with state := .idle, batch := none, leakRef := some v })
      ((∃ d ∈ m1.scales, (m1.scale d).state = .dumping) → m.dumpSample sc v = m1.considerTake) ∧
      (∀ b, (∀ d ∈ m1.scales, (m1.scale d).state ≠ .dumping) → m.weigh.mixer.batch = some b →
        m.dumpSample sc v = ((m1.updMixer (fun c => { c with
          state := .mixing, mix := some (1000 * (m.batch b).chain.mixTime) })).updBatch .weighMix b
          (fun y => { y with state := .mixing })).considerTake))) ∧
  (∀ (m : Mill) (x : Sample), x.quality = 0 →
    let m1 := m.updMixer (fun c => { c with channel := ⟨some x.raw.toInt, some m.plan.staleTime⟩ })
    (∀ b, m.weigh.mixer.state = .discharging → m.weigh.mixer.batch = some b →
      (x.raw.toInt ≤ (m.plan.emptyThreshold : Int) → m.mixerSample x = m1.endDischarge b) ∧
      ((m.plan.emptyThreshold : Int) < x.raw.toInt → m.mixerSample x = m1)) ∧
    (m.weigh.mixer.state ≠ .discharging → m.mixerSample x = m1.considerDump)) ∧
  (∀ (m : Mill) (b : Fin 32), m.weigh.batch = some b →
    let may := (m.batch b).state = .weighed ∧ m.weigh.mixer.state = .empty ∧ m.mixerEmptied = true
    (¬may → m.considerDump = m) ∧
    (may → let t := m.considerDump
      t.weigh.mixer.state = .filling ∧ t.weigh.mixer.batch = some b ∧ (t.batch b).state = .filling ∧
      t.weigh.batch = none ∧ t.weigh.cancelled = false ∧ ∀ sc ∈ m.scales, (t.scale sc).state = .dumping) ∧
    (m.mixerEmptied = true ↔ m.weigh.mixer.channel.fresh ≠ none ∧
      m.weigh.mixer.channel.latest.getD 0 ≤ (m.plan.emptyThreshold : Int))) ∧
  (∀ (m : Mill) (b : Fin 32), let x := m.batch b
    let m1 := (m.updMixer (fun c => { c with state := .empty, batch := none })).updBatch .weighMix b
      (fun y => { y with state := .done })
    (∀ o, x.disposition = .good → x.order = some o →
      m.endDischarge b = ((m1.completed o x.target).reportFinal x.order x.chain).considerDump) ∧
    (x.disposition = .rework ∨ x.order = none → m.endDischarge b = (m1.reportFinal x.order x.chain).considerDump))

/-- The expiries of the Weigh-and-Mix Controller, each taken when its timer is due: a stale channel or a stall timer
ends a FEEDING phase as a stall, the settle timer settles the phase, the weigh limit cancels weighing and raises
WEIGH_LIMIT unless it is suspended, the mix timer makes the batch MIXED and starts the hold limit, the hold limit sets
HELD. The settle books the increment, adjusts the preact after a first phase cut off, and then checks the line's
tolerance; the scales take the queue head when all are IDLE (SCALE1's first line first, log 43); a discharge starts when
the route bin has room, and a free lot entry, for the batch's total. Whether an unchanged word of the batch record, or
an unchanged preact, is posted again is the model's choice (log 56). -/
def Obligations.WeighTimers : Prop :=
  (∀ (s : State), s.free .weighMix →
    (∀ sc, (s.mill.scale sc).channel.fresh = some 0 →
      let m := s.mill.updScale sc (fun c => { c with channel := { c.channel with fresh := none } })
      ((s.mill.scale sc).state = .feeding → exec (.scaleStale sc) s = .next (s.leaves (m.endPhase sc .stall))) ∧
      ((s.mill.scale sc).state ≠ .feeding → exec (.scaleStale sc) s = .next (s.leaves m))) ∧
    (s.mill.weigh.mixer.channel.fresh = some 0 → exec .mixerStale s = .next (s.leaves
      (s.mill.updMixer (fun c => { c with channel := { c.channel with fresh := none } })))) ∧
    (∀ sc, (s.mill.scale sc).stall = some 0 →
      exec (.stallTimerExpiry sc) s = .next (s.leaves (s.mill.updScale sc (fun c =>
        { c with state := .settling, ended := .stall, stall := none, settle := some s.mill.plan.settleTime })))) ∧
    (∀ sc b, s.mill.weigh.batch = some b → (s.mill.scale sc).settle = some 0 →
      exec (.settleExpiry sc) s = .next (s.leaves (s.mill.settleScale b sc))) ∧
    (∀ b, s.mill.weigh.batch = some b → s.mill.weigh.limit = some 0 → s.mill.weigh.suspended = false →
      exec .weighLimitExpiry s = .next (s.leaves ((s.mill.cancelWeighing b).raise .weighLimit))) ∧
    (∀ b, s.mill.weigh.mixer.batch = some b → s.mill.weigh.mixer.mix = some 0 →
      exec .mixTimerExpiry s = .next (s.leaves
        (((s.mill.updMixer (fun c => { c with state := .mixed, mix := none, hold := some (60000 * s.mill.plan.mixHold) })).updBatch
          .weighMix b (fun x => { x with state := .mixed })).judgeDischarge))) ∧
    (∀ b, s.mill.weigh.mixer.batch = some b → s.mill.weigh.mixer.hold = some 0 →
      exec .holdLimitExpiry s = .next (s.leaves
        ((s.mill.updMixer (fun c => { c with hold := none })).updBatch .weighMix b
          (fun x => { x with attention := ⟨.held, 0, 0, 0, 0⟩ }))))) ∧
  (∀ (m : Mill) (b : Fin 32) (sc : Scale), let c := m.scale sc
    let inc := c.channel.latest.getD 0 - c.base
    let bin := ((m.batch b).chainLine c.current).bin
    let m3 := ((m.bookDraw b c.current bin inc).updBatch .weighMix b
      (fun x => { x with actuals := x.actuals.modify c.current (· + inc.toNat) })).updScale sc
      (fun d => { d with settle := none, leakRef := some (c.channel.latest.getD 0) })
    let actual := (m3.batch b).lineActual c.current
    let fields (n : Mill) : Mill := n.updBatch .weighMix b (fun x => x.setScaleFields sc ⟨c.current, c.phase, actual⟩)
    let m5 := if c.phase = 0 ∧ c.ended = .cutOff then
        fields (m3.adjustPreact bin (((actual : Int) - ((m.batch b).lineTarget c.current : Int)).tdiv 2))
      else fields m3
    (m.weigh.cancelled = true → m.settleScale b sc = (m5.dropLines b sc).judgeWeighed b) ∧
    (m.weigh.cancelled = false → c.ended = .cutOff → m.settleScale b sc = m5.checkTolerance b sc) ∧
    (m.weigh.cancelled = false → c.ended ≠ .cutOff → m.settleScale b sc = m5.enterAttention b sc .stalled)) ∧
  (∀ (m : Mill) (bin : Fin 48) (d : Int), let x := getAt m.stock.bins bin
    (getAt (m.adjustPreact bin d).stock.bins bin).preact = min ((x.preact : Int) + d).toNat x.plan.preactMax) ∧
  (∀ (m : Mill) (b : Fin 32) (sc : Scale), let x := m.batch b
    let l := (m.scale sc).current
    let tol := max (m.plan.toleranceAbs (x.chainLine l).tolerance)
      (m.plan.tolerancePerMille (x.chainLine l).tolerance * x.lineTarget l / 1000)
    (x.lineActual l + tol < x.lineTarget l →
      m.checkTolerance b sc = (m.releaseEntry b l).enterAttention b sc .under) ∧
    (x.lineTarget l + tol < x.lineActual l →
      m.checkTolerance b sc = (m.releaseEntry b l).enterAttention b sc .over) ∧
    (x.lineTarget l ≤ x.lineActual l + tol → x.lineActual l ≤ x.lineTarget l + tol →
      m.checkTolerance b sc = m.finishLine b sc)) ∧
  (∀ (m : Mill) (b : Fin 32) (sc : Scale) (cause : Cause), let t := m.enterAttention b sc cause
    (t.scale sc).state = .attention ∧ (t.scale sc).cause = cause ∧ (t.scale sc).settle = none ∧
    (t.scale sc).stall = none ∧
    ((m.batch b).attention.cause ≠ .none → (t.batch b).attention = (m.batch b).attention) ∧
    ((m.batch b).attention.cause = .none → let l := (m.scale sc).current
      (t.batch b).attention = ⟨cause, scaleNo sc, l, (m.batch b).lineTarget l, (m.batch b).lineActual l⟩)) ∧
  (∀ (m : Mill) (b : Fin 32) (sc : Scale) (target : Nat), let c := m.scale sc
    (c.channel.fresh = none →
      m.startPhase b sc target = (m.updScale sc (fun c => { c with target := target })).enterAttention b sc .stalled) ∧
    (c.channel.fresh ≠ none → let d := (m.startPhase b sc target).scale sc
      d.state = .feeding ∧ d.base = c.channel.latest.getD 0 ∧ d.target = target ∧ d.stallRef = d.base ∧
      d.stall = some (1000 * m.plan.stallWindow) ∧ d.settle = none ∧ d.cause = .none ∧
      d.bin = ((m.batch b).chainLine c.current).bin.val ∧ d.lines = c.lines ∧ d.phase = c.phase)) ∧
  (∀ (m : Mill) (b : Fin 32) (sc : Scale) (l : Nat) (ls : List Nat),
    ((m.batch b).lineTarget l = 0 → m.startLines b sc (l :: ls) = (m.releaseEntry b l).startLines b sc ls) ∧
    ((m.batch b).lineTarget l ≠ 0 → m.startLines b sc (l :: ls) =
      (m.updScale sc (fun c => { c with lines := l :: ls, phase := 0 })).startPhase b sc ((m.batch b).lineTarget l)) ∧
    m.startLines b sc [] = (m.updScale sc (fun c =>
      { c with state := .done, lines := [], settle := none, stall := none, cause := .none })).judgeWeighed b) ∧
  (∀ (m : Mill) (b : Fin 32), let all := ∀ sc ∈ m.scales, (m.scale sc).state = .done
    (¬all ∨ (m.batch b).state ≠ .weighing → m.judgeWeighed b = m) ∧
    (all → (m.batch b).state = .weighing →
      let m1 := m.updBatch .weighMix b (fun x => { x with state := .weighed, total := x.actuals.sum })
      m.judgeWeighed b = Mill.considerDump { m1 with weigh := { m1.weigh with limit := none } })) ∧
  (∀ (m : Mill) (b : Fin 32) (q : List (Fin 32)), m.plan.state = .running → m.seq.queue = b :: q → m.seq.hold = false →
    (∀ sc ∈ m.scales, (m.scale sc).state = .idle) →
    let x := m.batch b
    let m1 := (Mill.restate { m with seq := { m.seq with queue := q, reference := some ⟨x.mask, x.order.isNone⟩ } } 6).askPass
    let m2 := m1.updBatch .weighMix b (fun x => { x with state := .weighing })
    let m3 := { m2 with weigh := { m2.weigh with
      batch := some b, cancelled := false
      limit := some (1000 * (m.plan.weighBase + (x.chain.lines.length + 1) * m.plan.weighLine)) } }
    let m4 := m.scales.foldl (fun m sc => m.updScale sc (fun c =>
      { c with batch := some b, lines := scaleLines x.chain sc, phase := 0, cause := .none })) m3
    m.considerTake = m.scales.foldl (fun m sc => m.startLines b sc (scaleLines x.chain sc)) m4) ∧
  (∀ (m : Mill) (b : Fin 32), m.weigh.mixer.batch = some b → let x := m.batch b
    (m.weigh.mixer.state ≠ .mixed ∨ m.routeTakes x = false → m.judgeDischarge = m) ∧
    (m.weigh.mixer.state = .mixed → m.routeTakes x = true → let t := m.judgeDischarge
      t = ((m.bookDischarge x).updMixer (fun c => { c with state := .discharging, route := x.route, hold := none })).updBatch
        .weighMix b (fun x => { x with
          state := .discharging
          attention := if x.attention.cause = .held then .reset else x.attention }))) ∧
  (∀ (m : Mill) (x : Batch) (i : Fin 48), x.route = i.val → let y := getAt m.stock.bins i
    (∀ g, y.plan.kind.surge = some g → m.bookDischarge x = m.appendLot g x.order x.total ∧
      (m.routeTakes x = true ↔ x.total ≤ y.plan.capacity - y.level ∧ m.needsEntry g x.order = false ∧
        ¬(g = .pellet ∧ (m.lineCtl .pellet).state = .tripped))) ∧
    (y.plan.kind.surge = none → m.bookDischarge x = m.addRework x.total ∧
      (m.routeTakes x = true ↔ x.total ≤ y.plan.capacity - y.level)))

/-- The Line Supervisor's samples are taken by their owner; a totalizer's or the product's sample of nonzero quality
changes nothing; the delta of a count is taken modulo 2^24, and one of half the range or more is a reset. A trip
channel's sample counts as above when it is not good or above the limit, trips the line at the second in a row, and at a
load channel is judged for the top limit and a ceiling step (whether one at the minimum ceiling posts the ceiling is the
model's choice, log 56); a grinder's delta is booked from its raw to its ground bin, or with STOCK_DISAGREE not at all
where they are of other kinds or one is no bin (log 58), the pellet line's feed is drawn from its surge's lots, its
product appended to the destination's, a delta at an IDLE line raising UNEXPECTED_FLOW. A full destination is one with
too little room or with all 8 lot entries taken (log 21); a sample that books no delta counts as a delta of 0 for a
drain (log 24). -/
def Obligations.LineSamples : Prop :=
  (∀ (s : State) (x : Sample), s.samples .lineSupervisor x →
    (∀ ch, tripChannelOf x.role = some ch →
      exec .tripChannelSample s = .next (s.takesTo .lineSupervisor (s.mill.tripSample ch x))) ∧
    (x.role = 4 → exec .grinderTotalSample s = .next (s.takesTo .lineSupervisor (s.mill.grinderTotal .a x))) ∧
    (x.role = 6 → exec .grinderTotalSample s = .next (s.takesTo .lineSupervisor (s.mill.grinderTotal .b x))) ∧
    (x.role = 9 → exec .plFeedSample s = .next (s.takesTo .lineSupervisor (s.mill.pelletFeed x))) ∧
    (x.role = 10 → exec .plProductSample s = .next (s.takesTo .lineSupervisor (s.mill.pelletProduct x)))) ∧
  (∀ (m : Mill) (g : Grinder) (x : Sample), x.quality ≠ 0 →
    m.grinderTotal g x = m ∧ m.pelletFeed x = m ∧ m.pelletProduct x = m) ∧
  (∀ count p : Nat, count < 2 ^ 24 → p < 2 ^ 24 →
    deltaOf none count = .none ∧ deltaOf (some count) count = .none ∧
    (p < count → count - p < 2 ^ 23 → deltaOf (some p) count = .mass (count - p)) ∧
    (p < count → 2 ^ 23 ≤ count - p → deltaOf (some p) count = .reset) ∧
    (count < p → 2 ^ 24 + count - p < 2 ^ 23 → deltaOf (some p) count = .mass (2 ^ 24 + count - p)) ∧
    (count < p → 2 ^ 23 ≤ 2 ^ 24 + count - p → deltaOf (some p) count = .reset)) ∧
  (∀ (m : Mill) (ch : TripChannel) (x : Sample), let l := chanLine ch
    let n := m.aboveAfter ch x
    let m1 := m.updChan ch (fun c => { c with
      latest := some x, fresh := some m.plan.staleTime, above := n
      good := if x.quality = 0 then some x.raw.toInt else c.good })
    let m2 := if 2 ≤ n then m1.tripLine l (chanCause ch) else m1
    let m3 := if isLoad ch = true ∧ x.quality = 0 then m2.judgeTop l x.raw.toInt else m2
    (∀ g, l = .grinder g → m.tripSample ch x = m3.tryAutoStart g) ∧ (l = .pellet → m.tripSample ch x = m3) ∧
    ((m.lineCtl l).state = .tripped → n = 0) ∧
    ((m.lineCtl l).state ≠ .tripped →
      (x.quality ≠ 0 ∨ m.tripLimit ch < x.raw.toInt → n = (m.chan ch).above + 1) ∧
      (x.quality = 0 → x.raw.toInt ≤ m.tripLimit ch → n = 0)) ∧
    (isLoad ch = true → m.tripLimit ch = m.plan.loadTrip l ∧ chanCause ch = .load) ∧
    (isLoad ch = false → m.tripLimit ch = m.plan.tempTrip l ∧ chanCause ch = .temp)) ∧
  (∀ (m : Mill) (l : Line) (v : Int),
    ((m.lineCtl l).state.works = false → m.judgeTop l v = m) ∧
    ((m.lineCtl l).state.works = true →
      let m1 := m.updLine l (fun c => { c with top := decide ((m.plan.loadTop l : Int) < v) })
      ((m.plan.loadTop l : Int) < v → m.plan.adjustOn l = true → (m.lineCtl l).adjust = none →
        m.judgeTop l v = m1.adjustStep l) ∧
      (v ≤ (m.plan.loadTop l : Int) ∨ m.plan.adjustOn l = false ∨ (m.lineCtl l).adjust ≠ none →
        m.judgeTop l v = m1))) ∧
  (∀ (m : Mill) (g : Grinder) (x : Sample), x.quality = 0 → let n := x.raw.toNat
    let c := m.grinderCtl g
    let m1 := m.updGrinder g (fun c => { c with total := some n })
    (deltaOf c.total n = .none → m.grinderTotal g x = m1) ∧
    (deltaOf c.total n = .reset → m.grinderTotal g x = m1.raise .stockDisagree) ∧
    (∀ d, deltaOf c.total n = .mass d →
      let m2 := if c.line.state = .idle then m1.raise .unexpectedFlow else m1
      (c.refill = none → m.grinderTotal g x = m2.raise .stockDisagree) ∧
      (∀ r, c.refill = some r → m.grinderTotal g x = m2.refill r.raw r.ground d))) ∧
  (∀ (m : Mill) (raw ground mass : Nat), 48 ≤ raw ∨ 48 ≤ ground → m.refill raw ground mass = m.raise .stockDisagree) ∧
  (∀ (m : Mill) (raw ground : Fin 48) (mass : Nat),
    let x := getAt m.stock.bins raw
    let y := getAt m.stock.bins ground
    let t := m.refill raw ground mass
    (x.plan.kind ≠ .raw ∨ y.plan.kind ≠ .ground → t = m.raise .stockDisagree) ∧
    (x.plan.kind = .raw → y.plan.kind = .ground →
      (getAt t.stock.bins raw).level = x.level - mass ∧
      (getAt t.stock.bins ground).level = min (y.level + mass) y.plan.capacity ∧
      (x.level < mass ∨ y.plan.capacity < y.level + mass → Report.event .stockDisagree ∈ t.reports) ∧
      (m.plan.state = .running → y.level < min (y.level + mass) y.plan.capacity → t.seq.pass ≠ .idle))) ∧
  (∀ (m : Mill) (x : Sample), x.quality = 0 → let n := x.raw.toNat
    let c := m.lines.pellet
    let m1 := m.updPellet (fun c => { c with feed := some n })
    (deltaOf c.feed n = .none → m.pelletFeed x = m1) ∧
    (deltaOf c.feed n = .reset → m.pelletFeed x = m1.raise .stockDisagree) ∧
    (∀ d b, deltaOf c.feed n = .mass d → m.surgeBin .pellet = some b →
      let m2 := if c.line.state = .idle then m1.raise .unexpectedFlow else m1
      let m3 := (m2.drawLots .pellet d).1
      ((getAt m.stock.bins b).claim = true → (getAt m3.stock.bins b).claim = false →
        m.pelletFeed x = m3.drainIfFeeding) ∧
      ((getAt m.stock.bins b).claim = false ∨ (getAt m3.stock.bins b).claim = true → m.pelletFeed x = m3))) ∧
  (∀ (m : Mill) (x : Sample), x.quality = 0 → let n := x.raw.toNat
    let m1 := m.updPellet (fun c => { c with product := some n, heard := some m.plan.staleTime })
    (deltaOf m.lines.pellet.product n = .none → m.pelletProduct x = m1.drainSample 0) ∧
    (deltaOf m.lines.pellet.product n = .reset → m.pelletProduct x = (m1.raise .stockDisagree).drainSample 0) ∧
    (∀ d, deltaOf m.lines.pellet.product n = .mass d → m.pelletProduct x = (m1.bookProduct d).drainSample d)) ∧
  (∀ (m : Mill) (d : Nat), let c := m.lines.pellet
    let m1 := if c.line.state = .idle then m.raise .unexpectedFlow else m
    (c.productOrder = .none → m.bookProduct d = m1.raise .stockDisagree) ∧
    (∀ g, destOfProduct c.productOrder = some g →
      let m2 := m1.appendLot g (namedOf c.productOrder) d
      let full := m2.surgeRoom g < m.plan.blockMargin ∨ 8 ≤ (m2.lotsOf g).length
      (c.line.state = .running → full →
        m.bookProduct d = m2.updLine .pellet (fun c => { c with state := .blocked })) ∧
      (c.line.state ≠ .running ∨ ¬full → m.bookProduct d = m2)) ∧
    (c.line.state ≠ .draining → m.drainSample d = m) ∧
    (c.line.state = .draining →
      (m.plan.leakDelta < d → m.drainSample d = m.updPellet (fun c =>
        { c with drain := some (1000 * m.plan.drainWindow), drainWaits := false })) ∧
      (d ≤ m.plan.leakDelta → c.drainWaits = true → m.drainSample d = m.dropCurrent.pelletTake) ∧
      (d ≤ m.plan.leakDelta → c.drainWaits = false → m.drainSample d = m)))

/-- The Line Supervisor's expiries, each taken when its timer is due: a stale trip channel trips a working line with
cause STALE and only marks the channel otherwise; the adjust timer steps again while the latest good load is above the
top limit and becomes idle otherwise (whether a step at the minimum ceiling posts the ceiling is the model's choice, log
56); the drain ends if PL_PRODUCT has been heard and waits otherwise. When a line trips its state is TRIPPED with the
cause, its rate command 0, its adjust timer idle, its top state false and its trip output as its block enables it; the
ceiling is kept. A pellet line that can draw the head lot of its surge takes it, BLOCKED when the destination is full,
and is STARVED otherwise. The rate command. A trip output is active exactly when its line is TRIPPED and its block
enables it, kept by a trip, a CLEAR_TRIP and a channel's samples and expiry. -/
def Obligations.LineTimers : Prop :=
  (∀ s : State, s.free .lineSupervisor →
     (∀ ch, (s.mill.chan ch).fresh = some 0 →
       let m := s.mill.updChan ch (fun c => { c with fresh := none })
       ((s.mill.lineCtl (chanLine ch)).state.works = true →
         exec (.tripChannelStale ch) s = .next (s.leaves (m.tripLine (chanLine ch) .stale))) ∧
       ((s.mill.lineCtl (chanLine ch)).state.works = false → exec (.tripChannelStale ch) s = .next (s.leaves m))) ∧
     (∀ l v, (s.mill.lineCtl l).adjust = some 0 → (s.mill.lineCtl l).state.works = true →
       (s.mill.lineCtl l).load.good = some v →
       ((s.mill.plan.loadTop l : Int) < v → exec (.adjustTimerExpiry l) s = .next (s.leaves (s.mill.updLine l (fun c =>
         { c with
           ceiling := max (s.mill.plan.ceilingMin l) (c.ceiling - s.mill.plan.adjustStep l)
           adjust := some (60000 * s.mill.plan.adjustDelay l) })))) ∧
       (v ≤ (s.mill.plan.loadTop l : Int) →
         exec (.adjustTimerExpiry l) s = .next (s.leaves (s.mill.updLine l (fun c => { c with adjust := none }))))) ∧
     (s.mill.lines.pellet.drain = some 0 →
       (s.mill.lines.pellet.heard.isSome = true →
         exec .drainTimerExpiry s = .next (s.leaves (s.mill.dropCurrent.pelletTake))) ∧
       (s.mill.lines.pellet.heard = none → exec .drainTimerExpiry s = .next (s.leaves
         (s.mill.updPellet (fun c => { c with drain := none, drainWaits := true })))))) ∧
  (∀ (m : Mill) (l : Line) (cause : TripCause),
     let c := (m.tripLine l cause).lineCtl l
     c.state = .tripped ∧ c.cause = cause ∧ c.rate = 0 ∧ c.adjust = none ∧ c.top = false ∧
       c.tripOut = m.plan.tripOutOn l ∧ c.ceiling = (m.lineCtl l).ceiling) ∧
  (∀ (m : Mill) (l : Line) (cause : TripCause),
     m.tripLine l cause = ((m.updLine l (fun c =>
       { c with cause := cause, tripOut := m.plan.tripOutOn l })).endWork l .tripped).clearAbove l ∧
     ∀ ch ∈ lineChannels l, ((m.tripLine l cause).chan ch).above = 0) ∧
  (∀ m : Mill,
     (∀ o mass, m.headLot .pellet = some ⟨some o, .none, mass⟩ →
       let dest : Surge := match (m.order o).pack with
         | some .bag => .bag
         | _ => .bulk
       let full := m.surgeRoom dest < m.plan.blockMargin ∨ m.needsEntry dest (some o) = true
       m.pelletTake = (m.setClaim .pellet).updPellet (fun c =>
         { c with
           current := some o
           productOrder := .order o dest
           line := { c.line with state := if full then .blocked else .running } })) ∧
     ((∀ o mass, m.headLot .pellet ≠ some ⟨some o, .none, mass⟩) →
       m.pelletTake = m.updLine .pellet (fun c => { c with state := .starved }))) ∧
  (∀ (floor ceiling span : Nat) (start : Int),
     pelletRate floor ceiling start span none = floor ∧
     (∀ temp, pelletRate floor ceiling start span (some temp) =
       floor + (ceiling - floor) * min (temp - start).toNat span / span)) ∧
  (∀ (m : Mill) (l : Line), let c := m.lineCtl l
     (c.state ≠ .running → m.rateOf l = 0) ∧
     (∀ g, l = .grinder g → c.state = .running → m.rateOf l = c.ceiling) ∧
     (l = .pellet → c.state = .running → m.rateOf l = pelletRate (m.plan.rateFloor l) c.ceiling (m.plan.curveStart l)
       (40 * 2 ^ m.plan.spanCode l) m.lines.pellet.temp.good)) ∧
  (∀ (m : Mill) (l : Line), let ok (n : Mill) (k : Line) : Prop :=
       (n.lineCtl k).tripOut = true ↔ (n.lineCtl k).state = .tripped ∧ n.plan.tripOutOn k = true
     (∀ cause, (m.tripLine l cause).plan = m.plan ∧ ok (m.tripLine l cause) l) ∧
     ((m.lineCtl l).state = .tripped → ok (m.untrip l) l) ∧
     (∀ ch x, ok m (chanLine ch) → ok (m.tripSample ch x) (chanLine ch)) ∧
     (∀ ch, ok m (chanLine ch) → ok (m.tripStale ch) (chanLine ch)))

/-- BAG_EVENT and TRUCK_NET_SAMPLE take the sample waiting; one not taken as a bag raises STOCK_DISAGREE and changes
nothing else; outside BAGGING a bag is a stray: UNEXPECTED_FLOW, a lot draw, a rework addition, the verdict STRAY and
the next sequence number; a TRUCK_NET sample of nonzero quality is not used. In BAGGING a bag is drawn from the lots,
accepted and counted within the tolerance, else put to rework, and the bagger judges again: WAIT_LOT, a divert of a
closed remainder, BLOCKED below the bag mass of rework room (twice that while BLOCKED), or BAGGING; it holds whether its
judgement left a head lot in its surge, and reports whether an outlet waits for a lot before one (log 12). An accepted bag
that is neither counted nor surplus goes to rework as SURPLUS (the model's choice, log 20). The order that a report
brings to its pack-out target becomes PACKED: off the release list, its lots marked OVERRUN, its queued batches removed,
and closed at once where nothing holds a BULK order. A good TRUCK_NET sample watches the spout and cuts off a FEEDING
fill at its target less the preact. -/
def Obligations.OutletSamples : Prop :=
  (∀ (s : State) (x : Sample), s.samples .packOut x →
    (x.role = 11 → exec .bagEvent s = .next (s.takesTo .packOut (s.mill.bagEvent x))) ∧
    (x.role = 12 → exec .truckNetSample s = .next (s.takesTo .packOut (s.mill.truckSample x)))) ∧
  (∀ (m : Mill) (x : Sample), (x.quality ≠ 0 ∨ x.raw.toInt ≤ 0) → m.bagEvent x = m.raise .stockDisagree) ∧
  (∀ (m : Mill) (x : Sample), x.quality = 0 → 0 < x.raw.toInt → m.pack.bagger.state ≠ .bagging →
    m.bagEvent x = ((((m.raise .unexpectedFlow).drawLots .bag x.raw.toInt.toNat).1.addRework x.raw.toInt.toNat).updBagger
      (fun b => { b with verdict := .stray, seq := b.seq + 1 }))) ∧
  (∀ (m : Mill) (x : Sample), x.quality ≠ 0 → m.truckSample x = m) ∧
  (∀ (m : Mill) (x : Sample), x.quality = 0 → 0 < x.raw.toInt → m.pack.bagger.state = .bagging →
    let w := x.raw.toInt.toNat
    let d := m.drawLots .bag w
    let r := d.1.bagVerdict (d.2.head?.join) m.pack.bagger.bagMass w
    m.bagEvent x = (r.1.updBagger (fun b => { b with verdict := r.2, seq := b.seq + 1 })).judgeBagger) ∧
  (∀ (m : Mill) (o : Option (Fin 256)) (bag w : Nat), let tol := m.plan.bagTolerance
    (bag + tol < w ∨ w + tol < bag → m.bagVerdict o bag w = ((m.rejectBag o).addRework w, .rejected)) ∧
    (w ≤ bag + tol → bag ≤ w + tol →
      ((m.acceptBag o).2 = .counted → m.bagVerdict o bag w = ((m.acceptBag o).1, .accepted)) ∧
      ((m.acceptBag o).2 ≠ .counted → m.bagVerdict o bag w = ((m.acceptBag o).1.addRework w, .surplus)))) ∧
  (∀ (m : Mill) (o : Fin 256), let x := m.order o
    let counts := x.state = .producing ∨ x.state = .finishing ∨ x.state = .cancelling ∨ x.state = .packed
    m.acceptBag none = (m, .ignored) ∧ m.rejectBag none = m ∧
    (¬counts → m.acceptBag (some o) = (m, .ignored) ∧ m.rejectBag (some o) = m) ∧
    (∀ e, counts → x.entry = some e →
      (e.bagCount ≤ x.bagsPacked → m.acceptBag (some o) = (m, .surplus)) ∧
      (x.bagsPacked < e.bagCount → m.acceptBag (some o) =
        ((m.updOrder o (fun x => { x with bagsPacked := x.bagsPacked + 1 })).judgePacked o, .counted))) ∧
    (counts → m.rejectBag (some o) =
      (m.updOrder o (fun x => { x with bagsRejected := min (2 ^ 16 - 1) (x.bagsRejected + 1) })).judgePacked o) ∧
    (∀ mass, counts → m.reportBulk (some o) mass =
      (m.updOrder o (fun x => { x with loaded := min (2 ^ 24 - 1) (x.loaded + mass) })).judgePacked o) ∧
    (¬counts → ∀ mass, m.reportBulk (some o) mass = m)) ∧
  (∀ (m : Mill) (o : Fin 256), let x := m.order o
    let reached := ∃ e, x.entry = some e ∧ ((e.pack = some .bag ∧ e.bagCount ≤ x.bagsPacked) ∨
      (e.pack = some .bulk ∧ x.planned ≤ x.loaded + m.plan.bulkTolerance))
    (x.state = .producing ∨ x.state = .finishing → reached → m.judgePacked o = m.packOrder o) ∧
    (x.state ≠ .producing → x.state ≠ .finishing → m.judgePacked o = m) ∧ (¬reached → m.judgePacked o = m)) ∧
  (∀ (m : Mill) (o : Fin 256),
    let m1 := m.leaveList o
    let m2 := { m1 with
      book := { m1.book with orders := putAt m1.book.orders o { m1.order o with state := .packed, wait := .none } } }
    let m3 := m2.markOrder o .overrun
    let m4 := m3.removeBatches (m3.queuedOf o)
    m.packOrder o = (m4.postRecord .orderBook .order o.val 7 ((m4.order o).word 7)).autoClose o ∧
      o ∉ m1.book.releaseList ∧ (m2.order o).state = .packed ∧ (m2.order o).wait = .none ∧
      ∀ p, p ≠ o → m2.order p = m.order p) ∧
  (∀ m : Mill, m.pack.bagger.state ≠ .idle →
    let seen (n : Mill) : Mill := (n.updBagger (fun b => { b with seesHead := (n.headLot .bag).isSome })).reportWait
    (∀ o mass, m.headLot .bag = some ⟨some o, .none, mass⟩ → let bag := (m.order o).bagMass
      let closed := 1 < (m.lotsOf .bag).length ∨ ((m.order o).state = .finishing ∧ m.lines.pellet.current ≠ some o)
      let room := if m.pack.bagger.state = .blocked then 2 * bag else bag
      (mass < bag → closed → m.judgeBagger = seen ((m.stopBagger .waitLot).claimDivert .bag)) ∧
      (mass < bag → ¬closed → m.judgeBagger = seen (m.stopBagger .waitLot)) ∧
      (bag ≤ mass → m.reworkRoom < room → m.judgeBagger = seen (m.stopBagger .blocked)) ∧
      (bag ≤ mass → room ≤ m.reworkRoom → m.judgeBagger = seen ((m.setClaim .bag).updBagger (fun b =>
        { b with state := .bagging, order := some o, bagMass := bag })))) ∧
    ((∀ o mass, m.headLot .bag ≠ some ⟨some o, .none, mass⟩) → m.judgeBagger = seen (m.stopBagger .waitLot))) ∧
  (∀ m : Mill, (m.pack.bagger.state = .idle → m.judgeBagger = m) ∧
    ∀ g, m.claimDivert g = (m.remark g hostMark).checkHead g) ∧
  (∀ m : Mill, m.reportWait = { m with reports := m.reports ++ [.condition .headWait (m.holds .headWait)] }) ∧
  (∀ (m : Mill) (x : Sample), x.quality = 0 → let v := x.raw.toInt
    let m1 := (m.updLoadout (fun l => { l with channel := ⟨some v, some m.plan.staleTime⟩ })).watchSpout v
    (∀ f, m.pack.loadout.fill = some f →
      (f.settling = false → f.base + (f.target : Int) - (m.plan.spoutPreact : Int) ≤ v → m.truckSample x = m1.cutFill) ∧
      (f.settling = true ∨ v < f.base + (f.target : Int) - (m.plan.spoutPreact : Int) → m.truckSample x = m1)) ∧
    (m.pack.loadout.fill = none →
      (m.pack.loadout.state = .blocked → m.truckSample x = m1.judgeLoadout) ∧
      (m.pack.loadout.state ≠ .blocked → m.truckSample x = m1))) ∧
  (∀ (m : Mill) (v : Int),
    (m.loadingTrip = none → m.watchSpout v = m) ∧
    (∀ t, m.loadingTrip = some t →
      (m.pack.loadout.spoutRef = none → m.watchSpout v = m.updLoadout (fun l => { l with spoutRef := some v })) ∧
      (∀ r, m.pack.loadout.spoutRef = some r →
        (m.pack.loadout.state ≠ .filling → r + (m.plan.leakDelta : Int) < v →
          m.watchSpout v = m.raise .unexpectedFlow) ∧
        (m.pack.loadout.state = .filling ∨ v ≤ r + (m.plan.leakDelta : Int) → m.watchSpout v = m))))

/-- The loadout's expiries, each taken when its timer is due: the settle timer ends the fill, the loadout going IDLE
when a stop was requested and judging again otherwise; a stale TRUCK_NET ends a FEEDING fill at once, BLOCKED, and only
marks the channel otherwise. The loadout judges the LOADING trip and the bulk surge's head lot: WAIT_TRUCK, WAIT_LOT,
BLOCKED while TRUCK_NET is stale, or a fill of the first unfilled compartment of the lot's order; it holds whether its
judgement left a head lot (log 12). A booking has the material of the orders concerned judged by the Order Book (the
model's choice, log 60). A fill ends booked, a negative one STOCK_DISAGREE; one that RESTART ends makes no report and
checks no head lot (log 31); the spout reference is taken afresh for a trip newly LOADING (log 46). -/
def Obligations.OutletTimers : Prop :=
  (∀ (s : State), s.free .packOut →
    (∀ f, s.mill.pack.loadout.fill = some f → s.mill.pack.loadout.settle = some 0 →
      (s.mill.pack.loadout.stopRequest = true →
        exec .loadoutSettleExpiry s = .next (s.leaves (s.mill.endFill f .idle true))) ∧
      (s.mill.pack.loadout.stopRequest = false →
        exec .loadoutSettleExpiry s = .next (s.leaves ((s.mill.endFill f .waitTruck true).judgeLoadout)))) ∧
    (s.mill.pack.loadout.channel.fresh = some 0 →
      let m := s.mill.updLoadout (fun l => { l with channel := { l.channel with fresh := none } })
      (∀ f, s.mill.pack.loadout.fill = some f → f.settling = false →
        exec .truckNetStale s = .next (s.leaves (m.endFill f .blocked true))) ∧
      (∀ f, s.mill.pack.loadout.fill = some f → f.settling = true → exec .truckNetStale s = .next (s.leaves m)) ∧
      (s.mill.pack.loadout.fill = none → exec .truckNetStale s = .next (s.leaves m)))) ∧
  (∀ m : Mill, m.pack.loadout.state ≠ .idle → m.pack.loadout.state ≠ .filling →
    let seen (n : Mill) : Mill := (n.updLoadout (fun l => { l with seesHead := (n.headLot .bulk).isSome })).reportWait
    (m.loadingTrip = none → m.judgeLoadout = seen (m.updLoadout (fun l => { l with state := .waitTruck }))) ∧
    (∀ t, m.loadingTrip = some t → let x := m.trip t
      let waits := seen (m.updLoadout (fun l => { l with state := .waitLot }))
      ((∀ o mass, m.headLot .bulk ≠ some ⟨some o, .none, mass⟩) → m.judgeLoadout = waits) ∧
      (∀ o mass, m.headLot .bulk = some ⟨some o, .none, mass⟩ →
        let first := (x.unfilled m.plan.bulkTolerance).find? (fun c => x.compOrder c = some o)
        (first = none → m.judgeLoadout = waits) ∧
        (∀ c, first = some c →
          (m.pack.loadout.channel.fresh = none →
            m.judgeLoadout = seen (m.updLoadout (fun l => { l with state := .blocked }))) ∧
          (m.pack.loadout.channel.fresh ≠ none → let target := min (x.remaining c) mass
            m.judgeLoadout = seen ((m.setClaim .bulk).updLoadout (fun l =>
              { l with
                state := .filling
                spout := true
                truck := t.val
                comp := c
                target := target
                fill := some ⟨t, c, l.channel.latest.getD 0, target, some o, false⟩
                settle := none }))))))) ∧
  (∀ m : Mill, m.pack.loadout.state = .idle ∨ m.pack.loadout.state = .filling → m.judgeLoadout = m) ∧
  (∀ (m : Mill) (f : Fill) (st : LoadoutState) (report : Bool),
    let loaded := m.pack.loadout.channel.latest.getD 0 - f.base
    let rests (n : Mill) : Mill := n.updLoadout (fun l =>
      { l with state := st, spout := false, fill := none, settle := none, stopRequest := false })
    let ends (n : Mill) : Mill := if report = true then (rests n).endClaim .bulk else (rests n).dropClaim .bulk
    (0 < loaded → m.endFill f st report = ends (m.bookFill f loaded.toNat report)) ∧
    (loaded = 0 → m.endFill f st report = ends m) ∧
    (loaded < 0 → m.endFill f st report = ends (m.raise .stockDisagree))) ∧
  (∀ (m : Mill) (f : Fill) (mass : Nat), let d := m.drawLots .bulk mass
    let order := (m.trip f.truck).compOrder f.comp
    let booked := d.1.bookTrip f.truck f.comp mass
    let quiet := (m.takeLots .bulk mass).1.bookTrip f.truck f.comp mass
    let ends (n : Mill) : Mill := (n.updLoadout (fun l => { l with spoutRef := l.channel.latest })).updLoadout
      (fun l => { l with fill := none })
    m.bookFill f mass false = ends quiet ∧
    m.bookFill f mass true = (order.toList ++ d.2.filterMap id).foldl (fun m o => m.tell (.judgeExhausted o))
      (ends (booked.reportBulk order mass))) ∧
  (∀ m : Mill, m.spoutGiven = (m.updLoadout (fun l => { l with spoutRef := none })).judgeLoadout ∧
    (m.pack.loadout.fill = none → m.spoutTaken = m.judgeLoadout) ∧
    (∀ f, m.pack.loadout.fill = some f →
      ((m.trip f.truck).state ≠ .loading → m.spoutTaken = m.cutFill) ∧
      ((m.trip f.truck).state = .loading → m.spoutTaken = m)) ∧
    (∀ l, m.headLot .bulk = some l → l.diverts = true → m.bulkMarked = m.cutFill.judgeLoadout))

/-! ### Lots and frames -/

/-- A lot draw takes from the head onward: what it takes is what the lots lose, never more than asked, all of it while the
list holds as much; the lots that remain are a tail of the list, the first of them lowered.
An append adds its mass and keeps a list of at most 8 at 8: it joins a tail of the same owner, forms a new tail below 8
lots, and in a list of 8 makes the tail orphan product.
The lots of a surge sum to its bin's level, at most 8 of them, kept by a draw, an append, a divert, a marking and a
restart. After a draw, and after an append that gives the surge a new head lot or the head another owner or mark, the head
lot is checked for a divert at once. -/
def Obligations.LotsConserve : Prop :=
  (∀ (lots : List Lot) (mass : Nat),
     let d := drawFrom lots mass
     (d.lots.map (·.mass)).sum + d.taken = (lots.map (·.mass)).sum ∧ d.taken ≤ mass ∧
       (mass ≤ (lots.map (·.mass)).sum → d.taken = mass) ∧ d.lots.length + d.left.length = lots.length ∧
       d.lots.tail = (lots.drop d.left.length).tail) ∧
  (∀ (lots : List Lot) (owner : Option (Fin 256)) (mark : Mark) (mass : Nat),
     let r := appendTo lots owner mark mass
     (r.1.map (·.mass)).sum = (lots.map (·.mass)).sum + mass ∧ (lots.length ≤ 8 → r.1.length ≤ 8) ∧
       (lots = [] → r.1 = [⟨owner, mark, mass⟩]) ∧
       (∀ front tail, lots = front ++ [tail] →
         (tail.owner = owner →
           r.1 = front ++ [⟨owner, if mark = .none then tail.mark else mark, tail.mass + mass⟩]) ∧
         (tail.owner ≠ owner → lots.length < 8 → r.1 = lots ++ [⟨owner, mark, mass⟩]) ∧
         (tail.owner ≠ owner → 8 ≤ lots.length → r.1.getLast?.map (·.owner) = some none))) ∧
  (∀ m : Mill,
     let ok (n : Mill) : Prop := ∀ i, (getAt n.stock.bins i).plan.kind.isSurge = true →
       ((getAt n.stock.bins i).lots.map (·.mass)).sum = (getAt n.stock.bins i).level ∧
       (getAt n.stock.bins i).lots.length ≤ 8
     ok m → (∀ g mass, ok (m.drawLots g mass).1) ∧ (∀ g o mass, ok (m.appendLot g o mass)) ∧
       (∀ g i l t, m.surgeBin g = some i → (getAt m.stock.bins i).lots = l :: t → ok (m.divert g i l)) ∧
       (∀ g, ok (m.checkHead g)) ∧ (∀ o mark, ok (m.markOrder o mark)) ∧ (∀ i, ok (m.restartBin i))) ∧
  (∀ (m : Mill) (g : Surge) (mass : Nat),
     m.drawLots g mass = ((m.takeLots g mass).1.checkHead g, (m.takeLots g mass).2)) ∧
  (∀ (m : Mill) (g : Surge) (o : Option (Fin 256)) (mass : Nat), let t := m.putLot g o mass
     let head := (m.lotsOf g).head?.map (fun l => (l.owner, l.mark))
     (head ≠ (t.lotsOf g).head?.map (fun l => (l.owner, l.mark)) → m.appendLot g o mass = t.checkHead g) ∧
     (head = (t.lotsOf g).head?.map (fun l => (l.owner, l.mark)) → m.appendLot g o mass = t)) ∧
  (∀ (m : Mill) (g : Surge) (i : Fin 48) (mass : Nat), m.surgeBin g = some i →
     let b := getAt m.stock.bins i
     let d := drawFrom b.lots mass
     let t := m.takeLots g mass
     (getAt t.1.stock.bins i).lots = d.lots ∧ (getAt t.1.stock.bins i).level = b.level - d.taken ∧ t.2 = d.owners ∧
     (getAt t.1.stock.bins i).claim = (b.claim && d.left.isEmpty) ∧
     (d.taken < mass → Report.event .stockDisagree ∈ t.1.reports)) ∧
  (∀ (m : Mill) (g : Surge) (i : Fin 48) (o : Option (Fin 256)) (mass : Nat), m.surgeBin g = some i →
     let b := getAt m.stock.bins i
     let took := min mass (b.plan.capacity - b.level)
     let t := m.putLot g o mass
     (took = 0 → t.stock = m.stock) ∧
     (0 < took → (getAt t.stock.bins i).lots = (appendTo b.lots (m.ownerOf o).1 (m.ownerOf o).2 took).1 ∧
       (getAt t.stock.bins i).level = b.level + took ∧ Notice.appended g ∈ t.notices) ∧
     (b.plan.capacity - b.level < mass → Report.event .stockDisagree ∈ t.reports)) ∧
  (∀ (m : Mill) (o : Fin 256), m.ownerOf none = (none, .none) ∧
     ((m.order o).state = .released ∨ (m.order o).state = .producing ∨ (m.order o).state = .finishing →
       m.ownerOf (some o) = (some o, .none)) ∧
     ((m.order o).state = .cancelling → m.ownerOf (some o) = (some o, .cancelled)) ∧
     ((m.order o).state = .packed → m.ownerOf (some o) = (some o, .overrun)) ∧
     ((m.order o).state = .idle ∨ (m.order o).state = .closed ∨ (m.order o).state = .cancelled →
       m.ownerOf (some o) = (none, .none)))

/-- The frame of the meanings that work on one block, before the notices they give are taken: each leaves every block it
does not name as it was, and reports the conditions and the figures that its change may alter. A change of an order that
leaves its wait reason as it was reports no condition, since a report that repeats the truth held changes nothing. -/
def Obligations.MeaningFrames : Prop :=
  ∀ m : Mill,
    (∀ o f, (m.updOrder o f).stock = m.stock ∧ (m.updOrder o f).seq = m.seq ∧ (m.updOrder o f).weigh = m.weigh ∧
      (m.updOrder o f).lines = m.lines ∧ (m.updOrder o f).pack = m.pack ∧ (m.updOrder o f).trips = m.trips ∧
      (m.updOrder o f).plan = m.plan ∧ (m.updOrder o f).actions = m.actions ∧
      (m.updOrder o f).notices = m.notices ∧ (m.updOrder o f).order o = f (m.order o) ∧
      (∀ p, p ≠ o → (m.updOrder o f).order p = m.order p) ∧
      (m.updOrder o f).book.releaseList = m.book.releaseList ∧ (m.updOrder o f).book.useCount = m.book.useCount ∧
      (m.updOrder o f).book.planMark = m.book.planMark ∧ (m.updOrder o f).book.interlock = m.book.interlock) ∧
    (∀ i f, (m.updBin i f).book = m.book ∧ (m.updBin i f).seq = m.seq ∧ (m.updBin i f).weigh = m.weigh ∧
      (m.updBin i f).lines = m.lines ∧ (m.updBin i f).pack = m.pack ∧ (m.updBin i f).trips = m.trips ∧
      (m.updBin i f).plan = m.plan ∧ (m.updBin i f).actions = m.actions ∧ (m.updBin i f).stock.table = m.stock.table ∧
      getAt (m.updBin i f).stock.bins i = (f (getAt m.stock.bins i)).judge ∧
      (∀ j, j ≠ i → getAt (m.updBin i f).stock.bins j = getAt m.stock.bins j)) ∧
    (∀ t f, (m.updTrip t f).book = m.book ∧ (m.updTrip t f).stock = m.stock ∧ (m.updTrip t f).seq = m.seq ∧
      (m.updTrip t f).weigh = m.weigh ∧ (m.updTrip t f).lines = m.lines ∧ (m.updTrip t f).pack = m.pack ∧
      (m.updTrip t f).plan = m.plan ∧ (m.updTrip t f).actions = m.actions ∧ (m.updTrip t f).notices = m.notices ∧
      (m.updTrip t f).trip t = f (m.trip t) ∧ (∀ u, u ≠ t → (m.updTrip t f).trip u = m.trip u) ∧
      (m.updTrip t f).trips.queue = m.trips.queue) ∧
    (∀ f, (m.updMixer f).book = m.book ∧ (m.updMixer f).stock = m.stock ∧ (m.updMixer f).seq = m.seq ∧
      (m.updMixer f).lines = m.lines ∧ (m.updMixer f).pack = m.pack ∧ (m.updMixer f).trips = m.trips ∧
      (m.updMixer f).plan = m.plan ∧ (m.updMixer f).actions = m.actions ∧ (m.updMixer f).notices = m.notices ∧
      (m.updMixer f).weigh = { m.weigh with mixer := f m.weigh.mixer }) ∧
    (∀ sc f, (m.updScale sc f).book = m.book ∧ (m.updScale sc f).stock = m.stock ∧ (m.updScale sc f).seq = m.seq ∧
      (m.updScale sc f).lines = m.lines ∧ (m.updScale sc f).pack = m.pack ∧ (m.updScale sc f).trips = m.trips ∧
      (m.updScale sc f).plan = m.plan ∧ (m.updScale sc f).actions = m.actions ∧ (m.updScale sc f).notices = m.notices ∧
      (m.updScale sc f).scale sc = f (m.scale sc) ∧
      (m.updScale sc f).scale (otherScale sc) = m.scale (otherScale sc) ∧
      (m.updScale sc f).weigh.mixer = m.weigh.mixer) ∧
    (∀ o f, let t := m.updOrder o f
      let n := { m with book := { m.book with orders := putAt m.book.orders o (f (m.order o)) } }
      t = { n with outbox := t.outbox, reports := m.reports ++ orderReports n (m.order o) (f (m.order o)) }) ∧
    (∀ i f, let t := m.updBin i f
      t.checker = m.checker ∧ t.returned = m.returned ∧ t.stock.waitingDiverts = m.stock.waitingDiverts ∧
      t.notices = m.notices ++ binNotices i (getAt m.stock.bins i) (f (getAt m.stock.bins i)).judge ∧
      let n := { m with stock := { m.stock with bins := putAt m.stock.bins i (f (getAt m.stock.bins i)).judge } }
      t.reports = m.reports ++ binReports n (getAt m.stock.bins i) (f (getAt m.stock.bins i)).judge) ∧
    (∀ t f, (m.updTrip t f).checker = m.checker ∧ (m.updTrip t f).returned = m.returned ∧
      (m.updTrip t f).reports = m.reports) ∧
    (∀ f, (m.updMixer f).checker = m.checker ∧ (m.updMixer f).returned = m.returned ∧
      (m.updMixer f).reports = m.reports) ∧
    (∀ sc f, (m.updScale sc f).checker = m.checker ∧ (m.updScale sc f).returned = m.returned ∧
      (m.updScale sc f).reports = m.reports ∧ (m.updScale sc f).actions = m.actions) ∧
    (∀ p b f, let t := m.updBatch p b f
      let n := { m with seq := { m.seq with batches := putAt m.seq.batches b (f (m.batch b)) } }
      t = { n with outbox := t.outbox, reports := m.reports ++ batchReports n (m.batch b) (f (m.batch b)) } ∧
      t.batch b = f (m.batch b) ∧ ∀ c, c ≠ b → t.batch c = m.batch c) ∧
    (∀ l f, let t := m.updLines l f
      let n := { m with lines := f m.lines }
      let k := { m with lines := n.lines.setLine l { n.lineCtl l with rate := n.rateOf l } }
      t = { k with outbox := t.outbox, reports := m.reports ++ lineReports k (m.lineCtl l) (n.lineCtl l) } ∧
      ∀ w, w ∈ [2, 3, 4] → t.lineWord l w ≠ m.lineWord l w ∨ (w = 3 ∧ (t.lineCtl l).state ≠ (m.lineCtl l).state) →
        (⟨.lineSupervisor, m.recordAddr .unit (lineUnit l) w, .write (m.deviceMask .unit (lineUnit l) w) (t.lineWord l w)
          .none⟩ : LaneEntry) ∈ t.outbox) ∧
    (∀ l f, (m.updLine l f) = m.updLines l (fun x => x.setLine l (f (x.line l))) ∧
      ((m.updLine l f).lineCtl l) = { f (m.lineCtl l) with rate := ((m.updLine l f).lineCtl l).rate } ∧
      ∀ k, k ≠ l → (m.updLine l f).lineCtl k = m.lineCtl k) ∧
    (∀ g f, let t := m.updGrinder g f
      t = m.updLines (.grinder g) (fun x => x.setGrinder g (f (x.grinder g))) ∧
      t.grinderCtl g = { f (m.grinderCtl g) with
        line := { (f (m.grinderCtl g)).line with rate := (t.grinderCtl g).line.rate } } ∧
      t.lines.pellet = m.lines.pellet ∧ ∀ h, h ≠ g → t.grinderCtl h = m.grinderCtl h) ∧
    (∀ f, let t := m.updPellet f
      t = m.updLines .pellet (fun x => { x with pellet := f x.pellet }) ∧
      t.lines = { m.lines with pellet := { f m.lines.pellet with
        line := { (f m.lines.pellet).line with rate := t.lines.pellet.line.rate } } }) ∧
    (∀ ch f, let t := m.updChan ch f
      t = m.updLines (chanLine ch) (fun l => l.setChan ch (f (l.chan ch))) ∧ t.chan ch = f (m.chan ch) ∧
      (∀ d, d ≠ ch → t.chan d = m.chan d) ∧ ∀ l, (t.lineCtl l).state = (m.lineCtl l).state) ∧
    (∀ f, let t := m.updBagger f
      t = { m with pack := { m.pack with bagger := f m.pack.bagger }, outbox := t.outbox }) ∧
    (∀ f, let t := m.updLoadout f
      t = { m with pack := { m.pack with loadout := f m.pack.loadout }, outbox := t.outbox }) ∧
    (∀ (n : Mill) (old new : Bin), binReports n old new =
      (if old.lowC = new.lowC then [] else [.condition .low (n.holds .low)]) ++
      (if old.deficit = new.deficit then [] else [.condition .deficit (n.holds .deficit)])) ∧
    (∀ (n : Mill) (old new : LineCtl), lineReports n old new =
      (if (old.state = .tripped ↔ new.state = .tripped) then [] else [.condition .lineTrip (n.holds .lineTrip)]) ++
      (if old.top = new.top then [] else [.condition .topExceeded (n.holds .topExceeded)])) ∧
    (∀ (n : Mill) (old new : Batch), batchReports n old new =
      (if old.attention.cause = new.attention.cause then []
        else [.condition .attention (n.holds .attention), .condition .mixHeld (n.holds .mixHeld)]) ++
      (if old.state.final = new.state.final then [] else [.figure 9])) ∧
    (∀ (n : Mill) (old new : Order), orderReports n old new =
      (if old.wait = new.wait then [] else [.condition .short (n.holds .short), .condition .forbid (n.holds .forbid)]) ++
      (if old.state.active = new.state.active then [] else [.figure 8])) ∧
    (∀ b x, m.newBatch b x = ({ m with seq := { m.seq with batches := putAt m.seq.batches b x } }.restate 9).postAll
      .batchSequencer .batch b.val batchWords x.word) ∧
    (∀ w, m.restate w = { m with reports := m.reports ++ [.figure w] }) ∧
    (∀ b : Bin, (b.judge.lowC = true ↔ (b.plan.kind.ingredient = true ∨ b.plan.kind = .rework) ∧ b.level < b.plan.low) ∧
      (b.judge.deficit = true ↔ b.plan.kind.ingredient = true ∧ b.level < b.reserved))
end

