-- ==== Sys2Proof/Laws/Memory.lean ====
section
/-! SUPPORT. What tables and the order memory give back after a write, and the canonical form of memory, which every
memory operation keeps. -/

namespace Sys2Proof.Machine

/-! ### Tables -/

/-- The entry just replaced. -/
@[simp] theorem getAt_putAt_same {α : Type} {n : Nat} (v : Vector α n) (i : Fin n) (x : α) :
    getAt (putAt v i x) i = x := by
  simp [getAt, putAt]

/-- Every other entry is unchanged. -/
theorem getAt_putAt_ne {α : Type} {n : Nat} (v : Vector α n) (i j : Fin n) (x : α) (h : j ≠ i) :
    getAt (putAt v i x) j = getAt v j := by
  have h' : i.val ≠ j.val := fun e => h (Fin.ext e.symm)
  simp [getAt, putAt, Vector.getElem_set_ne, h']

/-! ### The canonical form -/

/-- A canonical memory stays canonical from a lower address. -/
theorem Memory.wfFrom_mono {m : Memory} {lo lo' : Nat} (h : Memory.wfFrom lo m = true) (hl : lo' ≤ lo) :
    Memory.wfFrom lo' m = true := by
  cases m with
  | nil => rfl
  | cons c t =>
    simp only [Memory.wfFrom, Bool.and_eq_true, decide_eq_true_eq] at h ⊢
    exact ⟨⟨by omega, h.1.2⟩, h.2⟩

/-- A byte stored keeps the canonical form from any address at or below its own. -/
theorem Memory.wfFrom_writeByte {m : Memory} {lo a : Nat} {v : BitVec 8} (h : Memory.wfFrom lo m = true) (ha : lo ≤ a) :
    Memory.wfFrom lo (m.writeByte a v) = true := by
  induction m generalizing lo with
  | nil =>
    unfold Memory.writeByte
    split
    · rfl
    · rename_i hv
      simp [Memory.wfFrom, ha, hv]
  | cons c t ih =>
    obtain ⟨k, w⟩ := c
    simp only [Memory.wfFrom, Bool.and_eq_true, decide_eq_true_eq] at h
    obtain ⟨⟨hk, hw⟩, ht⟩ := h
    unfold Memory.writeByte
    split
    · rename_i hlt
      split
      · simp [Memory.wfFrom, hk, hw, ht]
      · rename_i hv
        simp only [Memory.wfFrom, Bool.and_eq_true, decide_eq_true_eq]
        exact ⟨⟨ha, hv⟩, ⟨by omega, hw⟩, ht⟩
    · split
      · split
        · exact Memory.wfFrom_mono ht (by omega)
        · rename_i heq hv
          simp only [Memory.wfFrom, Bool.and_eq_true, decide_eq_true_eq]
          exact ⟨⟨ha, hv⟩, by rw [heq]; exact ht⟩
      · simp only [Memory.wfFrom, Bool.and_eq_true, decide_eq_true_eq]
        exact ⟨⟨hk, hw⟩, ih ht (by omega)⟩

/-- A byte stored keeps the canonical form. -/
theorem Memory.wf_writeByte {m : Memory} (a : Nat) (v : BitVec 8) (h : m.wf = true) : (m.writeByte a v).wf = true :=
  Memory.wfFrom_writeByte h (Nat.zero_le a)

/-- A lane stored keeps the canonical form. -/
theorem Memory.wf_writeLane {m : Memory} (a : Addr) (l : Lanes) (d : Word) (n : Nat) (h : m.wf = true) :
    (m.writeLane a l d n).wf = true := by
  unfold Memory.writeLane
  split
  · exact Memory.wf_writeByte _ _ h
  · exact h

/-- A word stored keeps the canonical form. -/
theorem Memory.wf_writeWord {m : Memory} (a : Addr) (l : Lanes) (d : Word) (h : m.wf = true) :
    (m.writeWord a l d).wf = true :=
  Memory.wf_writeLane a l d 3 (Memory.wf_writeLane a l d 2 (Memory.wf_writeLane a l d 1 (Memory.wf_writeLane a l d 0 h)))

/-! ### Reading after a store -/

/-- Below a canonical memory every byte is unlisted. -/
theorem Memory.readByte_below {m : Memory} {lo a : Nat} (h : Memory.wfFrom lo m = true) (ha : a < lo) :
    m.readByte a = Config.unlistedByte := by
  induction m generalizing lo with
  | nil => rfl
  | cons c t ih =>
    obtain ⟨k, w⟩ := c
    simp only [Memory.wfFrom, Bool.and_eq_true, decide_eq_true_eq] at h
    have hk : k ≠ a := by omega
    simp only [Memory.readByte, hk, if_false]
    exact ih h.2 (by omega)

/-- Every byte but the one stored is unchanged. -/
theorem Memory.readByte_writeByte_ne {m : Memory} {a b : Nat} (v : BitVec 8) (h : b ≠ a) :
    (m.writeByte a v).readByte b = m.readByte b := by
  induction m with
  | nil =>
    unfold Memory.writeByte
    split
    · rfl
    · simp [Memory.readByte, Ne.symm h]
  | cons c t ih =>
    obtain ⟨k, w⟩ := c
    unfold Memory.writeByte
    split
    · split
      · rfl
      · simp [Memory.readByte, Ne.symm h]
    · split
      · rename_i heq
        have hk : k ≠ b := by omega
        split
        · simp [Memory.readByte, hk]
        · simp [Memory.readByte, hk, Ne.symm h]
      · simp only [Memory.readByte, ih]

/-- The byte stored, in a canonical memory. -/
theorem Memory.readByte_writeByte_same {m : Memory} {lo : Nat} (a : Nat) (v : BitVec 8)
    (h : Memory.wfFrom lo m = true) : (m.writeByte a v).readByte a = v := by
  induction m generalizing lo with
  | nil =>
    unfold Memory.writeByte
    split
    · rename_i hv
      simp [Memory.readByte, hv]
    · simp [Memory.readByte]
  | cons c t ih =>
    obtain ⟨k, w⟩ := c
    simp only [Memory.wfFrom, Bool.and_eq_true, decide_eq_true_eq] at h
    obtain ⟨⟨hk, hw⟩, ht⟩ := h
    unfold Memory.writeByte
    split
    · rename_i hlt
      split
      · rename_i hv
        have hne : k ≠ a := by omega
        simp only [Memory.readByte, hne, if_false, hv]
        exact Memory.readByte_below ht (by omega)
      · simp [Memory.readByte]
    · split
      · rename_i heq
        split
        · rename_i hv
          rw [hv]
          exact Memory.readByte_below ht (by omega)
        · simp [Memory.readByte]
      · rename_i h1 h2
        have hne : k ≠ a := fun e => h2 e.symm
        simp only [Memory.readByte, hne, if_false]
        exact ih ht

/-- Every byte outside a lane's own is unchanged by the lane. -/
theorem Memory.readByte_writeLane_ne {m : Memory} {a : Addr} {l : Lanes} {d : Word} {n b : Nat}
    (h : l.getLsbD n = true → b ≠ laneKey a n) : (m.writeLane a l d n).readByte b = m.readByte b := by
  unfold Memory.writeLane
  split
  · rename_i hl
    exact Memory.readByte_writeByte_ne _ (h hl)
  · rfl

/-- Every byte outside the enabled lanes of a stored word is unchanged. -/
theorem Memory.readByte_writeWord_ne {m : Memory} {a : Addr} {l : Lanes} {d : Word} {b : Nat}
    (h : ∀ n, n < 4 → l.getLsbD n = true → b ≠ laneKey a n) : (m.writeWord a l d).readByte b = m.readByte b := by
  unfold Memory.writeWord
  rw [Memory.readByte_writeLane_ne (h 3 (by omega)), Memory.readByte_writeLane_ne (h 2 (by omega)),
    Memory.readByte_writeLane_ne (h 1 (by omega)), Memory.readByte_writeLane_ne (h 0 (by omega))]

/-- The four bytes of a word have four addresses. -/
theorem laneKey_inj {a : Addr} {i j : Nat} (hi : i < 4) (hj : j < 4) (h : laneKey a i = laneKey a j) : i = j := by
  unfold laneKey at h
  simp only [BitVec.toNat_add, BitVec.toNat_ofNat] at h
  omega

/-- A lane stored reads as its byte of the word. -/
theorem Memory.readByte_writeLane_same {m : Memory} {a : Addr} {l : Lanes} {d : Word} {n : Nat} (h : m.wf = true)
    (hl : l.getLsbD n = true) : (m.writeLane a l d n).readByte (laneKey a n) = laneByte d n := by
  unfold Memory.writeLane
  rw [if_pos hl]
  exact Memory.readByte_writeByte_same _ _ h

/-- An enabled lane of a stored word reads as its byte of the word. -/
theorem Memory.readByte_writeWord_same {m : Memory} {a : Addr} {l : Lanes} {d : Word} {n : Nat} (h : m.wf = true)
    (hn : n < 4) (hl : l.getLsbD n = true) : (m.writeWord a l d).readByte (laneKey a n) = laneByte d n := by
  have w0 := Memory.wf_writeLane a l d 0 h
  have w1 := Memory.wf_writeLane a l d 1 w0
  have w2 := Memory.wf_writeLane a l d 2 w1
  have ne : ∀ i, i < 4 → i ≠ n → (l.getLsbD i = true → laneKey a n ≠ laneKey a i) :=
    fun i hi hin _ he => hin (laneKey_inj hn hi he).symm
  unfold Memory.writeWord
  match n, hn with
  | 0, _ =>
    rw [Memory.readByte_writeLane_ne (ne 3 (by omega) (by omega)), Memory.readByte_writeLane_ne (ne 2 (by omega) (by omega)),
      Memory.readByte_writeLane_ne (ne 1 (by omega) (by omega)), Memory.readByte_writeLane_same h hl]
  | 1, _ =>
    rw [Memory.readByte_writeLane_ne (ne 3 (by omega) (by omega)), Memory.readByte_writeLane_ne (ne 2 (by omega) (by omega)),
      Memory.readByte_writeLane_same w0 hl]
  | 2, _ =>
    rw [Memory.readByte_writeLane_ne (ne 3 (by omega) (by omega)), Memory.readByte_writeLane_same w1 hl]
  | 3, _ => exact Memory.readByte_writeLane_same w2 hl

end Sys2Proof.Machine
end

