-- ==== Sys2Proof/Laws/State.lean ====
section
/-! SUPPORT. What each named update leaves unchanged, field by field, and what it writes. -/

namespace Sys2Proof.Machine

/-! ### A post, a noted post, a read -/

@[simp] theorem Mill.post_plan (m : Mill) (p : Block) (a : Addr) (k : Lanes) (d : Word) :
    (m.post p a k d).plan = m.plan := rfl
@[simp] theorem Mill.post_actions (m : Mill) (p : Block) (a : Addr) (k : Lanes) (d : Word) :
    (m.post p a k d).actions = m.actions := rfl
@[simp] theorem Mill.post_checker (m : Mill) (p : Block) (a : Addr) (k : Lanes) (d : Word) :
    (m.post p a k d).checker = m.checker := rfl
@[simp] theorem Mill.post_stock (m : Mill) (p : Block) (a : Addr) (k : Lanes) (d : Word) :
    (m.post p a k d).stock = m.stock := rfl
@[simp] theorem Mill.post_book (m : Mill) (p : Block) (a : Addr) (k : Lanes) (d : Word) :
    (m.post p a k d).book = m.book := rfl
@[simp] theorem Mill.post_seq (m : Mill) (p : Block) (a : Addr) (k : Lanes) (d : Word) :
    (m.post p a k d).seq = m.seq := rfl
@[simp] theorem Mill.post_weigh (m : Mill) (p : Block) (a : Addr) (k : Lanes) (d : Word) :
    (m.post p a k d).weigh = m.weigh := rfl
@[simp] theorem Mill.post_lines (m : Mill) (p : Block) (a : Addr) (k : Lanes) (d : Word) :
    (m.post p a k d).lines = m.lines := rfl
@[simp] theorem Mill.post_pack (m : Mill) (p : Block) (a : Addr) (k : Lanes) (d : Word) :
    (m.post p a k d).pack = m.pack := rfl
@[simp] theorem Mill.post_trips (m : Mill) (p : Block) (a : Addr) (k : Lanes) (d : Word) :
    (m.post p a k d).trips = m.trips := rfl
@[simp] theorem Mill.post_returned (m : Mill) (p : Block) (a : Addr) (k : Lanes) (d : Word) :
    (m.post p a k d).returned = m.returned := rfl
@[simp] theorem Mill.post_notices (m : Mill) (p : Block) (a : Addr) (k : Lanes) (d : Word) :
    (m.post p a k d).notices = m.notices := rfl
@[simp] theorem Mill.post_reports (m : Mill) (p : Block) (a : Addr) (k : Lanes) (d : Word) :
    (m.post p a k d).reports = m.reports := rfl
@[simp] theorem Mill.postNoted_plan (m : Mill) (p : Block) (a : Addr) (d : Word) (n : LandNote) :
    (m.postNoted p a d n).plan = m.plan := rfl
@[simp] theorem Mill.postNoted_actions (m : Mill) (p : Block) (a : Addr) (d : Word) (n : LandNote) :
    (m.postNoted p a d n).actions = m.actions := rfl
@[simp] theorem Mill.postNoted_checker (m : Mill) (p : Block) (a : Addr) (d : Word) (n : LandNote) :
    (m.postNoted p a d n).checker = m.checker := rfl
@[simp] theorem Mill.postNoted_stock (m : Mill) (p : Block) (a : Addr) (d : Word) (n : LandNote) :
    (m.postNoted p a d n).stock = m.stock := rfl
@[simp] theorem Mill.postNoted_book (m : Mill) (p : Block) (a : Addr) (d : Word) (n : LandNote) :
    (m.postNoted p a d n).book = m.book := rfl
@[simp] theorem Mill.postNoted_seq (m : Mill) (p : Block) (a : Addr) (d : Word) (n : LandNote) :
    (m.postNoted p a d n).seq = m.seq := rfl
@[simp] theorem Mill.postNoted_weigh (m : Mill) (p : Block) (a : Addr) (d : Word) (n : LandNote) :
    (m.postNoted p a d n).weigh = m.weigh := rfl
@[simp] theorem Mill.postNoted_lines (m : Mill) (p : Block) (a : Addr) (d : Word) (n : LandNote) :
    (m.postNoted p a d n).lines = m.lines := rfl
@[simp] theorem Mill.postNoted_pack (m : Mill) (p : Block) (a : Addr) (d : Word) (n : LandNote) :
    (m.postNoted p a d n).pack = m.pack := rfl
@[simp] theorem Mill.postNoted_trips (m : Mill) (p : Block) (a : Addr) (d : Word) (n : LandNote) :
    (m.postNoted p a d n).trips = m.trips := rfl
@[simp] theorem Mill.postNoted_returned (m : Mill) (p : Block) (a : Addr) (d : Word) (n : LandNote) :
    (m.postNoted p a d n).returned = m.returned := rfl
@[simp] theorem Mill.postNoted_notices (m : Mill) (p : Block) (a : Addr) (d : Word) (n : LandNote) :
    (m.postNoted p a d n).notices = m.notices := rfl
@[simp] theorem Mill.postNoted_reports (m : Mill) (p : Block) (a : Addr) (d : Word) (n : LandNote) :
    (m.postNoted p a d n).reports = m.reports := rfl
@[simp] theorem Mill.postRead_plan (m : Mill) (p : Block) (a : Addr) (t : ReadTag) :
    (m.postRead p a t).plan = m.plan := rfl
@[simp] theorem Mill.postRead_actions (m : Mill) (p : Block) (a : Addr) (t : ReadTag) :
    (m.postRead p a t).actions = m.actions := rfl
@[simp] theorem Mill.postRead_checker (m : Mill) (p : Block) (a : Addr) (t : ReadTag) :
    (m.postRead p a t).checker = m.checker := rfl
@[simp] theorem Mill.postRead_stock (m : Mill) (p : Block) (a : Addr) (t : ReadTag) :
    (m.postRead p a t).stock = m.stock := rfl
@[simp] theorem Mill.postRead_book (m : Mill) (p : Block) (a : Addr) (t : ReadTag) :
    (m.postRead p a t).book = m.book := rfl
@[simp] theorem Mill.postRead_seq (m : Mill) (p : Block) (a : Addr) (t : ReadTag) :
    (m.postRead p a t).seq = m.seq := rfl
@[simp] theorem Mill.postRead_weigh (m : Mill) (p : Block) (a : Addr) (t : ReadTag) :
    (m.postRead p a t).weigh = m.weigh := rfl
@[simp] theorem Mill.postRead_lines (m : Mill) (p : Block) (a : Addr) (t : ReadTag) :
    (m.postRead p a t).lines = m.lines := rfl
@[simp] theorem Mill.postRead_pack (m : Mill) (p : Block) (a : Addr) (t : ReadTag) :
    (m.postRead p a t).pack = m.pack := rfl
@[simp] theorem Mill.postRead_trips (m : Mill) (p : Block) (a : Addr) (t : ReadTag) :
    (m.postRead p a t).trips = m.trips := rfl
@[simp] theorem Mill.postRead_returned (m : Mill) (p : Block) (a : Addr) (t : ReadTag) :
    (m.postRead p a t).returned = m.returned := rfl
@[simp] theorem Mill.postRead_notices (m : Mill) (p : Block) (a : Addr) (t : ReadTag) :
    (m.postRead p a t).notices = m.notices := rfl
@[simp] theorem Mill.postRead_reports (m : Mill) (p : Block) (a : Addr) (t : ReadTag) :
    (m.postRead p a t).reports = m.reports := rfl

/-! ### A notice, an event, reads taken, the action in execution -/

@[simp] theorem Mill.tell_plan (m : Mill) (n : Notice) : (m.tell n).plan = m.plan := rfl
@[simp] theorem Mill.tell_actions (m : Mill) (n : Notice) : (m.tell n).actions = m.actions := rfl
@[simp] theorem Mill.tell_checker (m : Mill) (n : Notice) : (m.tell n).checker = m.checker := rfl
@[simp] theorem Mill.tell_stock (m : Mill) (n : Notice) : (m.tell n).stock = m.stock := rfl
@[simp] theorem Mill.tell_book (m : Mill) (n : Notice) : (m.tell n).book = m.book := rfl
@[simp] theorem Mill.tell_seq (m : Mill) (n : Notice) : (m.tell n).seq = m.seq := rfl
@[simp] theorem Mill.tell_weigh (m : Mill) (n : Notice) : (m.tell n).weigh = m.weigh := rfl
@[simp] theorem Mill.tell_lines (m : Mill) (n : Notice) : (m.tell n).lines = m.lines := rfl
@[simp] theorem Mill.tell_pack (m : Mill) (n : Notice) : (m.tell n).pack = m.pack := rfl
@[simp] theorem Mill.tell_trips (m : Mill) (n : Notice) : (m.tell n).trips = m.trips := rfl
@[simp] theorem Mill.tell_returned (m : Mill) (n : Notice) : (m.tell n).returned = m.returned := rfl
@[simp] theorem Mill.tell_outbox (m : Mill) (n : Notice) : (m.tell n).outbox = m.outbox := rfl
@[simp] theorem Mill.tell_reports (m : Mill) (n : Notice) : (m.tell n).reports = m.reports := rfl
@[simp] theorem Mill.tell_notices (m : Mill) (n : Notice) : (m.tell n).notices = m.notices ++ [n] := rfl
@[simp] theorem Mill.raise_plan (m : Mill) (f : Flag) : (m.raise f).plan = m.plan := rfl
@[simp] theorem Mill.raise_actions (m : Mill) (f : Flag) : (m.raise f).actions = m.actions := rfl
@[simp] theorem Mill.raise_checker (m : Mill) (f : Flag) : (m.raise f).checker = m.checker := rfl
@[simp] theorem Mill.raise_stock (m : Mill) (f : Flag) : (m.raise f).stock = m.stock := rfl
@[simp] theorem Mill.raise_book (m : Mill) (f : Flag) : (m.raise f).book = m.book := rfl
@[simp] theorem Mill.raise_seq (m : Mill) (f : Flag) : (m.raise f).seq = m.seq := rfl
@[simp] theorem Mill.raise_weigh (m : Mill) (f : Flag) : (m.raise f).weigh = m.weigh := rfl
@[simp] theorem Mill.raise_lines (m : Mill) (f : Flag) : (m.raise f).lines = m.lines := rfl
@[simp] theorem Mill.raise_pack (m : Mill) (f : Flag) : (m.raise f).pack = m.pack := rfl
@[simp] theorem Mill.raise_trips (m : Mill) (f : Flag) : (m.raise f).trips = m.trips := rfl
@[simp] theorem Mill.raise_returned (m : Mill) (f : Flag) : (m.raise f).returned = m.returned := rfl
@[simp] theorem Mill.raise_notices (m : Mill) (f : Flag) : (m.raise f).notices = m.notices := rfl
@[simp] theorem Mill.raise_outbox (m : Mill) (f : Flag) : (m.raise f).outbox = m.outbox := rfl
@[simp] theorem Mill.raise_reports (m : Mill) (f : Flag) : (m.raise f).reports = m.reports ++ [.event f] := rfl
@[simp] theorem Mill.restate_plan (m : Mill) (w : Nat) : (m.restate w).plan = m.plan := rfl
@[simp] theorem Mill.restate_actions (m : Mill) (w : Nat) : (m.restate w).actions = m.actions := rfl
@[simp] theorem Mill.restate_checker (m : Mill) (w : Nat) : (m.restate w).checker = m.checker := rfl
@[simp] theorem Mill.restate_stock (m : Mill) (w : Nat) : (m.restate w).stock = m.stock := rfl
@[simp] theorem Mill.restate_book (m : Mill) (w : Nat) : (m.restate w).book = m.book := rfl
@[simp] theorem Mill.restate_seq (m : Mill) (w : Nat) : (m.restate w).seq = m.seq := rfl
@[simp] theorem Mill.restate_weigh (m : Mill) (w : Nat) : (m.restate w).weigh = m.weigh := rfl
@[simp] theorem Mill.restate_lines (m : Mill) (w : Nat) : (m.restate w).lines = m.lines := rfl
@[simp] theorem Mill.restate_pack (m : Mill) (w : Nat) : (m.restate w).pack = m.pack := rfl
@[simp] theorem Mill.restate_trips (m : Mill) (w : Nat) : (m.restate w).trips = m.trips := rfl
@[simp] theorem Mill.restate_returned (m : Mill) (w : Nat) : (m.restate w).returned = m.returned := rfl
@[simp] theorem Mill.restate_notices (m : Mill) (w : Nat) : (m.restate w).notices = m.notices := rfl
@[simp] theorem Mill.restate_outbox (m : Mill) (w : Nat) : (m.restate w).outbox = m.outbox := rfl
@[simp] theorem Mill.restate_reports (m : Mill) (w : Nat) : (m.restate w).reports = m.reports ++ [.figure w] := rfl
@[simp] theorem Mill.raiseIf_plan (m : Mill) (b : Bool) (f : Flag) :
    (m.raiseIf b f).plan = m.plan := by cases b <;> rfl
@[simp] theorem Mill.raiseIf_actions (m : Mill) (b : Bool) (f : Flag) :
    (m.raiseIf b f).actions = m.actions := by cases b <;> rfl
@[simp] theorem Mill.raiseIf_checker (m : Mill) (b : Bool) (f : Flag) :
    (m.raiseIf b f).checker = m.checker := by cases b <;> rfl
@[simp] theorem Mill.raiseIf_stock (m : Mill) (b : Bool) (f : Flag) :
    (m.raiseIf b f).stock = m.stock := by cases b <;> rfl
@[simp] theorem Mill.raiseIf_book (m : Mill) (b : Bool) (f : Flag) :
    (m.raiseIf b f).book = m.book := by cases b <;> rfl
@[simp] theorem Mill.raiseIf_seq (m : Mill) (b : Bool) (f : Flag) : (m.raiseIf b f).seq = m.seq := by cases b <;> rfl
@[simp] theorem Mill.raiseIf_weigh (m : Mill) (b : Bool) (f : Flag) :
    (m.raiseIf b f).weigh = m.weigh := by cases b <;> rfl
@[simp] theorem Mill.raiseIf_lines (m : Mill) (b : Bool) (f : Flag) :
    (m.raiseIf b f).lines = m.lines := by cases b <;> rfl
@[simp] theorem Mill.raiseIf_pack (m : Mill) (b : Bool) (f : Flag) :
    (m.raiseIf b f).pack = m.pack := by cases b <;> rfl
@[simp] theorem Mill.raiseIf_trips (m : Mill) (b : Bool) (f : Flag) :
    (m.raiseIf b f).trips = m.trips := by cases b <;> rfl
@[simp] theorem Mill.raiseIf_returned (m : Mill) (b : Bool) (f : Flag) :
    (m.raiseIf b f).returned = m.returned := by cases b <;> rfl
@[simp] theorem Mill.raiseIf_notices (m : Mill) (b : Bool) (f : Flag) :
    (m.raiseIf b f).notices = m.notices := by cases b <;> rfl
@[simp] theorem Mill.raiseIf_outbox (m : Mill) (b : Bool) (f : Flag) :
    (m.raiseIf b f).outbox = m.outbox := by cases b <;> rfl
@[simp] theorem Mill.takeReads_plan (m : Mill) (t : ReadTag) : (m.takeReads t).plan = m.plan := rfl
@[simp] theorem Mill.takeReads_actions (m : Mill) (t : ReadTag) : (m.takeReads t).actions = m.actions := rfl
@[simp] theorem Mill.takeReads_checker (m : Mill) (t : ReadTag) : (m.takeReads t).checker = m.checker := rfl
@[simp] theorem Mill.takeReads_stock (m : Mill) (t : ReadTag) : (m.takeReads t).stock = m.stock := rfl
@[simp] theorem Mill.takeReads_book (m : Mill) (t : ReadTag) : (m.takeReads t).book = m.book := rfl
@[simp] theorem Mill.takeReads_seq (m : Mill) (t : ReadTag) : (m.takeReads t).seq = m.seq := rfl
@[simp] theorem Mill.takeReads_weigh (m : Mill) (t : ReadTag) : (m.takeReads t).weigh = m.weigh := rfl
@[simp] theorem Mill.takeReads_lines (m : Mill) (t : ReadTag) : (m.takeReads t).lines = m.lines := rfl
@[simp] theorem Mill.takeReads_pack (m : Mill) (t : ReadTag) : (m.takeReads t).pack = m.pack := rfl
@[simp] theorem Mill.takeReads_trips (m : Mill) (t : ReadTag) : (m.takeReads t).trips = m.trips := rfl
@[simp] theorem Mill.takeReads_notices (m : Mill) (t : ReadTag) : (m.takeReads t).notices = m.notices := rfl
@[simp] theorem Mill.takeReads_outbox (m : Mill) (t : ReadTag) : (m.takeReads t).outbox = m.outbox := rfl
@[simp] theorem Mill.takeReads_reports (m : Mill) (t : ReadTag) : (m.takeReads t).reports = m.reports := rfl
@[simp] theorem Mill.awaits_plan (m : Mill) (x : InExec) : (m.awaits x).plan = m.plan := rfl
@[simp] theorem Mill.awaits_checker (m : Mill) (x : InExec) : (m.awaits x).checker = m.checker := rfl
@[simp] theorem Mill.awaits_stock (m : Mill) (x : InExec) : (m.awaits x).stock = m.stock := rfl
@[simp] theorem Mill.awaits_book (m : Mill) (x : InExec) : (m.awaits x).book = m.book := rfl
@[simp] theorem Mill.awaits_seq (m : Mill) (x : InExec) : (m.awaits x).seq = m.seq := rfl
@[simp] theorem Mill.awaits_weigh (m : Mill) (x : InExec) : (m.awaits x).weigh = m.weigh := rfl
@[simp] theorem Mill.awaits_lines (m : Mill) (x : InExec) : (m.awaits x).lines = m.lines := rfl
@[simp] theorem Mill.awaits_pack (m : Mill) (x : InExec) : (m.awaits x).pack = m.pack := rfl
@[simp] theorem Mill.awaits_trips (m : Mill) (x : InExec) : (m.awaits x).trips = m.trips := rfl
@[simp] theorem Mill.awaits_returned (m : Mill) (x : InExec) : (m.awaits x).returned = m.returned := rfl
@[simp] theorem Mill.awaits_notices (m : Mill) (x : InExec) : (m.awaits x).notices = m.notices := rfl
@[simp] theorem Mill.awaits_outbox (m : Mill) (x : InExec) : (m.awaits x).outbox = m.outbox := rfl
@[simp] theorem Mill.awaits_reports (m : Mill) (x : InExec) : (m.awaits x).reports = m.reports := rfl

/-! ### Record words posted -/

/-- Posting record words changes the outbox alone. -/
theorem Mill.postChanged_eq (m : Mill) (p : Block) (k : RecordKind) (i : Nat) (ws : List Nat) (old new : Nat → Word) :
    m.postChanged p k i ws old new = { m with outbox := (m.postChanged p k i ws old new).outbox } := by
  unfold Mill.postChanged
  induction ws generalizing m with
  | nil => rfl
  | cons w ws ih =>
    simp only [List.foldl_cons]
    split
    · exact ih m
    · rw [ih]; rfl

/-- Posting record words changes the outbox alone. -/
theorem Mill.postAll_eq (m : Mill) (p : Block) (k : RecordKind) (i : Nat) (ws : List Nat) (new : Nat → Word) :
    m.postAll p k i ws new = { m with outbox := (m.postAll p k i ws new).outbox } := by
  unfold Mill.postAll
  induction ws generalizing m with
  | nil => rfl
  | cons w ws ih =>
    simp only [List.foldl_cons]
    rw [ih]; rfl

/-! ### What they leave unchanged -/

@[simp] theorem Mill.postRecord_plan (m : Mill) (p : Block) (k : RecordKind) (i : Nat) (w : Nat) (d : Word) :
    (m.postRecord p k i w d).plan = m.plan := rfl
@[simp] theorem Mill.postRecord_actions (m : Mill) (p : Block) (k : RecordKind) (i : Nat) (w : Nat) (d : Word) :
    (m.postRecord p k i w d).actions = m.actions := rfl
@[simp] theorem Mill.postRecord_checker (m : Mill) (p : Block) (k : RecordKind) (i : Nat) (w : Nat) (d : Word) :
    (m.postRecord p k i w d).checker = m.checker := rfl
@[simp] theorem Mill.postRecord_stock (m : Mill) (p : Block) (k : RecordKind) (i : Nat) (w : Nat) (d : Word) :
    (m.postRecord p k i w d).stock = m.stock := rfl
@[simp] theorem Mill.postRecord_book (m : Mill) (p : Block) (k : RecordKind) (i : Nat) (w : Nat) (d : Word) :
    (m.postRecord p k i w d).book = m.book := rfl
@[simp] theorem Mill.postRecord_seq (m : Mill) (p : Block) (k : RecordKind) (i : Nat) (w : Nat) (d : Word) :
    (m.postRecord p k i w d).seq = m.seq := rfl
@[simp] theorem Mill.postRecord_weigh (m : Mill) (p : Block) (k : RecordKind) (i : Nat) (w : Nat) (d : Word) :
    (m.postRecord p k i w d).weigh = m.weigh := rfl
@[simp] theorem Mill.postRecord_lines (m : Mill) (p : Block) (k : RecordKind) (i : Nat) (w : Nat) (d : Word) :
    (m.postRecord p k i w d).lines = m.lines := rfl
@[simp] theorem Mill.postRecord_pack (m : Mill) (p : Block) (k : RecordKind) (i : Nat) (w : Nat) (d : Word) :
    (m.postRecord p k i w d).pack = m.pack := rfl
@[simp] theorem Mill.postRecord_trips (m : Mill) (p : Block) (k : RecordKind) (i : Nat) (w : Nat) (d : Word) :
    (m.postRecord p k i w d).trips = m.trips := rfl
@[simp] theorem Mill.postRecord_returned (m : Mill) (p : Block) (k : RecordKind) (i : Nat) (w : Nat) (d : Word) :
    (m.postRecord p k i w d).returned = m.returned := rfl
@[simp] theorem Mill.postRecord_notices (m : Mill) (p : Block) (k : RecordKind) (i : Nat) (w : Nat) (d : Word) :
    (m.postRecord p k i w d).notices = m.notices := rfl
@[simp] theorem Mill.postRecord_reports (m : Mill) (p : Block) (k : RecordKind) (i : Nat) (w : Nat) (d : Word) :
    (m.postRecord p k i w d).reports = m.reports := rfl
@[simp] theorem Mill.postChanged_plan (m : Mill) (p : Block) (k : RecordKind) (i : Nat) (ws : List Nat) (o n : Nat → Word) :
    (m.postChanged p k i ws o n).plan = m.plan := by rw [Mill.postChanged_eq]
@[simp] theorem Mill.postChanged_actions (m : Mill) (p : Block) (k : RecordKind) (i : Nat) (ws : List Nat) (o n : Nat → Word) :
    (m.postChanged p k i ws o n).actions = m.actions := by rw [Mill.postChanged_eq]
@[simp] theorem Mill.postChanged_checker (m : Mill) (p : Block) (k : RecordKind) (i : Nat) (ws : List Nat) (o n : Nat → Word) :
    (m.postChanged p k i ws o n).checker = m.checker := by rw [Mill.postChanged_eq]
@[simp] theorem Mill.postChanged_stock (m : Mill) (p : Block) (k : RecordKind) (i : Nat) (ws : List Nat) (o n : Nat → Word) :
    (m.postChanged p k i ws o n).stock = m.stock := by rw [Mill.postChanged_eq]
@[simp] theorem Mill.postChanged_book (m : Mill) (p : Block) (k : RecordKind) (i : Nat) (ws : List Nat) (o n : Nat → Word) :
    (m.postChanged p k i ws o n).book = m.book := by rw [Mill.postChanged_eq]
@[simp] theorem Mill.postChanged_seq (m : Mill) (p : Block) (k : RecordKind) (i : Nat) (ws : List Nat) (o n : Nat → Word) :
    (m.postChanged p k i ws o n).seq = m.seq := by rw [Mill.postChanged_eq]
@[simp] theorem Mill.postChanged_weigh (m : Mill) (p : Block) (k : RecordKind) (i : Nat) (ws : List Nat) (o n : Nat → Word) :
    (m.postChanged p k i ws o n).weigh = m.weigh := by rw [Mill.postChanged_eq]
@[simp] theorem Mill.postChanged_lines (m : Mill) (p : Block) (k : RecordKind) (i : Nat) (ws : List Nat) (o n : Nat → Word) :
    (m.postChanged p k i ws o n).lines = m.lines := by rw [Mill.postChanged_eq]
@[simp] theorem Mill.postChanged_pack (m : Mill) (p : Block) (k : RecordKind) (i : Nat) (ws : List Nat) (o n : Nat → Word) :
    (m.postChanged p k i ws o n).pack = m.pack := by rw [Mill.postChanged_eq]
@[simp] theorem Mill.postChanged_trips (m : Mill) (p : Block) (k : RecordKind) (i : Nat) (ws : List Nat) (o n : Nat → Word) :
    (m.postChanged p k i ws o n).trips = m.trips := by rw [Mill.postChanged_eq]
@[simp] theorem Mill.postChanged_returned (m : Mill) (p : Block) (k : RecordKind) (i : Nat) (ws : List Nat) (o n : Nat → Word) :
    (m.postChanged p k i ws o n).returned = m.returned := by rw [Mill.postChanged_eq]
@[simp] theorem Mill.postChanged_notices (m : Mill) (p : Block) (k : RecordKind) (i : Nat) (ws : List Nat) (o n : Nat → Word) :
    (m.postChanged p k i ws o n).notices = m.notices := by rw [Mill.postChanged_eq]
@[simp] theorem Mill.postChanged_reports (m : Mill) (p : Block) (k : RecordKind) (i : Nat) (ws : List Nat) (o n : Nat → Word) :
    (m.postChanged p k i ws o n).reports = m.reports := by rw [Mill.postChanged_eq]
@[simp] theorem Mill.postAll_plan (m : Mill) (p : Block) (k : RecordKind) (i : Nat) (ws : List Nat) (n : Nat → Word) :
    (m.postAll p k i ws n).plan = m.plan := by rw [Mill.postAll_eq]
@[simp] theorem Mill.postAll_actions (m : Mill) (p : Block) (k : RecordKind) (i : Nat) (ws : List Nat) (n : Nat → Word) :
    (m.postAll p k i ws n).actions = m.actions := by rw [Mill.postAll_eq]
@[simp] theorem Mill.postAll_checker (m : Mill) (p : Block) (k : RecordKind) (i : Nat) (ws : List Nat) (n : Nat → Word) :
    (m.postAll p k i ws n).checker = m.checker := by rw [Mill.postAll_eq]
@[simp] theorem Mill.postAll_stock (m : Mill) (p : Block) (k : RecordKind) (i : Nat) (ws : List Nat) (n : Nat → Word) :
    (m.postAll p k i ws n).stock = m.stock := by rw [Mill.postAll_eq]
@[simp] theorem Mill.postAll_book (m : Mill) (p : Block) (k : RecordKind) (i : Nat) (ws : List Nat) (n : Nat → Word) :
    (m.postAll p k i ws n).book = m.book := by rw [Mill.postAll_eq]
@[simp] theorem Mill.postAll_seq (m : Mill) (p : Block) (k : RecordKind) (i : Nat) (ws : List Nat) (n : Nat → Word) :
    (m.postAll p k i ws n).seq = m.seq := by rw [Mill.postAll_eq]
@[simp] theorem Mill.postAll_weigh (m : Mill) (p : Block) (k : RecordKind) (i : Nat) (ws : List Nat) (n : Nat → Word) :
    (m.postAll p k i ws n).weigh = m.weigh := by rw [Mill.postAll_eq]
@[simp] theorem Mill.postAll_lines (m : Mill) (p : Block) (k : RecordKind) (i : Nat) (ws : List Nat) (n : Nat → Word) :
    (m.postAll p k i ws n).lines = m.lines := by rw [Mill.postAll_eq]
@[simp] theorem Mill.postAll_pack (m : Mill) (p : Block) (k : RecordKind) (i : Nat) (ws : List Nat) (n : Nat → Word) :
    (m.postAll p k i ws n).pack = m.pack := by rw [Mill.postAll_eq]
@[simp] theorem Mill.postAll_trips (m : Mill) (p : Block) (k : RecordKind) (i : Nat) (ws : List Nat) (n : Nat → Word) :
    (m.postAll p k i ws n).trips = m.trips := by rw [Mill.postAll_eq]
@[simp] theorem Mill.postAll_returned (m : Mill) (p : Block) (k : RecordKind) (i : Nat) (ws : List Nat) (n : Nat → Word) :
    (m.postAll p k i ws n).returned = m.returned := by rw [Mill.postAll_eq]
@[simp] theorem Mill.postAll_notices (m : Mill) (p : Block) (k : RecordKind) (i : Nat) (ws : List Nat) (n : Nat → Word) :
    (m.postAll p k i ws n).notices = m.notices := by rw [Mill.postAll_eq]
@[simp] theorem Mill.postAll_reports (m : Mill) (p : Block) (k : RecordKind) (i : Nat) (ws : List Nat) (n : Nat → Word) :
    (m.postAll p k i ws n).reports = m.reports := by rw [Mill.postAll_eq]

/-! ### Orders, bins, batches, trips -/

@[simp] theorem Mill.updOrder_plan (m : Mill) (o : Fin 256) (f : Order → Order) :
    (m.updOrder o f).plan = m.plan := by simp [Mill.updOrder]
@[simp] theorem Mill.updOrder_actions (m : Mill) (o : Fin 256) (f : Order → Order) :
    (m.updOrder o f).actions = m.actions := by simp [Mill.updOrder]
@[simp] theorem Mill.updOrder_checker (m : Mill) (o : Fin 256) (f : Order → Order) :
    (m.updOrder o f).checker = m.checker := by simp [Mill.updOrder]
@[simp] theorem Mill.updOrder_stock (m : Mill) (o : Fin 256) (f : Order → Order) :
    (m.updOrder o f).stock = m.stock := by simp [Mill.updOrder]
@[simp] theorem Mill.updOrder_seq (m : Mill) (o : Fin 256) (f : Order → Order) :
    (m.updOrder o f).seq = m.seq := by simp [Mill.updOrder]
@[simp] theorem Mill.updOrder_weigh (m : Mill) (o : Fin 256) (f : Order → Order) :
    (m.updOrder o f).weigh = m.weigh := by simp [Mill.updOrder]
@[simp] theorem Mill.updOrder_lines (m : Mill) (o : Fin 256) (f : Order → Order) :
    (m.updOrder o f).lines = m.lines := by simp [Mill.updOrder]
@[simp] theorem Mill.updOrder_pack (m : Mill) (o : Fin 256) (f : Order → Order) :
    (m.updOrder o f).pack = m.pack := by simp [Mill.updOrder]
@[simp] theorem Mill.updOrder_trips (m : Mill) (o : Fin 256) (f : Order → Order) :
    (m.updOrder o f).trips = m.trips := by simp [Mill.updOrder]
@[simp] theorem Mill.updOrder_returned (m : Mill) (o : Fin 256) (f : Order → Order) :
    (m.updOrder o f).returned = m.returned := by simp [Mill.updOrder]
@[simp] theorem Mill.updOrder_notices (m : Mill) (o : Fin 256) (f : Order → Order) :
    (m.updOrder o f).notices = m.notices := by simp [Mill.updOrder]
@[simp] theorem Mill.updOrder_reports (m : Mill) (o : Fin 256) (f : Order → Order) :
    (m.updOrder o f).reports = m.reports ++ orderReports
      { m with book := { m.book with orders := putAt m.book.orders o (f (m.order o)) } } (m.order o) (f (m.order o)) := by
  simp [Mill.updOrder]
@[simp] theorem Mill.updEntry_plan (m : Mill) (o : Fin 256) (f : OrderEntry → OrderEntry) :
    (m.updEntry o f).plan = m.plan := rfl
@[simp] theorem Mill.updEntry_actions (m : Mill) (o : Fin 256) (f : OrderEntry → OrderEntry) :
    (m.updEntry o f).actions = m.actions := rfl
@[simp] theorem Mill.updEntry_checker (m : Mill) (o : Fin 256) (f : OrderEntry → OrderEntry) :
    (m.updEntry o f).checker = m.checker := rfl
@[simp] theorem Mill.updEntry_stock (m : Mill) (o : Fin 256) (f : OrderEntry → OrderEntry) :
    (m.updEntry o f).stock = m.stock := rfl
@[simp] theorem Mill.updEntry_seq (m : Mill) (o : Fin 256) (f : OrderEntry → OrderEntry) :
    (m.updEntry o f).seq = m.seq := rfl
@[simp] theorem Mill.updEntry_weigh (m : Mill) (o : Fin 256) (f : OrderEntry → OrderEntry) :
    (m.updEntry o f).weigh = m.weigh := rfl
@[simp] theorem Mill.updEntry_lines (m : Mill) (o : Fin 256) (f : OrderEntry → OrderEntry) :
    (m.updEntry o f).lines = m.lines := rfl
@[simp] theorem Mill.updEntry_pack (m : Mill) (o : Fin 256) (f : OrderEntry → OrderEntry) :
    (m.updEntry o f).pack = m.pack := rfl
@[simp] theorem Mill.updEntry_trips (m : Mill) (o : Fin 256) (f : OrderEntry → OrderEntry) :
    (m.updEntry o f).trips = m.trips := rfl
@[simp] theorem Mill.updEntry_returned (m : Mill) (o : Fin 256) (f : OrderEntry → OrderEntry) :
    (m.updEntry o f).returned = m.returned := rfl
@[simp] theorem Mill.updEntry_notices (m : Mill) (o : Fin 256) (f : OrderEntry → OrderEntry) :
    (m.updEntry o f).notices = m.notices := rfl
@[simp] theorem Mill.updEntry_outbox (m : Mill) (o : Fin 256) (f : OrderEntry → OrderEntry) :
    (m.updEntry o f).outbox = m.outbox := rfl
@[simp] theorem Mill.updEntry_reports (m : Mill) (o : Fin 256) (f : OrderEntry → OrderEntry) :
    (m.updEntry o f).reports = m.reports := rfl
@[simp] theorem Mill.updBin_plan (m : Mill) (i : Fin 48) (f : Bin → Bin) :
    (m.updBin i f).plan = m.plan := by simp [Mill.updBin]
@[simp] theorem Mill.updBin_actions (m : Mill) (i : Fin 48) (f : Bin → Bin) :
    (m.updBin i f).actions = m.actions := by simp [Mill.updBin]
@[simp] theorem Mill.updBin_checker (m : Mill) (i : Fin 48) (f : Bin → Bin) :
    (m.updBin i f).checker = m.checker := by simp [Mill.updBin]
@[simp] theorem Mill.updBin_book (m : Mill) (i : Fin 48) (f : Bin → Bin) :
    (m.updBin i f).book = m.book := by simp [Mill.updBin]
@[simp] theorem Mill.updBin_seq (m : Mill) (i : Fin 48) (f : Bin → Bin) :
    (m.updBin i f).seq = m.seq := by simp [Mill.updBin]
@[simp] theorem Mill.updBin_weigh (m : Mill) (i : Fin 48) (f : Bin → Bin) :
    (m.updBin i f).weigh = m.weigh := by simp [Mill.updBin]
@[simp] theorem Mill.updBin_lines (m : Mill) (i : Fin 48) (f : Bin → Bin) :
    (m.updBin i f).lines = m.lines := by simp [Mill.updBin]
@[simp] theorem Mill.updBin_pack (m : Mill) (i : Fin 48) (f : Bin → Bin) :
    (m.updBin i f).pack = m.pack := by simp [Mill.updBin]
@[simp] theorem Mill.updBin_trips (m : Mill) (i : Fin 48) (f : Bin → Bin) :
    (m.updBin i f).trips = m.trips := by simp [Mill.updBin]
@[simp] theorem Mill.updBin_returned (m : Mill) (i : Fin 48) (f : Bin → Bin) :
    (m.updBin i f).returned = m.returned := by simp [Mill.updBin]
@[simp] theorem Mill.updBin_reports (m : Mill) (i : Fin 48) (f : Bin → Bin) :
    (m.updBin i f).reports = m.reports ++ binReports
      { m with stock := { m.stock with bins := putAt m.stock.bins i (f (getAt m.stock.bins i)).judge } }
      (getAt m.stock.bins i) (f (getAt m.stock.bins i)).judge := by simp [Mill.updBin]
@[simp] theorem Mill.updBatch_plan (m : Mill) (p : Block) (b : Fin 32) (f : Batch → Batch) :
    (m.updBatch p b f).plan = m.plan := by simp [Mill.updBatch]
@[simp] theorem Mill.updBatch_actions (m : Mill) (p : Block) (b : Fin 32) (f : Batch → Batch) :
    (m.updBatch p b f).actions = m.actions := by simp [Mill.updBatch]
@[simp] theorem Mill.updBatch_checker (m : Mill) (p : Block) (b : Fin 32) (f : Batch → Batch) :
    (m.updBatch p b f).checker = m.checker := by simp [Mill.updBatch]
@[simp] theorem Mill.updBatch_stock (m : Mill) (p : Block) (b : Fin 32) (f : Batch → Batch) :
    (m.updBatch p b f).stock = m.stock := by simp [Mill.updBatch]
@[simp] theorem Mill.updBatch_book (m : Mill) (p : Block) (b : Fin 32) (f : Batch → Batch) :
    (m.updBatch p b f).book = m.book := by simp [Mill.updBatch]
@[simp] theorem Mill.updBatch_weigh (m : Mill) (p : Block) (b : Fin 32) (f : Batch → Batch) :
    (m.updBatch p b f).weigh = m.weigh := by simp [Mill.updBatch]
@[simp] theorem Mill.updBatch_lines (m : Mill) (p : Block) (b : Fin 32) (f : Batch → Batch) :
    (m.updBatch p b f).lines = m.lines := by simp [Mill.updBatch]
@[simp] theorem Mill.updBatch_pack (m : Mill) (p : Block) (b : Fin 32) (f : Batch → Batch) :
    (m.updBatch p b f).pack = m.pack := by simp [Mill.updBatch]
@[simp] theorem Mill.updBatch_trips (m : Mill) (p : Block) (b : Fin 32) (f : Batch → Batch) :
    (m.updBatch p b f).trips = m.trips := by simp [Mill.updBatch]
@[simp] theorem Mill.updBatch_returned (m : Mill) (p : Block) (b : Fin 32) (f : Batch → Batch) :
    (m.updBatch p b f).returned = m.returned := by simp [Mill.updBatch]
@[simp] theorem Mill.updBatch_notices (m : Mill) (p : Block) (b : Fin 32) (f : Batch → Batch) :
    (m.updBatch p b f).notices = m.notices := by simp [Mill.updBatch]
@[simp] theorem Mill.updBatch_reports (m : Mill) (p : Block) (b : Fin 32) (f : Batch → Batch) :
    (m.updBatch p b f).reports = m.reports ++ batchReports
      { m with seq := { m.seq with batches := putAt m.seq.batches b (f (m.batch b)) } } (m.batch b) (f (m.batch b)) := by
  simp [Mill.updBatch]
@[simp] theorem Mill.updTrip_plan (m : Mill) (t : Fin 8) (f : Trip → Trip) :
    (m.updTrip t f).plan = m.plan := by simp [Mill.updTrip]
@[simp] theorem Mill.updTrip_actions (m : Mill) (t : Fin 8) (f : Trip → Trip) :
    (m.updTrip t f).actions = m.actions := by simp [Mill.updTrip]
@[simp] theorem Mill.updTrip_checker (m : Mill) (t : Fin 8) (f : Trip → Trip) :
    (m.updTrip t f).checker = m.checker := by simp [Mill.updTrip]
@[simp] theorem Mill.updTrip_stock (m : Mill) (t : Fin 8) (f : Trip → Trip) :
    (m.updTrip t f).stock = m.stock := by simp [Mill.updTrip]
@[simp] theorem Mill.updTrip_book (m : Mill) (t : Fin 8) (f : Trip → Trip) :
    (m.updTrip t f).book = m.book := by simp [Mill.updTrip]
@[simp] theorem Mill.updTrip_seq (m : Mill) (t : Fin 8) (f : Trip → Trip) :
    (m.updTrip t f).seq = m.seq := by simp [Mill.updTrip]
@[simp] theorem Mill.updTrip_weigh (m : Mill) (t : Fin 8) (f : Trip → Trip) :
    (m.updTrip t f).weigh = m.weigh := by simp [Mill.updTrip]
@[simp] theorem Mill.updTrip_lines (m : Mill) (t : Fin 8) (f : Trip → Trip) :
    (m.updTrip t f).lines = m.lines := by simp [Mill.updTrip]
@[simp] theorem Mill.updTrip_pack (m : Mill) (t : Fin 8) (f : Trip → Trip) :
    (m.updTrip t f).pack = m.pack := by simp [Mill.updTrip]
@[simp] theorem Mill.updTrip_returned (m : Mill) (t : Fin 8) (f : Trip → Trip) :
    (m.updTrip t f).returned = m.returned := by simp [Mill.updTrip]
@[simp] theorem Mill.updTrip_notices (m : Mill) (t : Fin 8) (f : Trip → Trip) :
    (m.updTrip t f).notices = m.notices := by simp [Mill.updTrip]
@[simp] theorem Mill.updTrip_reports (m : Mill) (t : Fin 8) (f : Trip → Trip) :
    (m.updTrip t f).reports = m.reports := by simp [Mill.updTrip]

/-! ### Controllers -/

@[simp] theorem Mill.updScale_plan (m : Mill) (sc : Scale) (f : ScaleCtl → ScaleCtl) :
    (m.updScale sc f).plan = m.plan := by simp [Mill.updScale]
@[simp] theorem Mill.updScale_actions (m : Mill) (sc : Scale) (f : ScaleCtl → ScaleCtl) :
    (m.updScale sc f).actions = m.actions := by simp [Mill.updScale]
@[simp] theorem Mill.updScale_checker (m : Mill) (sc : Scale) (f : ScaleCtl → ScaleCtl) :
    (m.updScale sc f).checker = m.checker := by simp [Mill.updScale]
@[simp] theorem Mill.updScale_stock (m : Mill) (sc : Scale) (f : ScaleCtl → ScaleCtl) :
    (m.updScale sc f).stock = m.stock := by simp [Mill.updScale]
@[simp] theorem Mill.updScale_book (m : Mill) (sc : Scale) (f : ScaleCtl → ScaleCtl) :
    (m.updScale sc f).book = m.book := by simp [Mill.updScale]
@[simp] theorem Mill.updScale_seq (m : Mill) (sc : Scale) (f : ScaleCtl → ScaleCtl) :
    (m.updScale sc f).seq = m.seq := by simp [Mill.updScale]
@[simp] theorem Mill.updScale_lines (m : Mill) (sc : Scale) (f : ScaleCtl → ScaleCtl) :
    (m.updScale sc f).lines = m.lines := by simp [Mill.updScale]
@[simp] theorem Mill.updScale_pack (m : Mill) (sc : Scale) (f : ScaleCtl → ScaleCtl) :
    (m.updScale sc f).pack = m.pack := by simp [Mill.updScale]
@[simp] theorem Mill.updScale_trips (m : Mill) (sc : Scale) (f : ScaleCtl → ScaleCtl) :
    (m.updScale sc f).trips = m.trips := by simp [Mill.updScale]
@[simp] theorem Mill.updScale_returned (m : Mill) (sc : Scale) (f : ScaleCtl → ScaleCtl) :
    (m.updScale sc f).returned = m.returned := by simp [Mill.updScale]
@[simp] theorem Mill.updScale_notices (m : Mill) (sc : Scale) (f : ScaleCtl → ScaleCtl) :
    (m.updScale sc f).notices = m.notices := by simp [Mill.updScale]
@[simp] theorem Mill.updScale_reports (m : Mill) (sc : Scale) (f : ScaleCtl → ScaleCtl) :
    (m.updScale sc f).reports = m.reports := by simp [Mill.updScale]
@[simp] theorem Mill.updMixer_plan (m : Mill) (f : MixerCtl → MixerCtl) :
    (m.updMixer f).plan = m.plan := by simp [Mill.updMixer]
@[simp] theorem Mill.updMixer_actions (m : Mill) (f : MixerCtl → MixerCtl) :
    (m.updMixer f).actions = m.actions := by simp [Mill.updMixer]
@[simp] theorem Mill.updMixer_checker (m : Mill) (f : MixerCtl → MixerCtl) :
    (m.updMixer f).checker = m.checker := by simp [Mill.updMixer]
@[simp] theorem Mill.updMixer_stock (m : Mill) (f : MixerCtl → MixerCtl) :
    (m.updMixer f).stock = m.stock := by simp [Mill.updMixer]
@[simp] theorem Mill.updMixer_book (m : Mill) (f : MixerCtl → MixerCtl) :
    (m.updMixer f).book = m.book := by simp [Mill.updMixer]
@[simp] theorem Mill.updMixer_seq (m : Mill) (f : MixerCtl → MixerCtl) :
    (m.updMixer f).seq = m.seq := by simp [Mill.updMixer]
@[simp] theorem Mill.updMixer_lines (m : Mill) (f : MixerCtl → MixerCtl) :
    (m.updMixer f).lines = m.lines := by simp [Mill.updMixer]
@[simp] theorem Mill.updMixer_pack (m : Mill) (f : MixerCtl → MixerCtl) :
    (m.updMixer f).pack = m.pack := by simp [Mill.updMixer]
@[simp] theorem Mill.updMixer_trips (m : Mill) (f : MixerCtl → MixerCtl) :
    (m.updMixer f).trips = m.trips := by simp [Mill.updMixer]
@[simp] theorem Mill.updMixer_returned (m : Mill) (f : MixerCtl → MixerCtl) :
    (m.updMixer f).returned = m.returned := by simp [Mill.updMixer]
@[simp] theorem Mill.updMixer_notices (m : Mill) (f : MixerCtl → MixerCtl) :
    (m.updMixer f).notices = m.notices := by simp [Mill.updMixer]
@[simp] theorem Mill.updMixer_reports (m : Mill) (f : MixerCtl → MixerCtl) :
    (m.updMixer f).reports = m.reports := by simp [Mill.updMixer]
@[simp] theorem Mill.updLines_plan (m : Mill) (l : Line) (f : Lines → Lines) :
    (m.updLines l f).plan = m.plan := by simp [Mill.updLines]
@[simp] theorem Mill.updLines_actions (m : Mill) (l : Line) (f : Lines → Lines) :
    (m.updLines l f).actions = m.actions := by simp [Mill.updLines]
@[simp] theorem Mill.updLines_checker (m : Mill) (l : Line) (f : Lines → Lines) :
    (m.updLines l f).checker = m.checker := by simp [Mill.updLines]
@[simp] theorem Mill.updLines_stock (m : Mill) (l : Line) (f : Lines → Lines) :
    (m.updLines l f).stock = m.stock := by simp [Mill.updLines]
@[simp] theorem Mill.updLines_book (m : Mill) (l : Line) (f : Lines → Lines) :
    (m.updLines l f).book = m.book := by simp [Mill.updLines]
@[simp] theorem Mill.updLines_seq (m : Mill) (l : Line) (f : Lines → Lines) :
    (m.updLines l f).seq = m.seq := by simp [Mill.updLines]
@[simp] theorem Mill.updLines_weigh (m : Mill) (l : Line) (f : Lines → Lines) :
    (m.updLines l f).weigh = m.weigh := by simp [Mill.updLines]
@[simp] theorem Mill.updLines_pack (m : Mill) (l : Line) (f : Lines → Lines) :
    (m.updLines l f).pack = m.pack := by simp [Mill.updLines]
@[simp] theorem Mill.updLines_trips (m : Mill) (l : Line) (f : Lines → Lines) :
    (m.updLines l f).trips = m.trips := by simp [Mill.updLines]
@[simp] theorem Mill.updLines_returned (m : Mill) (l : Line) (f : Lines → Lines) :
    (m.updLines l f).returned = m.returned := by simp [Mill.updLines]
@[simp] theorem Mill.updLines_notices (m : Mill) (l : Line) (f : Lines → Lines) :
    (m.updLines l f).notices = m.notices := by simp [Mill.updLines]
@[simp] theorem Mill.updLines_reports (m : Mill) (l : Line) (f : Lines → Lines) :
    let n := { m with lines := f m.lines }
    let k := { m with lines := n.lines.setLine l { n.lineCtl l with rate := n.rateOf l } }
    (m.updLines l f).reports = m.reports ++ lineReports k (m.lineCtl l) ((f m.lines).line l) := by
  simp [Mill.updLines, Mill.lineCtl]
@[simp] theorem Mill.updBagger_plan (m : Mill) (f : Bagger → Bagger) :
    (m.updBagger f).plan = m.plan := by simp [Mill.updBagger]
@[simp] theorem Mill.updBagger_actions (m : Mill) (f : Bagger → Bagger) :
    (m.updBagger f).actions = m.actions := by simp [Mill.updBagger]
@[simp] theorem Mill.updBagger_checker (m : Mill) (f : Bagger → Bagger) :
    (m.updBagger f).checker = m.checker := by simp [Mill.updBagger]
@[simp] theorem Mill.updBagger_stock (m : Mill) (f : Bagger → Bagger) :
    (m.updBagger f).stock = m.stock := by simp [Mill.updBagger]
@[simp] theorem Mill.updBagger_book (m : Mill) (f : Bagger → Bagger) :
    (m.updBagger f).book = m.book := by simp [Mill.updBagger]
@[simp] theorem Mill.updBagger_seq (m : Mill) (f : Bagger → Bagger) :
    (m.updBagger f).seq = m.seq := by simp [Mill.updBagger]
@[simp] theorem Mill.updBagger_weigh (m : Mill) (f : Bagger → Bagger) :
    (m.updBagger f).weigh = m.weigh := by simp [Mill.updBagger]
@[simp] theorem Mill.updBagger_lines (m : Mill) (f : Bagger → Bagger) :
    (m.updBagger f).lines = m.lines := by simp [Mill.updBagger]
@[simp] theorem Mill.updBagger_trips (m : Mill) (f : Bagger → Bagger) :
    (m.updBagger f).trips = m.trips := by simp [Mill.updBagger]
@[simp] theorem Mill.updBagger_returned (m : Mill) (f : Bagger → Bagger) :
    (m.updBagger f).returned = m.returned := by simp [Mill.updBagger]
@[simp] theorem Mill.updBagger_notices (m : Mill) (f : Bagger → Bagger) :
    (m.updBagger f).notices = m.notices := by simp [Mill.updBagger]
@[simp] theorem Mill.updBagger_reports (m : Mill) (f : Bagger → Bagger) :
    (m.updBagger f).reports = m.reports := by simp [Mill.updBagger]
@[simp] theorem Mill.updLoadout_plan (m : Mill) (f : Loadout → Loadout) :
    (m.updLoadout f).plan = m.plan := by simp [Mill.updLoadout]
@[simp] theorem Mill.updLoadout_actions (m : Mill) (f : Loadout → Loadout) :
    (m.updLoadout f).actions = m.actions := by simp [Mill.updLoadout]
@[simp] theorem Mill.updLoadout_checker (m : Mill) (f : Loadout → Loadout) :
    (m.updLoadout f).checker = m.checker := by simp [Mill.updLoadout]
@[simp] theorem Mill.updLoadout_stock (m : Mill) (f : Loadout → Loadout) :
    (m.updLoadout f).stock = m.stock := by simp [Mill.updLoadout]
@[simp] theorem Mill.updLoadout_book (m : Mill) (f : Loadout → Loadout) :
    (m.updLoadout f).book = m.book := by simp [Mill.updLoadout]
@[simp] theorem Mill.updLoadout_seq (m : Mill) (f : Loadout → Loadout) :
    (m.updLoadout f).seq = m.seq := by simp [Mill.updLoadout]
@[simp] theorem Mill.updLoadout_weigh (m : Mill) (f : Loadout → Loadout) :
    (m.updLoadout f).weigh = m.weigh := by simp [Mill.updLoadout]
@[simp] theorem Mill.updLoadout_lines (m : Mill) (f : Loadout → Loadout) :
    (m.updLoadout f).lines = m.lines := by simp [Mill.updLoadout]
@[simp] theorem Mill.updLoadout_trips (m : Mill) (f : Loadout → Loadout) :
    (m.updLoadout f).trips = m.trips := by simp [Mill.updLoadout]
@[simp] theorem Mill.updLoadout_returned (m : Mill) (f : Loadout → Loadout) :
    (m.updLoadout f).returned = m.returned := by simp [Mill.updLoadout]
@[simp] theorem Mill.updLoadout_notices (m : Mill) (f : Loadout → Loadout) :
    (m.updLoadout f).notices = m.notices := by simp [Mill.updLoadout]
@[simp] theorem Mill.updLoadout_reports (m : Mill) (f : Loadout → Loadout) :
    (m.updLoadout f).reports = m.reports := by simp [Mill.updLoadout]

/-! ### A pass asked for -/

@[simp] theorem Mill.askPass_plan (m : Mill) : (m.askPass).plan = m.plan := by unfold Mill.askPass; split <;> rfl
@[simp] theorem Mill.askPass_actions (m : Mill) :
    (m.askPass).actions = m.actions := by unfold Mill.askPass; split <;> rfl
@[simp] theorem Mill.askPass_checker (m : Mill) :
    (m.askPass).checker = m.checker := by unfold Mill.askPass; split <;> rfl
@[simp] theorem Mill.askPass_stock (m : Mill) : (m.askPass).stock = m.stock := by unfold Mill.askPass; split <;> rfl
@[simp] theorem Mill.askPass_book (m : Mill) : (m.askPass).book = m.book := by unfold Mill.askPass; split <;> rfl
@[simp] theorem Mill.askPass_weigh (m : Mill) : (m.askPass).weigh = m.weigh := by unfold Mill.askPass; split <;> rfl
@[simp] theorem Mill.askPass_lines (m : Mill) : (m.askPass).lines = m.lines := by unfold Mill.askPass; split <;> rfl
@[simp] theorem Mill.askPass_pack (m : Mill) : (m.askPass).pack = m.pack := by unfold Mill.askPass; split <;> rfl
@[simp] theorem Mill.askPass_trips (m : Mill) : (m.askPass).trips = m.trips := by unfold Mill.askPass; split <;> rfl
@[simp] theorem Mill.askPass_returned (m : Mill) :
    (m.askPass).returned = m.returned := by unfold Mill.askPass; split <;> rfl
@[simp] theorem Mill.askPass_notices (m : Mill) :
    (m.askPass).notices = m.notices := by unfold Mill.askPass; split <;> rfl
@[simp] theorem Mill.askPass_outbox (m : Mill) :
    (m.askPass).outbox = m.outbox := by unfold Mill.askPass; split <;> rfl
@[simp] theorem Mill.askPass_reports (m : Mill) :
    (m.askPass).reports = m.reports := by unfold Mill.askPass; split <;> rfl

/-! ### The mixer queue and the outlets' report -/

@[simp] theorem Mill.newBatch_seq (m : Mill) (b : Fin 32) (x : Batch) :
    (m.newBatch b x).seq = { m.seq with batches := putAt m.seq.batches b x } := by
  rw [Mill.newBatch, Mill.postAll_seq, Mill.restate_seq]
@[simp] theorem Mill.newBatch_plan (m : Mill) (b : Fin 32) (x : Batch) : (m.newBatch b x).plan = m.plan := by
  rw [Mill.newBatch, Mill.postAll_plan, Mill.restate_plan]
@[simp] theorem Mill.newBatch_actions (m : Mill) (b : Fin 32) (x : Batch) : (m.newBatch b x).actions = m.actions := by
  rw [Mill.newBatch, Mill.postAll_actions, Mill.restate_actions]
@[simp] theorem Mill.newBatch_checker (m : Mill) (b : Fin 32) (x : Batch) : (m.newBatch b x).checker = m.checker := by
  rw [Mill.newBatch, Mill.postAll_checker, Mill.restate_checker]
@[simp] theorem Mill.newBatch_stock (m : Mill) (b : Fin 32) (x : Batch) : (m.newBatch b x).stock = m.stock := by
  rw [Mill.newBatch, Mill.postAll_stock, Mill.restate_stock]
@[simp] theorem Mill.newBatch_book (m : Mill) (b : Fin 32) (x : Batch) : (m.newBatch b x).book = m.book := by
  rw [Mill.newBatch, Mill.postAll_book, Mill.restate_book]
@[simp] theorem Mill.newBatch_weigh (m : Mill) (b : Fin 32) (x : Batch) : (m.newBatch b x).weigh = m.weigh := by
  rw [Mill.newBatch, Mill.postAll_weigh, Mill.restate_weigh]
@[simp] theorem Mill.newBatch_lines (m : Mill) (b : Fin 32) (x : Batch) : (m.newBatch b x).lines = m.lines := by
  rw [Mill.newBatch, Mill.postAll_lines, Mill.restate_lines]
@[simp] theorem Mill.newBatch_pack (m : Mill) (b : Fin 32) (x : Batch) : (m.newBatch b x).pack = m.pack := by
  rw [Mill.newBatch, Mill.postAll_pack, Mill.restate_pack]
@[simp] theorem Mill.newBatch_trips (m : Mill) (b : Fin 32) (x : Batch) : (m.newBatch b x).trips = m.trips := by
  rw [Mill.newBatch, Mill.postAll_trips, Mill.restate_trips]
@[simp] theorem Mill.newBatch_returned (m : Mill) (b : Fin 32) (x : Batch) : (m.newBatch b x).returned = m.returned := by
  rw [Mill.newBatch, Mill.postAll_returned, Mill.restate_returned]
@[simp] theorem Mill.newBatch_notices (m : Mill) (b : Fin 32) (x : Batch) : (m.newBatch b x).notices = m.notices := by
  rw [Mill.newBatch, Mill.postAll_notices, Mill.restate_notices]
@[simp] theorem Mill.setQueue_plan (m : Mill) (q : List (Fin 32)) : (m.setQueue q).plan = m.plan := rfl
@[simp] theorem Mill.setQueue_actions (m : Mill) (q : List (Fin 32)) : (m.setQueue q).actions = m.actions := rfl
@[simp] theorem Mill.setQueue_checker (m : Mill) (q : List (Fin 32)) : (m.setQueue q).checker = m.checker := rfl
@[simp] theorem Mill.setQueue_stock (m : Mill) (q : List (Fin 32)) : (m.setQueue q).stock = m.stock := rfl
@[simp] theorem Mill.setQueue_book (m : Mill) (q : List (Fin 32)) : (m.setQueue q).book = m.book := rfl
@[simp] theorem Mill.setQueue_weigh (m : Mill) (q : List (Fin 32)) : (m.setQueue q).weigh = m.weigh := rfl
@[simp] theorem Mill.setQueue_lines (m : Mill) (q : List (Fin 32)) : (m.setQueue q).lines = m.lines := rfl
@[simp] theorem Mill.setQueue_pack (m : Mill) (q : List (Fin 32)) : (m.setQueue q).pack = m.pack := rfl
@[simp] theorem Mill.setQueue_trips (m : Mill) (q : List (Fin 32)) : (m.setQueue q).trips = m.trips := rfl
@[simp] theorem Mill.setQueue_returned (m : Mill) (q : List (Fin 32)) : (m.setQueue q).returned = m.returned := rfl
@[simp] theorem Mill.setQueue_notices (m : Mill) (q : List (Fin 32)) : (m.setQueue q).notices = m.notices := rfl
@[simp] theorem Mill.setQueue_outbox (m : Mill) (q : List (Fin 32)) : (m.setQueue q).outbox = m.outbox := rfl
@[simp] theorem Mill.setQueue_seq (m : Mill) (q : List (Fin 32)) : (m.setQueue q).seq = { m.seq with queue := q } := rfl
@[simp] theorem Mill.setQueue_reports (m : Mill) (q : List (Fin 32)) : (m.setQueue q).reports = m.reports ++ [.figure 6] := rfl
@[simp] theorem Mill.reportWait_plan (m : Mill) : m.reportWait.plan = m.plan := rfl
@[simp] theorem Mill.reportWait_actions (m : Mill) : m.reportWait.actions = m.actions := rfl
@[simp] theorem Mill.reportWait_checker (m : Mill) : m.reportWait.checker = m.checker := rfl
@[simp] theorem Mill.reportWait_stock (m : Mill) : m.reportWait.stock = m.stock := rfl
@[simp] theorem Mill.reportWait_book (m : Mill) : m.reportWait.book = m.book := rfl
@[simp] theorem Mill.reportWait_seq (m : Mill) : m.reportWait.seq = m.seq := rfl
@[simp] theorem Mill.reportWait_weigh (m : Mill) : m.reportWait.weigh = m.weigh := rfl
@[simp] theorem Mill.reportWait_lines (m : Mill) : m.reportWait.lines = m.lines := rfl
@[simp] theorem Mill.reportWait_pack (m : Mill) : m.reportWait.pack = m.pack := rfl
@[simp] theorem Mill.reportWait_trips (m : Mill) : m.reportWait.trips = m.trips := rfl
@[simp] theorem Mill.reportWait_returned (m : Mill) : m.reportWait.returned = m.returned := rfl
@[simp] theorem Mill.reportWait_notices (m : Mill) : m.reportWait.notices = m.notices := rfl
@[simp] theorem Mill.reportWait_outbox (m : Mill) : m.reportWait.outbox = m.outbox := rfl

/-! ### The Status Unit's reports -/

/-- A report touches the flag value and the condition word alone (R196, R197). -/
theorem Status.take_same (u : Status) (r : Report) : u.take r = { u with flags := (u.take r).flags, cond := (u.take r).cond } := by
  rcases r with f | ⟨f, _ | _⟩ | w <;> rfl

/-- The reports of a step touch the flag value and the condition word alone. -/
theorem Status.takes_same (rs : List Report) (u : Status) :
    rs.foldl Status.take u =
      { u with flags := (rs.foldl Status.take u).flags, cond := (rs.foldl Status.take u).cond } := by
  induction rs generalizing u with
  | nil => rfl
  | cons r rs ih => rw [List.foldl_cons, ih, Status.take_same u r]

@[simp] theorem Status.report_enable (u : Status) (rs : List Report) (c : Word) : (u.report rs c).enable = u.enable := by
  rw [Status.report, Status.takes_same]; rfl
@[simp] theorem Status.report_base (u : Status) (rs : List Report) (c : Word) : (u.report rs c).base = u.base := by
  rw [Status.report, Status.takes_same]; rfl
@[simp] theorem Status.report_depth (u : Status) (rs : List Report) (c : Word) : (u.report rs c).depth = u.depth := by
  rw [Status.report, Status.takes_same]; rfl
@[simp] theorem Status.report_hold (u : Status) (rs : List Report) (c : Word) : (u.report rs c).hold = u.hold := by
  rw [Status.report, Status.takes_same]; rfl
@[simp] theorem Status.report_active (u : Status) (rs : List Report) (c : Word) : (u.report rs c).active = u.active := by
  rw [Status.report, Status.takes_same]; rfl
@[simp] theorem Status.report_nonFinal (u : Status) (rs : List Report) (c : Word) :
    (u.report rs c).nonFinal = u.nonFinal := by
  rw [Status.report, Status.takes_same]; rfl
@[simp] theorem Status.report_cond (u : Status) (rs : List Report) (c : Word) : (u.report rs c).cond = c := rfl
@[simp] theorem Status.summarise_base (u : Status) (m : Mill) : (u.summarise m).base = u.base := by
  unfold Status.summarise; split <;> rfl

/-! ### An answer -/

@[simp] theorem Mill.postAnswer_plan (m : Mill) (a : Action) (r : Answer) : (m.postAnswer a r).plan = m.plan := rfl
@[simp] theorem Mill.postAnswer_actions (m : Mill) (a : Action) (r : Answer) :
    (m.postAnswer a r).actions = m.actions := rfl
@[simp] theorem Mill.postAnswer_checker (m : Mill) (a : Action) (r : Answer) :
    (m.postAnswer a r).checker = m.checker := rfl
@[simp] theorem Mill.postAnswer_stock (m : Mill) (a : Action) (r : Answer) : (m.postAnswer a r).stock = m.stock := rfl
@[simp] theorem Mill.postAnswer_book (m : Mill) (a : Action) (r : Answer) : (m.postAnswer a r).book = m.book := rfl
@[simp] theorem Mill.postAnswer_seq (m : Mill) (a : Action) (r : Answer) : (m.postAnswer a r).seq = m.seq := rfl
@[simp] theorem Mill.postAnswer_weigh (m : Mill) (a : Action) (r : Answer) : (m.postAnswer a r).weigh = m.weigh := rfl
@[simp] theorem Mill.postAnswer_lines (m : Mill) (a : Action) (r : Answer) : (m.postAnswer a r).lines = m.lines := rfl
@[simp] theorem Mill.postAnswer_pack (m : Mill) (a : Action) (r : Answer) : (m.postAnswer a r).pack = m.pack := rfl
@[simp] theorem Mill.postAnswer_trips (m : Mill) (a : Action) (r : Answer) : (m.postAnswer a r).trips = m.trips := rfl
@[simp] theorem Mill.postAnswer_returned (m : Mill) (a : Action) (r : Answer) :
    (m.postAnswer a r).returned = m.returned := rfl
@[simp] theorem Mill.postAnswer_notices (m : Mill) (a : Action) (r : Answer) :
    (m.postAnswer a r).notices = m.notices := rfl
@[simp] theorem Mill.postAnswer_reports (m : Mill) (a : Action) (r : Answer) :
    (m.postAnswer a r).reports = m.reports := rfl
@[simp] theorem Mill.answer_plan (m : Mill) (r : Answer) :
    (m.answer r).plan = m.plan := by unfold Mill.answer; split <;> rfl
@[simp] theorem Mill.answer_checker (m : Mill) (r : Answer) :
    (m.answer r).checker = m.checker := by unfold Mill.answer; split <;> rfl
@[simp] theorem Mill.answer_stock (m : Mill) (r : Answer) :
    (m.answer r).stock = m.stock := by unfold Mill.answer; split <;> rfl
@[simp] theorem Mill.answer_book (m : Mill) (r : Answer) :
    (m.answer r).book = m.book := by unfold Mill.answer; split <;> rfl
@[simp] theorem Mill.answer_seq (m : Mill) (r : Answer) :
    (m.answer r).seq = m.seq := by unfold Mill.answer; split <;> rfl
@[simp] theorem Mill.answer_weigh (m : Mill) (r : Answer) :
    (m.answer r).weigh = m.weigh := by unfold Mill.answer; split <;> rfl
@[simp] theorem Mill.answer_lines (m : Mill) (r : Answer) :
    (m.answer r).lines = m.lines := by unfold Mill.answer; split <;> rfl
@[simp] theorem Mill.answer_pack (m : Mill) (r : Answer) :
    (m.answer r).pack = m.pack := by unfold Mill.answer; split <;> rfl
@[simp] theorem Mill.answer_trips (m : Mill) (r : Answer) :
    (m.answer r).trips = m.trips := by unfold Mill.answer; split <;> rfl
@[simp] theorem Mill.answer_returned (m : Mill) (r : Answer) :
    (m.answer r).returned = m.returned := by unfold Mill.answer; split <;> rfl
@[simp] theorem Mill.answer_notices (m : Mill) (r : Answer) :
    (m.answer r).notices = m.notices := by unfold Mill.answer; split <;> rfl
@[simp] theorem Mill.answer_reports (m : Mill) (r : Answer) :
    (m.answer r).reports = m.reports := by unfold Mill.answer; split <;> rfl

/-! ### The parts of a step's end -/

@[simp] theorem State.postArrive_pending (s : State) :
    (s.postArrive).pending = s.pending := by unfold State.postArrive; split <;> (try split) <;> rfl
@[simp] theorem State.postArrive_rstN (s : State) :
    (s.postArrive).rstN = s.rstN := by unfold State.postArrive; split <;> (try split) <;> rfl
@[simp] theorem State.postArrive_strap (s : State) :
    (s.postArrive).strap = s.strap := by unfold State.postArrive; split <;> (try split) <;> rfl
@[simp] theorem State.postArrive_mem (s : State) :
    (s.postArrive).mem = s.mem := by unfold State.postArrive; split <;> (try split) <;> rfl
@[simp] theorem State.postArrive_tx (s : State) :
    (s.postArrive).tx = s.tx := by unfold State.postArrive; split <;> (try split) <;> rfl
@[simp] theorem State.postArrive_readData (s : State) :
    (s.postArrive).readData = s.readData := by unfold State.postArrive; split <;> (try split) <;> rfl
@[simp] theorem State.postArrive_bursts (s : State) :
    (s.postArrive).bursts = s.bursts := by unfold State.postArrive; split <;> (try split) <;> rfl
@[simp] theorem State.postArrive_windows (s : State) :
    (s.postArrive).windows = s.windows := by unfold State.postArrive; split <;> (try split) <;> rfl
@[simp] theorem State.postArrive_grantCount (s : State) :
    (s.postArrive).grantCount = s.grantCount := by unfold State.postArrive; split <;> (try split) <;> rfl
@[simp] theorem State.postArrive_refusal (s : State) :
    (s.postArrive).refusal = s.refusal := by unfold State.postArrive; split <;> (try split) <;> rfl
@[simp] theorem State.postArrive_lane (s : State) :
    (s.postArrive).lane = s.lane := by unfold State.postArrive; split <;> (try split) <;> rfl
@[simp] theorem State.postArrive_waiting (s : State) :
    (s.postArrive).waiting = s.waiting := by unfold State.postArrive; split <;> (try split) <;> rfl
@[simp] theorem State.postArrive_status (s : State) :
    (s.postArrive).status = s.status := by unfold State.postArrive; split <;> (try split) <;> rfl
@[simp] theorem State.settleStatus_pending (s : State) :
    (s.settleStatus).pending = s.pending := by unfold State.settleStatus; split <;> rfl
@[simp] theorem State.settleStatus_rstN (s : State) :
    (s.settleStatus).rstN = s.rstN := by unfold State.settleStatus; split <;> rfl
@[simp] theorem State.settleStatus_strap (s : State) :
    (s.settleStatus).strap = s.strap := by unfold State.settleStatus; split <;> rfl
@[simp] theorem State.settleStatus_mem (s : State) :
    (s.settleStatus).mem = s.mem := by unfold State.settleStatus; split <;> rfl
@[simp] theorem State.settleStatus_tx (s : State) :
    (s.settleStatus).tx = s.tx := by unfold State.settleStatus; split <;> rfl
@[simp] theorem State.settleStatus_readData (s : State) :
    (s.settleStatus).readData = s.readData := by unfold State.settleStatus; split <;> rfl
@[simp] theorem State.settleStatus_bursts (s : State) :
    (s.settleStatus).bursts = s.bursts := by unfold State.settleStatus; split <;> rfl
@[simp] theorem State.settleStatus_windows (s : State) :
    (s.settleStatus).windows = s.windows := by unfold State.settleStatus; split <;> rfl
@[simp] theorem State.settleStatus_grantCount (s : State) :
    (s.settleStatus).grantCount = s.grantCount := by unfold State.settleStatus; split <;> rfl
@[simp] theorem State.settleStatus_refusal (s : State) :
    (s.settleStatus).refusal = s.refusal := by unfold State.settleStatus; split <;> rfl
@[simp] theorem State.settleStatus_lane (s : State) :
    (s.settleStatus).lane = s.lane := by unfold State.settleStatus; split <;> rfl
@[simp] theorem State.settleStatus_waiting (s : State) :
    (s.settleStatus).waiting = s.waiting := by unfold State.settleStatus; split <;> rfl
@[simp] theorem State.flush_pending (s : State) : (s.flush).pending = s.pending := rfl
@[simp] theorem State.flush_rstN (s : State) : (s.flush).rstN = s.rstN := rfl
@[simp] theorem State.flush_strap (s : State) : (s.flush).strap = s.strap := rfl
@[simp] theorem State.flush_mem (s : State) : (s.flush).mem = s.mem := rfl
@[simp] theorem State.flush_tx (s : State) : (s.flush).tx = s.tx := rfl
@[simp] theorem State.flush_readData (s : State) : (s.flush).readData = s.readData := rfl
@[simp] theorem State.flush_bursts (s : State) : (s.flush).bursts = s.bursts := rfl
@[simp] theorem State.flush_windows (s : State) : (s.flush).windows = s.windows := rfl
@[simp] theorem State.flush_grantCount (s : State) : (s.flush).grantCount = s.grantCount := rfl
@[simp] theorem State.flush_refusal (s : State) : (s.flush).refusal = s.refusal := rfl
@[simp] theorem State.flush_status (s : State) : (s.flush).status = s.status := rfl
@[simp] theorem State.popAction_pending (s : State) :
    (s.popAction).pending = s.pending := by unfold State.popAction; split <;> rfl
@[simp] theorem State.popAction_rstN (s : State) :
    (s.popAction).rstN = s.rstN := by unfold State.popAction; split <;> rfl
@[simp] theorem State.popAction_strap (s : State) :
    (s.popAction).strap = s.strap := by unfold State.popAction; split <;> rfl
@[simp] theorem State.popAction_mem (s : State) :
    (s.popAction).mem = s.mem := by unfold State.popAction; split <;> rfl
@[simp] theorem State.popAction_tx (s : State) : (s.popAction).tx = s.tx := by unfold State.popAction; split <;> rfl
@[simp] theorem State.popAction_readData (s : State) :
    (s.popAction).readData = s.readData := by unfold State.popAction; split <;> rfl
@[simp] theorem State.popAction_bursts (s : State) :
    (s.popAction).bursts = s.bursts := by unfold State.popAction; split <;> rfl
@[simp] theorem State.popAction_windows (s : State) :
    (s.popAction).windows = s.windows := by unfold State.popAction; split <;> rfl
@[simp] theorem State.popAction_grantCount (s : State) :
    (s.popAction).grantCount = s.grantCount := by unfold State.popAction; split <;> rfl
@[simp] theorem State.popAction_refusal (s : State) :
    (s.popAction).refusal = s.refusal := by unfold State.popAction; split <;> rfl
@[simp] theorem State.popAction_lane (s : State) :
    (s.popAction).lane = s.lane := by unfold State.popAction; split <;> rfl
@[simp] theorem State.popAction_waiting (s : State) :
    (s.popAction).waiting = s.waiting := by unfold State.popAction; split <;> rfl
@[simp] theorem State.popAction_status (s : State) :
    (s.popAction).status = s.status := by unfold State.popAction; split <;> rfl
@[simp] theorem State.settleStatus_checker (s : State) :
    (s.settleStatus).mill.checker = s.mill.checker := by unfold State.settleStatus; split <;> rfl
@[simp] theorem State.completeTx_pending (s : State) :
    (s.completeTx).pending = s.pending := by unfold State.completeTx; split <;> (try split) <;> rfl
@[simp] theorem State.completeTx_rstN (s : State) :
    (s.completeTx).rstN = s.rstN := by unfold State.completeTx; split <;> (try split) <;> rfl
@[simp] theorem State.completeTx_strap (s : State) :
    (s.completeTx).strap = s.strap := by unfold State.completeTx; split <;> (try split) <;> rfl
@[simp] theorem State.completeTx_mem (s : State) :
    (s.completeTx).mem = s.mem := by unfold State.completeTx; split <;> (try split) <;> rfl
@[simp] theorem State.completeTx_readData (s : State) :
    (s.completeTx).readData = s.readData := by unfold State.completeTx; split <;> (try split) <;> rfl
@[simp] theorem State.completeTx_bursts (s : State) :
    (s.completeTx).bursts = s.bursts := by unfold State.completeTx; split <;> (try split) <;> rfl
@[simp] theorem State.completeTx_windows (s : State) :
    (s.completeTx).windows = s.windows := by unfold State.completeTx; split <;> (try split) <;> rfl
@[simp] theorem State.completeTx_grantCount (s : State) :
    (s.completeTx).grantCount = s.grantCount := by unfold State.completeTx; split <;> (try split) <;> rfl
@[simp] theorem State.completeTx_refusal (s : State) :
    (s.completeTx).refusal = s.refusal := by unfold State.completeTx; split <;> (try split) <;> rfl
@[simp] theorem State.completeTx_lane (s : State) :
    (s.completeTx).lane = s.lane := by unfold State.completeTx; split <;> (try split) <;> rfl
@[simp] theorem State.completeTx_waiting (s : State) :
    (s.completeTx).waiting = s.waiting := by unfold State.completeTx; split <;> (try split) <;> rfl
@[simp] theorem State.completeTx_status (s : State) :
    (s.completeTx).status = s.status := by unfold State.completeTx; split <;> (try split) <;> rfl
@[simp] theorem State.completeTx_plan (s : State) :
    (s.completeTx).mill.plan = s.mill.plan := by unfold State.completeTx; split <;> (try split) <;> rfl
@[simp] theorem State.completeTx_actions (s : State) :
    (s.completeTx).mill.actions = s.mill.actions := by unfold State.completeTx; split <;> (try split) <;> rfl
@[simp] theorem State.completeTx_stock (s : State) :
    (s.completeTx).mill.stock = s.mill.stock := by unfold State.completeTx; split <;> (try split) <;> rfl
@[simp] theorem State.completeTx_book (s : State) :
    (s.completeTx).mill.book = s.mill.book := by unfold State.completeTx; split <;> (try split) <;> rfl
@[simp] theorem State.completeTx_seq (s : State) :
    (s.completeTx).mill.seq = s.mill.seq := by unfold State.completeTx; split <;> (try split) <;> rfl
@[simp] theorem State.completeTx_weigh (s : State) :
    (s.completeTx).mill.weigh = s.mill.weigh := by unfold State.completeTx; split <;> (try split) <;> rfl
@[simp] theorem State.completeTx_lines (s : State) :
    (s.completeTx).mill.lines = s.mill.lines := by unfold State.completeTx; split <;> (try split) <;> rfl
@[simp] theorem State.completeTx_pack (s : State) :
    (s.completeTx).mill.pack = s.mill.pack := by unfold State.completeTx; split <;> (try split) <;> rfl
@[simp] theorem State.completeTx_trips (s : State) :
    (s.completeTx).mill.trips = s.mill.trips := by unfold State.completeTx; split <;> (try split) <;> rfl
@[simp] theorem State.completeTx_returned (s : State) :
    (s.completeTx).mill.returned = s.mill.returned := by unfold State.completeTx; split <;> (try split) <;> rfl
@[simp] theorem State.completeTx_notices (s : State) :
    (s.completeTx).mill.notices = s.mill.notices := by unfold State.completeTx; split <;> (try split) <;> rfl
@[simp] theorem State.completeTx_outbox (s : State) :
    (s.completeTx).mill.outbox = s.mill.outbox := by unfold State.completeTx; split <;> (try split) <;> rfl
@[simp] theorem State.completeTx_reports (s : State) :
    (s.completeTx).mill.reports = s.mill.reports := by unfold State.completeTx; split <;> (try split) <;> rfl

/-! ### The words written -/

@[simp] theorem Mill.updOrder_order (m : Mill) (o : Fin 256) (f : Order → Order) :
    (m.updOrder o f).order o = f (m.order o) := by simp [Mill.updOrder, Mill.order]
@[simp] theorem Mill.updBin_bin (m : Mill) (i : Fin 48) (f : Bin → Bin) :
    getAt (m.updBin i f).stock.bins i = (f (getAt m.stock.bins i)).judge := by simp [Mill.updBin]
@[simp] theorem Mill.updBatch_batch (m : Mill) (p : Block) (b : Fin 32) (f : Batch → Batch) :
    (m.updBatch p b f).batch b = f (m.batch b) := by simp [Mill.updBatch, Mill.batch]
@[simp] theorem Mill.updTrip_trip (m : Mill) (t : Fin 8) (f : Trip → Trip) :
    (m.updTrip t f).trip t = f (m.trip t) := by simp [Mill.updTrip, Mill.trip]
@[simp] theorem Mill.updMixer_mixer (m : Mill) (f : MixerCtl → MixerCtl) :
    (m.updMixer f).weigh.mixer = f m.weigh.mixer := by simp [Mill.updMixer]
@[simp] theorem Mill.updBagger_bagger (m : Mill) (f : Bagger → Bagger) :
    (m.updBagger f).pack.bagger = f m.pack.bagger := by simp [Mill.updBagger]
@[simp] theorem Mill.updLoadout_loadout (m : Mill) (f : Loadout → Loadout) :
    (m.updLoadout f).pack.loadout = f m.pack.loadout := by simp [Mill.updLoadout]
@[simp] theorem Mill.updScale_scale (m : Mill) (sc : Scale) (f : ScaleCtl → ScaleCtl) :
    (m.updScale sc f).scale sc = f (m.scale sc) := by cases sc <;> simp [Mill.updScale, Mill.scale, WeighMix.setScale]

@[simp] theorem Mill.updScale_otherScale (m : Mill) (sc : Scale) (f : ScaleCtl → ScaleCtl) :
    (m.updScale sc f).scale (otherScale sc) = m.scale (otherScale sc) := by
  cases sc <;> simp [Mill.updScale, Mill.scale, WeighMix.setScale, otherScale]
/-- The lines after a change of them: as the change makes them, the line's rate judged afresh (R146, R148). -/
theorem Mill.updLines_lines (m : Mill) (l : Line) (f : Lines → Lines) :
    (m.updLines l f).lines = (f m.lines).setLine l
      { (f m.lines).line l with rate := ({ m with lines := f m.lines } : Mill).rateOf l } := by
  simp [Mill.updLines, Mill.lineCtl]

/-- Every other order is unchanged. -/
theorem Mill.updOrder_other (m : Mill) (o p : Fin 256) (f : Order → Order) (h : p ≠ o) :
    (m.updOrder o f).order p = m.order p := by simp [Mill.updOrder, Mill.order, getAt_putAt_ne _ _ _ _ h]

/-- Every other bin is unchanged. -/
theorem Mill.updBin_other (m : Mill) (i j : Fin 48) (f : Bin → Bin) (h : j ≠ i) :
    getAt (m.updBin i f).stock.bins j = getAt m.stock.bins j := by simp [Mill.updBin, getAt_putAt_ne _ _ _ _ h]

/-- Every other batch is unchanged. -/
theorem Mill.updBatch_other (m : Mill) (p : Block) (b c : Fin 32) (f : Batch → Batch) (h : c ≠ b) :
    (m.updBatch p b f).batch c = m.batch c := by simp [Mill.updBatch, Mill.batch, getAt_putAt_ne _ _ _ _ h]

/-- Every other trip is unchanged. -/
theorem Mill.updTrip_other (m : Mill) (t u : Fin 8) (f : Trip → Trip) (h : u ≠ t) :
    (m.updTrip t f).trip u = m.trip u := by simp [Mill.updTrip, Mill.trip, getAt_putAt_ne _ _ _ _ h]

end Sys2Proof.Machine
end

