-- ==== Sys2Proof/Laws/Accounts.lean ====
section
/-! SUPPORT. What the Order Book's shared operations do: use counts (R75), the release list (R91), the end of an order. -/

namespace Sys2Proof.Machine

/-- An entry of a table is in its list form. -/
theorem toList_any {α : Type} {n : Nat} (v : Vector α n) (p : α → Bool) :
    v.toList.any p = true ↔ ∃ i, p (getAt v i) = true := by
  rw [List.any_eq_true]
  constructor
  · rintro ⟨x, hx, hp⟩
    obtain ⟨i, hi, rfl⟩ := List.mem_iff_getElem.1 hx
    simp only [Vector.length_toList] at hi
    exact ⟨⟨i, hi⟩, by simpa [getAt] using hp⟩
  · rintro ⟨i, hp⟩
    exact ⟨getAt v i, by simp [getAt], hp⟩

/-- What the changed words of a record post is posted by the block that changes it. -/
theorem postChanged_posts (p : Block) (k : RecordKind) (i : Nat) (f g : Nat → Word) (ws : List Nat) (m : Mill) :
    ∃ more, (m.postChanged p k i ws f g).outbox = m.outbox ++ more ∧ ∀ e ∈ more, e.poster = p := by
  induction ws generalizing m with
  | nil => exact ⟨[], by simp [Mill.postChanged], by simp⟩
  | cons w ws ih =>
    by_cases h : f w = g w
    · obtain ⟨a, h1, h2⟩ := ih m
      exact ⟨a, by rw [← h1]; simp [Mill.postChanged, h], h2⟩
    · obtain ⟨a, h1, h2⟩ := ih (m.postRecord p k i w (g w))
      have h3 : ∃ e : LaneEntry, (m.postRecord p k i w (g w)).outbox = m.outbox ++ [e] ∧ e.poster = p := ⟨_, rfl, rfl⟩
      obtain ⟨e, h3, h4⟩ := h3
      refine ⟨e :: a, ?_, ?_⟩
      · have : m.postChanged p k i (w :: ws) f g = (m.postRecord p k i w (g w)).postChanged p k i ws f g := by
          simp [Mill.postChanged, h]
        rw [this, h1, h3, List.append_assoc]; rfl
      · intro x hx
        rcases List.mem_cons.1 hx with rfl | hx
        · exact h4
        · exact h2 x hx

/-- What a change of an order posts is posted by the Order Book. -/
theorem updOrder_posts (m : Mill) (o : Fin 256) (f : Order → Order) :
    ∃ more, (m.updOrder o f).outbox = m.outbox ++ more ∧ ∀ e ∈ more, e.poster = .orderBook := by
  unfold Mill.updOrder
  exact postChanged_posts _ _ _ _ _ _ _

/-! ### Use counts (R75) -/

/-- The use counts of a chain change the use counts and what is posted alone. -/
theorem useSlots_same (f : Nat → Nat) (ss : List Nat) (m : Mill) :
    m.useSlots f ss = { m with
      book := { m.book with useCount := (m.useSlots f ss).book.useCount }, outbox := (m.useSlots f ss).outbox } := by
  induction ss generalizing m with
  | nil => rfl
  | cons x xs ih =>
    have h1 : m.useSlots f (x :: xs) = (m.useSlots f [x]).useSlots f xs := rfl
    have h2 : m.useSlots f [x] = { m with
        book := { m.book with useCount := (m.useSlots f [x]).book.useCount }, outbox := (m.useSlots f [x]).outbox } := by
      simp only [Mill.useSlots, List.foldl_cons, List.foldl_nil]
      cases toSlot x <;> rfl
    rw [h1, ih]
    generalize (Mill.useSlots (m.useSlots f [x]) f xs).book.useCount = u
    generalize (Mill.useSlots (m.useSlots f [x]) f xs).outbox = o
    rw [h2]

@[simp] theorem Mill.useSlots_plan (f ss) (m : Mill) : (m.useSlots f ss).plan = m.plan := by rw [useSlots_same]
@[simp] theorem Mill.useSlots_actions (f ss) (m : Mill) : (m.useSlots f ss).actions = m.actions := by rw [useSlots_same]
@[simp] theorem Mill.useSlots_checker (f ss) (m : Mill) : (m.useSlots f ss).checker = m.checker := by rw [useSlots_same]
@[simp] theorem Mill.useSlots_stock (f ss) (m : Mill) : (m.useSlots f ss).stock = m.stock := by rw [useSlots_same]
@[simp] theorem Mill.useSlots_orders (f ss) (m : Mill) : (m.useSlots f ss).book.orders = m.book.orders := by
  rw [useSlots_same]
@[simp] theorem Mill.useSlots_releaseList (f ss) (m : Mill) :
    (m.useSlots f ss).book.releaseList = m.book.releaseList := by rw [useSlots_same]
@[simp] theorem Mill.useSlots_interlock (f ss) (m : Mill) : (m.useSlots f ss).book.interlock = m.book.interlock := by
  rw [useSlots_same]
@[simp] theorem Mill.useSlots_planMark (f ss) (m : Mill) : (m.useSlots f ss).book.planMark = m.book.planMark := by
  rw [useSlots_same]
@[simp] theorem Mill.useSlots_seq (f ss) (m : Mill) : (m.useSlots f ss).seq = m.seq := by rw [useSlots_same]
@[simp] theorem Mill.useSlots_weigh (f ss) (m : Mill) : (m.useSlots f ss).weigh = m.weigh := by rw [useSlots_same]
@[simp] theorem Mill.useSlots_lines (f ss) (m : Mill) : (m.useSlots f ss).lines = m.lines := by rw [useSlots_same]
@[simp] theorem Mill.useSlots_pack (f ss) (m : Mill) : (m.useSlots f ss).pack = m.pack := by rw [useSlots_same]
@[simp] theorem Mill.useSlots_trips (f ss) (m : Mill) : (m.useSlots f ss).trips = m.trips := by rw [useSlots_same]
@[simp] theorem Mill.useSlots_returned (f ss) (m : Mill) : (m.useSlots f ss).returned = m.returned := by rw [useSlots_same]
@[simp] theorem Mill.useSlots_notices (f ss) (m : Mill) : (m.useSlots f ss).notices = m.notices := by rw [useSlots_same]
@[simp] theorem Mill.useSlots_reports (f ss) (m : Mill) : (m.useSlots f ss).reports = m.reports := by rw [useSlots_same]
@[simp] theorem Mill.useSlots_order (f ss) (m : Mill) (o : Fin 256) : (m.useSlots f ss).order o = m.order o := by
  simp [Mill.order]

/-- What the use counts of a chain post is posted by the Order Book. -/
theorem useSlots_posts (f : Nat → Nat) (ss : List Nat) (m : Mill) :
    ∃ more, (m.useSlots f ss).outbox = m.outbox ++ more ∧ ∀ e ∈ more, e.poster = .orderBook := by
  induction ss generalizing m with
  | nil => exact ⟨[], by simp [Mill.useSlots]⟩
  | cons x xs ih =>
    have h1 : m.useSlots f (x :: xs) = (m.useSlots f [x]).useSlots f xs := rfl
    obtain ⟨a, ha, ha'⟩ := ih (m.useSlots f [x])
    rw [h1, ha]
    have : ∃ more, (m.useSlots f [x]).outbox = m.outbox ++ more ∧ ∀ e ∈ more, e.poster = .orderBook := by
      simp only [Mill.useSlots, List.foldl_cons, List.foldl_nil]
      cases toSlot x with
      | none => exact ⟨[], by simp⟩
      | some t => exact ⟨_, rfl, by simp⟩
    obtain ⟨b, hb, hb'⟩ := this
    exact ⟨b ++ a, by rw [hb, List.append_assoc], fun e he => (List.mem_append.1 he).elim (hb' e) (ha' e)⟩

/-- One slot's use count after the use counts of a chain have changed. -/
theorem useSlots_count (f : Nat → Nat) (ss : List Nat) (m : Mill) (n : Fin 256) :
    getAt (m.useSlots f ss).book.useCount n = f^[ss.count n.val] (getAt m.book.useCount n) := by
  induction ss generalizing m with
  | nil => rfl
  | cons x xs ih =>
    have h1 : m.useSlots f (x :: xs) = (m.useSlots f [x]).useSlots f xs := rfl
    rw [h1, ih]
    simp only [Mill.useSlots, List.foldl_cons, List.foldl_nil, toSlot]
    by_cases hx : x < 256
    · simp only [hx, dite_true]
      by_cases hn : n = ⟨x, hx⟩
      · subst hn
        simp [Mill.postUse, Mill.postRecord, Mill.post, Function.iterate_succ]
      · have : x ≠ n.val := fun e => hn (Fin.ext e.symm)
        simp [Mill.postUse, Mill.postRecord, Mill.post, getAt_putAt_ne _ _ _ _ hn, this]
    · have : x ≠ n.val := fun e => hx (e ▸ n.isLt)
      simp [hx, this]

/-- A raise of the use counts adds the slot's occurrences. -/
theorem raiseUse_count (ss : List Nat) (m : Mill) (n : Fin 256) :
    getAt (m.raiseUse ss).book.useCount n = getAt m.book.useCount n + ss.count n.val := by
  unfold Mill.raiseUse
  rw [useSlots_count]
  generalize ss.count n.val = k
  generalize getAt m.book.useCount n = a
  induction k generalizing a with
  | zero => rfl
  | succ k ih => rw [Function.iterate_succ, Function.comp, ih]; omega

/-- A fall of the use counts takes the slot's occurrences off. -/
theorem lowerUse_count (ss : List Nat) (m : Mill) (n : Fin 256) :
    getAt (m.lowerUse ss).book.useCount n = getAt m.book.useCount n - ss.count n.val := by
  unfold Mill.lowerUse
  rw [useSlots_count]
  generalize ss.count n.val = k
  generalize getAt m.book.useCount n = a
  induction k generalizing a with
  | zero => rfl
  | succ k ih => rw [Function.iterate_succ, Function.comp, ih]; omega

/-! ### Orders -/

@[simp] theorem Mill.updEntry_order (m : Mill) (o : Fin 256) (f : OrderEntry → OrderEntry) :
    (m.updEntry o f).order o = { m.order o with entry := (m.order o).entry.map f } := by
  simp [Mill.updEntry, Mill.order]

theorem Mill.updEntry_other (m : Mill) (o p : Fin 256) (f : OrderEntry → OrderEntry) (h : p ≠ o) :
    (m.updEntry o f).order p = m.order p := by
  simp [Mill.updEntry, Mill.order, getAt_putAt_ne _ _ _ _ h]

/-- An order off the release list: the list without it, the pass at its place; nothing else changes. -/
theorem leaveList_same (m : Mill) (o : Fin 256) :
    m.leaveList o = { m with
      book := { m.book with releaseList := (m.leaveList o).book.releaseList }
      seq := { m.seq with pass := (m.leaveList o).seq.pass } } ∧ o ∉ (m.leaveList o).book.releaseList := by
  unfold Mill.leaveList
  split
  · rename_i h
    refine ⟨rfl, ?_⟩
    rw [List.findIdx?_eq_none_iff] at h
    intro hm
    simpa using h o hm
  · exact ⟨rfl, by simp⟩

/-- The end of an order: changed as named without its entry, its chain's use counts lowered. -/
theorem giveUp_does (m : Mill) (o : Fin 256) (f : Order → Order) :
    (m.giveUp o f).order o = { f (m.order o) with entry := none } ∧
    (∀ p, p ≠ o → (m.giveUp o f).order p = m.order p) ∧
    (m.giveUp o f).book.releaseList = m.book.releaseList ∧ (m.giveUp o f).book.interlock = m.book.interlock ∧
    (∀ n : Fin 256, getAt (m.giveUp o f).book.useCount n =
      getAt m.book.useCount n - (m.order o).slots.count n.val) ∧
    (m.giveUp o f).stock = m.stock ∧ (m.giveUp o f).seq = m.seq ∧ (m.giveUp o f).weigh = m.weigh ∧
    (m.giveUp o f).lines = m.lines ∧ (m.giveUp o f).pack = m.pack ∧ (m.giveUp o f).trips = m.trips ∧
    (m.giveUp o f).plan = m.plan ∧ (m.giveUp o f).actions = m.actions ∧ (m.giveUp o f).notices = m.notices := by
  unfold Mill.giveUp
  refine ⟨?_, ?_, ?_, ?_, ?_, ?_, ?_, ?_, ?_, ?_, ?_, ?_, ?_, ?_⟩
  · simp [Mill.lowerUse]
  · intro p hp; simp [Mill.lowerUse, Mill.updOrder_other _ _ _ _ hp]
  · simp [Mill.lowerUse, Mill.updOrder]
  · simp [Mill.lowerUse, Mill.updOrder]
  · intro n; rw [lowerUse_count]; simp [Mill.updOrder]
  all_goals simp [Mill.lowerUse]

end Sys2Proof.Machine
end

