-- ==== Sys2Proof/Laws/Lane.lean ====
section
/-! SUPPORT. The internal lane: its length, and that no two of its writes are to the same word (R13 to R15). -/

namespace Sys2Proof.Machine

theorem writtenWords_append (a b : List LaneEntry) : writtenWords (a ++ b) = writtenWords a ++ writtenWords b := by
  simp [writtenWords]

/-- A merge keeps the lane's length and the words written. -/
theorem laneMerge_some {e : LaneEntry} {lane lane' : List LaneEntry} (h : laneMerge e lane = some lane') :
    lane'.length = lane.length ∧ writtenWords lane' = writtenWords lane := by
  induction lane generalizing lane' with
  | nil => simp [laneMerge] at h
  | cons x t ih =>
    obtain ⟨p, a, op⟩ := x
    unfold laneMerge at h
    cases op with
    | read tag =>
      simp only [Option.map_eq_some_iff] at h
      obtain ⟨l, hl, rfl⟩ := h
      have := ih hl
      simp [writtenWords] at this ⊢
      exact this
    | write k d n =>
      cases he : e.op with
      | read tag =>
        simp only [he, Option.map_eq_some_iff] at h
        obtain ⟨l, hl, rfl⟩ := h
        have := ih hl
        simp [writtenWords] at this ⊢
        exact this
      | write k' d' n' =>
        simp only [he] at h
        split at h
        · cases h
          simp [writtenWords]
        · simp only [Option.map_eq_some_iff] at h
          obtain ⟨l, hl, rfl⟩ := h
          have := ih hl
          simp [writtenWords] at this ⊢
          exact this

/-- A write that merges nowhere is to a word no write of the lane is to. -/
theorem laneMerge_none {e : LaneEntry} {k : Lanes} {d : Word} {n : LandNote} (he : e.op = .write k d n)
    {lane : List LaneEntry} (h : laneMerge e lane = none) : e.addr ∉ writtenWords lane := by
  induction lane with
  | nil => simp [writtenWords]
  | cons x t ih =>
    obtain ⟨p, a, op⟩ := x
    unfold laneMerge at h
    cases op with
    | read tag =>
      simp only [Option.map_eq_none_iff] at h
      have := ih h
      simpa [writtenWords] using this
    | write k' d' n' =>
      simp only [he] at h
      split at h
      · cases h
      · rename_i hne
        simp only [Option.map_eq_none_iff] at h
        have := ih h
        simp [writtenWords] at this ⊢
        exact ⟨fun hh => hne hh.symm, this⟩

/-- A post at the tail of a lane with a free entry, where it merges nowhere. -/
theorem laneOk_append {e : LaneEntry} {lane : List LaneEntry} (h : laneOk lane) (hl : lane.length < Config.laneDepth)
    (hm : laneMerge e lane = none) : laneOk (lane ++ [e]) := by
  refine ⟨by simp; omega, ?_⟩
  rw [writtenWords_append]
  cases he : e.op with
  | read tag => simpa [writtenWords, he] using h.2
  | write k d n =>
    have hn := laneMerge_none he hm
    have : writtenWords [e] = [e.addr] := by simp [writtenWords, he]
    rw [this]
    exact List.Nodup.append h.2 (List.nodup_singleton _) (by simpa using hn)

/-- A merge keeps the lane. -/
theorem laneOk_merge {e : LaneEntry} {lane lane' : List LaneEntry} (h : laneOk lane) (hm : laneMerge e lane = some lane') :
    laneOk lane' := by
  have := laneMerge_some hm
  exact ⟨by rw [this.1]; exact h.1, by rw [this.2]; exact h.2⟩

/-- A post offered keeps the lane (R14, R15). -/
theorem laneOk_offer {p : List LaneEntry × List Waiter} (e : LaneEntry) (h : laneOk p.1) : laneOk (offer p e).1 := by
  unfold offer
  split
  · exact h
  · split
    · rename_i hm
      exact laneOk_merge h hm
    · rename_i hm
      split
      · rename_i hf
        simp only [Bool.and_eq_true, decide_eq_true_eq] at hf
        exact laneOk_append h hf.2 hm
      · exact h

/-- Posts offered in order keep the lane. -/
theorem laneOk_offers (es : List LaneEntry) {p : List LaneEntry × List Waiter} (h : laneOk p.1) :
    laneOk (es.foldl offer p).1 := by
  induction es generalizing p with
  | nil => exact h
  | cons e es ih => exact ih (laneOk_offer e h)

/-- The posts at the front that merge keep the lane. -/
theorem laneOk_mergeRun (es : List LaneEntry) {lane : List LaneEntry} (h : laneOk lane) : laneOk (mergeRun lane es).1 := by
  induction es generalizing lane with
  | nil => exact h
  | cons e es ih =>
    unfold mergeRun
    split
    · rename_i hm
      exact ih (laneOk_merge h hm)
    · exact h

/-- An admitted post keeps the lane (R15). -/
theorem laneOk_admitPost {lane : List LaneEntry} (waiting : List Waiter) (h : laneOk lane) :
    laneOk (admitPost lane waiting).1 := by
  unfold admitPost
  split
  · exact h
  · rename_i w ws
    split
    · rename_i hl
      split
      · exact h
      · rename_i e es _
        have key : ∀ l : List LaneEntry, laneOk l →
            laneOk (if (mergeRun l es).2.isEmpty = true then ((mergeRun l es).1, ws)
              else ((mergeRun l es).1, (⟨w.block, (mergeRun l es).2⟩ : Waiter) :: ws)).1 := by
          intro l hok
          have := laneOk_mergeRun es hok
          split <;> exact this
        dsimp only
        split
        · rename_i hm
          exact key _ (laneOk_merge h hm)
        · rename_i hm
          exact key _ (laneOk_append h hl hm)
    · exact h

/-- A lane whose head is granted. -/
theorem laneOk_tail {e : LaneEntry} {rest : List LaneEntry} (h : laneOk (e :: rest)) : laneOk rest := by
  refine ⟨by have := h.1; simp at this; omega, ?_⟩
  have h2 := h.2
  rw [show e :: rest = [e] ++ rest from rfl, writtenWords_append] at h2
  exact (List.nodup_append.1 h2).2.1

/-- The flag-word data replaced in the lane (R12). -/
theorem laneOk_replaceData {a : Addr} {d : Word} {lane : List LaneEntry} (h : laneOk lane) :
    laneOk (replaceData a d lane) := by
  have hw : writtenWords (replaceData a d lane) = writtenWords lane := by
    unfold writtenWords replaceData
    rw [List.filterMap_map]
    apply List.filterMap_congr
    intro e _
    obtain ⟨p, b, op⟩ := e
    cases op with
    | read t => rfl
    | write k d' n =>
      simp only [Function.comp]
      by_cases hb : b = a <;> simp [hb]
  exact ⟨by simpa [replaceData] using h.1, by rw [hw]; exact h.2⟩

/-- Reads discarded in the lane (R23, R24, R74). -/
theorem laneOk_discard {p : ReadTag → Bool} {lane : List LaneEntry} (h : laneOk lane) :
    laneOk (lane.map (·.discard p)) := by
  have hw : writtenWords (lane.map (·.discard p)) = writtenWords lane := by
    unfold writtenWords
    rw [List.filterMap_map]
    apply List.filterMap_congr
    intro e _
    obtain ⟨q, b, op⟩ := e
    cases op with
    | read t =>
      simp only [Function.comp, LaneEntry.discard]
      by_cases hp : p t <;> simp [hp]
    | write k d' n => rfl
  exact ⟨by simpa using h.1, by rw [hw]; exact h.2⟩

end Sys2Proof.Machine
end

