-- ==== Sys2Proof/Laws/Finish.lean ====
section
/-! SUPPORT. What the end of a step (State.finish) can change and what it keeps, whatever the step did. -/

namespace Sys2Proof.Machine

/-! ### Waiting blocks (R15) -/

/-- A post offered makes no block wait twice. -/
theorem waiters_offer {p : List LaneEntry × List Waiter} (e : LaneEntry) (h : (p.2.map (·.block)).Nodup) :
    ((offer p e).2.map (·.block)).Nodup := by
  unfold offer
  split
  · have : (p.2.map (fun w => if w.block = e.poster then { w with posts := w.posts ++ [e] } else w)).map (·.block)
        = p.2.map (·.block) := by
      rw [List.map_map]
      apply List.map_congr_left
      intro w _
      simp only [Function.comp]
      split <;> rfl
    simpa [this] using h
  · rename_i hany
    split
    · exact h
    · split
      · exact h
      · simp only [List.map_append, List.map_cons, List.map_nil]
        refine List.Nodup.append h (List.nodup_singleton _) ?_
        simp only [List.disjoint_singleton, List.mem_map, not_exists, not_and]
        intro w hw heq
        apply hany
        simp only [List.any_eq_true, decide_eq_true_eq]
        exact ⟨w, hw, heq⟩

/-- Posts offered make no block wait twice. -/
theorem waiters_offers (es : List LaneEntry) {p : List LaneEntry × List Waiter} (h : (p.2.map (·.block)).Nodup) :
    ((es.foldl offer p).2.map (·.block)).Nodup := by
  induction es generalizing p with
  | nil => exact h
  | cons e es ih => exact ih (waiters_offer e h)

/-- An admitted post makes no block wait twice. -/
theorem waiters_admitPost (lane : List LaneEntry) {ws : List Waiter} (h : (ws.map (·.block)).Nodup) :
    ((admitPost lane ws).2.map (·.block)).Nodup := by
  unfold admitPost
  split
  · exact h
  · rename_i w ws
    simp only [List.map_cons, List.nodup_cons] at h
    split
    · split
      · exact h.2
      · rename_i e es _
        have key : ∀ l : List LaneEntry,
            ((if (mergeRun l es).2.isEmpty = true then ((mergeRun l es).1, ws)
              else ((mergeRun l es).1, (⟨w.block, (mergeRun l es).2⟩ : Waiter) :: ws)).2.map (·.block)).Nodup := by
          intro l
          split
          · exact h.2
          · exact List.nodup_cons.2 h
        dsimp only
        split <;> exact key _
    · exact List.nodup_cons.2 h

/-! ### Lengths -/

/-- A post offered does not shorten the lane. -/
theorem length_offer (p : List LaneEntry × List Waiter) (e : LaneEntry) : p.1.length ≤ (offer p e).1.length := by
  unfold offer
  split
  · exact Nat.le_refl _
  · split
    · rename_i hm
      exact Nat.le_of_eq (laneMerge_some hm).1.symm
    · split
      · simp
      · exact Nat.le_refl _

/-- Posts offered do not shorten the lane. -/
theorem length_offers (es : List LaneEntry) (p : List LaneEntry × List Waiter) :
    p.1.length ≤ (es.foldl offer p).1.length := by
  induction es generalizing p with
  | nil => exact Nat.le_refl _
  | cons e es ih => exact Nat.le_trans (length_offer p e) (ih _)

/-- The posts at the front that merge do not shorten the lane. -/
theorem length_mergeRun (es lane : List LaneEntry) : lane.length ≤ (mergeRun lane es).1.length := by
  induction es generalizing lane with
  | nil => exact Nat.le_refl _
  | cons e es ih =>
    unfold mergeRun
    split
    · rename_i hm
      exact Nat.le_trans (Nat.le_of_eq (laneMerge_some hm).1.symm) (ih _)
    · exact Nat.le_refl _

/-- An admitted post does not shorten the lane. -/
theorem length_admitPost (lane : List LaneEntry) (ws : List Waiter) : lane.length ≤ (admitPost lane ws).1.length := by
  unfold admitPost
  split
  · exact Nat.le_refl _
  · rename_i w ws
    split
    · split
      · exact Nat.le_refl _
      · rename_i e es _
        have key : ∀ l : List LaneEntry, lane.length ≤ l.length →
            lane.length ≤ (if (mergeRun l es).2.isEmpty = true then ((mergeRun l es).1, ws)
              else ((mergeRun l es).1, (⟨w.block, (mergeRun l es).2⟩ : Waiter) :: ws)).1.length := by
          intro l hl
          have := Nat.le_trans hl (length_mergeRun es l)
          split <;> exact this
        dsimp only
        split
        · rename_i hm
          exact key _ (Nat.le_of_eq (laneMerge_some hm).1.symm)
        · exact key _ (by simp)
    · exact Nat.le_refl _

/-- A longer lane still holds a hold target. -/
theorem holdOk_longer {tx : Option Tx} {lane lane' : List LaneEntry} (h : holdOk tx lane)
    (hl : lane.length ≤ lane'.length) : holdOk tx lane' := by
  unfold holdOk at *
  split at h
  · exact Nat.le_trans h hl
  · trivial

/-! ### The Status Unit -/

/-- Bits outside k stay outside it under OR. -/
theorem or_within {a b k : Word} (ha : a &&& ~~~k = 0) (hb : b &&& ~~~k = 0) : (a ||| b) &&& ~~~k = 0 := by
  rw [BitVec.and_comm, BitVec.and_or_distrib_left, BitVec.and_comm, ha, BitVec.and_comm, hb]
  rfl

/-- A part of a word has no bit outside k that the word has not. -/
theorem and_within {a k : Word} (b : Word) (ha : a &&& ~~~k = 0) : (a &&& b) &&& ~~~k = 0 := by
  rw [BitVec.and_assoc, BitVec.and_comm b, ← BitVec.and_assoc, ha]
  simp

/-- A word within k is its own part in k. -/
theorem and_of_within {a k : Word} (ha : a &&& ~~~k = 0) : a &&& k = a := by
  apply BitVec.eq_of_getLsbD_eq
  intro i hi
  have := congrArg (fun w : Word => w.getLsbD i) ha
  simp only [BitVec.getLsbD_and, BitVec.getLsbD_not, hi, decide_true, Bool.true_and] at this ⊢
  revert this
  cases a.getLsbD i <;> cases k.getLsbD i <;> simp

/-- What holds now stays within the flags set by what turned true. -/
theorem held_within {c c' f : Word} (h : c &&& ~~~f = 0) : c' &&& ~~~(f ||| (c' &&& ~~~c)) = 0 := by
  apply BitVec.eq_of_getLsbD_eq
  intro i hi
  have := congrArg (fun w : Word => w.getLsbD i) h
  simp only [BitVec.getLsbD_and, BitVec.getLsbD_or, BitVec.getLsbD_not, hi, decide_true, Bool.true_and] at this ⊢
  revert this
  cases f.getLsbD i <;> cases c.getLsbD i <;> cases c'.getLsbD i <;> simp

/-- What is within the flags stays within more of them. -/
theorem held_mono {c f e : Word} (h : c &&& ~~~f = 0) : c &&& ~~~(f ||| e) = 0 := by
  apply BitVec.eq_of_getLsbD_eq
  intro i hi
  have := congrArg (fun w : Word => w.getLsbD i) h
  simp only [BitVec.getLsbD_and, BitVec.getLsbD_or, BitVec.getLsbD_not, hi, decide_true, Bool.true_and] at this ⊢
  revert this
  cases f.getLsbD i <;> cases e.getLsbD i <;> cases c.getLsbD i <;> simp

/-- A condition's bit is one of the condition flags' bits. -/
theorem conditionMask_within (f : Flag) : f.conditionMask &&& ~~~(flagsOf conditionFlags) = 0 := by cases f <;> decide

/-- The bits of every flag are among the seventeen. -/
theorem flagsOf_all (fs : List Flag) : flagsOf fs &&& ~~~allFlags = 0 := by
  have step : ∀ (f : Flag) (w : Word), w &&& ~~~allFlags = 0 → (w ||| f.mask) &&& ~~~allFlags = 0 := by
    intro f w hw
    rw [BitVec.and_comm, BitVec.and_or_distrib_left, BitVec.and_comm, hw]
    cases f <;> decide
  have fold : ∀ (fs : List Flag) (w : Word), w &&& ~~~allFlags = 0 →
      (fs.foldl (fun w f => w ||| f.mask) w) &&& ~~~allFlags = 0 := by
    intro fs
    induction fs with
    | nil => exact fun w hw => hw
    | cons f fs ih => exact fun w hw => ih _ (step f w hw)
  exact fold fs 0 (by decide)

/-- The bits of some condition flags are among those of all. -/
theorem flagsOf_filter (p : Flag → Bool) : flagsOf (conditionFlags.filter p) &&& ~~~(flagsOf conditionFlags) = 0 := by
  have step : ∀ (f : Flag) (w : Word), f ∈ conditionFlags → w &&& ~~~(flagsOf conditionFlags) = 0 →
      (w ||| f.mask) &&& ~~~(flagsOf conditionFlags) = 0 := by
    intro f w hf hw
    rw [BitVec.and_comm, BitVec.and_or_distrib_left, BitVec.and_comm, hw]
    revert hf
    cases f <;> decide
  have fold : ∀ (fs : List Flag) (w : Word), (∀ f ∈ fs, f ∈ conditionFlags) → w &&& ~~~(flagsOf conditionFlags) = 0 →
      (fs.foldl (fun w f => w ||| f.mask) w) &&& ~~~(flagsOf conditionFlags) = 0 := by
    intro fs
    induction fs with
    | nil => exact fun w _ hw => hw
    | cons f fs ih =>
      exact fun w hm hw => ih _ (fun g hg => hm g (List.mem_cons_of_mem _ hg)) (step f w (hm f (List.mem_cons_self ..)) hw)
  exact fold _ 0 (fun f hf => (List.mem_filter.1 hf).1) (by decide)

/-- The condition word the owners' reports give has condition bits alone (R197). -/
theorem Mill.condition_ok (m : Mill) : m.condition &&& ~~~(flagsOf conditionFlags) = 0 := flagsOf_filter m.holds

/-- ALERT_N judged by R199 where bits 31 to 17 of the flag value are 0. -/
theorem judgeAlert_ok {u : Status} (h : u.flags &&& ~~~allFlags = 0) :
    u.judgeAlert.alert = decide (u.judgeAlert.flags &&& u.judgeAlert.enable ≠ 0) := by
  have hf : u.flags &&& allFlags = u.flags := and_of_within h
  have : u.flags &&& u.enable &&& allFlags = u.flags &&& u.enable := by
    rw [BitVec.and_assoc, BitVec.and_comm u.enable, ← BitVec.and_assoc, hf]
  simp [Status.judgeAlert, this]

/-- The Status Unit's words as a report leaves them: StatusOk but for ALERT_N, which is judged at the end. -/
structure WordsOk (u : Status) : Prop where
  flags : u.flags &&& ~~~allFlags = 0
  cond : u.cond &&& ~~~(flagsOf conditionFlags) = 0
  held : u.cond &&& ~~~u.flags = 0

/-- A flag's bit is one of the seventeen. -/
theorem mask_within (f : Flag) : f.mask &&& ~~~allFlags = 0 := by cases f <;> decide

/-- A word of condition bits has flag bits alone. -/
theorem condition_within {w : Word} (h : w &&& ~~~(flagsOf conditionFlags) = 0) : w &&& ~~~allFlags = 0 := by
  rw [← and_of_within h, BitVec.and_comm w]
  exact and_within _ (by decide)

theorem wordsOk_condition {u : Status} {c : Word} (h : WordsOk u) (hc : c &&& ~~~(flagsOf conditionFlags) = 0) :
    WordsOk (u.takeCondition c) :=
  ⟨or_within h.flags (and_within _ (condition_within hc)), hc, held_within h.held⟩

theorem wordsOk_take {u : Status} (r : Report) (h : WordsOk u) : WordsOk (u.take r) := by
  match r with
  | .event f => exact ⟨or_within h.flags (mask_within f), h.cond, held_mono h.held⟩
  | .condition f true => exact wordsOk_condition h (or_within h.cond (conditionMask_within f))
  | .condition f false => exact wordsOk_condition h (and_within _ h.cond)
  | .figure _ => exact h

theorem wordsOk_reports (rs : List Report) {u : Status} (h : WordsOk u) : WordsOk (rs.foldl Status.take u) := by
  induction rs generalizing u with
  | nil => exact h
  | cons r rs ih => exact ih (wordsOk_take r h)

/-- A step's reports keep the Status Unit (R196, R197, R199). -/
theorem statusOk_report {u : Status} (reports : List Report) (m : Mill) (h : StatusOk u) :
    StatusOk (u.report reports m.condition) := by
  have hw := wordsOk_condition (wordsOk_reports reports ⟨h.flags, h.cond, h.held⟩) m.condition_ok
  exact ⟨hw.flags, hw.cond, hw.held, judgeAlert_ok hw.flags⟩

/-- The summary figures touch neither flags nor conditions nor ALERT_N. -/
theorem statusOk_summarise {u : Status} (m : Mill) (h : StatusOk u) : StatusOk (u.summarise m) := by
  unfold Status.summarise
  split
  · exact ⟨h.flags, h.cond, h.held, h.alert⟩
  · exact h

/-! ### Notices -/

/-- What two states share that neither a notice nor a post changes: all but the blocks, the lane and its waiters. -/
structure SamePath (s t : State) : Prop where
  pending : t.pending = s.pending
  rstN : t.rstN = s.rstN
  strap : t.strap = s.strap
  mem : t.mem = s.mem
  tx : t.tx = s.tx
  readData : t.readData = s.readData
  bursts : t.bursts = s.bursts
  windows : t.windows = s.windows
  grantCount : t.grantCount = s.grantCount
  refusal : t.refusal = s.refusal
  status : t.status = s.status

theorem SamePath.rfl (s : State) : SamePath s s := ⟨by rfl, by rfl, by rfl, by rfl, by rfl, by rfl, by rfl, by rfl, by rfl, by rfl, by rfl⟩

theorem SamePath.trans {s t u : State} (h : SamePath s t) (g : SamePath t u) : SamePath s u :=
  ⟨g.1.trans h.1, g.2.trans h.2, g.3.trans h.3, g.4.trans h.4, g.5.trans h.5, g.6.trans h.6, g.7.trans h.7,
    g.8.trans h.8, g.9.trans h.9, g.10.trans h.10, g.11.trans h.11⟩

/-- The lane of t is the lane of s after some posts offered to it. -/
def Posted (s t : State) : Prop :=
  ∃ es : List LaneEntry, t.lane = (es.foldl offer (s.lane, s.waiting)).1 ∧
    t.waiting = (es.foldl offer (s.lane, s.waiting)).2

theorem Posted.of_eq {s t : State} (hl : t.lane = s.lane) (hw : t.waiting = s.waiting) : Posted s t := ⟨[], hl, hw⟩

theorem Posted.trans {s t u : State} (h : Posted s t) (g : Posted t u) : Posted s u := by
  obtain ⟨es, h1, h2⟩ := h
  obtain ⟨fs, g1, g2⟩ := g
  refine ⟨es ++ fs, ?_, ?_⟩
  · rw [g1, h1, h2, List.foldl_append]
  · rw [g2, h1, h2, List.foldl_append]

/-- The posts offered. -/
theorem flush_posted (s : State) : Posted s s.flush := ⟨s.mill.outbox, rfl, rfl⟩

theorem flush_samePath (s : State) : SamePath s s.flush :=
  ⟨by rfl, by rfl, by rfl, by rfl, by rfl, by rfl, by rfl, by rfl, by rfl, by rfl, by rfl⟩

/-- The notices taken change the blocks and post; nothing else. -/
theorem drain_keeps (n : Nat) (s : State) : SamePath s (s.drain n) ∧ Posted s (s.drain n) ∧
    (s.mill.outbox = [] → (s.drain n).mill.outbox = []) := by
  induction n generalizing s with
  | zero => exact ⟨SamePath.rfl s, .of_eq rfl rfl, id⟩
  | succ n ih =>
    unfold State.drain
    split
    · exact ⟨SamePath.rfl s, .of_eq rfl rfl, id⟩
    · rename_i x others _
      obtain ⟨h1, h2, h3⟩ := ih (s.takeNotice x others)
      have hs : SamePath s (s.takeNotice x others) :=
        ⟨by rfl, by rfl, by rfl, by rfl, by rfl, by rfl, by rfl, by rfl, by rfl, by rfl, by rfl⟩
      have hp : Posted s (s.takeNotice x others) :=
        ⟨({ s.mill with notices := others }.onNotice x).outbox, rfl, rfl⟩
      exact ⟨hs.trans h1, hp.trans h2, fun _ => h3 rfl⟩

/-- With no notice there is none to take. -/
theorem drain_quiet {s : State} (h : s.mill.notices = []) : ∀ n, s.drain n = s := by
  intro n
  cases n with
  | zero => rfl
  | succ n => simp [State.drain, h, State.nextNotice]

/-! ### The end of a step -/

/-- The blocks and the lane before the Status Unit takes the reports of a step. -/
def State.drained (s : State) : State := s.flush.drain Config.noticeFuel

theorem drained_samePath (s : State) : SamePath s s.drained := (flush_samePath s).trans (drain_keeps _ s.flush).1

theorem drained_posted (s : State) : Posted s s.drained := (flush_posted s).trans (drain_keeps _ s.flush).2.1

theorem settle_eq (s : State) : s.settle = (s.drained.settleStatus.flush.completeTx.postArrive.flush).popAction := rfl

/-- What the first part of a step's end keeps. -/
theorem settle_keeps (s : State) :
    s.settle.pending = s.pending ∧ s.settle.rstN = s.rstN ∧ s.settle.strap = s.strap ∧ s.settle.mem = s.mem ∧
    s.settle.readData = s.readData ∧ s.settle.bursts = s.bursts ∧ s.settle.windows = s.windows ∧
    s.settle.grantCount = s.grantCount ∧ s.settle.refusal = s.refusal := by
  have h := drained_samePath s
  rw [settle_eq]
  simp [h.pending, h.rstN, h.strap, h.mem, h.readData, h.bursts, h.windows, h.grantCount, h.refusal]

/-- The end of a step changes neither the command queue, the pins, memory, the data returned, the grant count nor the
refusal record. -/
theorem finish_keeps (s : State) :
    s.finish.pending = s.pending ∧ s.finish.rstN = s.rstN ∧ s.finish.strap = s.strap ∧ s.finish.mem = s.mem ∧
    s.finish.readData = s.readData ∧ s.finish.bursts = s.bursts ∧ s.finish.grantCount = s.grantCount ∧
    s.finish.refusal = s.refusal := by
  unfold State.finish
  obtain ⟨h1, h2, h3, h4, h5, h6, _, h8, h9⟩ := settle_keeps s
  dsimp only
  split
  · obtain ⟨g1, g2, g3, g4, g5, g6, _, g8, g9⟩ := settle_keeps s.settle.run
    exact ⟨g1.trans h1, g2.trans h2, g3.trans h3, g4.trans h4, g5.trans h5, g6.trans h6, g8.trans h8, g9.trans h9⟩
  · exact ⟨h1, h2, h3, h4, h5, h6, h8, h9⟩

/-- The lane after the posts, notices and reports of a step. -/
theorem settle_lane (s : State) : Posted s s.settle := by
  refine (drained_posted s).trans ?_
  have h1 : Posted s.drained s.drained.settleStatus := .of_eq (by simp) (by simp)
  have h2 : Posted s.drained s.drained.settleStatus.flush.completeTx :=
    (h1.trans (flush_posted _)).trans (.of_eq (by simp) (by simp))
  have h3 : Posted s.drained s.drained.settleStatus.flush.completeTx.postArrive := h2.trans (.of_eq (by simp) (by simp))
  exact (h3.trans (flush_posted _)).trans (.of_eq (by simp [settle_eq]) (by simp [settle_eq]))

/-- The transaction after them: as it was, or completed. -/
theorem completeTx_tx (s : State) : s.completeTx.tx = s.tx ∨ s.completeTx.tx = none := by
  unfold State.completeTx State.endTx
  split
  · split <;> simp
  · split <;> simp
  · exact .inl rfl

theorem settle_tx (s : State) : s.settle.tx = s.tx ∨ s.settle.tx = none := by
  have := completeTx_tx s.drained.settleStatus.flush
  rw [settle_eq]
  simpa [(drained_samePath s).tx] using this

/-- They keep the memory path in order. -/
theorem pathOk_settle {s : State} (h : PathOk s) : PathOk s.settle := by
  obtain ⟨es, hl, hw⟩ := settle_lane s
  obtain ⟨_, _, _, hm, _, _, _, hg, _⟩ := settle_keeps s
  refine ⟨by rw [hm]; exact h.mem, by rw [hl]; exact laneOk_offers es h.lane, ?_, ?_, by rw [hg]; exact h.count⟩
  · rw [hw]; exact waiters_offers es h.waiting
  · rcases settle_tx s with ht | ht
    · rw [ht, hl]
      exact holdOk_longer h.hold (length_offers es (s.lane, s.waiting))
    · rw [ht]; trivial

/-- The end of a step keeps the memory path in order, whatever the blocks hold. -/
theorem pathOk_finish {s : State} (h : PathOk s) : PathOk s.finish := by
  unfold State.finish
  have hs := pathOk_settle h
  dsimp only
  split
  · exact pathOk_settle (s := s.settle.run) ⟨hs.mem, hs.lane, hs.waiting, hs.hold, hs.count⟩
  · exact hs

/-- The Status Unit after the reports of a step. -/
theorem statusOk_settle {s : State} (h : StatusOk s.status) : StatusOk s.settle.status := by
  have h0 : StatusOk s.drained.status := by rw [(drained_samePath s).status]; exact h
  have : s.settle.status = s.drained.settleStatus.status := by rw [settle_eq]; simp
  rw [this]
  unfold State.settleStatus
  split
  · exact h0
  · exact statusOk_summarise _ (statusOk_report _ _ h0)

/-- The end of a step keeps the Status Unit in order. -/
theorem statusOk_finish {s : State} (h : StatusOk s.status) : StatusOk s.finish.status := by
  unfold State.finish
  have hs := statusOk_settle h
  dsimp only
  split
  · exact statusOk_settle (s := s.settle.run) ⟨hs.flags, hs.cond, hs.held, hs.alert⟩
  · exact hs

/-- A block that waits still waits after a post is offered. -/
theorem waits_offer {p : List LaneEntry × List Waiter} {b : Block} (e : LaneEntry)
    (h : p.2.any (fun w => w.block = b) = true) : (offer p e).2.any (fun w => w.block = b) = true := by
  unfold offer
  split
  · rw [List.any_map]
    rw [List.any_eq_true] at h ⊢
    obtain ⟨w, hw, hb⟩ := h
    refine ⟨w, hw, ?_⟩
    simp only [Function.comp]
    split <;> exact hb
  · split
    · exact h
    · split
      · exact h
      · simp only [List.any_append, h, Bool.true_or]

/-- A block that does not wait after posts have been offered did not wait before. -/
theorem waits_posted {s t : State} (h : Posted s t) {b : Block} (hw : t.waits b = false) : s.waits b = false := by
  obtain ⟨es, _, h2⟩ := h
  have key : ∀ (es : List LaneEntry) (p : List LaneEntry × List Waiter), p.2.any (fun w => w.block = b) = true →
      (es.foldl offer p).2.any (fun w => w.block = b) = true := by
    intro es
    induction es with
    | nil => exact fun p hp => hp
    | cons e es ih => exact fun p hp => ih _ (waits_offer e hp)
  cases hs : s.waits b with
  | false => rfl
  | true =>
    have := key es (s.lane, s.waiting) hs
    rw [← h2] at this
    unfold State.waits at hw
    rw [this] at hw
    cases hw

/-- Nothing is left undelivered after the posts, notices and reports of a step. -/
theorem delivered_settle (s : State) : Delivered s.settle := by
  have h1 : ∀ x : State, x.mill.outbox = [] → x.popAction.mill.outbox = [] := by
    intro x hx
    unfold State.popAction
    split <;> exact hx
  have h2 : ∀ x : State, x.popAction.mill.reports = x.mill.reports := by
    intro x
    unfold State.popAction
    split <;> rfl
  have h3 : ∀ x : State, x.postArrive.mill.reports = x.mill.reports := by
    intro x
    unfold State.postArrive
    split
    · split
      · rfl
      · simp
    · rfl
  rw [settle_eq]
  refine ⟨h1 _ rfl, ?_⟩
  intro hw
  rw [h2]
  have hw' : s.drained.settleStatus.waits .statusUnit = false := by
    have hp : Posted s.drained.settleStatus (s.drained.settleStatus.flush.completeTx.postArrive.flush).popAction := by
      have g1 : Posted s.drained.settleStatus s.drained.settleStatus.flush.completeTx :=
        (flush_posted _).trans (.of_eq (by simp) (by simp))
      have g2 : Posted s.drained.settleStatus s.drained.settleStatus.flush.completeTx.postArrive :=
        g1.trans (.of_eq (by simp) (by simp))
      exact (g2.trans (flush_posted _)).trans (.of_eq (by simp) (by simp))
    exact waits_posted hp hw
  have he : s.drained.settleStatus.mill.reports = [] := by
    have hd : s.drained.waits .statusUnit = false := by
      unfold State.waits at hw' ⊢
      simpa using hw'
    unfold State.settleStatus
    rw [hd]
    rfl
  have : ∀ x : State, x.flush.mill.reports = x.mill.reports := fun _ => rfl
  rw [this, h3, State.completeTx_reports, this, he]

/-- Nothing is left undelivered at the end of a step. -/
theorem delivered_finish (s : State) : Delivered s.finish := by
  unfold State.finish
  dsimp only
  split
  · exact delivered_settle _
  · exact delivered_settle s

/-! ### Blocks that wait to post (R15) -/

/-- While no block waits to post, no block is barred from its next event. -/
theorem busy_of_none {s : State} (h : s.waiting = []) (b : Block) : s.busy b = false := by
  simp [State.busy, State.barred, State.waits, h]

/-- While no block waits to post, no step reaches one that does. -/
theorem reaches_of_none {s : State} (h : s.waiting = []) (n : Mill) : s.reaches n = false := by
  simp [State.reaches, State.stops, h]

/-- A step that reaches no block that waits to post comes to its end. -/
theorem stepTo_finish {s t : State} (h : s.reaches t.mill = false) : s.stepTo t = t.finish := by
  simp [State.stepTo, h]

/-- A step that reaches a block that waits to post waits with it. -/
theorem stepTo_waits {s t : State} (h : s.reaches t.mill = true) : s.stepTo t = s := by
  simp [State.stepTo, h]

theorem stepTo_cases (s t : State) : s.stepTo t = s ∨ s.stepTo t = t.finish := by
  unfold State.stepTo
  split
  · exact .inl rfl
  · exact .inr rfl

/-! ### A quiet end -/

/-- An action that has been answered, taken off the queue when its posts have joined the lane (R21). -/
def Actions.popped (a b : Actions) : Prop := b = a ∨ (a.inExec = .answered ∧ b = { a with queue := a.queue.tail, inExec := .none })

/-- The Ticket Checker after a step's end: as it was, or no longer waiting for a write that has completed. -/
def Checker.released (a b : Checker) : Prop := b = a ∨ b = { a with awaitsWrite := false }

/-- The Status Unit's posts for its changed words are its own. -/
theorem posts_poster (old new : Status) (reports : List Report) :
    ∀ e ∈ Status.posts old new reports, e.poster = .statusUnit := by
  unfold Status.posts
  split
  · simp
  · intro e he
    obtain ⟨w, _, rfl⟩ := List.mem_map.1 he
    rfl

/-- The reports of a step taken with nothing left to post: the blocks are as they were but for the reports taken, and the
posts that follow are the Status Unit's. -/
theorem settleStatus_cases (s : State) (h : s.mill.outbox = []) :
    ∃ (e : List Report) (more : List LaneEntry), (e = [] ∨ (s.waits .statusUnit = true ∧ e = s.mill.reports)) ∧ (∀ x ∈ more, x.poster = Block.statusUnit) ∧
      s.settleStatus.flush.mill = { s.mill with reports := e } ∧
      (s.settleStatus.flush.lane, s.settleStatus.flush.waiting) = more.foldl offer (s.lane, s.waiting) := by
  cases hw : s.waits .statusUnit with
  | true =>
    refine ⟨s.mill.reports, [], .inr ⟨rfl, rfl⟩, by simp, ?_⟩
    unfold State.settleStatus State.flush
    rw [if_pos hw, h]
    exact ⟨by rw [← h], rfl⟩
  | false =>
    refine ⟨[], _, .inl rfl, posts_poster s.status ((s.status.report s.mill.reports s.mill.condition).summarise s.mill)
      s.mill.reports, ?_⟩
    unfold State.settleStatus State.flush
    rw [if_neg (by rw [hw]; exact Bool.false_ne_true)]
    dsimp only
    rw [h]
    exact ⟨by rw [← h], rfl⟩

/-- A block that waits before the end of a step's posts waits after it. -/
theorem waits_finish {s : State} {b : Block} (h : s.flush.waits b = true) (hr : s.settle.readyToRun = false) :
    s.finish.waits b = true := by
  have hf : s.finish = s.settle := by
    unfold State.finish
    simp [hr]
  rw [hf]
  have hp : Posted s.flush s.settle := by
    have h0 : Posted s.flush s.drained := (drain_keeps _ s.flush).2.1
    have h1 : Posted s.drained s.drained.settleStatus := .of_eq (by simp) (by simp)
    have h2 : Posted s.drained s.drained.settleStatus.flush.completeTx :=
      (h1.trans (flush_posted _)).trans (.of_eq (by simp) (by simp))
    have h3 : Posted s.drained s.drained.settleStatus.flush.completeTx.postArrive := h2.trans (.of_eq (by simp) (by simp))
    exact (h0.trans (h3.trans (flush_posted _))).trans (.of_eq (by simp [settle_eq]) (by simp [settle_eq]))
  cases hw : s.settle.waits b with
  | true => rfl
  | false => rw [waits_posted hp hw] at h; cases h

/-- With no notice waiting, no trip read to be posted and no sweep in progress, the end of a step changes nothing of the
blocks but the outbox, the reports the Status Unit takes, the answered action's entry and the Ticket Checker's wait for a
write; the posts made are offered in order, then the Status Unit's. -/
theorem finish_quiet {s : State} (hn : s.mill.notices = []) (ha : ∀ t, s.mill.trips.arriving ≠ some (t, false))
    (hl : s.mill.plan.load ≠ .sweeping) :
    ∃ (a : Actions) (k : Checker) (e : List Report) (more : List LaneEntry), s.mill.actions.popped a ∧ s.mill.checker.released k ∧
      (e = [] ∨ (s.finish.waits .statusUnit = true ∧ e = s.mill.reports)) ∧ (∀ x ∈ more, x.poster = Block.statusUnit) ∧
      s.finish.mill = { s.mill with actions := a, checker := k, outbox := [], reports := e } ∧
      (s.finish.lane, s.finish.waiting) = (s.mill.outbox ++ more).foldl offer (s.lane, s.waiting) := by
  have hd : s.drained = s.flush := drain_quiet (s := s.flush) hn _
  have hset : s.settle = (s.flush.settleStatus.flush.completeTx.postArrive.flush).popAction := by rw [settle_eq, hd]
  obtain ⟨e, more, he, hmore, h1, hlane⟩ := settleStatus_cases s.flush rfl
  have hlane' : (s.flush.settleStatus.flush.lane, s.flush.settleStatus.flush.waiting) =
      (s.mill.outbox ++ more).foldl offer (s.lane, s.waiting) := by
    rw [hlane, List.foldl_append]
    rfl
  obtain ⟨k, hk, h2⟩ : ∃ k, s.mill.checker.released k ∧ s.flush.settleStatus.flush.completeTx.mill =
      { s.mill with checker := k, outbox := [], reports := e } := by
    have hc : ∀ x : State, x.completeTx.mill = x.mill ∨ x.completeTx.mill = x.endTx.mill := by
      intro x
      unfold State.completeTx
      split
      · split <;> simp
      · split <;> simp
      · exact .inl rfl
    rcases hc s.flush.settleStatus.flush with h | h
    · exact ⟨s.mill.checker, .inl rfl, by rw [h, h1]; rfl⟩
    · exact ⟨_, .inr rfl, by rw [h]; simp only [State.endTx, h1]; rfl⟩
  have h3 : s.flush.settleStatus.flush.completeTx.postArrive = s.flush.settleStatus.flush.completeTx := by
    unfold State.postArrive
    split
    · rename_i t h
      rw [h2] at h
      exact absurd h (ha t)
    · rfl
  have hx : ∀ x : State, x.flush.mill = { x.mill with outbox := [] } := fun _ => rfl
  have hmill : ∃ a, s.mill.actions.popped a ∧
      s.settle.mill = { s.mill with actions := a, checker := k, outbox := [], reports := e } := by
    rw [hset, h3]
    have hf : s.flush.settleStatus.flush.completeTx.flush.mill =
        { s.mill with checker := k, outbox := [], reports := e } := by
      rw [hx, h2]
    unfold State.popAction
    split
    · rename_i h
      simp only [Bool.and_eq_true, decide_eq_true_eq] at h
      refine ⟨_, .inr ⟨?_, rfl⟩, ?_⟩
      · have := h.1
        rw [hf] at this
        exact this
      · dsimp only
        rw [hf]
    · exact ⟨_, .inl rfl, hf⟩
  have hr : s.settle.readyToRun = false := by
    obtain ⟨a, _, hm⟩ := hmill
    simp [State.readyToRun, hm, hl]
  have he' : e = [] ∨ (s.finish.waits .statusUnit = true ∧ e = s.mill.reports) :=
    he.imp id (fun h => ⟨waits_finish h.1 hr, h.2⟩)
  have : s.finish = s.settle := by
    unfold State.finish
    simp [hr]
  rw [this] at he' ⊢
  obtain ⟨a, h4, h5⟩ := hmill
  refine ⟨a, k, e, more, h4, hk, he', hmore, h5, ?_⟩
  rw [← hlane', hset, h3]
  simp [State.flush]

end Sys2Proof.Machine
end

