-- ==== Sys2Proof/Laws/Rows.lean ====
section
/-! SUPPORT. What the shared forms of a row come to: a row of a block, an action row, a sample row. Each either has no
occasion and changes nothing, or ends a step with what its meaning gives. -/

namespace Sys2Proof.Machine

/-- A row of blocks with its occasion. -/
theorem runMill_next {s : State} {bs : List Block} {f : Mill → Option Mill} {m : Mill} (hr : s.rstN = true)
    (hw : ∀ b ∈ bs, s.busy b = false) (hf : f s.mill = some m) : s.runMill bs f = .next (s.leaves m) := by
  have : bs.any s.busy = false := by simpa using hw
  simp [State.runMill, hr, this, hf]

/-- A row of blocks: no occasion, or the end of a step. -/
theorem runMill_cases (s : State) (bs : List Block) (f : Mill → Option Mill) :
    s.runMill bs f = .next s ∨ ∃ m, s.runMill bs f = .next (s.leaves m) := by
  unfold State.runMill noOccasion
  split
  · split
    · exact .inl rfl
    · rename_i m _
      exact .inr ⟨m, rfl⟩
  · exact .inl rfl

/-- An action row with its action at the head of the queue (R20). -/
theorem actionRow_next {s : State} {k : RecordKind} {i : Nat} {code : BitVec 8} {arg : BitVec 24}
    (h : s.hands ⟨k, i⟩ code arg) (f : Action → Mill → Mill) :
    s.actionRow k code f = .next (s.leaves (f ⟨⟨k, i⟩, code, arg⟩ s.mill)) := by
  obtain ⟨ha, he, hx⟩ := h
  unfold State.actionRow
  rw [ha]
  dsimp only
  rw [if_pos (by simp)]
  refine runMill_next he.1 ?_ rfl
  intro b hb
  simp only [List.mem_cons, List.not_mem_nil, or_false] at hb
  rcases hb with rfl | rfl
  · exact he.2
  · exact hx.2

/-- An action row: no occasion, or the end of a step. -/
theorem actionRow_cases (s : State) (k : RecordKind) (code : BitVec 8) (f : Action → Mill → Mill) :
    s.actionRow k code f = .next s ∨ ∃ m, s.actionRow k code f = .next (s.leaves m) := by
  unfold State.actionRow
  split
  · split
    · exact runMill_cases s _ _
    · exact .inl rfl
  · exact .inl rfl

/-- A sample row with its sample waiting (R10, R11). -/
theorem sampleRow_next {s : State} {b : Block} {x : Sample} (h : s.samples b x) {mine : Role → Bool}
    (hm : mine x.role = true) (f : Sample → Mill → Mill) :
    s.sampleRow b mine f = .next (s.takesTo b (f x s.mill)) := by
  obtain ⟨hx, hr, hw⟩ := h
  simp [State.sampleRow, hx, hm, hr, hw]

/-- A sample row: no occasion, or the end of a step with the sample taken. -/
theorem sampleRow_cases (s : State) (b : Block) (mine : Role → Bool) (f : Sample → Mill → Mill) :
    s.sampleRow b mine f = .next s ∨ ∃ m, s.sampleRow b mine f = .next (s.takesTo b m) := by
  unfold State.sampleRow
  split
  · split
    · exact .inr ⟨_, rfl⟩
    · exact .inl rfl
  · exact .inl rfl

/-- What a step keeps that comes to a state with the same memory, pins and figures, or waits. -/
theorem stepTo_keeps {s t : State} (h1 : t.pending = s.pending) (h2 : t.rstN = s.rstN) (h3 : t.strap = s.strap)
    (h4 : t.mem = s.mem) (h5 : t.readData = s.readData) (h6 : t.bursts = s.bursts) (h7 : t.grantCount = s.grantCount) :
    (s.stepTo t).pending = s.pending ∧ (s.stepTo t).rstN = s.rstN ∧ (s.stepTo t).strap = s.strap ∧
    (s.stepTo t).mem = s.mem ∧ (s.stepTo t).readData = s.readData ∧ (s.stepTo t).bursts = s.bursts ∧
    (s.stepTo t).grantCount = s.grantCount ∧ (t.refusal = s.refusal → (s.stepTo t).refusal = s.refusal) := by
  rcases stepTo_cases s t with h | h
  · rw [h]; exact ⟨rfl, rfl, rfl, rfl, rfl, rfl, rfl, fun _ => rfl⟩
  · rw [h]
    obtain ⟨g1, g2, g3, g4, g5, g6, g7, g8⟩ := finish_keeps t
    exact ⟨g1.trans h1, g2.trans h2, g3.trans h3, g4.trans h4, g5.trans h5, g6.trans h6, g7.trans h7, fun h => g8.trans h⟩

/-- What the end of a step keeps, whatever the step left. -/
theorem leaves_keeps (s : State) (m : Mill) :
    (s.leaves m).pending = s.pending ∧ (s.leaves m).rstN = s.rstN ∧ (s.leaves m).strap = s.strap ∧
    (s.leaves m).mem = s.mem ∧ (s.leaves m).readData = s.readData ∧ (s.leaves m).bursts = s.bursts ∧
    (s.leaves m).grantCount = s.grantCount ∧ (s.leaves m).refusal = s.refusal := by
  obtain ⟨h1, h2, h3, h4, h5, h6, h7, h8⟩ := stepTo_keeps (s := s) (t := { s with mill := m }) rfl rfl rfl rfl rfl rfl rfl
  exact ⟨h1, h2, h3, h4, h5, h6, h7, h8 rfl⟩

/-- A step that comes to a state in order, or waits, keeps the memory path in order. -/
theorem pathOk_stepTo {s t : State} (h : PathOk s) (g : PathOk t) : PathOk (s.stepTo t) := by
  rcases stepTo_cases s t with e | e
  · rw [e]; exact h
  · rw [e]; exact pathOk_finish g

/-- The same of the Status Unit. -/
theorem statusOk_stepTo {s t : State} (h : StatusOk s.status) (g : StatusOk t.status) : StatusOk (s.stepTo t).status := by
  rcases stepTo_cases s t with e | e
  · rw [e]; exact h
  · rw [e]; exact statusOk_finish g

/-- Other blocks' figures keep the memory path in order. -/
theorem pathOk_mill {s : State} (m : Mill) (h : PathOk s) : PathOk { s with mill := m } :=
  ⟨h.mem, h.lane, h.waiting, h.hold, h.count⟩

/-- A step's end keeps the memory path in order. -/
theorem pathOk_leaves {s : State} (m : Mill) (h : PathOk s) : PathOk (s.leaves m) := pathOk_stepTo h (pathOk_mill m h)

/-- A word taken at the hand-off keeps the memory path in order. -/
theorem pathOk_takes {s : State} (b : Block) (h : PathOk s) : PathOk (s.takes b) := by
  refine ⟨h.mem, h.lane, h.waiting, ?_, h.count⟩
  have hh := h.hold
  unfold State.takes holdOk at *
  cases ht : s.tx with
  | none => trivial
  | some t =>
    cases t with
    | write beats hs p => trivial
    | read addrs n => simpa [ht, Tx.taken] using hh

/-- A step's end keeps the Status Unit in order. -/
theorem statusOk_leaves {s : State} (m : Mill) (h : StatusOk s.status) : StatusOk (s.leaves m).status :=
  statusOk_stepTo h h

end Sys2Proof.Machine
end

