-- ==== Sys2Proof/Laws/Actions.lean ====
section
/-! SUPPORT. What an action row answers when its action is handed over. -/

namespace Sys2Proof.Machine

/-- A free block has no earlier event to take. -/
theorem busy_of_free {s : State} {b : Block} (h : s.free b) : ∀ x ∈ [b], s.busy x = false := by
  intro x hx; rw [List.mem_singleton] at hx; subst hx; exact h.2

/-- An order's own index names it. -/
theorem toSlot_val (o : Fin 256) : toSlot o.val = some o := by simp [toSlot]

/-- A bin's own index names it. -/
theorem toBin_val (o : Fin 48) : toBin o.val = some o := by simp [toBin]

/-- A batch's own index names it. -/
theorem toBatch_val (o : Fin 32) : toBatch o.val = some o := by simp [toBatch]

/-- A trip's own index names it. -/
theorem toTruck_val (o : Fin 8) : toTruck o.val = some o := by simp [toTruck]

/-- An order action handed over runs its meaning on the order. -/
theorem orderRow_eq {s : State} {o : Fin 256} {code} {arg} (h : s.hands ⟨.order, o⟩ code arg) (f) :
    s.orderRow code f = .next (s.leaves (f o s.mill)) := by
  unfold State.orderRow; rw [actionRow_next h]; simp [toSlot_val]

/-- A bin action handed over runs its meaning on the bin. -/
theorem binRow_eq {s : State} {o : Fin 48} {code} {arg} (h : s.hands ⟨.bin, o⟩ code arg) (f) :
    s.binRow code f = .next (s.leaves (f o s.mill)) := by
  unfold State.binRow; rw [actionRow_next h]; simp [toBin_val]

/-- A batch action handed over runs its meaning on the batch and the argument. -/
theorem batchRow_eq {s : State} {o : Fin 32} {code} {arg} (h : s.hands ⟨.batch, o⟩ code arg) (f) :
    s.batchRow code f = .next (s.leaves (f o arg s.mill)) := by
  unfold State.batchRow; rw [actionRow_next h]; simp [toBatch_val]

/-- A truck action handed over runs its meaning on the trip. -/
theorem truckRow_eq {s : State} {o : Fin 8} {code} {arg} (h : s.hands ⟨.truck, o⟩ code arg) (f) :
    s.truckRow code f = .next (s.leaves (f o s.mill)) := by
  unfold State.truckRow; rw [actionRow_next h]; simp [toTruck_val]

end Sys2Proof.Machine
end

