-- ==== Sys2Proof/Laws/Stock.lean ====
section
/-! SUPPORT. What the Stock Unit's shared operations do: reservations (R49 to R52), lots (R56 to R62), diverts. -/

namespace Sys2Proof.Machine

/-! ### What a stock operation leaves as it was -/

/-- b differs from a in the stock, and in what is posted, told and reported, alone; no bin's plan changes. -/
structure StockOnly (a b : Mill) : Prop where
  plan : b.plan = a.plan
  actions : b.actions = a.actions
  checker : b.checker = a.checker
  book : b.book = a.book
  seq : b.seq = a.seq
  weigh : b.weigh = a.weigh
  lines : b.lines = a.lines
  pack : b.pack = a.pack
  trips : b.trips = a.trips
  returned : b.returned = a.returned
  kinds : ∀ i, (getAt b.stock.bins i).plan = (getAt a.stock.bins i).plan

theorem StockOnly.refl (a : Mill) : StockOnly a a :=
  ⟨rfl, rfl, rfl, rfl, rfl, rfl, rfl, rfl, rfl, rfl, fun _ => rfl⟩

theorem StockOnly.trans {a b c : Mill} (h : StockOnly a b) (g : StockOnly b c) : StockOnly a c :=
  ⟨g.plan.trans h.plan, g.actions.trans h.actions, g.checker.trans h.checker, g.book.trans h.book, g.seq.trans h.seq,
    g.weigh.trans h.weigh, g.lines.trans h.lines, g.pack.trans h.pack, g.trips.trans h.trips,
    g.returned.trans h.returned, fun i => (g.kinds i).trans (h.kinds i)⟩

/-- The bin of a kind is the same while no bin's plan changes. -/
theorem StockOnly.binOf {a b : Mill} (h : StockOnly a b) (k : BinKind) : b.stock.binOf k = a.stock.binOf k := by
  unfold Stock.binOf findAt
  congr 1
  funext i
  show decide _ = decide _
  rw [h.kinds i]

theorem StockOnly.surgeBin {a b : Mill} (h : StockOnly a b) (g : Surge) : b.surgeBin g = a.surgeBin g := h.binOf _

theorem StockOnly.reworkBin {a b : Mill} (h : StockOnly a b) : b.reworkBin = a.reworkBin := h.binOf _

theorem StockOnly.order {a b : Mill} (h : StockOnly a b) (o : Fin 256) : b.order o = a.order o := by
  simp [Mill.order, h.book]

theorem StockOnly.batch {a b : Mill} (h : StockOnly a b) (o : Fin 32) : b.batch o = a.batch o := by
  simp [Mill.batch, h.seq]

theorem judge_plan (b : Bin) : b.judge.plan = b.plan := rfl

/-- A change of a bin that keeps its plan. -/
theorem stockOnly_updBin (m : Mill) (i : Fin 48) (f : Bin → Bin)
    (h : (f (getAt m.stock.bins i)).plan = (getAt m.stock.bins i).plan) : StockOnly m (m.updBin i f) := by
  refine ⟨by simp, by simp, by simp, by simp, by simp, by simp, by simp, by simp, by simp, by simp, fun j => ?_⟩
  by_cases hj : j = i
  · subst hj; simp [judge_plan, h]
  · rw [Mill.updBin_other _ _ _ _ hj]

theorem stockOnly_raise (m : Mill) (f : Flag) : StockOnly m (m.raise f) := 
  ⟨rfl, rfl, rfl, rfl, rfl, rfl, rfl, rfl, rfl, rfl, fun _ => rfl⟩

theorem stockOnly_tell (m : Mill) (n : Notice) : StockOnly m (m.tell n) := 
  ⟨rfl, rfl, rfl, rfl, rfl, rfl, rfl, rfl, rfl, rfl, fun _ => rfl⟩

theorem stockOnly_raiseIf (m : Mill) (b : Bool) (f : Flag) : StockOnly m (m.raiseIf b f) := by
  unfold Mill.raiseIf; split
  · exact stockOnly_raise m f
  · exact StockOnly.refl m

theorem stockOnly_postLots (m : Mill) (i : Fin 48) (ps : List Nat) : StockOnly m (m.postLots i ps) := by
  unfold Mill.postLots
  exact ⟨by simp, by simp, by simp, by simp, by simp, by simp, by simp, by simp, by simp, by simp, fun _ => by simp⟩

theorem stockOnly_notices (m : Mill) (ns : List Notice) : StockOnly m { m with notices := ns } := 
  ⟨rfl, rfl, rfl, rfl, rfl, rfl, rfl, rfl, rfl, rfl, fun _ => rfl⟩

theorem stockOnly_waiting (m : Mill) (ws : List Surge) :
    StockOnly m { m with stock := { m.stock with waitingDiverts := ws } } := 
  ⟨rfl, rfl, rfl, rfl, rfl, rfl, rfl, rfl, rfl, rfl, fun _ => rfl⟩

theorem stockOnly_table (m : Mill) (t : List Reservation) :
    StockOnly m { m with stock := { m.stock with table := t } } := 
  ⟨rfl, rfl, rfl, rfl, rfl, rfl, rfl, rfl, rfl, rfl, fun _ => rfl⟩

theorem stockOnly_addMass (m : Mill) (i : Fin 48) (mass : Nat) : StockOnly m (m.addMass i mass) :=
  (stockOnly_updBin m i _ rfl).trans (stockOnly_raiseIf _ _ _)

theorem stockOnly_takeMass (m : Mill) (i : Fin 48) (mass : Nat) : StockOnly m (m.takeMass i mass) :=
  (stockOnly_updBin m i _ rfl).trans (stockOnly_raiseIf _ _ _)

theorem stockOnly_addRework (m : Mill) (mass : Nat) : StockOnly m (m.addRework mass) := by
  unfold Mill.addRework; split
  · exact StockOnly.refl m
  · exact stockOnly_addMass _ _ _

theorem stockOnly_adjustPreact (m : Mill) (i : Fin 48) (d : Int) : StockOnly m (m.adjustPreact i d) :=
  stockOnly_updBin m i _ rfl

/-! ### Reservations (R49, R50, R52) -/

theorem stockOnly_makeEntry (m : Mill) (b : Fin 32) (l : ReserveLine) : StockOnly m (m.makeEntry b l) := by
  unfold Mill.makeEntry
  dsimp only
  generalize m.stock.table ++ [_] = t
  exact (stockOnly_table m t).trans (stockOnly_updBin _ _ _ rfl)

theorem stockOnly_makeEntries (b : Fin 32) (ls : List ReserveLine) (m : Mill) : StockOnly m (m.makeEntries b ls) := by
  induction ls generalizing m with
  | nil => exact StockOnly.refl m
  | cons l ls ih => exact (stockOnly_makeEntry m b l).trans (ih _)

theorem updBin_table (m : Mill) (i : Fin 48) (f : Bin → Bin) : (m.updBin i f).stock.table = m.stock.table := by
  simp [Mill.updBin]

theorem updBin_waitingDiverts (m : Mill) (i : Fin 48) (f : Bin → Bin) :
    (m.updBin i f).stock.waitingDiverts = m.stock.waitingDiverts := by
  simp [Mill.updBin]

/-- Entries made for every line of a claim: an entry each, the reserved masses raised by the lines' masses. -/
theorem makeEntries_does (b : Fin 32) (ls : List ReserveLine) (m : Mill) :
    (m.makeEntries b ls).stock.table = m.stock.table ++ ls.map (fun l => ⟨b, l.line, l.bin, l.mass⟩) ∧
    ∀ i, (getAt (m.makeEntries b ls).stock.bins i).reserved = (getAt m.stock.bins i).reserved + massOn ls i ∧
      (getAt (m.makeEntries b ls).stock.bins i).level = (getAt m.stock.bins i).level := by
  induction ls generalizing m with
  | nil => exact ⟨by simp [Mill.makeEntries], fun i => ⟨by simp [Mill.makeEntries, massOn], rfl⟩⟩
  | cons l ls ih =>
    obtain ⟨h1, h2⟩ := ih (m.makeEntry b l)
    have he : m.makeEntries b (l :: ls) = (m.makeEntry b l).makeEntries b ls := rfl
    rw [he]
    refine ⟨?_, fun i => ?_⟩
    · rw [h1]; simp [Mill.makeEntry, updBin_table]
    · obtain ⟨h3, h4⟩ := h2 i
      rw [h3, h4]
      by_cases hi : i = l.bin
      · subst hi
        simp [Mill.makeEntry, Bin.judge, massOn, Nat.add_assoc]
      · unfold Mill.makeEntry
        dsimp only
        rw [Mill.updBin_other _ _ _ _ hi]
        have : l.bin ≠ i := fun e => hi e.symm
        simp [massOn, this]

/-- The answer of the claim's check: the bin of the first line that is not covered. -/
theorem firstShort_some {s : Stock} {before ls : List ReserveLine} {short : Fin 48}
    (h : firstShort s before ls = some short) :
    ∃ pre l post, ls = pre ++ l :: post ∧ l.bin = short ∧ l.mass ≠ 0 ∧
      (getAt s.bins l.bin).available < massOn (before ++ pre) l.bin + l.mass ∧
      ∀ pre' l' post', pre = pre' ++ l' :: post' →
        l'.mass = 0 ∨ massOn (before ++ pre') l'.bin + l'.mass ≤ (getAt s.bins l'.bin).available := by
  induction ls generalizing before with
  | nil => cases h
  | cons l ls ih =>
    unfold firstShort at h
    split at h
    · rename_i hc
      obtain ⟨pre, x, post, h1, h2, h3, h4, h5⟩ := ih h
      refine ⟨l :: pre, x, post, by simp [h1], h2, h3, by simpa using h4, ?_⟩
      intro pre' l' post' he
      cases pre' with
      | nil =>
        simp only [List.nil_append, List.cons.injEq] at he
        obtain ⟨rfl, rfl⟩ := he
        simpa using hc
      | cons y ys =>
        simp only [List.cons_append, List.cons.injEq] at he
        obtain ⟨rfl, he⟩ := he
        simpa using h5 ys l' post' he
    · rename_i hc
      simp only [Bool.or_eq_true, decide_eq_true_eq, not_or, Nat.not_le] at hc
      refine ⟨[], l, ls, rfl, by simpa using h, hc.1, by simpa using hc.2, ?_⟩
      intro pre' l' post' he
      cases pre' <;> simp at he

/-- A claim whose check passes has every line covered. -/
theorem firstShort_none {s : Stock} {before ls : List ReserveLine} (h : firstShort s before ls = none) :
    ∀ pre l post, ls = pre ++ l :: post →
      l.mass = 0 ∨ massOn (before ++ pre) l.bin + l.mass ≤ (getAt s.bins l.bin).available := by
  induction ls generalizing before with
  | nil => intro pre l post he; cases pre <;> simp at he
  | cons x xs ih =>
    unfold firstShort at h
    split at h
    · rename_i hc
      intro pre l post he
      cases pre with
      | nil =>
        simp only [List.nil_append, List.cons.injEq] at he
        obtain ⟨rfl, rfl⟩ := he
        simpa using hc
      | cons y ys =>
        simp only [List.cons_append, List.cons.injEq] at he
        obtain ⟨rfl, he⟩ := he
        simpa using ih h ys l post he
    · cases h

theorem stockOnly_releaseEntry (m : Mill) (b : Fin 32) (n : Nat) : StockOnly m (m.releaseEntry b n) := by
  unfold Mill.releaseEntry; split
  · exact StockOnly.refl m
  · exact (stockOnly_table m _).trans (stockOnly_updBin _ _ _ rfl)

theorem stockOnly_releaseBatch (m : Mill) (b : Fin 32) : StockOnly m (m.releaseBatch b) := by
  unfold Mill.releaseBatch
  generalize ((m.stock.table.filter (fun e => e.batch = b)).map (·.line)) = ls
  induction ls generalizing m with
  | nil => exact StockOnly.refl m
  | cons l ls ih => exact (stockOnly_releaseEntry m b l).trans (ih _)

theorem stockOnly_bookDraw (m : Mill) (b : Fin 32) (n : Nat) (i : Fin 48) (d : Int) :
    StockOnly m (m.bookDraw b n i d) := by
  unfold Mill.bookDraw; split
  · exact stockOnly_raiseIf _ _ _
  · exact ((stockOnly_table m _).trans (stockOnly_updBin _ _ _ rfl)).trans (stockOnly_raiseIf _ _ _)

/-! ### Lots (R56 to R62) -/

theorem stockOnly_remark (m : Mill) (s : Surge) (f) : StockOnly m (m.remark s f) := by
  unfold Mill.remark; split
  · exact StockOnly.refl m
  · dsimp only; split
    · exact StockOnly.refl m
    · exact ((stockOnly_updBin m _ _ rfl).trans (stockOnly_postLots _ _ _)).trans (stockOnly_notices _ _)

theorem stockOnly_divert (m : Mill) (s : Surge) (i : Fin 48) (l : Lot) : StockOnly m (m.divert s i l) := by
  unfold Mill.divert
  dsimp only
  generalize hf : (fun b : Bin => (_ : Bin)) = f
  have hp : (f (getAt m.stock.bins i)).plan = (getAt m.stock.bins i).plan := by subst hf; rfl
  have hw : ∀ (n : Mill) (ws : List Surge) (ns : List Notice),
      StockOnly n { n with stock := { n.stock with waitingDiverts := ws }, notices := ns } :=
    fun n ws ns => ⟨rfl, rfl, rfl, rfl, rfl, rfl, rfl, rfl, rfl, rfl, fun _ => rfl⟩
  refine StockOnly.trans ?_ (hw _ _ _)
  refine StockOnly.trans ?_ (stockOnly_raise _ _)
  refine StockOnly.trans ?_ (stockOnly_addRework _ _)
  refine StockOnly.trans ?_ (stockOnly_postLots _ _ _)
  exact stockOnly_updBin m _ _ hp

theorem stockOnly_checkHeads (n : Nat) (m : Mill) (s : Surge) : StockOnly m (m.checkHeads s n) := by
  induction n generalizing m with
  | zero => exact StockOnly.refl m
  | succ n ih =>
    unfold Mill.checkHeads; split
    · exact StockOnly.refl m
    · dsimp only; split
      · exact stockOnly_waiting _ _
      · split
        · exact stockOnly_waiting _ _
        · split
          · exact StockOnly.refl m
          · split
            · exact (stockOnly_divert _ _ _ _).trans (ih _)
            · split
              · exact StockOnly.refl m
              · exact stockOnly_waiting _ _

theorem stockOnly_checkHead (m : Mill) (s : Surge) : StockOnly m (m.checkHead s) := stockOnly_checkHeads _ m s

theorem stockOnly_markSurges (m : Mill) (o : Fin 256) (k : Mark) : StockOnly m (m.markSurges o k) :=
  ((stockOnly_remark m _ _).trans (stockOnly_remark _ _ _)).trans (stockOnly_remark _ _ _)

theorem stockOnly_checkSurges (m : Mill) : StockOnly m m.checkSurges :=
  ((stockOnly_checkHead m _).trans (stockOnly_checkHead _ _)).trans (stockOnly_checkHead _ _)

theorem stockOnly_markOrder (m : Mill) (o : Fin 256) (k : Mark) : StockOnly m (m.markOrder o k) :=
  (stockOnly_markSurges m o k).trans (stockOnly_checkSurges _)

theorem stockOnly_setClaim (m : Mill) (s : Surge) : StockOnly m (m.setClaim s) := by
  unfold Mill.setClaim; split
  · exact StockOnly.refl m
  · exact stockOnly_updBin m _ (fun b => { b with claim := true }) rfl

theorem stockOnly_dropClaim (m : Mill) (s : Surge) : StockOnly m (m.dropClaim s) := by
  unfold Mill.dropClaim; split
  · exact StockOnly.refl m
  · split
    · exact stockOnly_updBin m _ (fun b => { b with claim := false }) rfl
    · exact StockOnly.refl m

theorem stockOnly_endClaim (m : Mill) (s : Surge) : StockOnly m (m.endClaim s) := by
  unfold Mill.endClaim; split
  · exact StockOnly.refl m
  · split
    · exact (stockOnly_dropClaim m s).trans (stockOnly_checkHead _ _)
    · exact StockOnly.refl m

theorem stockOnly_takeLots (m : Mill) (s : Surge) (n : Nat) : StockOnly m (m.takeLots s n).1 := by
  unfold Mill.takeLots; split
  · exact stockOnly_raise _ _
  · dsimp only
    refine StockOnly.trans ?_ (stockOnly_notices _ _)
    have h1 : ∀ (n : Mill) (p : Prop) [Decidable p] ps i, StockOnly n (if p then n else n.postLots i ps) := by
      intro n p _ ps i; split
      · exact StockOnly.refl _
      · exact stockOnly_postLots _ _ _
    refine StockOnly.trans ?_ (h1 _ _ _ _)
    refine StockOnly.trans ?_ (stockOnly_raiseIf _ _ _)
    exact stockOnly_updBin m _ _ rfl

theorem stockOnly_drawLots (m : Mill) (s : Surge) (n : Nat) : StockOnly m (m.drawLots s n).1 :=
  (stockOnly_takeLots m s n).trans (stockOnly_checkHead _ s)

theorem stockOnly_putLot (m : Mill) (s : Surge) (o) (n : Nat) : StockOnly m (m.putLot s o n) := by
  unfold Mill.putLot; split
  · exact StockOnly.refl m
  · dsimp only; split
    · exact stockOnly_raiseIf _ _ _
    · refine StockOnly.trans ?_ (stockOnly_notices _ _)
      refine StockOnly.trans ?_ (stockOnly_postLots _ _ _)
      refine StockOnly.trans ?_ (stockOnly_updBin _ _ _ ?_)
      · exact StockOnly.trans (stockOnly_raiseIf m _ _) (stockOnly_raiseIf _ _ _)
      · rfl

theorem stockOnly_appendLot (m : Mill) (s : Surge) (o) (n : Nat) : StockOnly m (m.appendLot s o n) := by
  unfold Mill.appendLot
  dsimp only; split
  · exact stockOnly_putLot m s o n
  · exact (stockOnly_putLot m s o n).trans (stockOnly_checkHead _ s)

theorem stockOnly_recheckDiverts (m : Mill) : StockOnly m m.recheckDiverts := by
  unfold Mill.recheckDiverts
  generalize m.stock.waitingDiverts = ss
  induction ss generalizing m with
  | nil => exact StockOnly.refl m
  | cons s ss ih => exact (stockOnly_checkHead m s).trans (ih _)

theorem stockOnly_claimDivert (m : Mill) (s : Surge) : StockOnly m (m.claimDivert s) :=
  (stockOnly_remark m s _).trans (stockOnly_checkHead _ s)

/-! ### The bins of the surges -/

theorem findAt_some {α : Type} {n : Nat} {v : Vector α n} {p : α → Bool} {i : Fin n} (h : findAt v p = some i) :
    p (getAt v i) = true := by
  unfold findAt at h
  have := List.find?_some h
  simpa using this

theorem findAt_none {α : Type} {n : Nat} {v : Vector α n} {p : α → Bool} (h : findAt v p = none) (i : Fin n) :
    p (getAt v i) = false := by
  unfold findAt at h
  simpa using List.find?_eq_none.1 h i (List.mem_finRange i)

/-- The bin of a surge is of the surge's kind. -/
theorem surgeBin_kind {m : Mill} {s : Surge} {i : Fin 48} (h : m.surgeBin s = some i) :
    (getAt m.stock.bins i).plan.kind = s.kind := by
  unfold Mill.surgeBin Stock.binOf at h
  simpa using findAt_some h

/-- The REWORK bin is of the kind REWORK. -/
theorem reworkBin_kind {m : Mill} {i : Fin 48} (h : m.reworkBin = some i) :
    (getAt m.stock.bins i).plan.kind = .rework := by
  unfold Mill.reworkBin Stock.binOf at h
  simpa using findAt_some h

/-- The bins of two surges are apart. -/
theorem surgeBin_ne {m : Mill} {s g : Surge} {i j : Fin 48} (hs : m.surgeBin s = some i) (hg : m.surgeBin g = some j)
    (h : g ≠ s) : j ≠ i := by
  rintro rfl
  have a := surgeBin_kind hs
  have b := surgeBin_kind hg
  rw [a] at b
  revert b h
  cases s <;> cases g <;> simp [Surge.kind]

/-- The REWORK bin is no surge's. -/
theorem reworkBin_ne {m : Mill} {s : Surge} {i j : Fin 48} (hs : m.surgeBin s = some i) (hg : m.reworkBin = some j) :
    j ≠ i := by
  rintro rfl
  have a := surgeBin_kind hs
  have b := reworkBin_kind hg
  rw [a] at b
  revert b
  cases s <;> simp [Surge.kind]

/-- The lots of a surge after a change of the marks of one surge's lots. -/
theorem remark_lots (m : Mill) (s g : Surge) (f : List Lot → List Lot) (hf : f [] = []) :
    (m.remark s f).lotsOf g = if g = s then f (m.lotsOf g) else m.lotsOf g := by
  have hb := (stockOnly_remark m s f).surgeBin g
  unfold Mill.lotsOf
  rw [hb]
  cases hg : m.surgeBin g with
  | none => simp [hf]
  | some j =>
    dsimp only
    unfold Mill.remark
    cases hs : m.surgeBin s with
    | none =>
      dsimp only
      have : g ≠ s := by rintro rfl; rw [hs] at hg; cases hg
      simp [this]
    | some i =>
      dsimp only
      by_cases he : g = s
      · subst he
        rw [hs] at hg
        cases hg
        split
        · rename_i h; simp [h]
        · simp [Mill.postLots, Mill.updBin, Bin.judge]
      · have hne := surgeBin_ne hs hg he
        split
        · simp
        · simp [Mill.postLots, Mill.updBin_other _ _ _ _ hne]

/-- The lots of every surge after an order's lots have been marked (R62). -/
theorem markSurges_lots (m : Mill) (o : Fin 256) (k : Mark) (g : Surge) :
    (m.markSurges o k).lotsOf g = markLots o k (m.lotsOf g) := by
  have hf : markLots o k [] = [] := rfl
  have h : m.markSurges o k = ((m.remark .pellet (markLots o k)).remark .bag (markLots o k)).remark .bulk (markLots o k) :=
    rfl
  rw [h, remark_lots _ _ _ _ hf, remark_lots _ _ _ _ hf, remark_lots _ _ _ _ hf]
  cases g <;> simp

/-- The lots of every surge after a divert: the head lot of that surge is gone (R60). -/
theorem divert_lots (m : Mill) (s g : Surge) (i : Fin 48) (l : Lot) (h : m.surgeBin s = some i) :
    (m.divert s i l).lotsOf g = if g = s then (m.lotsOf g).tail else m.lotsOf g := by
  have hb := (stockOnly_divert m s i l).surgeBin g
  unfold Mill.lotsOf
  rw [hb]
  cases hg : m.surgeBin g with
  | none => simp
  | some j =>
    dsimp only
    have hr : ∀ r, m.reworkBin = some r → j ≠ r := fun r hr => (reworkBin_ne hg hr).symm
    unfold Mill.divert
    dsimp only
    generalize hf : (fun b : Bin => (_ : Bin)) = f
    have hk : (f (getAt m.stock.bins i)).plan = (getAt m.stock.bins i).plan := by subst hf; rfl
    have hm2 := (stockOnly_updBin m i f hk).trans (stockOnly_postLots _ i allPlaces)
    have hre : ∀ x, getAt (((m.updBin i f).postLots i allPlaces).addRework x).stock.bins j =
        getAt ((m.updBin i f).postLots i allPlaces).stock.bins j := by
      intro x
      unfold Mill.addRework
      cases hq : ((m.updBin i f).postLots i allPlaces).reworkBin with
      | none => rfl
      | some r =>
        have := hr r (hm2.reworkBin.symm.trans hq)
        simp [Mill.addMass, Mill.updBin_other _ _ _ _ this]
    show (getAt (((m.updBin i f).postLots i allPlaces).addRework l.mass).stock.bins j).lots = _
    rw [hre]
    by_cases he : g = s
    · subst he
      rw [h] at hg
      cases hg
      subst hf
      simp [Mill.postLots, Bin.judge]
    · have hne := surgeBin_ne h hg he
      simp [he, Mill.postLots, Mill.updBin_other _ _ _ _ hne]

/-- The check of R59 takes lots off the front of a list and leaves the rest (R59, R60). -/
theorem checkHeads_lots (n : Nat) (m : Mill) (s g : Surge) : ∃ k, (m.checkHeads s n).lotsOf g = (m.lotsOf g).drop k := by
  have same : ∀ (m : Mill) ws, ({ m with stock := { m.stock with waitingDiverts := ws } } : Mill).lotsOf g = m.lotsOf g :=
    fun _ _ => rfl
  induction n generalizing m with
  | zero => exact ⟨0, rfl⟩
  | succ n ih =>
    unfold Mill.checkHeads
    split
    · exact ⟨0, rfl⟩
    · rename_i i hi
      dsimp only
      split
      · exact ⟨0, same _ _⟩
      · split
        · exact ⟨0, same _ _⟩
        · split
          · exact ⟨0, rfl⟩
          · split
            · rename_i l _ _ _ _ _
              obtain ⟨k, hk⟩ := ih (m.divert s i l)
              rw [hk, divert_lots m s g i l hi]
              split
              · exact ⟨k + 1, by rw [List.drop_tail]⟩
              · exact ⟨k, rfl⟩
            · split
              · exact ⟨0, rfl⟩
              · exact ⟨0, same _ _⟩

/-- The check of R59 on the heads of all three surges, one after the other. -/
theorem checkSurges_eq (m : Mill) : m.checkSurges = ((m.checkHead .pellet).checkHead .bag).checkHead .bulk := by
  unfold Mill.checkSurges
  rfl

/-- The checks of R59 on the heads of all three surges take lots off the front of a list and leave the rest. -/
theorem checkSurges_lots (m : Mill) (g : Surge) : ∃ k, m.checkSurges.lotsOf g = (m.lotsOf g).drop k := by
  obtain ⟨a, ha⟩ := checkHeads_lots 9 m .pellet g
  obtain ⟨b, hb⟩ := checkHeads_lots 9 (m.checkHead .pellet) .bag g
  obtain ⟨c, hc⟩ := checkHeads_lots 9 ((m.checkHead .pellet).checkHead .bag) .bulk g
  refine ⟨a + b + c, ?_⟩
  show (((m.checkHead .pellet).checkHead .bag).checkHead .bulk).lotsOf g = _
  rw [show (((m.checkHead .pellet).checkHead .bag).checkHead .bulk).lotsOf g = _ from hc,
    show ((m.checkHead .pellet).checkHead .bag).lotsOf g = _ from hb, show (m.checkHead .pellet).lotsOf g = _ from ha]
  simp [List.drop_drop, Nat.add_comm, Nat.add_left_comm]

end Sys2Proof.Machine
end

