-- ==== Sys2Proof/Laws/Lines.lean ====
section
/-! SUPPORT. What a change of a line or of a trip channel leaves of the line (chapter 8). -/

namespace Sys2Proof.Machine

/-- Two lines agree in all that neither a change of a channel nor the rate judged after it touches. -/
def LSame (a b : LineCtl) : Prop :=
  a.state = b.state ∧ a.cause = b.cause ∧ a.ceiling = b.ceiling ∧ a.adjust = b.adjust ∧ a.top = b.top ∧
  a.tripOut = b.tripOut

/-- The line written is the line read. -/
theorem setLine_line (x : Lines) (l : Line) (c : LineCtl) : (x.setLine l c).line l = c := by
  rcases l with ⟨g⟩|_
  · cases g <;> rfl
  · rfl

/-- A change of the lines leaves the line it names as the change makes it, its rate judged afresh (R147). -/
theorem updLines_lineCtl (m : Mill) (l : Line) (f : Lines → Lines) :
    (m.updLines l f).lineCtl l = { (f m.lines).line l with rate := ({ m with lines := f m.lines } : Mill).rateOf l } := by
  simp [Mill.updLines, Mill.lineCtl, setLine_line]

/-- A change of one line leaves it as the change makes it, its rate judged afresh (R147). -/
theorem updLine_lineCtl (m : Mill) (l : Line) (f : LineCtl → LineCtl) :
    (m.updLine l f).lineCtl l = { f (m.lineCtl l) with rate := ({ m with lines := m.lines.setLine l (f (m.lineCtl l)) } : Mill).rateOf l } := by
  unfold Mill.updLine; rw [updLines_lineCtl, setLine_line]; rfl

/-- A trip channel written changes only the channel's own part of its line. -/
theorem setChan_line (x : Lines) (ch : TripChannel) (c : TripChan) (l : Line) : LSame ((x.setChan ch c).line l) (x.line l) := by
  rcases l with ⟨g⟩|_
  · cases g <;> cases ch <;> exact ⟨rfl, rfl, rfl, rfl, rfl, rfl⟩
  · cases ch <;> exact ⟨rfl, rfl, rfl, rfl, rfl, rfl⟩

/-- A change of a trip channel leaves the line's control. -/
theorem updChan_lineCtl (m : Mill) (ch : TripChannel) (f) : LSame ((m.updChan ch f).lineCtl (chanLine ch)) (m.lineCtl (chanLine ch)) := by
  unfold Mill.updChan
  rw [updLines_lineCtl]
  exact setChan_line _ _ _ _

/-- Agreement is transitive. -/
theorem LSame.trans {a b c} (h : LSame a b) (g : LSame b c) : LSame a c :=
  ⟨h.1.trans g.1, h.2.1.trans g.2.1, h.2.2.1.trans g.2.2.1, h.2.2.2.1.trans g.2.2.2.1,
    h.2.2.2.2.1.trans g.2.2.2.2.1, h.2.2.2.2.2.trans g.2.2.2.2.2⟩

/-- The above counts cleared leave the line's control. -/
theorem clearAbove_lineCtl (m : Mill) (l : Line) : LSame ((m.clearAbove l).lineCtl l) (m.lineCtl l) := by
  unfold Mill.clearAbove
  have : ∀ chs : List TripChannel, (∀ ch ∈ chs, chanLine ch = l) → ∀ m : Mill, LSame ((chs.foldl (fun m ch => m.updChan ch ({ · with above := 0 })) m).lineCtl l) (m.lineCtl l) := by
    intro chs
    induction chs with
    | nil => intro _ m; exact ⟨rfl, rfl, rfl, rfl, rfl, rfl⟩
    | cons c cs ih =>
      intro h m
      have hc := h c (by simp)
      have := updChan_lineCtl m c ({ · with above := 0 })
      rw [hc] at this
      exact (ih (fun x hx => h x (by simp [hx])) _).trans this
  apply this
  rcases l with ⟨g⟩|_
  · cases g <;> decide
  · decide

/-- The trip channel changed is as the change makes it. -/
theorem updChan_chan (m : Mill) (ch : TripChannel) (f) : (m.updChan ch f).chan ch = f (m.chan ch) := by
  cases ch <;> simp [Mill.updChan, Mill.updLines, Mill.chan, Lines.chan, Lines.setChan, Lines.setLine, Lines.setGrinder, chanLine, Mill.lineCtl, Lines.line, Lines.grinder]

/-- Every other trip channel is as before. -/
theorem updChan_other (m : Mill) (ch c : TripChannel) (f) (h : c ≠ ch) : (m.updChan ch f).chan c = m.chan c := by
  cases ch <;> cases c <;> first | exact absurd rfl h | simp [Mill.updChan, Mill.updLines, Mill.chan, Lines.chan, Lines.setChan, Lines.setLine, Lines.setGrinder, chanLine, Mill.lineCtl, Lines.line, Lines.grinder]

/-! ### One grinder (R155 to R159) -/

/-- A change of a grinder's line leaves the grinder as the change makes it, its rate judged afresh. -/
theorem updLines_grinderCtl (m : Mill) (g : Grinder) (f : Lines → Lines) :
    (m.updLines (.grinder g) f).grinderCtl g = { (f m.lines).grinder g with
      line := { ((f m.lines).grinder g).line with
        rate := ({ m with lines := f m.lines } : Mill).rateOf (.grinder g) } } := by
  cases g <;>
    simp [Mill.updLines, Mill.grinderCtl, Lines.grinder, Lines.setLine, Lines.setGrinder, Mill.lineCtl, Lines.line]

/-- A change of a grinder leaves it as the change makes it, its rate judged afresh. -/
theorem updGrinder_grinderCtl (m : Mill) (g : Grinder) (f : GrinderCtl → GrinderCtl) :
    (m.updGrinder g f).grinderCtl g = { f (m.grinderCtl g) with
      line := { (f (m.grinderCtl g)).line with
        rate := ({ m with lines := m.lines.setGrinder g (f (m.grinderCtl g)) } : Mill).rateOf (.grinder g) } } := by
  unfold Mill.updGrinder
  rw [updLines_grinderCtl]
  cases g <;> rfl

/-- A start tried keeps the cause, the trip output and the load channel of the grinder's line. -/
theorem tryAutoStart_line (m : Mill) (g : Grinder) :
    ((m.tryAutoStart g).lineCtl (.grinder g)).cause = (m.lineCtl (.grinder g)).cause ∧
    ((m.tryAutoStart g).lineCtl (.grinder g)).tripOut = (m.lineCtl (.grinder g)).tripOut ∧
    ((m.tryAutoStart g).lineCtl (.grinder g)).load = (m.lineCtl (.grinder g)).load := by
  have hl : ∀ n : Mill, n.lineCtl (.grinder g) = (n.grinderCtl g).line := fun _ => rfl
  have hj : ∀ (n : Mill) r, ((n.judgeGrind g r).grinderCtl g).line.cause = (n.grinderCtl g).line.cause ∧
      ((n.judgeGrind g r).grinderCtl g).line.tripOut = (n.grinderCtl g).line.tripOut ∧
      ((n.judgeGrind g r).grinderCtl g).line.load = (n.grinderCtl g).line.load := by
    intro n r
    unfold Mill.judgeGrind
    split
    · dsimp only [Mill.setGrind]; rw [updGrinder_grinderCtl]; exact ⟨rfl, rfl, rfl⟩
    · exact ⟨rfl, rfl, rfl⟩
  rw [hl, hl]
  unfold Mill.tryAutoStart
  dsimp only
  split
  · split
    · unfold Mill.beginJob
      dsimp only
      generalize hf : (fun c : GrinderCtl => (_ : GrinderCtl)) = f
      have := updGrinder_grinderCtl m g f
      obtain ⟨h1, h2, h3⟩ := hj (m.updGrinder g f) ‹Refill›
      rw [h1, h2, h3, this]
      subst hf
      exact ⟨rfl, rfl, rfl⟩
    · exact ⟨rfl, rfl, rfl⟩
  · exact ⟨rfl, rfl, rfl⟩

/-- A TRIPPED grinder back to IDLE, answered, its refill setting asked for. -/
theorem grinder_untripped (m : Mill) (g : Grinder) (r : Answer) :
    let m1 := (((m.updLine (.grinder g) (fun c => { c with state := .idle, cause := .none, tripOut := false })).clearAbove
      (.grinder g)).answer r).readRefill g false
    let c := m1.lineCtl (.grinder g)
    (c.state = .idle ∧ c.cause = .none ∧ c.tripOut = false ∧ c.load.above = 0 ∧
      c.ceiling = (m.lineCtl (.grinder g)).ceiling) ∧
    (m1.grinderCtl g).autoStart = (m.grinderCtl g).autoStart ∧ (m1.grinderCtl g).refill = (m.grinderCtl g).refill := by
  cases g <;>
    simp [Mill.readRefill, Mill.clearAbove, lineChannels, Mill.updChan, Mill.updLine, Mill.updLines, Mill.lineCtl,
      Mill.grinderCtl, Lines.line, Lines.grinder, Lines.setLine, Lines.setGrinder, Lines.chan, Lines.setChan, chanLine]

/-! ### What a line's operations leave of the plan -/

@[simp] theorem Mill.updLine_plan (m : Mill) (l : Line) (f : LineCtl → LineCtl) : (m.updLine l f).plan = m.plan := by
  simp [Mill.updLine]
@[simp] theorem Mill.updGrinder_plan (m : Mill) (g : Grinder) (f : GrinderCtl → GrinderCtl) :
    (m.updGrinder g f).plan = m.plan := by simp [Mill.updGrinder]
@[simp] theorem Mill.updPellet_plan (m : Mill) (f : PelletCtl → PelletCtl) : (m.updPellet f).plan = m.plan := by
  simp [Mill.updPellet]
@[simp] theorem Mill.updChan_plan (m : Mill) (ch : TripChannel) (f : TripChan → TripChan) :
    (m.updChan ch f).plan = m.plan := by simp [Mill.updChan]

theorem endClaim_lines (m : Mill) (s : Surge) : (m.endClaim s).lines = m.lines := (stockOnly_endClaim m s).lines

theorem dropCurrent_plan (m : Mill) : m.dropCurrent.plan = m.plan := by
  unfold Mill.dropCurrent
  dsimp only
  split <;> simp [Mill.tell, (stockOnly_endClaim _ _).plan]

theorem clearAbove_plan (m : Mill) (l : Line) : (m.clearAbove l).plan = m.plan := by
  unfold Mill.clearAbove
  generalize lineChannels l = chs
  induction chs generalizing m with
  | nil => rfl
  | cons c cs ih => rw [List.foldl_cons, ih]; simp

theorem readRefill_plan (m : Mill) (g : Grinder) (b : Bool) : (m.readRefill g b).plan = m.plan := rfl

theorem endWork_plan (m : Mill) (l : Line) (s : LineState) : (m.endWork l s).plan = m.plan := by
  unfold Mill.endWork
  dsimp only
  split
  · split <;> simp [readRefill_plan]
  · simp [dropCurrent_plan]

theorem tripLine_plan (m : Mill) (l : Line) (c : TripCause) : (m.tripLine l c).plan = m.plan := by
  unfold Mill.tripLine
  simp [clearAbove_plan, endWork_plan]

theorem setGrind_plan (m : Mill) (g : Grinder) (a b : Bool) : (m.setGrind g a b).plan = m.plan := by
  simp [Mill.setGrind]

theorem judgeGrind_plan (m : Mill) (g : Grinder) (r : Refill) : (m.judgeGrind g r).plan = m.plan := by
  unfold Mill.judgeGrind
  split
  · exact setGrind_plan _ _ _ _
  · rfl

theorem reportGrind_plan (m : Mill) (g : Grinder) (r : Refill) (b : Fin 48) (n a : Nat) :
    (m.reportGrind g r b n a).plan = m.plan := setGrind_plan _ _ _ _

theorem tryAutoStart_plan (m : Mill) (g : Grinder) : (m.tryAutoStart g).plan = m.plan := by
  unfold Mill.tryAutoStart
  dsimp only
  split
  · split
    · simp [Mill.beginJob, judgeGrind_plan]
    · rfl
  · rfl

theorem judgeTop_plan (m : Mill) (l : Line) (v : Int) : (m.judgeTop l v).plan = m.plan := by
  unfold Mill.judgeTop Mill.adjustStep
  dsimp only
  split
  · split <;> simp
  · rfl

/-! ### Trips (R153) -/

/-- The line that trips: TRIPPED with the cause, at rest, its output as its block enables it, its ceiling kept. -/
theorem tripLine_does (m : Mill) (l : Line) (cause : TripCause) :
    let c := (m.tripLine l cause).lineCtl l
    c.state = .tripped ∧ c.cause = cause ∧ c.rate = 0 ∧ c.adjust = none ∧ c.top = false ∧
      c.tripOut = m.plan.tripOutOn l ∧ c.ceiling = (m.lineCtl l).ceiling := by
  dsimp only
  have hW : ∃ r, ((m.updLine l (fun c => { c with cause := cause, tripOut := m.plan.tripOutOn l })).endWork l
      .tripped).lineCtl l =
      { m.lineCtl l with
        cause := cause, tripOut := m.plan.tripOutOn l, state := .tripped, adjust := none, top := false, rate := r } := by
    generalize hm1 : m.updLine l (fun c => { c with cause := cause, tripOut := m.plan.tripOutOn l }) = m1
    have e1 : ∃ r, m1.lineCtl l = { m.lineCtl l with cause := cause, tripOut := m.plan.tripOutOn l, rate := r } := by
      subst hm1; rw [updLine_lineCtl]; exact ⟨_, rfl⟩
    obtain ⟨r1, e1⟩ := e1
    have e2 : ∃ r, (m1.updLine l (·.rest .tripped)).lineCtl l = { m.lineCtl l with
        cause := cause, tripOut := m.plan.tripOutOn l, state := .tripped, adjust := none, top := false, rate := r } := by
      rw [updLine_lineCtl, e1]; exact ⟨_, rfl⟩
    obtain ⟨r2, e2⟩ := e2
    unfold Mill.endWork
    dsimp only
    generalize m1.updLine l (·.rest .tripped) = m2 at *
    rcases l with ⟨g⟩ | _
    · dsimp only
      generalize hm4 : m2.updGrinder g (fun c => { c with starved := false, blocked := false }) = m4
      have h3 : m4.lineCtl (.grinder g) = { m2.lineCtl (.grinder g) with rate := (m4.lineCtl (.grinder g)).rate } := by
        subst hm4
        unfold Mill.updGrinder
        rw [updLines_lineCtl]
        cases g <;> rfl
      refine ⟨(m4.lineCtl (.grinder g)).rate, ?_⟩
      split
      · refine Eq.trans (show _ = m4.lineCtl (.grinder g) from rfl) ?_
        rw [h3, e2]
      · rw [h3, e2]
    · dsimp only
      have h3 : (m2.dropCurrent).lineCtl .pellet =
          (m2.updPellet (fun c => { c with current := none, drain := none, drainWaits := false })).lineCtl .pellet := by
        unfold Mill.dropCurrent
        dsimp only
        split <;> simp [Mill.lineCtl, Mill.tell, endClaim_lines]
      rw [h3]
      have key : ∃ r, (m2.updPellet (fun c =>
          { c with current := none, drain := none, drainWaits := false })).lineCtl .pellet =
          { m2.lineCtl .pellet with rate := r } := ⟨_, updLines_lineCtl _ _ _⟩
      obtain ⟨r, key⟩ := key
      exact ⟨r, by rw [key, e2]⟩
  obtain ⟨r, hW⟩ := hW
  unfold Mill.tripLine
  dsimp only
  generalize (m.updLine l (fun c => { c with cause := cause, tripOut := m.plan.tripOutOn l })).endWork l .tripped = m3 at *
  have h1 := clearAbove_lineCtl m3 l
  rw [hW] at h1
  refine ⟨h1.1, h1.2.1, ?_, h1.2.2.2.1, h1.2.2.2.2.1, h1.2.2.2.2.2, h1.2.2.1⟩
  have hr : ∀ (m : Mill) (ch : TripChannel) f, ((m.updChan ch f).lineCtl (chanLine ch)).state = .tripped →
      ((m.updChan ch f).lineCtl (chanLine ch)).rate = 0 := by
    intro m ch f hs
    unfold Mill.updChan at *
    rw [updLines_lineCtl] at *
    simp only at hs
    simp only [Mill.rateOf, Mill.lineCtl, hs]
    rfl
  have hs : ((m3.clearAbove l).lineCtl l).state = .tripped := h1.1
  clear h1 hW
  rcases l with ⟨g⟩ | _
  · cases g
    · simp only [Mill.clearAbove, lineChannels, List.foldl_cons, List.foldl_nil] at hs ⊢
      exact hr m3 .gaLoad _ hs
    · simp only [Mill.clearAbove, lineChannels, List.foldl_cons, List.foldl_nil] at hs ⊢
      exact hr m3 .gbLoad _ hs
  · simp only [Mill.clearAbove, lineChannels, List.foldl_cons, List.foldl_nil] at hs ⊢
    exact hr (m3.updChan .plTemp _) .plLoad _ hs

/-- The above counts of the line are 0 after they are cleared. -/
theorem clearAbove_above (m : Mill) (l : Line) : ∀ ch ∈ lineChannels l, ((m.clearAbove l).chan ch).above = 0 := by
  intro ch hc
  rcases l with ⟨g⟩ | _
  · cases g
    · have : ch = .gaLoad := by simpa [lineChannels] using hc
      subst this; simp [Mill.clearAbove, lineChannels, updChan_chan]
    · have : ch = .gbLoad := by simpa [lineChannels] using hc
      subst this; simp [Mill.clearAbove, lineChannels, updChan_chan]
  · have : ch = .plTemp ∨ ch = .plLoad := by simpa [lineChannels] using hc
    rcases this with rfl | rfl
    · simp only [Mill.clearAbove, lineChannels, List.foldl_cons, List.foldl_nil]
      rw [updChan_other _ _ _ _ (by decide), updChan_chan]
    · simp only [Mill.clearAbove, lineChannels, List.foldl_cons, List.foldl_nil]
      rw [updChan_chan]

/-- A request tried trips nothing and untrips nothing (R158). -/
theorem tryAutoStart_tripped (m : Mill) (g : Grinder) :
    ((m.tryAutoStart g).lineCtl (.grinder g)).state = .tripped ↔ (m.lineCtl (.grinder g)).state = .tripped := by
  have hl : ∀ n : Mill, n.lineCtl (.grinder g) = (n.grinderCtl g).line := fun _ => rfl
  rw [hl, hl]
  unfold Mill.tryAutoStart
  dsimp only
  split
  · rename_i r _
    split
    · rename_i hc
      have hi : (m.grinderCtl g).line.state = .idle := by
        simp only [Bool.and_eq_true, decide_eq_true_eq] at hc
        exact hc.1.2
      unfold Mill.beginJob
      dsimp only
      generalize hf : (fun c : GrinderCtl => (_ : GrinderCtl)) = f
      have h0 : ((m.updGrinder g f).grinderCtl g).line.state = .idle := by
        rw [updGrinder_grinderCtl]; subst hf; exact hi
      rw [hi]
      simp only [reduceCtorEq, iff_false]
      generalize m.updGrinder g f = m1 at *
      unfold Mill.judgeGrind
      split
      · dsimp only [Mill.setGrind]
        rw [updGrinder_grinderCtl]
        dsimp only
        split
        · simp
        · split <;> simp
      · rw [h0]; simp
    · exact Iff.rfl
  · exact Iff.rfl

/-- The top limit judged leaves the line's state and trip output. -/
theorem judgeTop_line (m : Mill) (l : Line) (v : Int) :
    ((m.judgeTop l v).lineCtl l).state = (m.lineCtl l).state ∧
    ((m.judgeTop l v).lineCtl l).tripOut = (m.lineCtl l).tripOut := by
  unfold Mill.judgeTop Mill.adjustStep
  dsimp only
  split
  · split
    · rw [updLine_lineCtl, updLine_lineCtl]; exact ⟨rfl, rfl⟩
    · rw [updLine_lineCtl]; exact ⟨rfl, rfl⟩
  · exact ⟨rfl, rfl⟩

end Sys2Proof.Machine
end

