-- ==== Sys2Proof/Laws/Notices.lean ====
section
/-! SUPPORT. A notice taken leaves the Plan Controller as it was; so does the end of a step but where the plan becomes
RUNNING (R29, R39). -/

namespace Sys2Proof.Machine

/-! ### The operations that notices reach -/

@[simp] theorem Mill.giveUp_plan (m : Mill) (o : Fin 256) (f : Order → Order) : (m.giveUp o f).plan = m.plan := by
  simp [Mill.giveUp, Mill.lowerUse]

@[simp] theorem Mill.leaveList_plan (m : Mill) (o : Fin 256) : (m.leaveList o).plan = m.plan := by
  unfold Mill.leaveList; split <;> rfl

@[simp] theorem Mill.judgeCancelled_plan (m : Mill) (o : Fin 256) : (m.judgeCancelled o).plan = m.plan := by
  unfold Mill.judgeCancelled; dsimp only; split <;> simp

@[simp] theorem Mill.autoClose_plan (m : Mill) (o : Fin 256) : (m.autoClose o).plan = m.plan := by
  unfold Mill.autoClose Mill.closeOrder; dsimp only; split <;> simp

@[simp] theorem Mill.judgeMakeUp_plan (m : Mill) (o : Fin 256) : (m.judgeMakeUp o).plan = m.plan := by
  unfold Mill.judgeMakeUp Mill.joinList; dsimp only; split <;> simp

@[simp] theorem Mill.judgeMaterial_plan (m : Mill) (o : Fin 256) : (m.judgeMaterial o).plan = m.plan := by
  simp [Mill.judgeMaterial]

@[simp] theorem Mill.judgeFinishing_plan (m : Mill) (o : Fin 256) : (m.judgeFinishing o).plan = m.plan := by
  unfold Mill.judgeFinishing; dsimp only; split <;> simp

@[simp] theorem Mill.appendLot_plan (m : Mill) (s : Surge) (o : Option (Fin 256)) (n : Nat) :
    (m.appendLot s o n).plan = m.plan := (stockOnly_appendLot m s o n).plan

@[simp] theorem Mill.drawLots_plan (m : Mill) (s : Surge) (n : Nat) : (m.drawLots s n).1.plan = m.plan :=
  (stockOnly_drawLots m s n).plan

@[simp] theorem Mill.checkHead_plan (m : Mill) (s : Surge) : (m.checkHead s).plan = m.plan := (stockOnly_checkHead m s).plan

@[simp] theorem Mill.recheckDiverts_plan (m : Mill) : m.recheckDiverts.plan = m.plan := (stockOnly_recheckDiverts m).plan

@[simp] theorem Mill.claimDivert_plan (m : Mill) (s : Surge) : (m.claimDivert s).plan = m.plan :=
  (stockOnly_claimDivert m s).plan

@[simp] theorem Mill.setClaim_plan (m : Mill) (s : Surge) : (m.setClaim s).plan = m.plan := (stockOnly_setClaim m s).plan

@[simp] theorem Mill.endClaim_plan (m : Mill) (s : Surge) : (m.endClaim s).plan = m.plan := (stockOnly_endClaim m s).plan

@[simp] theorem Mill.releaseEntry_plan (m : Mill) (b : Fin 32) (n : Nat) : (m.releaseEntry b n).plan = m.plan :=
  (stockOnly_releaseEntry m b n).plan

@[simp] theorem Mill.addRework_plan (m : Mill) (n : Nat) : (m.addRework n).plan = m.plan := (stockOnly_addRework m n).plan

@[simp] theorem Mill.ownBatch_plan (m : Mill) (b : Fin 32) (f : Batch → Batch) : (m.ownBatch b f).plan = m.plan := by
  simp [Mill.ownBatch]

/-! ### The consumers of the surges -/

@[simp] theorem Mill.stopBagger_plan (m : Mill) (s : BaggerState) : (m.stopBagger s).plan = m.plan := by
  unfold Mill.stopBagger; dsimp only; split <;> simp


@[simp] theorem Mill.judgeBagger_plan (m : Mill) : m.judgeBagger.plan = m.plan := by
  unfold Mill.judgeBagger
  split
  · rfl
  · simp only [Mill.reportWait_plan, Mill.updBagger_plan]
    unfold Mill.takeBagOutcome; split <;> simp

@[simp] theorem Mill.judgeLoadout_plan (m : Mill) : m.judgeLoadout.plan = m.plan := by
  unfold Mill.judgeLoadout
  dsimp only
  split
  · rfl
  · simp only [Mill.reportWait_plan, Mill.updLoadout_plan]
    unfold Mill.takeLoadOutcome; split <;> simp

@[simp] theorem Mill.cutFill_plan (m : Mill) : m.cutFill.plan = m.plan := by
  unfold Mill.cutFill
  split
  · split <;> simp
  · rfl

@[simp] theorem Mill.bulkMarked_plan (m : Mill) : m.bulkMarked.plan = m.plan := by
  unfold Mill.bulkMarked
  split
  · split <;> simp
  · simp

@[simp] theorem Mill.spoutGiven_plan (m : Mill) : m.spoutGiven.plan = m.plan := by simp [Mill.spoutGiven]

@[simp] theorem Mill.spoutTaken_plan (m : Mill) : m.spoutTaken.plan = m.plan := by
  unfold Mill.spoutTaken
  split
  · split <;> simp
  · simp

@[simp] theorem Mill.pelletTake_plan (m : Mill) : m.pelletTake.plan = m.plan := by
  unfold Mill.pelletTake
  split <;> simp

@[simp] theorem Mill.pelletSeek_plan (m : Mill) : m.pelletSeek.plan = m.plan := by
  unfold Mill.pelletSeek; split <;> simp

@[simp] theorem Mill.drainIfFeeding_plan (m : Mill) : m.drainIfFeeding.plan = m.plan := by
  unfold Mill.drainIfFeeding Mill.beginDrain; split <;> simp

@[simp] theorem Mill.pelletMarked_plan (m : Mill) : m.pelletMarked.plan = m.plan := by
  unfold Mill.pelletMarked
  split
  · split <;> simp
  · simp

@[simp] theorem Mill.pelletUnblock_plan (m : Mill) (s : Surge) : (m.pelletUnblock s).plan = m.plan := by
  unfold Mill.pelletUnblock; dsimp only; split <;> simp

@[simp] theorem Mill.grinderReport_plan (m : Mill) (g : Grinder) (b : Fin 48) (old new available : Nat) :
    (m.grinderReport g b old new available).plan = m.plan := by
  unfold Mill.grinderReport
  dsimp only
  split
  · rfl
  · split
    · rw [tryAutoStart_plan]
      split
      · rw [Mill.updGrinder_plan]
        split
        · split
          · exact endWork_plan _ _ _
          · exact reportGrind_plan _ _ _ _ _ _
        · rfl
      · split
        · split
          · exact endWork_plan _ _ _
          · exact reportGrind_plan _ _ _ _ _ _
        · rfl
    · rfl

/-! ### The mixer and the scales -/

@[simp] theorem Mill.judgeDischarge_plan (m : Mill) : m.judgeDischarge.plan = m.plan := by
  unfold Mill.judgeDischarge
  split
  · rfl
  · dsimp only
    split
    · simp only [Mill.ownBatch_plan, Mill.updMixer_plan]
      unfold Mill.bookDischarge
      split <;> simp
    · rfl

@[simp] theorem Mill.reclaim_plan (m : Mill) (k : BinKind) : (m.reclaim k).plan = m.plan := by
  unfold Mill.reclaim; split <;> simp

theorem foldScale_plan (f : Mill → Scale → Mill) (h : ∀ m sc, (f m sc).plan = m.plan) (scs : List Scale) (m : Mill) :
    (scs.foldl f m).plan = m.plan := by
  induction scs generalizing m with
  | nil => rfl
  | cons s ss ih => rw [List.foldl_cons, ih, h]

@[simp] theorem Mill.considerDump_plan (m : Mill) : m.considerDump.plan = m.plan := by
  unfold Mill.considerDump
  split
  · rfl
  · split
    · dsimp only
      rw [Mill.ownBatch_plan, Mill.updMixer_plan, foldScale_plan _ (fun m sc => Mill.updScale_plan m sc _)]
    · rfl

@[simp] theorem Mill.judgeWeighed_plan (m : Mill) (b : Fin 32) : (m.judgeWeighed b).plan = m.plan := by
  unfold Mill.judgeWeighed
  split
  · rw [Mill.considerDump_plan]; exact Mill.ownBatch_plan _ _ _
  · rfl

@[simp] theorem Mill.enterAttention_plan (m : Mill) (b : Fin 32) (sc : Scale) (c : Cause) :
    (m.enterAttention b sc c).plan = m.plan := by
  simp [Mill.enterAttention]

@[simp] theorem Mill.startPhase_plan (m : Mill) (b : Fin 32) (sc : Scale) (t : Nat) :
    (m.startPhase b sc t).plan = m.plan := by
  unfold Mill.startPhase; dsimp only; split <;> simp

@[simp] theorem Mill.startLines_plan (m : Mill) (b : Fin 32) (sc : Scale) (ls : List Nat) :
    (m.startLines b sc ls).plan = m.plan := by
  induction ls generalizing m with
  | nil => simp [Mill.startLines]
  | cons l ls ih =>
    unfold Mill.startLines
    split
    · rw [ih, Mill.releaseEntry_plan]
    · simp

@[simp] theorem Mill.takeHead_plan (m : Mill) (b : Fin 32) : (m.takeHead b).plan = m.plan := by
  simp [Mill.takeHead]

@[simp] theorem Mill.considerTake_plan (m : Mill) : m.considerTake.plan = m.plan := by
  unfold Mill.considerTake
  split
  · rfl
  · split
    · dsimp only
      rw [foldScale_plan _ (fun m sc => Mill.startLines_plan m _ sc _),
        foldScale_plan _ (fun m sc => Mill.updScale_plan m sc _)]
      simp
    · rfl

/-! ### Notices and the end of a step -/

/-- A notice taken leaves the Plan Controller as it was. -/
@[simp] theorem onNotice_plan (m : Mill) (n : Notice) : (m.onNotice n).plan = m.plan := by
  cases n with
  | headChanged s => cases s <;> simp [Mill.onNotice, Mill.onHead]
  | headMarked s => cases s <;> simp [Mill.onNotice, Mill.onMark]
  | appended s => cases s <;> simp [Mill.onNotice]
  | _ => simp [Mill.onNotice, Mill.binReport]

/-- The notices taken leave the Plan Controller as it was. -/
theorem drain_plan (n : Nat) (s : State) : (s.drain n).mill.plan = s.mill.plan := by
  induction n generalizing s with
  | zero => rfl
  | succ n ih =>
    unfold State.drain
    split
    · rfl
    · rw [ih]
      show ((_ : Mill).onNotice _).plan = _
      rw [onNotice_plan]

/-- The first part of a step's end leaves the Plan Controller as it was. -/
theorem settle_plan (s : State) : s.settle.mill.plan = s.mill.plan := by
  have h : s.drained.mill.plan = s.mill.plan := drain_plan _ _
  rw [settle_eq, ← h]
  have hp : ∀ x : State, x.popAction.mill.plan = x.mill.plan := by
    intro x; unfold State.popAction; split <;> rfl
  have ha : ∀ x : State, x.postArrive.mill.plan = x.mill.plan := by
    intro x
    unfold State.postArrive
    split
    · split
      · rfl
      · simp
    · rfl
  have hs : ∀ x : State, x.settleStatus.mill.plan = x.mill.plan := by
    intro x
    unfold State.settleStatus
    split <;> rfl
  rw [hp]
  show (State.postArrive _).mill.plan = _
  rw [ha, State.completeTx_plan]
  exact hs _

end Sys2Proof.Machine
end

