-- ==== Sys2Proof/Laws/Restart.lean ====
section
/-! SUPPORT. What the parts of a restart leave as they were (R43, R44). -/

namespace Sys2Proof.Machine

set_option maxRecDepth 100000

/-- Two mills agree in the plan, the actions, the order book, the reservation table and the queue: what a restart of the
lines, trips, outlets and scales leaves as it was. -/
def SameBooks (a b : Mill) : Prop :=
  a.actions = b.actions ∧ a.book = b.book ∧ a.stock.table = b.stock.table ∧ a.seq = b.seq ∧ a.plan = b.plan

/-- Agreement is reflexive. -/
theorem SameBooks.refl (a) : SameBooks a a := ⟨rfl, rfl, rfl, rfl, rfl⟩

/-- Agreement is transitive. -/
theorem SameBooks.trans {a b c} (h : SameBooks a b) (g : SameBooks b c) : SameBooks a c := 
  ⟨h.1.trans g.1, h.2.1.trans g.2.1, h.2.2.1.trans g.2.2.1, h.2.2.2.1.trans g.2.2.2.1, h.2.2.2.2.trans g.2.2.2.2⟩

/-- A change of the lines. -/
theorem sameBooks_updLines (m : Mill) (l f) : SameBooks (m.updLines l f) m := by
  refine ⟨?_, ?_, ?_, ?_, ?_⟩ <;> simp [Mill.updLines]

/-- A refill setting asked for. -/
theorem sameBooks_readRefill (m : Mill) (g b) : SameBooks (m.readRefill g b) m := SameBooks.refl _

/-- A grinder's job judged. -/
theorem sameBooks_judgeGrind (m : Mill) (g r) : SameBooks (m.judgeGrind g r) m := by
  unfold Mill.judgeGrind; split
  · dsimp only [Mill.setGrind, Mill.updGrinder]; exact sameBooks_updLines _ _ _
  · exact SameBooks.refl _

/-- An auto-start tried. -/
theorem sameBooks_tryAutoStart (m : Mill) (g) : SameBooks (m.tryAutoStart g) m := by
  unfold Mill.tryAutoStart; dsimp only; split
  · split
    · exact (sameBooks_judgeGrind _ _ _).trans (sameBooks_updLines _ _ _)
    · exact SameBooks.refl _
  · exact SameBooks.refl _

/-- A grinder restarted. -/
theorem sameBooks_restartGrinder (m : Mill) (g) : SameBooks (m.restartGrinder g) m := by
  unfold Mill.restartGrinder; dsimp only
  generalize hf : (fun c : GrinderCtl => (_ : GrinderCtl)) = F
  have h1 : SameBooks (m.updGrinder g F) m := sameBooks_updLines _ _ _
  generalize m.updGrinder g F = m1 at *
  refine (sameBooks_tryAutoStart _ _).trans ?_
  split
  · exact (sameBooks_readRefill _ _ _).trans h1
  · exact h1

/-- The lines restarted. -/
theorem sameBooks_restartLines (m : Mill) : SameBooks m.restartLines m := by
  unfold Mill.restartLines; dsimp only
  generalize hf : (fun c : PelletCtl => (_ : PelletCtl)) = F
  have h1 : SameBooks (m.updPellet F) m := sameBooks_updLines _ _ _
  generalize m.updPellet F = m1 at *
  exact (sameBooks_restartGrinder _ _).trans ((sameBooks_restartGrinder _ _).trans h1)

/-- A change of a trip. -/
theorem sameBooks_updTrip (m : Mill) (t f) : SameBooks (m.updTrip t f) m := by
  refine ⟨?_, ?_, ?_, ?_, ?_⟩ <;> simp [Mill.updTrip]

/-- A change of a scale. -/
theorem sameBooks_updScale (m : Mill) (t f) : SameBooks (m.updScale t f) m := by
  refine ⟨?_, ?_, ?_, ?_, ?_⟩ <;> simp [Mill.updScale]

/-- The trips restarted. -/
theorem sameBooks_restartTrips (m : Mill) : SameBooks m.restartTrips m := by
  unfold Mill.restartTrips
  have : ∀ (ts : List (Fin 8)) (m : Mill), SameBooks (ts.foldl (fun m t =>
    if (m.trip t).state = .arrived || (m.trip t).state = .loading then
      m.updTrip t ({ · with state := .opened, limitMark := false })
    else m) m) m := by
    intro ts
    induction ts with
    | nil => intro m; exact SameBooks.refl _
    | cons t ts ih =>
      intro m
      rw [List.foldl_cons]
      refine (ih _).trans ?_
      split
      · exact sameBooks_updTrip _ _ _
      · exact SameBooks.refl _
  generalize List.finRange 8 = ts
  have h := this ts m
  exact h

/-- The outlets restarted. -/
theorem sameBooks_restartPack (m : Mill) : SameBooks m.restartPack m := by
  unfold Mill.restartPack
  refine ⟨?_, ?_, ?_, ?_, ?_⟩ <;> simp [Mill.updLoadout, Mill.updBagger]

/-- The scales and the mixer restarted. -/
theorem sameBooks_restartWeigh (m : Mill) : SameBooks m.restartWeigh m := by
  unfold Mill.restartWeigh
  refine ⟨?_, ?_, ?_, ?_, ?_⟩ <;> simp [Mill.updScale, Mill.updMixer]

/-- The lines restarted leave the trips. -/
theorem lines_keep_trips (m : Mill) : m.restartLines.trips = m.trips := by
  have a : ∀ (m : Mill) l f, (m.updLines l f).trips = m.trips := by intro m l f; simp [Mill.updLines]
  have b : ∀ (m : Mill) g r, (m.judgeGrind g r).trips = m.trips := by
    intro m g r; unfold Mill.judgeGrind; split
    · dsimp only [Mill.setGrind, Mill.updGrinder]; exact a _ _ _
    · rfl
  have c : ∀ (m : Mill) g, (m.tryAutoStart g).trips = m.trips := by
    intro m g; unfold Mill.tryAutoStart; dsimp only; split
    · split
      · exact (b _ _ _).trans (a _ _ _)
      · rfl
    · rfl
  have d : ∀ (m : Mill) g, (m.restartGrinder g).trips = m.trips := by
    intro m g; unfold Mill.restartGrinder; dsimp only
    generalize hf : (fun c : GrinderCtl => (_ : GrinderCtl)) = F
    have h1 : (m.updGrinder g F).trips = m.trips := a _ _ _
    generalize m.updGrinder g F = m1 at *
    rw [c]; split
    · exact h1
    · exact h1
  unfold Mill.restartLines
  dsimp only
  rw [d, d]; exact a _ _ _

/-- An order whose cancellation the voiding has ended takes the end reason RESTART (R43, log 36). -/
theorem restartOrder_ended (was m : Mill) (o : Fin 256) (h : (was.order o).state.active = true)
    (hc : (m.order o).state = .cancelled) :
    ((Mill.restartOrder was m o).order o).endReason = .restart := by
  have hn : OrderState.cancelled.active = false := rfl
  simp only [Mill.restartOrder, hc, hn, h]
  simp [Order.atRestart]

/-- The fill booked, the batches voided and the orders restarted leave the queue hold (R118). -/
theorem restart_keeps_hold (m : Mill) :
    ((List.finRange 256).foldl (fun x o => Mill.restartOrder m.restartFill x o)
      ((List.finRange 32).foldl (fun m b => m.voidBatch b) m.restartFill)).seq.hold = m.seq.hold := by
  have hu : ∀ (ss : List Nat) g (m : Mill), (m.useSlots g ss).seq = m.seq := by
    intro ss g
    induction ss with
    | nil => intro m; rfl
    | cons x xs ih =>
      intro m
      have h1 : m.useSlots g (x :: xs) = (m.useSlots g [x]).useSlots g xs := rfl
      rw [h1, ih]
      simp only [Mill.useSlots, List.foldl_cons, List.foldl_nil]
      cases toSlot x <;> simp [Mill.postUse, Mill.postRecord]
  have hg : ∀ (m : Mill) o f, (m.giveUp o f).seq = m.seq := by
    intro m o f; unfold Mill.giveUp Mill.lowerUse; dsimp only; rw [hu]; simp
  have hac : ∀ (m : Mill) o, (m.autoClose o).seq = m.seq := by
    intro m o; unfold Mill.autoClose; dsimp only; split
    · exact hg _ _ _
    · rfl
  have hjc : ∀ (m : Mill) o, (m.judgeCancelled o).seq = m.seq := by
    intro m o; unfold Mill.judgeCancelled; dsimp only; split
    · exact hg _ _ _
    · rfl
  have hrf : ∀ (m : Mill) o c, (m.reportFinal o c).seq = m.seq := by
    intro m o c; unfold Mill.reportFinal Mill.lowerUse; dsimp only; split
    · exact hu _ _ _
    · rw [hac, hjc]; exact hu _ _ _
  have hro : ∀ (was m : Mill) o, (Mill.restartOrder was m o).seq = m.seq := by
    intro was m o; unfold Mill.restartOrder; split
    · exact hg _ _ _
    · split
      · simp [Mill.updOrder]
      · rfl
  have hub : ∀ (m : Mill) p b f, (m.updBatch p b f).seq.hold = m.seq.hold := by
    intro m p b f; simp [Mill.updBatch]
  have hvb : ∀ (m : Mill) b, (m.voidBatch b).seq.hold = m.seq.hold := by
    intro m b; unfold Mill.voidBatch; dsimp only; split
    · rfl
    · rw [hrf]; split
      · have : ∀ (m : Mill) o t, (m.moveBack o t).seq = m.seq := by intro m o t; simp [Mill.moveBack]
        rw [this]; exact hub _ _ _ _
      · exact hub _ _ _ _
  have hf1 : ∀ (was : Mill) (os : List (Fin 256)) (m : Mill),
      (os.foldl (fun m o => Mill.restartOrder was m o) m).seq = m.seq := by
    intro was os; induction os with
    | nil => intro m; rfl
    | cons o os ih => intro m; rw [List.foldl_cons, ih, hro]
  have hf2 : ∀ (os : List (Fin 32)) (m : Mill), (os.foldl (fun m o => m.voidBatch o) m).seq.hold = m.seq.hold := by
    intro os; induction os with
    | nil => intro m; rfl
    | cons o os ih => intro m; rw [List.foldl_cons, ih, hvb]
  rw [hf1, hf2]
  -- restartFill
  unfold Mill.restartFill
  split
  · have hrs : ∀ (m : Mill) b f, (m.raiseIf b f).seq = m.seq := by intro m b f; unfold Mill.raiseIf; split <;> rfl
    have hdl : ∀ (m : Mill) s n, (m.takeLots s n).1.seq = m.seq := fun m s n => (stockOnly_takeLots m s n).seq
    have hul : ∀ (m : Mill) f, (m.updLoadout f).seq = m.seq := by intro m f; simp [Mill.updLoadout]
    have hut : ∀ (m : Mill) t f, (m.updTrip t f).seq = m.seq := by intro m t f; simp [Mill.updTrip]
    have hel : ∀ (m : Mill) t b, (m.endLoading t b).seq = m.seq := by intro m t b; simp [Mill.endLoading, Mill.tell]
    have har : ∀ (ts : List (Fin 8)) (m : Mill), (m.arbitrate ts).seq = m.seq := by
      intro ts
      induction ts with
      | nil => intro m; rfl
      | cons t ts ih =>
        intro m
        unfold Mill.arbitrate
        dsimp only
        split
        · rw [ih]; simp [Mill.endLoading, Mill.tell]
        · simp [Mill.tell]
    have hja : ∀ m : Mill, m.judgeArbiter.seq = m.seq := by
      intro m; unfold Mill.judgeArbiter; split
      · rfl
      · split
        · rfl
        · exact har _ _
    have hbt : ∀ (m : Mill) t c n, (m.bookTrip t c n).seq = m.seq := by
      intro m t c n; unfold Mill.bookTrip; dsimp only
      generalize hF : (fun x : Trip => (_ : Trip)) = F
      have h1 := hut m t F
      generalize m.updTrip t F = m1 at *
      split
      · rw [hja, hel, h1]
      · exact h1
    have hec : ∀ (m : Mill) s, (m.dropClaim s).seq = m.seq := fun m s => (stockOnly_dropClaim m s).seq
    unfold Mill.endFill
    dsimp only
    simp only [Bool.false_eq_true, if_false]
    rw [hec, hul]
    split
    · unfold Mill.bookFill; simp [hbt, hdl]
    · rw [hrs]
  · rfl

end Sys2Proof.Machine
end

