-- ==== Sys2Proof/Laws/Sequence.lean ====
section
/-! SUPPORT. What the carryover judgement answers (R107), what the operations of a pass keep, and what the default flush of a
gap does (R116). -/

namespace Sys2Proof.Machine

/-- A rule of a treatment matches a pair of class masks. -/
def PlanCtl.hits (p : PlanCtl) (prev next : BitVec 16) (treatment n : Nat) : Prop :=
  n < 32 ∧ p.ruleFrom n &&& prev ≠ 0 ∧ p.ruleTo n &&& next ≠ 0 ∧ p.ruleTreatment n = treatment

theorem mem_matching (p : PlanCtl) (prev next : BitVec 16) (t n : Nat) :
    n ∈ p.matching prev next t ↔ p.hits prev next t n := by
  simp [PlanCtl.matching, PlanCtl.ruleMatches, PlanCtl.hits, and_assoc]

/-- A list of rules that is not empty has one of the largest mass. -/
theorem exists_largest (mass : Nat → Nat) (fs : List Nat) (h : fs ≠ []) : ∃ n ∈ fs, ∀ k ∈ fs, mass k ≤ mass n := by
  induction fs with
  | nil => exact absurd rfl h
  | cons a t ih =>
    by_cases ht : t = []
    · subst ht; exact ⟨a, by simp, by simp⟩
    · obtain ⟨n, hn, hx⟩ := ih ht
      by_cases hc : mass a ≤ mass n
      · refine ⟨n, by simp [hn], fun k hk => ?_⟩
        rcases List.mem_cons.1 hk with rfl | hk
        · exact hc
        · exact hx k hk
      · refine ⟨a, by simp, fun k hk => ?_⟩
        rcases List.mem_cons.1 hk with rfl | hk
        · exact Nat.le_refl _
        · exact Nat.le_trans (hx k hk) (by omega)

/-- The first rule of a rising list that is of the largest mass. -/
theorem find_largest (mass : Nat → Nat) (fs : List Nat) (hs : fs.Pairwise (· < ·)) (n : Nat) :
    fs.find? (fun n => fs.all (fun k => mass k ≤ mass n)) = some n ↔
      n ∈ fs ∧ (∀ k ∈ fs, mass k ≤ mass n) ∧ ∀ k ∈ fs, k < n → mass k < mass n := by
  constructor
  · intro h
    have hn := List.mem_of_find?_eq_some h
    have hb := List.find?_some h
    simp only [List.all_eq_true, decide_eq_true_eq] at hb
    refine ⟨hn, hb, fun k hk hlt => ?_⟩
    obtain ⟨-, as, bs, he, hno⟩ := List.find?_eq_some_iff_append.1 h
    have hka : k ∈ as := by
      rw [he] at hk hs
      rcases List.mem_append.1 hk with hk | hk
      · exact hk
      · rcases List.mem_cons.1 hk with rfl | hk
        · omega
        · have h1 := (List.pairwise_append.1 hs).2.1
          have h2 := (List.pairwise_cons.1 h1).1 k hk
          omega
    have hk2 := hno k hka
    simp only [Bool.not_eq_true', List.all_eq_false, decide_eq_true_eq] at hk2
    obtain ⟨j, hj, hj2⟩ := hk2
    have := hb j hj
    omega
  · rintro ⟨h1, h2, h3⟩
    have hex : ∃ x, fs.find? (fun n => fs.all (fun k => mass k ≤ mass n)) = some x := by
      cases hf : fs.find? (fun n => fs.all (fun k => mass k ≤ mass n)) with
      | some x => exact ⟨x, rfl⟩
      | none =>
        have := List.find?_eq_none.1 hf n h1
        exact absurd (by simpa using h2) this
    obtain ⟨x, hx⟩ := hex
    rw [hx]
    have hxm := List.mem_of_find?_eq_some hx
    have hxb := List.find?_some hx
    simp only [List.all_eq_true, decide_eq_true_eq] at hxb
    obtain ⟨-, as, bs, he, hno⟩ := List.find?_eq_some_iff_append.1 hx
    rcases Nat.lt_trichotomy x n with hlt | rfl | hgt
    · have := h3 x hxm hlt
      have := hxb n h1
      omega
    · rfl
    · exfalso
      have hna : n ∈ as := by
        rw [he] at h1 hs
        rcases List.mem_append.1 h1 with hk | hk
        · exact hk
        · rcases List.mem_cons.1 hk with rfl | hk
          · omega
          · have h4 := (List.pairwise_append.1 hs).2.1
            have h5 := (List.pairwise_cons.1 h4).1 n hk
            omega
      have := hno n hna
      simp only [Bool.not_eq_true', List.all_eq_false, decide_eq_true_eq] at this
      obtain ⟨j, hj, hj2⟩ := this
      exact hj2 (h2 j hj)

theorem matching_rising (p : PlanCtl) (prev next : BitVec 16) (t : Nat) :
    (p.matching prev next t).Pairwise (· < ·) := List.Pairwise.filter _ List.pairwise_lt_range

/-- A pair is forbidden exactly when a FORBID rule matches it (R107). -/
theorem judgePair_forbid (p : PlanCtl) (prev next : BitVec 16) :
    p.judgePair prev next = .forbid ↔ ∃ n, p.hits prev next forbidCode n := by
  unfold PlanCtl.judgePair
  split
  · rename_i h
    have h' : p.matching prev next forbidCode = [] := by simpa using h
    constructor
    · intro e
      dsimp only at e
      split at e <;> cases e
    · rintro ⟨n, hn⟩
      have := (mem_matching p prev next forbidCode n).2 hn
      rw [h'] at this
      cases this
  · rename_i h
    refine ⟨fun _ => ?_, fun _ => rfl⟩
    cases hl : p.matching prev next forbidCode with
    | nil => simp [hl] at h
    | cons a t => exact ⟨a, (mem_matching _ _ _ _ _).1 (by rw [hl]; simp)⟩

/-- A pair asks for a flush by the first matching FLUSH rule of the largest mass (R107). -/
theorem judgePair_flush (p : PlanCtl) (prev next : BitVec 16) (n : Nat) :
    p.judgePair prev next = .flush n ↔ (∀ k, ¬p.hits prev next forbidCode k) ∧ p.hits prev next flushCode n ∧
      (∀ k, p.hits prev next flushCode k → p.ruleMass k ≤ p.ruleMass n) ∧
      ∀ k, p.hits prev next flushCode k → k < n → p.ruleMass k < p.ruleMass n := by
  have hf := judgePair_forbid p prev next
  have key := find_largest p.ruleMass _ (matching_rising p prev next flushCode) n
  simp only [mem_matching] at key
  unfold PlanCtl.judgePair at hf ⊢
  split
  · rename_i h
    rw [if_pos h] at hf
    have nof : ∀ k, ¬p.hits prev next forbidCode k := by
      intro k hk
      have := hf.2 ⟨k, hk⟩
      dsimp only at this
      split at this <;> cases this
    rw [← key]
    dsimp only
    cases (p.matching prev next flushCode).find? (fun n =>
      (p.matching prev next flushCode).all (fun k => p.ruleMass k ≤ p.ruleMass n)) with
    | none => simp
    | some x => simp [nof]
  · rename_i h
    rw [if_neg h] at hf
    obtain ⟨k, hk⟩ := hf.1 rfl
    simp only [reduceCtorEq, false_iff]
    exact fun h => h.1 k hk

/-- A pair is clear exactly when no rule of a treatment matches it (R107). -/
theorem judgePair_clear (p : PlanCtl) (prev next : BitVec 16) :
    p.judgePair prev next = .clear ↔ ∀ n, ¬p.hits prev next flushCode n ∧ ¬p.hits prev next forbidCode n := by
  have hf := judgePair_forbid p prev next
  have hl := judgePair_flush p prev next
  cases hv : p.judgePair prev next with
  | forbid =>
    obtain ⟨n, hn⟩ := hf.1 hv
    simp only [reduceCtorEq, false_iff]
    exact fun h => (h n).2 hn
  | flush n =>
    simp only [reduceCtorEq, false_iff]
    exact fun h => (h n).1 ((hl n).1 hv).2.1
  | clear =>
    simp only [true_iff]
    have nof : ∀ n, ¬p.hits prev next forbidCode n := by
      intro n hn
      have := hf.2 ⟨n, hn⟩
      rw [hv] at this
      cases this
    refine fun n => ⟨fun hn => ?_, nof n⟩
    obtain ⟨k, hk, hmax⟩ := exists_largest p.ruleMass (p.matching prev next flushCode)
      (by intro e; have := (mem_matching _ _ _ _ _).2 hn; rw [e] at this; cases this)
    have hfind : ∃ x, (p.matching prev next flushCode).find? (fun n =>
        (p.matching prev next flushCode).all (fun k => p.ruleMass k ≤ p.ruleMass n)) = some x := by
      cases hx : (p.matching prev next flushCode).find? (fun n =>
        (p.matching prev next flushCode).all (fun k => p.ruleMass k ≤ p.ruleMass n)) with
      | some x => exact ⟨x, rfl⟩
      | none => exact absurd (by simpa using hmax) (List.find?_eq_none.1 hx k hk)
    obtain ⟨x, hx⟩ := hfind
    have hx2 := (find_largest _ _ (matching_rising p prev next flushCode) x).1 hx
    simp only [mem_matching] at hx2
    have := (hl x).2 ⟨nof, hx2⟩
    rw [hv] at this
    cases this

/-- The default flush of a gap is reserved by force where its claim is short, so its entries are made in either case. -/
theorem reserve_forced (m : Mill) (b : Fin 32) (ls : List ReserveLine) :
    (match m.reserve b ls with | .inl m' => m' | .inr _ => m.makeEntries b ls) = m.makeEntries b ls := by
  unfold Mill.reserve
  cases firstShort m.stock [] ls <;> rfl

/-- A granted claim changes the Stock Unit's book alone. -/
theorem reserve_stockOnly {m m' : Mill} {b : Fin 32} {ls : List ReserveLine} (h : m.reserve b ls = .inl m') :
    StockOnly m m' := by
  unfold Mill.reserve at h
  cases hf : firstShort m.stock [] ls with
  | some x => rw [hf] at h; cases h
  | none => rw [hf] at h; cases h; exact stockOnly_makeEntries b ls m

/-! ### The queue over a pass (R105) -/

theorem setWait_seq (m : Mill) (o : Fin 256) (r : WaitReason) (b) : (m.setWait o r b).seq = m.seq := by
  unfold Mill.setWait; split <;> simp

theorem created_seq {m m' : Mill} {o : Fin 256} {n : Nat} (h : m.created o n = some m') : m'.seq = m.seq := by
  unfold Mill.created at h
  dsimp only at h
  split at h
  · cases h; simp [Mill.raiseUse]
  · cases h

/-- A batch admitted: its record, its place, and the scales told where the queue was empty (R103, R105, R122). -/
theorem admitBatch_eq (m : Mill) (b : Fin 32) (x : Batch) :
    let n := (m.newBatch b x).setQueue (m.seq.queue ++ [b])
    m.admitBatch b x = if m.seq.queue.isEmpty then n.tell .considerTake else n := by
  unfold Mill.admitBatch
  dsimp only
  rw [Mill.newBatch_seq]

/-- What an admission does to the Batch Sequencer: the record written, the batch at the queue's tail (R103, R105). -/
theorem admitBatch_seq (m : Mill) (b : Fin 32) (x : Batch) :
    (m.admitBatch b x).seq = { m.seq with batches := putAt m.seq.batches b x, queue := m.seq.queue ++ [b] } := by
  rw [admitBatch_eq]
  split
  · rw [Mill.tell_seq, Mill.setQueue_seq, Mill.newBatch_seq]
  · rw [Mill.setQueue_seq, Mill.newBatch_seq]

theorem admitBatch_queue (m : Mill) (b : Fin 32) (x : Batch) : (m.admitBatch b x).seq.queue = m.seq.queue ++ [b] := by
  rw [admitBatch_seq]

theorem admitBatch_book (m : Mill) (b : Fin 32) (x : Batch) : (m.admitBatch b x).book = m.book := by
  rw [admitBatch_eq]
  split
  · rw [Mill.tell_book, Mill.setQueue_book, Mill.newBatch_book]
  · rw [Mill.setQueue_book, Mill.newBatch_book]

theorem admitBatch_notices (m : Mill) (b : Fin 32) (x : Batch) :
    (m.admitBatch b x).notices = m.notices ++ if m.seq.queue.isEmpty then [.considerTake] else [] := by
  rw [admitBatch_eq]
  split
  · rw [Mill.tell_notices, Mill.setQueue_notices, Mill.newBatch_notices]
  · rw [Mill.setQueue_notices, Mill.newBatch_notices, List.append_nil]

theorem endPass_queue (m : Mill) : m.endPass.seq.queue = m.seq.queue := rfl
theorem nextOrder_queue (m : Mill) (pos : Nat) (o) : (m.nextOrder pos o).seq.queue = m.seq.queue := rfl
theorem stayAt_queue (m : Mill) (pos : Nat) : (m.stayAt pos).seq.queue = m.seq.queue := rfl

/-- An order's batch admitted lengthens the queue by at most one. -/
theorem admitOrder_queue (m : Mill) (pos : Nat) (x : Sized) :
    (m.admitOrder pos x).seq.queue.length ≤ m.seq.queue.length + 1 := by
  unfold Mill.admitOrder
  split
  · simp [endPass_queue]
  · dsimp only
    split
    · simp [nextOrder_queue, setWait_seq]
    · rename_i m1 hm
      have h1 := (reserve_stockOnly hm).seq
      split
      · rw [nextOrder_queue, (stockOnly_releaseBatch _ _).seq, h1]; omega
      · rename_i m2 hm2
        rw [stayAt_queue, admitBatch_queue, created_seq hm2, h1]
        simp

/-- A step of a pass keeps the queue within its 8 places (R105). -/
theorem passStep_queue (m : Mill) (h : m.seq.queue.length ≤ 8) : m.passStep.seq.queue.length ≤ 8 := by
  unfold Mill.passStep
  split
  · exact h
  · split
    · exact h
    · split
      · exact h
      · dsimp only
        split
        · exact h
        · split
          · exact h
          · split
            · exact h
            · exact h
  · rename_i pos s hp
    by_cases hq : m.queueFree
    · have hlt : m.seq.queue.length < 8 := of_decide_eq_true hq
      rw [if_neg (by simp [hq])]
      split
      · rw [nextOrder_queue, setWait_seq]; exact h
      · unfold Mill.insertFlush
        split
        · exact h
        · dsimp only
          split
          · rw [nextOrder_queue, setWait_seq]; exact h
          · rename_i m1 hm
            have h1 := (reserve_stockOnly hm).seq
            generalize hx : m.flushBatch _ _ = fb
            rename_i b _ _
            have hq2 : ∀ ss, ((m1.admitBatch b fb).raiseUse ss).seq.queue = m.seq.queue ++ [b] := by
              intro ss; rw [Mill.raiseUse, Mill.useSlots_seq, admitBatch_queue, h1]
            split
            · rw [endPass_queue, hq2]; simp; omega
            · rename_i hfree
              simp only [Mill.queueFree, Config.queueDepth, hq2] at hfree
              split
              · rw [nextOrder_queue, setWait_seq, hq2]; simp; omega
              · refine Nat.le_trans (admitOrder_queue _ _ _) ?_
                rw [hq2]; simp at hfree ⊢; omega
              · refine Nat.le_trans (admitOrder_queue _ _ _) ?_
                rw [hq2]; simp at hfree ⊢; omega
      · exact Nat.le_trans (admitOrder_queue _ _ _) (by omega)
    · rw [if_pos (by simpa using hq)]; exact h

/-- So do the steps of a pass. -/
theorem passSteps_queue (n : Nat) (m : Mill) (h : m.seq.queue.length ≤ 8) : (m.passSteps n).seq.queue.length ≤ 8 := by
  induction n generalizing m with
  | zero => exact h
  | succ n ih => exact ih _ (passStep_queue m h)

end Sys2Proof.Machine
end

