-- ==== Sys2Proof/Laws/Shape.lean ====
section
/-! SUPPORT. What every command can answer, said once: one case for each kind of step. -/

namespace Sys2Proof.Machine

set_option maxRecDepth 100000

/-- Judging a burst changes neither the queue, the pins, memory, the lane nor the Status Unit. -/
theorem judgeBeats_keeps (s : State) (j : Judged) (base : Addr) (n : Nat) (bs : List WriteBeat) :
    let r := s.judgeBeats j base n bs
    r.1.pending = s.pending ∧ r.1.rstN = s.rstN ∧ r.1.strap = s.strap ∧ r.1.mem = s.mem ∧
    r.1.readData = s.readData ∧ r.1.bursts = s.bursts ∧
    r.1.grantCount = s.grantCount ∧ r.1.lane = s.lane ∧ r.1.waiting = s.waiting ∧ r.1.status = s.status ∧
    r.1.tx = s.tx := by
  induction bs generalizing s j n with
  | nil => simp [State.judgeBeats]
  | cons b bs ih =>
    have h1 : ∀ (s : State) a refused reason, let t := s.refuseBeat a b refused reason
        t.pending = s.pending ∧ t.rstN = s.rstN ∧ t.strap = s.strap ∧ t.mem = s.mem ∧ t.readData = s.readData ∧
        t.bursts = s.bursts ∧
        t.grantCount = s.grantCount ∧ t.lane = s.lane ∧ t.waiting = s.waiting ∧
        t.status = s.status ∧ t.tx = s.tx := by
      intro s a refused reason
      unfold State.refuseBeat
      dsimp only
      split
      · split <;> exact ⟨rfl, rfl, rfl, rfl, rfl, rfl, rfl, rfl, rfl, rfl, rfl⟩
      · exact ⟨rfl, rfl, rfl, rfl, rfl, rfl, rfl, rfl, rfl, rfl, rfl⟩
    have h2 : ∀ (s : State) j a, let t := (s.judgeBeat j a b).1
        t.pending = s.pending ∧ t.rstN = s.rstN ∧ t.strap = s.strap ∧ t.mem = s.mem ∧ t.readData = s.readData ∧
        t.bursts = s.bursts ∧
        t.grantCount = s.grantCount ∧ t.lane = s.lane ∧ t.waiting = s.waiting ∧
        t.status = s.status ∧ t.tx = s.tx := by
      intro s j a
      unfold State.judgeBeat
      dsimp only
      split
      · exact ⟨rfl, rfl, rfl, rfl, rfl, rfl, rfl, rfl, rfl, rfl, rfl⟩
      · exact h1 _ _ _ _
    have h3 := ih (s.judgeBeat j (addrPlus base n) b).1 (s.judgeBeat j (addrPlus base n) b).2 (n + 1)
    obtain ⟨a1,a2,a3,a4,a5,a6,a7,a8,a9,a10,a11⟩ := h3
    obtain ⟨b1,b2,b3,b4,b5,b6,b7,b8,b9,b10,b11⟩ := h2 s j (addrPlus base n)
    exact ⟨a1.trans b1, a2.trans b2, a3.trans b3, a4.trans b4, a5.trans b5, a6.trans b6, a7.trans b7, a8.trans b8,
      a9.trans b9, a10.trans b10, a11.trans b11⟩

/-- The next states a command can answer: no occasion, a step of the blocks, or one of the rows that work on the path, the
Status Unit's copies or the plan. A proof about every step needs one case for each. -/
inductive Shape (s : State) : Instr → State → Prop
  | same c : Shape s c s
  | leaves c m : Shape s c (s.leaves m)
  | takes c b m : Shape s c (s.takesTo b m)
  | low : Shape s .rstNLow { State.reset with pending := s.pending, mem := s.mem, strap := s.strap }
  | rel p : Shape s (.rstNRelease p) { s with rstN := true, strap := p }
  | write a bs : Shape s (.processorWrite a bs)
      (let r := s.judgeBeats ⟨[], []⟩ (wordAddr a) 0 bs
       s.stepTo { r.1 with tx := some (.write r.2.beats r.2.handoffs .waiting) })
  | read a es : Shape s (.processorRead a es)
      (let addrs := (List.range es.length).map (addrPlus (wordAddr a))
       { s with tx := some (.read addrs (holdOf addrs s.lane)) })
  | gw bs : Shape s .processorGrant (s.grantWrite bs).finish
  | gr as : Shape s .processorGrant (s.grantRead as).finish
  | land e rest : s.lane = e :: rest → Shape s .laneWriteLand (s.grantLane e rest).finish
  | joins : Shape s .postAdmitted
      (State.finish { s with lane := (admitPost s.lane s.waiting).1, waiting := (admitPost s.lane s.waiting).2 })
  | clear b rest hs landed : s.tx = some (.write (b :: rest) hs (.flagBeat landed)) →
      Shape s .flagClear (s.clearFlags b rest landed).finish
  | enable l d : Shape s .enableWrite
      (State.finish { s.takes .statusUnit with status := s.status.takeEnable l d })
  | reopen : Shape s .planOpen (s.stepTo s.reopenPlan)
  | restart : Shape s .restart (s.stepTo s.restartPlan)
  | adopt ws d m : Shape s .loadStage5 (s.stepTo (State.adoptAll { s with mill := m } ws d))

/-- A row of blocks. -/
theorem runMill_shape (s : State) (c) (bs f) : ∃ t, s.runMill bs f = .next t ∧ Shape s c t := by
  rcases runMill_cases s bs f with h | ⟨m, h⟩
  · exact ⟨_, h, .same c⟩
  · exact ⟨_, h, .leaves c m⟩

/-- An action row. -/
theorem actionRow_shape (s : State) (c) (k code f) : ∃ t, s.actionRow k code f = .next t ∧ Shape s c t := by
  rcases actionRow_cases s k code f with h | ⟨m, h⟩
  · exact ⟨_, h, .same c⟩
  · exact ⟨_, h, .leaves c m⟩

/-- A sample row. -/
theorem sampleRow_shape (s : State) (c) (b mine f) : ∃ t, s.sampleRow b mine f = .next t ∧ Shape s c t := by
  rcases sampleRow_cases s b mine f with h | ⟨m, h⟩
  · exact ⟨_, h, .same c⟩
  · exact ⟨_, h, .takes c b m⟩

/-- The end of a load stage. -/
theorem endStage_shape (s : State) (c) (e) : ∃ t, s.endStage e = .next t ∧ Shape s c t := by
  cases e with
  | goesOn m => exact ⟨_, rfl, .leaves c m⟩
  | fails m r =>
    unfold State.endStage
    dsimp only
    split
    · exact ⟨_, rfl, .leaves c _⟩
    · exact ⟨_, rfl, .same c⟩

/-- The next link walk of a load, or adoption and the sweep. -/
theorem nextWalk_shape (s : State) (m : Mill) (ws d todo) :
    Shape s .loadStage5 (s.stepTo (State.nextWalk { s with mill := m } ws d todo)) := by
  cases todo with
  | nil => exact .adopt ws d m
  | cons k ks => exact .leaves _ _

/-- A well-formed command answers one of its next states. -/
theorem exec_shape (c : Instr) (s : State) (h : c.wf = true) : ∃ t, exec c s = .next t ∧ Shape s c t := by
  cases c
  case rstNLow => exact ⟨_, rfl, .low⟩
  case rstNRelease p =>
    simp only [exec, execRstNRelease, noOccasion]; split
    · exact ⟨_, rfl, .same _⟩
    · exact ⟨_, rfl, .rel p⟩
  case processorWrite a bs =>
    simp only [exec, execProcessorWrite, noOccasion]
    have : burstWf bs.length = true := h
    rw [this]
    simp only [Bool.not_true, Bool.false_eq_true, if_false]
    split
    · exact ⟨_, rfl, .same _⟩
    · exact ⟨_, rfl, .write a bs⟩
  case processorRead a bs =>
    simp only [exec, execProcessorRead, noOccasion]
    have : burstWf bs.length = true := h
    rw [this]
    simp only [Bool.not_true, Bool.false_eq_true, if_false]
    split
    · exact ⟨_, rfl, .same _⟩
    · exact ⟨_, rfl, .read a bs⟩
  case processorGrant =>
    simp only [exec, execProcessorGrant, noOccasion]
    split
    · split
      · exact ⟨_, rfl, .gw _⟩
      · exact ⟨_, rfl, .gr _⟩
      · exact ⟨_, rfl, .same _⟩
    · exact ⟨_, rfl, .same _⟩
  case laneWriteLand =>
    simp only [exec, execLaneWriteLand, noOccasion]
    split
    · split
      · rename_i e rest hl; exact ⟨_, rfl, .land e rest hl⟩
      · exact ⟨_, rfl, .same _⟩
    · exact ⟨_, rfl, .same _⟩
  case postAdmitted =>
    simp only [exec, execPostAdmitted, noOccasion]
    split
    · exact ⟨_, rfl, .same _⟩
    · exact ⟨_, rfl, .joins⟩
  case flagClear =>
    simp only [exec, execFlagClear, noOccasion]
    split
    · rename_i b rest hs landed ht
      exact ⟨_, rfl, .clear b rest hs landed ht⟩
    · exact ⟨_, rfl, .same _⟩
  case enableWrite =>
    simp only [exec, execEnableWrite, noOccasion]
    split
    · split
      · exact ⟨_, rfl, .enable _ _⟩
      · exact ⟨_, rfl, .same _⟩
    · exact ⟨_, rfl, .same _⟩
  case planOpen =>
    simp only [exec, execPlanOpen, noOccasion]
    split
    · split
      · split
        · exact ⟨_, rfl, .leaves _ _⟩
        · exact ⟨_, rfl, .same _⟩
      · split
        · exact ⟨_, rfl, .leaves _ _⟩
        · split
          · exact ⟨_, rfl, .reopen⟩
          · exact ⟨_, rfl, .same _⟩
      · exact ⟨_, rfl, .same _⟩
      · exact ⟨_, rfl, .same _⟩
    · exact ⟨_, rfl, .same _⟩
  case planClose =>
    simp only [exec, execPlanClose, noOccasion]
    split
    · exact ⟨_, rfl, .leaves _ _⟩
    · exact ⟨_, rfl, .same _⟩
  case restart =>
    simp only [exec, execRestart, noOccasion]
    split
    · exact ⟨_, rfl, .restart⟩
    · exact ⟨_, rfl, .same _⟩
  case badControl =>
    simp only [exec, execBadControl, noOccasion]
    split
    · split
      · exact ⟨_, rfl, .leaves _ _⟩
      · exact ⟨_, rfl, .same _⟩
    · exact ⟨_, rfl, .same _⟩
  case loadStage1 =>
    simp only [exec, execLoadStage1, noOccasion]
    split
    · exact endStage_shape _ _ _
    · exact ⟨_, rfl, .same _⟩
  case loadStage2 =>
    simp only [exec, execLoadStage2, noOccasion]
    split
    · exact endStage_shape _ _ _
    · exact ⟨_, rfl, .same _⟩
  case loadStage3 =>
    simp only [exec, execLoadStage3, noOccasion]
    split
    · split
      · exact endStage_shape _ _ _
      · exact ⟨_, rfl, .same _⟩
    · exact ⟨_, rfl, .same _⟩
  case loadStage5 =>
    simp only [exec, execLoadStage5, noOccasion]
    split
    · split
      · split
        · exact ⟨_, rfl, nextWalk_shape s _ _ _ _⟩
        · exact ⟨_, rfl, .same _⟩
      · split
        · split
          · exact ⟨_, rfl, nextWalk_shape s _ _ _ _⟩
          · exact ⟨_, rfl, nextWalk_shape s _ _ _ _⟩
        · exact ⟨_, rfl, .same _⟩
      · exact ⟨_, rfl, .same _⟩
    · exact ⟨_, rfl, .same _⟩
  case badAction =>
    simp only [exec, execBadAction, noOccasion]
    split
    · split
      · exact ⟨_, rfl, .same _⟩
      · exact runMill_shape _ _ _ _
    · exact ⟨_, rfl, .same _⟩
  case verifyWalkStart =>
    simp only [exec, execVerifyWalkStart]
    exact runMill_shape _ _ _ _
  case admissionPass n =>
    simp only [exec, execAdmissionPass]
    have : n ≠ 0 := by have : 1 ≤ n := by simpa [Instr.wf] using h
                       omega
    rw [if_neg this]
    exact runMill_shape _ _ _ _
  all_goals simp only [exec, State.weighRow, State.lineRow, State.orderRow, State.binRow, State.batchRow,
    State.truckRow, execRelease, execReleaseFieldsRead, execTicketHeaderStage, execTicketLineStage,
    execConfirmingRead, execHold, execResume, execCancel, execClose, execClear, execAccept, execTopUp, execSkipLine,
    execRetry, execAbort, execCount, execCountReadReturn, execLockout, execReturnBin, execDivertHead, execStart,
    execStop, execClearTrip, execRefillSettingRead, execArrive, execArriveReadReturn, execFinish, execDepart,
    execWithdraw, execQueueHold, execQueueResume, execScaleSample, execMixerSample, execScaleStale, execMixerStale,
    execStallTimerExpiry, execSettleExpiry, execWeighLimitExpiry, execMixTimerExpiry, execHoldLimitExpiry,
    execTripChannelSample, execTripChannelStale, execAdjustTimerExpiry, execGrinderTotalSample, execPlFeedSample,
    execPlProductSample, execDrainTimerExpiry, execBagEvent, execTruckNetSample, execLoadoutSettleExpiry,
    execTruckNetStale, execTripLimitExpiry]
  all_goals first
    | exact runMill_shape s _ _ _
    | exact actionRow_shape s _ _ _ _
    | exact sampleRow_shape s _ _ _ _

end Sys2Proof.Machine
end

