-- ==== Sys2Proof/Laws/Weighing.lean ====
section
/-! SUPPORT. What the shared operations over the scales and the mixer do (07_weighing_mixing_and_discharge.md). -/

namespace Sys2Proof.Machine

theorem Mill.setScale_mixer (w : WeighMix) (sc : Scale) (c : ScaleCtl) : (w.setScale sc c).mixer = w.mixer := by
  cases sc <;> rfl

@[simp] theorem Mill.updScale_mixer (m : Mill) (sc : Scale) (f : ScaleCtl → ScaleCtl) :
    (m.updScale sc f).weigh.mixer = m.weigh.mixer := by cases sc <;> simp [Mill.updScale, WeighMix.setScale]
@[simp] theorem Mill.updScale_weighBatch (m : Mill) (sc : Scale) (f : ScaleCtl → ScaleCtl) :
    (m.updScale sc f).weigh.batch = m.weigh.batch := by cases sc <;> simp [Mill.updScale, WeighMix.setScale]
@[simp] theorem Mill.updScale_cancelled (m : Mill) (sc : Scale) (f : ScaleCtl → ScaleCtl) :
    (m.updScale sc f).weigh.cancelled = m.weigh.cancelled := by cases sc <;> simp [Mill.updScale, WeighMix.setScale]
@[simp] theorem Mill.updScale_batch (m : Mill) (sc : Scale) (f : ScaleCtl → ScaleCtl) (b : Fin 32) :
    (m.updScale sc f).batch b = m.batch b := by simp [Mill.batch]
@[simp] theorem Mill.updScale_scales (m : Mill) (sc : Scale) (f : ScaleCtl → ScaleCtl) :
    (m.updScale sc f).scales = m.scales := by simp [Mill.scales, Mill.presentUnit]
@[simp] theorem Mill.updMixer_scale (m : Mill) (sc : Scale) (f : MixerCtl → MixerCtl) :
    (m.updMixer f).scale sc = m.scale sc := by cases sc <;> simp [Mill.updMixer, Mill.scale]
@[simp] theorem Mill.updMixer_batch (m : Mill) (f : MixerCtl → MixerCtl) (b : Fin 32) :
    (m.updMixer f).batch b = m.batch b := by simp [Mill.batch]
@[simp] theorem Mill.updMixer_weighBatch (m : Mill) (f : MixerCtl → MixerCtl) :
    (m.updMixer f).weigh.batch = m.weigh.batch := by simp [Mill.updMixer]
@[simp] theorem Mill.updBatch_scale (m : Mill) (p : Block) (b : Fin 32) (f : Batch → Batch) (sc : Scale) :
    (m.updBatch p b f).scale sc = m.scale sc := by cases sc <;> simp [Mill.scale]

/-- A change of one scale leaves every other one. -/
theorem updScale_ne (m : Mill) (sc d : Scale) (f : ScaleCtl → ScaleCtl) (h : d ≠ sc) :
    (m.updScale sc f).scale d = m.scale d := by
  cases sc <;> cases d <;> first | exact absurd rfl h | simp [Mill.updScale, Mill.scale, WeighMix.setScale]

/-- A scale's record shows its state, bin and batch alone. -/
theorem scaleWord_congr {c d : ScaleCtl} (h1 : c.state = d.state) (h2 : c.bin = d.bin) (h3 : c.batch = d.batch) :
    c.word = d.word := by
  funext w
  unfold ScaleCtl.word
  rw [h1, h2, h3]

/-- A change of a scale's figures that its record does not show posts nothing. -/
theorem updScale_quiet (m : Mill) (sc : Scale) (f : ScaleCtl → ScaleCtl) (h : (f (m.scale sc)).word = (m.scale sc).word) :
    m.updScale sc f = { m with weigh := m.weigh.setScale sc (f (m.scale sc)) } := by
  unfold Mill.updScale Mill.postChanged
  simp [h]

theorem setScale_setScale (w : WeighMix) (sc : Scale) (c d : ScaleCtl) :
    (w.setScale sc c).setScale sc d = w.setScale sc d := by cases sc <;> rfl

/-- Two such changes are one. -/
theorem updScale_twice (m : Mill) (sc : Scale) (f g : ScaleCtl → ScaleCtl)
    (hf : (f (m.scale sc)).word = (m.scale sc).word) (hg : (g (f (m.scale sc))).word = (f (m.scale sc)).word) :
    (m.updScale sc f).updScale sc g = m.updScale sc (fun c => g (f c)) := by
  rw [updScale_quiet (m.updScale sc f) sc g (by simpa using hg), updScale_quiet m sc f hf,
    updScale_quiet m sc (fun c => g (f c)) (hg.trans hf)]
  cases sc <;> rfl

/-- A change made to each of some scales. -/
theorem foldScales (f : ScaleCtl → ScaleCtl) (hi : ∀ c, f (f c) = f c) (scs : List Scale) (m : Mill) :
    let t := scs.foldl (fun m sc => m.updScale sc f) m
    (∀ d, t.scale d = if d ∈ scs then f (m.scale d) else m.scale d) ∧ t.weigh.mixer = m.weigh.mixer ∧
    t.weigh.batch = m.weigh.batch ∧ t.weigh.cancelled = m.weigh.cancelled ∧ t.seq = m.seq ∧ t.plan = m.plan ∧
    t.stock = m.stock ∧ t.book = m.book ∧ t.lines = m.lines := by
  induction scs generalizing m with
  | nil => exact ⟨fun d => by simp, rfl, rfl, rfl, rfl, rfl, rfl, rfl, rfl⟩
  | cons sc scs ih =>
    obtain ⟨h1, h2, h3, h4, h5, h6, h7, h8, h9⟩ := ih (m.updScale sc f)
    refine ⟨fun d => ?_, ?_, ?_, ?_, ?_, ?_, ?_, ?_, ?_⟩
    · rw [List.foldl_cons, h1]
      by_cases hd : d = sc
      · subst hd
        by_cases hm : d ∈ scs <;> simp [hm, hi]
      · rw [updScale_ne _ _ _ _ hd]
        simp [hd]
    · rw [List.foldl_cons, h2]; simp
    · rw [List.foldl_cons, h3]; simp
    · rw [List.foldl_cons, h4]; simp
    · rw [List.foldl_cons, h5]; simp
    · rw [List.foldl_cons, h6]; simp
    · rw [List.foldl_cons, h7]; simp
    · rw [List.foldl_cons, h8]; simp
    · rw [List.foldl_cons, h9]; simp

end Sys2Proof.Machine
end

