-- ==== Sys2Proof/Tests/Slice0.lean ====
section
/-! SUPPORT. Small tests. Each witness theorem runs commands at states that meet the premises of a statement of
Obligations.lean, clause by clause: `act` and `after` answer only where the premises hold. -/

namespace Sys2Proof.Tests

open Sys2Proof Sys2Proof.Machine

set_option maxRecDepth 100000
set_option Elab.async false

/-! ### States to test on -/

/-- The next state of a command, if it answers one. -/
def ran (c : Instr) (s : State) : Option State :=
  match exec c s with
  | .next t => some t
  | _ => none

/-- What a command leaves, seen through a view, where the premises hold of the state it is run at. -/
def after {α : Type} (c : Instr) (s : State) (premises : State → Bool) (view : State → α) : Option α :=
  if premises s then (ran c s).map view else none

/-- Where a view is answered, the command answers a next state with that view. -/
theorem next_of_after {α : Type} {c : Instr} {s : State} {p : State → Bool} {view : State → α} {v : α}
    (h : after c s p view = some v) : ∃ t, exec c s = .next t ∧ view t = v := by
  unfold after ran at h
  cases hx : exec c s with
  | next t => rw [hx] at h; split at h <;> simp_all
  | fault f => rw [hx] at h; split at h <;> simp_all
  | refused r => rw [hx] at h; split at h <;> simp_all

/-- The words of a small plan: windows apart from each other, channel r for role r, round constants. -/
def planWord (n : Nat) : Word :=
  if n < 12 then [0x010000, 0x018000, 0x020000, 0x021000, 0x022000, 0x023000, 0x024000, 0x024100].getD (n - 4) 0
  else if n < 34 then [5000, 40000, 600, 60, 2000, 5, 10, 50, 100, 30, 3000, 5, 20, 20, 60, 30, 60, 500, 500, 0, 0, 8000].getD
    (n - 12) 0
  else if 120 ≤ n ∧ n ≤ 132 then BitVec.ofNat 32 (n - 120)
  else if n = 136 ∨ n = 152 ∨ n = 168 then 0x00C80064
  else if n = 169 then 0x0000005A
  else if n = 138 ∨ n = 154 ∨ n = 170 then 0x006403E8
  else if n = 140 ∨ n = 156 ∨ n = 172 then 0x000A0103
  else 0

/-- The small plan RUNNING, with every unit present. -/
def plan : PlanCtl :=
  { PlanCtl.reset with
    state := .running
    words := (List.range 180).map (fun n => planWord (n + 4))
    present := Vector.replicate 8 true }

/-- The part out of reset with the small plan RUNNING, its windows decoded, and the blocks as f has them. -/
def running (f : Mill → Mill) : State :=
  { State.reset with
    rstN := true
    windows := some plan.table
    status := { Status.reset with base := some 0x024100 }
    mill := f { Mill.reset with plan := plan } }

/-- The same with one action in the queue. -/
def handing (k : RecordKind) (i : Nat) (code : BitVec 8) (arg : BitVec 24) (f : Mill → Mill) : State :=
  running (fun m => { f m with actions := ⟨[⟨⟨k, i⟩, code, arg⟩], [⟨k, i⟩], .none⟩ })

/-- Such a state hands its action over: the premise of every statement about an action. -/
theorem handing_hands (k : RecordKind) (i : Nat) (code : BitVec 8) (arg : BitVec 24) (f : Mill → Mill) :
    (handing k i code arg f).hands ⟨k, i⟩ code arg := ⟨rfl, ⟨rfl, rfl⟩, rfl, rfl⟩

/-- Every block is free in such a state. -/
theorem running_free (f : Mill → Mill) (b : Block) : (running f).free b := ⟨rfl, rfl⟩

/-- The result and detail of the answer that a state has in the lane. -/
def answerOf (s : State) : Option (Nat × Nat) :=
  s.lane.findSome? (fun e => match e.op with
    | .write _ d .none => if e.poster = .actionExecutor then some (bits d 8 8, bits d 16 16) else none
    | _ => none)

/-- The answer to an action of argument 0, where the premises hold of the blocks it is handed to. -/
def act (c : Instr) (k : RecordKind) (i : Nat) (code : BitVec 8) (f : Mill → Mill) (premises : Mill → Bool)
    (arg : BitVec 24 := 0) : Option (Nat × Nat) :=
  (after c (handing k i code arg f) (fun s => premises s.mill) answerOf).join

/-- The same, seen through a view of the blocks. -/
def does {α : Type} (c : Instr) (k : RecordKind) (i : Nat) (code : BitVec 8) (f : Mill → Mill) (view : Mill → α) : Option α :=
  (ran c (handing k i code 0 f)).map (fun s => view s.mill)

def order (o : Fin 256) (x : Order) (m : Mill) : Mill := { m with book := { m.book with orders := putAt m.book.orders o x } }
def bin (i : Fin 48) (x : Bin) (m : Mill) : Mill := { m with stock := { m.stock with bins := putAt m.stock.bins i x } }
def batch (i : Fin 32) (x : Batch) (m : Mill) : Mill := { m with seq := { m.seq with batches := putAt m.seq.batches i x } }
def trip (i : Fin 8) (x : Trip) (m : Mill) : Mill := { m with trips := { m.trips with trips := putAt m.trips.trips i x } }
def line (l : Line) (x : LineCtl) (m : Mill) : Mill := { m with lines := m.lines.setLine l x }
def inState (x : OrderState) : Order := { Order.reset with state := x }
def held (x : OrderState) : Order := { Order.reset with state := x, wait := .held }
/-- An order with an entry of the active order table and so many non-final batches. -/
def tabled (x : OrderState) (n : Nat) : Order := { inState x with entry := some ⟨none, none, 0, 0, 0, 0, 0, 0, 0, none, [], n⟩ }
def withQueue (q : List (Fin 32)) (m : Mill) : Mill := { m with seq := { m.seq with queue := q } }
def withArrivals (q : List (Fin 8)) (m : Mill) : Mill := { m with trips := { m.trips with queue := q } }
def ofKind (k : BinKind) : Bin := { Bin.reset with plan := { BinDef.reset with kind := k, capacity := 1000 }, level := 600 }

/-- The same with a change of the part around the blocks. -/
def runningWith (g : State → State) (f : Mill → Mill := id) : State := g (running f)

/-- The same with one sample waiting at the hand-off. -/
def sampling (r : Role) (raw : BitVec 24) (quality : BitVec 8) (f : Mill → Mill) : State :=
  runningWith (fun s => { s with tx := some (.write [] [.sample ⟨r, raw, quality⟩] .waiting) }) f

/-- A sample that waits for its owner: the premise of every statement about a sample. -/
theorem sampling_samples (r : Role) (raw : BitVec 24) (quality : BitVec 8) (f : Mill → Mill) :
    (sampling r raw quality f).samples (handoffOwner (.sample ⟨r, raw, quality⟩)) ⟨r, raw, quality⟩ := by
  refine ⟨?_, rfl, rfl⟩
  simp [sampling, runningWith, State.handoffFor, State.handoffs]

/-! ### Well-formed commands -/

/-- A transaction of no beat or of nine, and a pass of no step, are ill formed, and the machine refuses them. -/
theorem test_illFormed :
    (Instr.processorWrite 0 []).wf = false ∧ (Instr.processorWrite 0 (List.replicate 9 ⟨0xF, 0⟩)).wf = false ∧
    (Instr.processorRead 0 []).wf = false ∧ (Instr.processorRead 0 (List.replicate 9 0xF)).wf = false ∧
    (Instr.admissionPass 0).wf = false ∧ (Instr.processorWrite 0 (List.replicate 8 ⟨0xF, 0⟩)).wf = true ∧
    (Instr.admissionPass 1).wf = true := by decide

theorem test_illFormed_refused :
    exec (.processorWrite 0 []) .reset = .refused .malformed ∧
    exec (.processorWrite 0 (List.replicate 9 ⟨0xF, 0⟩)) .reset = .refused .malformed ∧
    exec (.processorRead 0 []) .reset = .refused .malformed ∧
    exec (.processorRead 0 (List.replicate 9 0xF)) .reset = .refused .malformed ∧
    exec (.admissionPass 0) .reset = .refused .malformed := ⟨rfl, rfl, rfl, rfl, rfl⟩

/-! ### Order actions -/

theorem witness_ReleaseBegun :
    act .release .order 255 0x01 (order 255 (inState .released)) (fun m => decide ((m.order 255).state ≠ .idle)) = some (3, 1) ∧
    act .release .order 0 0x01
      (fun m => order 0 (inState .idle) { m with book := { m.book with orders := Vector.replicate 256 (tabled .packed 0) } })
      (fun m => decide ((m.order 0).state = .idle ∧ 64 ≤ m.book.entries)) = some (0x0A, 64) ∧
    does .release .order 7 0x01 id (fun m => (decide ((m.order 7).state = .idle ∧ m.book.entries < 64), m.actions.inExec)) =
      some (true, .releaseFields) := by decide +kernel

theorem witness_HoldAndResume :
    act .hold .order 5 0x02 (order 5 (inState .released)) (fun m => decide ((m.order 5).wait ≠ .held)) = some (0, 0) ∧
    does .hold .order 5 0x02 (order 5 (inState .producing)) (fun m => (m.order 5).wait) = some .held ∧
    act .hold .order 5 0x02 (order 5 (held .producing)) (fun m => decide ((m.order 5).wait = .held)) = some (3, 0x102) ∧
    act .hold .order 5 0x02 (order 5 (inState .packed)) (fun _ => true) = some (3, 4) ∧
    act .resume .order 5 0x03 (order 5 (held .released)) (fun m => decide ((m.order 5).wait = .held)) = some (0, 0) ∧
    does .resume .order 5 0x03 (order 5 (held .producing)) (fun m => ((m.order 5).wait, m.seq.pass)) =
      some (.none, .visiting 0) ∧
    act .resume .order 5 0x03 (order 5 (inState .released)) (fun m => decide ((m.order 5).wait ≠ .held)) = some (3, 0x101) ∧
    act .resume .order 5 0x03 (order 5 (inState .idle)) (fun _ => true) = some (3, 0) := by decide +kernel

theorem witness_CancelTaken :
    act .cancel .order 5 0x04 (order 5 (held .released)) (fun _ => true) = some (0, 0) ∧
    does .cancel .order 5 0x04 (order 5 (inState .released)) (fun m => (m.order 5).state) = some .cancelled ∧
    act .cancel .order 5 0x04 (order 5 { inState .producing with inFlight := 1 }) (fun _ => true) = some (0, 1) ∧
    act .cancel .order 5 0x04 (order 5 (tabled .finishing 1)) (fun _ => true) = some (0, 1) ∧
    act .cancel .order 5 0x04 (order 5 (inState .idle)) (fun _ => true) = some (3, 0) ∧
    act .cancel .order 5 0x04 (order 5 (inState .cancelled)) (fun _ => true) = some (3, 7) := by decide +kernel

theorem witness_CloseAndClear :
    act .close .order 5 0x05 (order 5 (inState .packed)) (fun m => decide ((m.order 5).nonFinal = 0)) = some (0, 0) ∧
    act .close .order 5 0x05 (order 5 (tabled .packed 1))
      (fun m => decide (0 < (m.order 5).nonFinal)) = some (3, 0x404) ∧
    act .close .order 5 0x05 (order 5 (inState .finishing)) (fun _ => true) = some (3, 3) ∧
    act .clear .order 5 0x06 (order 5 (inState .packed)) (fun _ => true) = some (3, 4) ∧
    act .clear .order 5 0x06 (order 5 (inState .closed)) (fun m => !m.hasLot 5 && decide (m.tripAtMill 5 = none)) =
      some (0, 0) ∧
    act .clear .order 5 0x06
      (fun m => bin 3 { ofKind .surgeBag with lots := [⟨some 5, .none, 600⟩] } (order 5 (inState .cancelled) m))
      (fun m => m.hasLot 5) = some (3, 0x200) ∧
    act .clear .order 5 0x06
      (fun m => trip 2 { Trip.reset with state := .loaded, copy := [⟨5, 100⟩] } (order 5 (inState .closed) m))
      (fun m => !m.hasLot 5 && decide (m.tripAtMill 5 = some 2)) = some (3, 0x302) := by decide +kernel

/-! ### Batch actions -/

/-- A batch of one line on scale 1 in the scale stage, the scale in ATTENTION. -/
def attending (cause : Cause) (available unbooked : Nat) (m : Mill) : Mill :=
  let c : Chain := ⟨0, [0], 60, [⟨0, 0, 4, .one, 0, 10000⟩], 0⟩
  let x : Batch := { Batch.reset with
    state := .weighing, chain := c, masses := [5000], actuals := [4000], target := 5000
    attention := ⟨cause, 1, 0, 5000, 4000⟩ }
  let m1 := bin 4 { ofKind .raw with level := available + unbooked, reserved := unbooked } (batch 9 x m)
  { m1 with
    stock := { m1.stock with table := [⟨9, 0, 4, unbooked⟩] }
    weigh := { m1.weigh with
      batch := some 9
      scale1 := { m1.weigh.scale1 with state := .attention, cause := cause, lines := [0], batch := some 9, target := 5000 } } }

def atScale (m : Mill) : Bool :=
  decide ((m.batch 9).state = .weighing ∧ (m.scale .one).state = .attention) && m.presentUnit (scaleUnit .one)

theorem witness_LineActions :
    act .accept .batch 9 0x10 (attending .under 0 0) atScale 1 = some (0, 0) ∧
    act .accept .batch 9 0x10 (attending .over 0 0) atScale 1 = some (0, 0) ∧
    act .skipLine .batch 9 0x12 (attending .stalled 0 0) atScale 1 = some (0, 0) ∧
    act .retry .batch 9 0x13 (attending .stalled 0 1) (fun m => atScale m && decide (0 < m.stock.unbooked 9 0)) 1 =
      some (0, 0) ∧
    act .retry .batch 9 0x13 (attending .stalled 0 0) (fun m => atScale m && decide (m.stock.unbooked 9 0 = 0)) 1 =
      some (0, 0) ∧
    act .topUp .batch 9 0x11 (attending .under 1000 0) atScale 1 = some (0, 0) ∧
    act .topUp .batch 9 0x11 (attending .under 999 0) atScale 1 = some (0x0B, 4) := by decide +kernel

theorem witness_LineActions_checks :
    act .accept .batch 9 0x10 (batch 9 { Batch.reset with state := .weighed }) (fun _ => true) 1 = some (3, 3) ∧
    act .accept .batch 9 0x10 (attending .under 0 0) (fun m => decide (m.scaleArg 3 = none)) 3 = some (4, 3) ∧
    act .accept .batch 9 0x10 (attending .under 0 0) (fun m => decide ((m.scale .two).state ≠ .attention)) 2 =
      some (3, 0x100) ∧
    act .accept .batch 9 0x10 (attending .stalled 0 0) atScale 1 = some (3, 0x203) := by decide +kernel

theorem witness_AbortTaken :
    act .abort .batch 9 0x14
      (fun m => withQueue [9] (batch 9 { Batch.reset with state := .queued } m))
      (fun _ => true) = some (0, 0) ∧
    act .abort .batch 9 0x14 (attending .under 0 0) (fun m => !m.weigh.cancelled) = some (0, 0) ∧
    act .abort .batch 9 0x14
      (fun m => { attending .under 0 0 m with weigh := { (attending .under 0 0 m).weigh with cancelled := true } })
      (fun m => m.weigh.cancelled) = some (0, 1) ∧
    act .abort .batch 9 0x14 (batch 9 { Batch.reset with state := .mixing }) (fun m => decide ((m.batch 9).disposition = .good)) =
      some (0, 0) ∧
    act .abort .batch 9 0x14 (batch 9 { Batch.reset with state := .mixed, disposition := .rework }) (fun _ => true) =
      some (0, 1) ∧
    act .abort .batch 9 0x14 (batch 9 { Batch.reset with state := .discharging }) (fun _ => true) = some (3, 7) ∧
    act .abort .batch 31 0x14 id (fun m => (m.batch 31).state.final) = some (3, 0) := by decide +kernel

/-! ### Queue and bin actions -/

theorem witness_QueueHoldAndResume :
    act .queueHold .status 0 0x50 id (fun m => !m.seq.hold) = some (0, 0) ∧
    does .queueHold .status 0 0x50 id (fun m => m.seq.hold) = some true ∧
    act .queueHold .status 0 0x50 (fun m => { m with seq := { m.seq with hold := true } }) (fun m => m.seq.hold) = some (3, 1) ∧
    act .queueResume .status 0 0x51 (fun m => { m with seq := { m.seq with hold := true } }) (fun m => m.seq.hold) =
      some (0, 0) ∧
    does .queueResume .status 0 0x51 (fun m => { m with seq := { m.seq with hold := true } })
      (fun m => (m.seq.hold, m.seq.pass)) = some (false, .visiting 0) ∧
    act .queueResume .status 0 0x51 id (fun m => !m.seq.hold) = some (3, 0) := by decide +kernel

/-- A count read returned for bin 9. -/
def counted (x : Bin) (w : Word) : State :=
  running (fun m => { bin 9 x m with
    actions := ⟨[⟨⟨.bin, 9⟩, 0x20, 0⟩], [⟨.bin, 9⟩], .countValue⟩
    returned := [(.countValue, w)] })

theorem witness_CountTaken :
    does .count .bin 9 0x20 (bin 9 (ofKind .rework)) (fun m => m.actions.inExec) = some .countValue ∧
    act .count .bin 9 0x20 (bin 9 (ofKind .surgePellet)) (fun _ => true) = some (3, 0) ∧
    (after .countReadReturn (counted { ofKind .raw with reserved := 100 } 99)
      (fun s => decide (s.mill.readsOf .countValue = [99])) answerOf).join = some (0x0B, 1) ∧
    (after .countReadReturn (counted (ofKind .raw) 1001) (fun _ => true) answerOf).join = some (0x0B, 2) ∧
    (after .countReadReturn (counted { ofKind .raw with reserved := 1002 } 1001) (fun _ => true) answerOf).join =
      some (0x0B, 1) ∧
    after .countReadReturn (counted { ofKind .raw with reserved := 100 } 100) (fun _ => true)
      (fun s => (answerOf s, (getAt s.mill.stock.bins 9).level, s.mill.seq.pass)) = some (some (0, 0), 100, .idle) ∧
    after .countReadReturn (counted (ofKind .raw) 1000) (fun _ => true)
      (fun s => (answerOf s, (getAt s.mill.stock.bins 9).level, s.mill.seq.pass)) =
      some (some (0, 0), 1000, .visiting 0) := by decide +kernel

/-- A grinder at work from bin 9. -/
def grinding (m : Mill) : Mill :=
  { m with lines := { m.lines with grinderA := { m.lines.grinderA with
      line := { m.lines.grinderA.line with state := .running }, refill := some ⟨9, 10, false⟩ } } }

theorem witness_LockoutTaken :
    act .lockout .bin 9 0x21 (bin 9 (ofKind .rework)) (fun m => !(getAt m.stock.bins 9).plan.kind.ingredient) = some (3, 0) ∧
    act .lockout .bin 9 0x21 (bin 9 { ofKind .raw with lockedOut := true })
      (fun m => (getAt m.stock.bins 9).plan.kind.ingredient) = some (3, 1) ∧
    act .lockout .bin 9 0x21 (bin 9 { ofKind .raw with lockedOut := true, reserved := 1 }) (fun _ => true) = some (3, 1) ∧
    act .lockout .bin 9 0x21 (bin 9 { ofKind .raw with reserved := 1 }) (fun _ => true) = some (0x0F, 1) ∧
    act .lockout .bin 9 0x21 (fun m => grinding (bin 9 { ofKind .raw with lockedOut := true } m)) (fun m => m.inGrindJob 9) =
      some (3, 1) ∧
    act .lockout .bin 9 0x21 (fun m => grinding (bin 9 { ofKind .raw with reserved := 1 } m)) (fun m => m.inGrindJob 9) =
      some (0x0F, 1) ∧
    act .lockout .bin 9 0x21 (fun m => grinding (bin 9 (ofKind .raw) m)) (fun m => m.inGrindJob 9) = some (0x0F, 2) ∧
    act .lockout .bin 9 0x21 (bin 9 (ofKind .premix)) (fun m => !m.inGrindJob 9) = some (0, 0) ∧
    does .lockout .bin 9 0x21 (bin 9 (ofKind .premix)) (fun m => (getAt m.stock.bins 9).available) = some 0 := by
  decide +kernel

theorem witness_ReturnTaken :
    act .returnBin .bin 9 0x22 (bin 9 { ofKind .raw with lockedOut := true }) (fun m => m.outbox.isEmpty) = some (0, 0) ∧
    does .returnBin .bin 9 0x22 (bin 9 { ofKind .raw with lockedOut := true, reserved := 100 })
      (fun m => ((getAt m.stock.bins 9).available, m.seq.pass)) = some (500, .visiting 0) ∧
    act .returnBin .bin 9 0x22 (bin 9 (ofKind .raw)) (fun m => !(getAt m.stock.bins 9).lockedOut) = some (3, 0) := by
  decide +kernel

theorem witness_DivertHeadTaken :
    act .divertHead .bin 3 0x23 (bin 3 (ofKind .raw)) (fun m => decide ((getAt m.stock.bins 3).plan.kind.surge = none)) =
      some (3, 0) ∧
    act .divertHead .bin 3 0x23 (bin 3 (ofKind .surgeBulk)) (fun m => decide ((getAt m.stock.bins 3).lots = [])) =
      some (3, 1) ∧
    act .divertHead .bin 3 0x23
      (fun m => bin 4 { ofKind .rework with level := 0 } (bin 3 { ofKind .surgeBag with lots := [⟨some 5, .none, 600⟩] } m))
      (fun _ => true) = some (0, 1) ∧
    does .divertHead .bin 3 0x23
      (fun m => bin 4 { ofKind .rework with level := 0 } (bin 3 { ofKind .surgeBag with lots := [⟨some 5, .none, 600⟩] } m))
      (fun m => ((getAt m.stock.bins 3).lots, (getAt m.stock.bins 4).level)) = some ([], 600) := by decide +kernel

/-! ### Unit actions -/

def absent (m : Mill) : Mill := { m with plan := { m.plan with present := Vector.replicate 8 false } }
def fresh (l : Line) (m : Mill) : Mill :=
  (lineChannels l).foldl (fun m ch => m.updChan ch (fun c => { c with fresh := some 1, latest := some ⟨chanRole ch, 50, 0⟩ })) m
def inLine (l : Line) (st : LineState) (m : Mill) : Mill := line l { LineCtl.reset with state := st } m
def baggerIn (st : BaggerState) (m : Mill) : Mill :=
  { m with pack := { m.pack with bagger := { m.pack.bagger with state := st } } }
def loadoutIn (st : LoadoutState) (f : Option Fill) (m : Mill) : Mill :=
  { m with pack := { m.pack with loadout := { m.pack.loadout with state := st, fill := f } } }
/-- The fill of compartment 0 of trip 2. -/
def fillOf (settling : Bool) : Fill := ⟨2, 0, 0, 1000, some 5, settling⟩

theorem witness_StartTaken :
    act .start .unit 2 0x30 id (fun _ => true) = some (3, 0xFFFF) ∧
    act .start .unit 3 0x30 absent (fun m => !m.presentUnit 3) = some (0x0D, 0) ∧
    act .start .unit 7 0x30 absent (fun m => !m.presentUnit 7) = some (0x0D, 0) ∧
    act .start .unit 4 0x30 (inLine (.grinder .b) .blocked) (fun m => m.presentLine (.grinder .b)) = some (3, 3) ∧
    does .start .unit 4 0x30 id (fun m => m.actions.inExec) = some (.startRefill .b) ∧
    act .start .unit 5 0x30 id (fun m => decide (m.firstFailing .pellet (fun _ c => c.fresh.isSome) = some .plTemp)) =
      some (0x0C, 7) ∧
    act .start .unit 5 0x30 (fresh .pellet)
      (fun m => decide (m.firstFailing .pellet (fun _ c => c.fresh.isSome) = none)) = some (0, 0) ∧
    does .start .unit 5 0x30 (fresh .pellet) (fun m => ((m.lineCtl .pellet).state, (m.lineCtl .pellet).ceiling)) =
      some (.starved, 1000) ∧
    act .start .unit 6 0x30 id (fun m => decide (m.pack.bagger.state = .idle)) = some (0, 0) ∧
    act .start .unit 7 0x30 id (fun m => decide (m.pack.loadout.state = .idle)) = some (0, 0) := by decide +kernel

theorem witness_StopTaken :
    act .stop .unit 0 0x31 id (fun _ => true) = some (3, 0xFFFF) ∧
    act .stop .unit 5 0x31 absent (fun m => !m.presentUnit 5) = some (0x0D, 0) ∧
    act .stop .unit 5 0x31 (inLine .pellet .tripped) (fun _ => true) = some (3, 5) ∧
    act .stop .unit 3 0x31 id (fun m => decide ((m.lineCtl (.grinder .a)).state = .idle)) = some (0, 1) ∧
    act .stop .unit 3 0x31 grinding (fun m => (m.lineCtl (.grinder .a)).state.works) = some (0, 0) ∧
    act .stop .unit 5 0x31 id (fun _ => true) = some (0, 1) ∧
    act .stop .unit 5 0x31 (inLine .pellet .draining) (fun m => (m.lineCtl .pellet).state.works) = some (0, 0) ∧
    act .stop .unit 6 0x31 id (fun _ => true) = some (0, 1) ∧
    act .stop .unit 6 0x31 (baggerIn .blocked) (fun _ => true) = some (0, 0) ∧
    act .stop .unit 7 0x31 id (fun _ => true) = some (0, 1) ∧
    act .stop .unit 7 0x31 (loadoutIn .filling (some (fillOf false))) (fun _ => true) = some (0, 0) ∧
    act .stop .unit 7 0x31 (loadoutIn .waitLot none) (fun _ => true) = some (0, 0) := by decide +kernel

theorem witness_ClearTripTaken :
    act .clearTrip .unit 1 0x32 id (fun _ => true) = some (3, 0xFFFF) ∧
    act .clearTrip .unit 6 0x32 absent (fun m => !m.presentUnit 6) = some (0x0D, 0) ∧
    act .clearTrip .unit 6 0x32 id (fun m => m.presentUnit 6) = some (3, 0xFFFF) ∧
    act .clearTrip .unit 3 0x32 id (fun _ => true) = some (3, 0) ∧
    act .clearTrip .unit 5 0x32 (inLine .pellet .tripped)
      (fun m => decide (m.firstFailing .pellet m.chanClear = some .plTemp)) = some (0x0C, 7) ∧
    act .clearTrip .unit 5 0x32 (fun m => fresh .pellet (inLine .pellet .tripped m))
      (fun m => decide (m.firstFailing .pellet m.chanClear = none)) = some (0, 0) ∧
    does .clearTrip .unit 5 0x32 (fun m => fresh .pellet (inLine .pellet .tripped m)) (fun m => (m.lineCtl .pellet).state) =
      some .idle := by decide +kernel

def groundBin : Bin := { ofKind .ground with plan := { BinDef.reset with kind := .ground, capacity := 1000, high := 601 } }

/-- A refill setting returned for grinder A, with or without the START in execution. -/
def refilled (forStart : Bool) (f : Mill → Mill) (w : Word) : State :=
  running (fun m => { f m with
    actions := if forStart then ⟨[⟨⟨.unit, 3⟩, 0x30, 0⟩], [⟨.unit, 3⟩], .startRefill .a⟩ else ⟨[], [], .none⟩
    returned := [(.refill .a forStart, w)] })

theorem witness_RefillSettingTaken :
    (after (.refillSettingRead .a) (refilled true id 0x0A09) (fun _ => true) answerOf).join = some (4, 1) ∧
    (after (.refillSettingRead .a)
      (refilled true (fun m => fresh (.grinder .a) (bin 9 (ofKind .raw) (bin 10 groundBin m))) 0x0A09)
      (fun s => decide ((Mill.takeRefill { s.mill with returned := [] } .a 0x0A09).grindChecks .a (refillOf 0x0A09) = none))
      answerOf).join = some (0, 0) ∧
    after (.refillSettingRead .a) (refilled false id 0x10A09) (fun _ => true) (fun s => (s.mill.grinderCtl .a).refill) =
      some (some ⟨9, 10, true⟩) := by decide +kernel

/-! ### Truck actions -/

/-- An arrival read returned for trip 2: the count and the compartment words. -/
def arriving (w : Word) (f : Mill → Mill) : State :=
  running (fun m =>
    let m1 := trip 2 { Trip.reset with state := .arrived } (f m)
    { m1 with
      trips := { m1.trips with arriving := some (2, true) }
      actions := ⟨[⟨⟨.truck, 2⟩, 0x40, 0⟩], [⟨.truck, 2⟩], .arriveRead⟩
      returned := [(.arrive, 0x10000), (.arrive, w), (.arrive, 0), (.arrive, 0), (.arrive, 0), (.arrive, 0), (.arrive, 0)] })

/-- An order whose product may be loaded loose. -/
def bulkOrder : Order := { inState .producing with planned := 1000, entry := some ⟨some .mash, some .bulk, 0, 0, 1000, 0, 0, 0, 0, none, [], 0⟩ }

theorem witness_ArriveTaken :
    does .arrive .truck 2 0x40 id (fun m => ((m.trip 2).state, m.actions.inExec)) = some (.arrived, .arriveRead) ∧
    act .arrive .truck 2 0x40 (trip 2 { Trip.reset with state := .loaded }) (fun _ => true) = some (3, 3) ∧
    (after .arriveReadReturn (arriving 0 id) (fun s => decide ((s.mill.readsOf .arrive).length = 7)) answerOf).join.map
      (·.1) = some 0x0E ∧
    after .arriveReadReturn (arriving 0 id) (fun _ => true) (fun s => (s.mill.trip 2).state) = some .opened ∧
    after .arriveReadReturn (arriving 0x050003E8 (fun m => loadoutIn .waitTruck none (order 5 bulkOrder m)))
      (fun s => decide ((s.mill.readsOf .arrive).length = 7)) (fun s => (answerOf s, (s.mill.trip 2).state, (s.mill.trip 2).copy)) =
      some (some (0, 1), .loading, [⟨5, 1000⟩]) := by
  decide +kernel

def loading (m : Mill) : Mill := trip 2 { Trip.reset with state := .loading, copy := [⟨5, 1000⟩] } m

theorem witness_LoadingEnded :
    act .finish .truck 2 0x41 loading (fun m => decide ((m.trip 2).state = .loading)) = some (0, 1) ∧
    does .finish .truck 2 0x41 loading (fun m => (m.trip 2).state) = some .loaded ∧
    act .finish .truck 2 0x41 id (fun _ => true) = some (3, 0) ∧
    after .tripLimitExpiry (running (fun m => { loading m with trips := { (loading m).trips with limit := some 0 } }))
      (fun s => decide (s.mill.loadingTrip = some 2 ∧ s.mill.trips.limit = some 0))
      (fun s => ((s.mill.trip 2).state, (s.mill.trip 2).limitMark)) = some (.loaded, true) := by decide +kernel

theorem witness_WithdrawAndDepart :
    act .withdraw .truck 2 0x43
      (fun m => withArrivals [2] (trip 2 { Trip.reset with state := .arrived } m))
      (fun _ => true) = some (0, 0) ∧
    act .withdraw .truck 2 0x43 (trip 2 { Trip.reset with state := .departed, limitMark := true }) (fun _ => true) =
      some (0, 1) ∧
    does .withdraw .truck 2 0x43 (trip 2 { Trip.reset with state := .departed, limitMark := true }) (fun m => m.trip 2) =
      some .reset ∧
    act .withdraw .truck 2 0x43 id (fun _ => true) = some (3, 0) ∧
    act .depart .truck 2 0x42 (trip 2 { Trip.reset with state := .loaded }) (fun m => decide (m.pack.loadout.fill = none)) =
      some (0, 0) ∧
    act .depart .truck 2 0x42 (fun m => loadoutIn .filling (some (fillOf true)) (trip 2 { Trip.reset with state := .loaded } m))
      (fun _ => true) = some (3, 0x100) ∧
    act .depart .truck 2 0x42 (trip 2 { Trip.reset with state := .departed }) (fun _ => true) = some (3, 4) := by
  decide +kernel

/-! ### The queue, reset, the path -/

/-- An entry of the lane: a full-word write to the word. -/
def laneWrite (a : Addr) (d : Word) : LaneEntry := ⟨.stockUnit, a, .write 0xF d .none⟩
def lane1 (s : State) : State := { s with lane := [laneWrite 0x020000 7] }
def reading (hold : Nat) (s : State) : State := { s with tx := some (.read [0x020000] hold) }
def writing (s : State) : State := { s with tx := some (.write [⟨0x100000, 0xF, 5, .plain⟩] [] .waiting) }

theorem witness_StepTakesFront :
    (step { State.reset with pending := [.rstNRelease 2, .planOpen] } =
      .next { State.reset with pending := [.planOpen], rstN := true, strap := 2 }) := rfl

/-- What a step on an empty queue leaves, seen through a view. -/
def ticked {α : Type} (s : State) (view : State → α) : Option α :=
  match s.pending, step s with
  | [], .next t => some (view t)
  | _, _ => none

theorem witness_EmptyQueueTicks :
    ticked (running (fun m => { m with weigh := { m.weigh with limit := some 3 } }))
      (fun s => (s.mill.weigh.suspended, s.mill.weigh.limit)) = some (false, some 2) ∧
    ticked (running (fun m => { attending .under 0 0 m with weigh := { (attending .under 0 0 m).weigh with limit := some 3 } }))
      (fun s => (s.mill.weigh.suspended, s.mill.weigh.limit)) = some (true, some 3) ∧
    ticked (running (fun m => { m with trips := { m.trips with limit := some 0 } })) (fun s => s.mill.trips.limit) =
      some (some 0) := by decide +kernel

/-- A state that is not reset's, with the memory path and the Status Unit in order, and a step from it. -/
def landing : State :=
  runningWith (fun s => { lane1 s with status := { Status.reset with flags := 0x4, enable := 0x4, alert := true, base := some 0x024100 } })

theorem witness_landing :
    after .laneWriteLand landing (fun _ => true) (fun s => (s.mem.readByte 0x020000, s.grantCount)) = some (7, 0) := by
  decide +kernel

theorem witness_EveryStepKeepsThePath :
    PathOk landing ∧ ∃ t, step { landing with pending := [.laneWriteLand] } = .next t ∧
      (t.mem.readByte 0x020000, t.grantCount) = (7, 0) :=
  ⟨⟨by decide +kernel, ⟨by decide +kernel, by decide +kernel⟩, by decide +kernel, trivial, by decide +kernel⟩,
    next_of_after witness_landing⟩

theorem witness_EveryStepKeepsTheFlags : StatusOk landing.status :=
  ⟨by decide +kernel, by decide +kernel, by decide +kernel, by decide +kernel⟩

theorem witness_PathFrame : ∃ t, exec .laneWriteLand landing = .next t ∧ (t.mem.readByte 0x020000, t.grantCount) = (7, 0) :=
  next_of_after witness_landing

theorem witness_QuietEnd :
    let m := (running id).mill
    m.notices = [] ∧ m.trips.arriving = none ∧ m.plan.load ≠ .sweeping ∧
      ((running id).leaves { m with reports := [.event .short] }).status.flags = 0x10 := by decide +kernel

theorem witness_ResetRows :
    after (.rstNRelease 3) .reset (fun s => !s.rstN) (fun s => (s.rstN, s.region)) = some (true, 0xFFF000) ∧
    after (.rstNRelease 3) (running id) (fun s => s.rstN) (fun s => s.strap) = some 0 ∧
    after .rstNLow (runningWith lane1) (fun _ => true) (fun s => (s.rstN, s.lane, s.mill.plan.state)) = some (false, [], .unplanned) := by
  decide +kernel

def planState (p : PlanState) (m : Mill) : Mill := { m with plan := { m.plan with state := p } }

theorem witness_WriteDecisions :
    let m (p : PlanState) : Mill := (running (planState p)).mill
    (m .loading).judgeRegionLane 1023 0xF 0 = some .planBusy ∧
    (m .opened).judgeRegionLane 0 0x3 1 = some .actionPartial ∧
    (m .unplanned).judgeRegionLane 1 0xF 0 = some .deviceField ∧ (m .running).judgeRegionLane 2 0xF 0 = some .deviceField ∧
    (m .opened).judgeRegionLane 4 0xF 0 = none ∧ (m .opened).judgeRegionLane 183 0xF 0 = none ∧
    (m .unplanned).judgeRegionLane 4 0xF 0 = some .planField ∧ (m .running).judgeRegionLane 183 0xF 0 = some .planField ∧
    (m .running).judgeRegionLane 3 0xF 0 = none ∧ (m .running).judgeRegionLane 184 0xF 0 = none ∧
    (running (fun m => { m with book := { m.book with interlock := some 0 } })).mill.judgeRecordLane .ticket 255 31 0xF 0 3 =
      some .verifyInterlock ∧
    (m .running).judgeRecordLane .ticket 255 31 0xF 0 3 = none ∧
    (running (order 5 (inState .packed))).mill.judgeRecordLane .order 5 2 0xF 0 0 = some .frozen ∧
    (m .running).judgeRecordLane .order 5 2 0xF 0 0 = none := by decide +kernel

theorem witness_WriteDecisions_action :
    let r : RecordRef := ⟨.order, 5⟩
    let m (marked : List RecordRef) (n : Nat) : Mill :=
      (running (fun m => { m with actions := ⟨List.replicate n ⟨⟨.order, 6⟩, 1, 0⟩, marked, .none⟩ })).mill
    (m [] 0).judgeAction r 0x7 1 = .refused .actionPartial ∧ (m [r] 0).judgeAction r 0xF 1 = .refused .actionPending ∧
    (m [] 0).judgeAction r 0xF 0xFFFFFF00 = .plain ∧ (m [] 15).judgeAction r 0xF 1 = .taken ∧
    (m [] 16).judgeAction r 0xF 1 = .refused .actionQueueFull ∧
    (m [] 0).judgeControl 0xF 0 = .plain ∧ (m [] 0).judgeControl 0xF 1 = .taken ∧
    (running (fun m => { m with plan := { m.plan with control := some ⟨1, .answered⟩ } })).mill.judgeControl 0xF 1 =
      .refused .actionPending := by decide +kernel

theorem witness_WriteReceived :
    after (.processorWrite 0x100000 (List.replicate 8 ⟨0x1, 9⟩)) (running id) (fun s => s.rstN && s.tx.isNone)
      (fun s => s.presented) = some true ∧
    after (.processorWrite 0x100000 [⟨0x1, 9⟩]) (runningWith (reading 0)) (fun s => s.tx.isSome)
      (fun s => s.tx) =
      some (some (.read [0x020000] 0)) ∧
    (running id).place 0x100000 = .outside := by decide +kernel

theorem witness_RefusedBeat :
    let r := (running id).judgeBeat ⟨[], []⟩ 0x024108 ⟨0xF, 0x11223344⟩
    let p := (running id).judgeBeat ⟨[], []⟩ 0x024104 ⟨0x3, 0x11223344⟩
    (running id).refusedLanes ((running id).place 0x024104) 0x3 0x11223344 = 0x3 ∧
      p.2.beats = [] ∧ p.1.refusal.isSome = true ∧ r.2.beats.length = 1 ∧ r.1.refusal = none := by decide +kernel

theorem witness_ReadPresented :
    after (.processorRead 0x020002 [0xF]) (runningWith lane1) (fun s => s.rstN && s.tx.isNone) (fun s => s.tx) =
      some (some (.read [0x020000] 1)) ∧
    after (.processorRead 0x020004 (List.replicate 8 0x1)) (runningWith lane1) (fun s => s.tx.isNone) (fun s => s.readHeld) =
      some false := by decide +kernel

theorem witness_ArbiterTable :
    (runningWith (fun s => reading 1 (lane1 s))).arbiter = .lane ∧
    (runningWith (fun s => { writing (lane1 s) with grantCount := 4 })).arbiter = .lane ∧
    (runningWith (fun s => { writing (lane1 s) with grantCount := 3 })).arbiter = .processor ∧
    (runningWith (fun s => { writing s with grantCount := 4 })).arbiter = .processor ∧
    (runningWith lane1).arbiter = .lane ∧ (running id).arbiter = .nobody ∧
    (runningWith (fun s => writing (lane1 s))).portBusy = false := by decide +kernel

theorem witness_ProcessorGrants :
    after .processorGrant (runningWith (fun s => { writing s with grantCount := 4 })) (fun s => decide (s.arbiter = .processor))
      (fun s => (s.grantCount, s.mem.readByte 0x100000, s.mem.readByte 0x100001, s.tx)) = some (4, 5, 0, none) ∧
    after .processorGrant (runningWith (fun s => { reading 0 s with mem := [⟨0x020003, 0x80⟩] }))
      (fun s => decide (s.arbiter = .processor)) (fun s => (s.readData, s.grantCount, s.mem.length)) =
      some ([0x80000000], 1, 1) := by decide +kernel

theorem witness_LaneHeadGranted :
    after .laneWriteLand (runningWith (fun s => { lane1 s with grantCount := 4 })) (fun s => decide (s.arbiter = .lane))
      (fun s => (s.grantCount, s.mem, s.lane)) = some (0, [⟨0x020000, 7⟩], []) ∧
    after .laneWriteLand (runningWith (fun s => { s with
        lane := [⟨.stockUnit, 0x020028, .read .countValue⟩], mem := [⟨0x020028, 9⟩] }))
      (fun s => decide (s.arbiter = .lane)) (fun s => s.mill.returned) = some [(.countValue, 9)] ∧
    after .laneWriteLand (runningWith (fun s => { s with
        lane := [⟨.actionExecutor, 0x010000, .write 0xF 0 (.clearsMarker ⟨.order, 0⟩)⟩] })
        (fun m => { m with actions := ⟨[], [⟨.order, 0⟩, ⟨.order, 1⟩], .none⟩ }))
      (fun s => decide (s.arbiter = .lane)) (fun s => s.mill.actions.marked) = some [⟨.order, 1⟩] := by decide +kernel

/-- A full lane of writes to words apart. -/
def fullLane : List LaneEntry := (List.range 32).map (fun i => laneWrite (BitVec.ofNat 24 (0x020000 + 4 * i)) 0)

theorem witness_PostsJoin :
    after .postAdmitted (runningWith (fun s => { lane1 s with waiting := [⟨.orderBook, [laneWrite 0x010004 1]⟩] }))
      (fun s => decide (s.lane.length < 32)) (fun s => (s.lane.length, s.waiting)) = some (2, []) ∧
    offer ([laneWrite 0x020000 0x11111111], []) ⟨.orderBook, 0x020000, .write 0x1 0x22222222 .none⟩ =
      ([laneWrite 0x020000 0x11111122], []) ∧
    offer (fullLane.take 31, []) (laneWrite 0x010000 1) = (fullLane.take 31 ++ [laneWrite 0x010000 1], []) ∧
    offer (fullLane, []) (laneWrite 0x010000 1) = (fullLane, [⟨.stockUnit, [laneWrite 0x010000 1]⟩]) := by decide +kernel

/-! ### Flags -/

theorem witness_FlagWordCleared :
    after .flagClear (runningWith (fun s => { s with
        tx := some (.write [⟨0x024100, 0x3, 0xFFFFFFFF, .flags⟩] [] (.flagBeat []))
        status := { s.status with flags := 0x1000F, cond := 0x8 } })
        (order 5 { inState .producing with wait := .held }))
      (fun s => !s.waits .statusUnit) (fun s => (s.status.flags, s.mem.readWord 0x024100, s.tx)) =
      some (0x10000, 0x10000, none) := by decide +kernel

theorem witness_EnableCopied :
    after .enableWrite (runningWith (fun s => { s with
        tx := some (.write [] [.enable 0x1 0xFFFFFFFF] .waiting), status := { s.status with flags := 0x2, enable := 0x100 } }))
      (fun s => decide (s.handoffFor .statusUnit = some (.enable 0x1 0xFFFFFFFF)) && !s.waits .statusUnit)
      (fun s => (s.status.enable, s.status.flags, s.status.alert)) = some (0x1FF, 0x2, true) := by decide +kernel

theorem witness_ReportsSetFlags :
    let m := (running (bin 9 { ofKind .raw with deficit := true })).mill
    (Flag.deficit ∈ conditionFlags ∧ m.holds .deficit = true) ∧ (Flag.low ∈ conditionFlags ∧ m.holds .low = false) ∧
      Flag.writeRefused ∈ eventFlags := by decide +kernel

/-! ### The plan -/

/-- The plan in a state, with a control request. -/
def asking (code : BitVec 8) (p : PlanState) (f : Mill → Mill := id) (g : State → State := id) : State :=
  runningWith g (fun m => { f m with plan := { (f m).plan with state := p, control := some ⟨code, .requested⟩ } })

/-- The plan state and the answer that the Plan Controller has posted: result and index. -/
def outcome (s : State) : PlanState × Option (Nat × Nat) :=
  (s.mill.plan.state, s.lane.findSome? (fun e => match e.op with
    | .write _ d .none => if e.addr = 8 then some (bits d 0 8, bits d 16 16) else none
    | _ => none))

theorem witness_PlanOpened :
    after .planOpen (asking 1 .unplanned) (fun s => s.tx.isNone) outcome = some (.opened, some (0, 0)) ∧
    after .planOpen (asking 1 .running (order 5 (inState .released))) (fun s => decide (s.mill.busyIndex = some 0x105)) outcome =
      some (.running, some (1, 0x105)) ∧
    after .planOpen (asking 1 .running) (fun s => decide (s.mill.busyIndex = none) && s.tx.isNone)
      (fun s => (outcome s, s.windows.isNone)) = some ((.opened, some (0, 0)), true) ∧
    after .planOpen (asking 1 .unplanned id (reading 0)) (fun s => s.tx.isSome) (fun s => s.mill.plan.state) =
      some .unplanned := by decide +kernel

theorem witness_PlanClosed :
    after .planClose (asking 2 .unplanned) (fun s => s.tx.isNone) (fun s => (s.mill.plan.state, s.lane.length)) =
      some (.loading, 32) ∧
    after .planClose (asking 2 .opened) (fun s => s.tx.isNone) (fun s => (s.mill.plan.load, s.lane.length)) =
      some (.stage1, 32) := by decide +kernel

theorem witness_RestartCarriedOut :
    after .restart (asking 3 .running (batch 9 { Batch.reset with state := .queued })) (fun s => decide (s.mill.plan.requested = some 3))
      (fun s => (outcome s, (s.mill.batch 9).state)) = some ((.running, some (0, 0)), .void) := by decide +kernel

theorem witness_BadControlAnswered :
    after .badControl (asking 255 .running) (fun _ => true) outcome = some (.running, some (2, 255)) ∧
    after .badControl (asking 1 .opened) (fun _ => true) outcome = some (.opened, some (2, 1)) ∧
    after .badControl (asking 2 .running) (fun _ => true) outcome = some (.running, some (2, 2)) ∧
    after .badControl (asking 3 .unplanned) (fun _ => true) outcome = some (.unplanned, some (2, 3)) := by decide +kernel

/-- A load that waits with the words of its stage returned. -/
def stage (l : LoadPhase) (words : List Word) (f : PlanCtl → PlanCtl := id) : State :=
  running (fun m => { m with
    plan := { f m.plan with state := .loading, control := some ⟨2, .loading⟩, load := l }
    returned := words.map (fun w => (.loadStage, w)) })

/-- The load's phase and the outcome posted. -/
def stageEnd (s : State) : LoadPhase × PlanState × Option (Nat × Nat) := (s.mill.plan.load, outcome s)

/-- The P words of the bins: REWORK, the three surges, the others UNUSED; and of the lines' unit records. -/
def stage2Words (rework : Word) : List Word :=
  [rework, 0x04000000, 0x05000000, 0x06000000].flatMap (fun k => [0, k + 1000, 100, 900]) ++ List.replicate 191 0

theorem witness_LoadStages_1_2 :
    after .loadStage1 (stage .stage1 (plan.words)) (fun s => s.mill.readsDone .loadStage 180) (fun s => s.mill.plan.load) =
      some .stage2 ∧
    after .loadStage1 (stage .stage1 (plan.words.set 0 1)) (fun s => s.mill.readsDone .loadStage 180 && s.tx.isNone) stageEnd =
      some (.idle, .opened, some (3, 0)) ∧
    after .loadStage2 (stage .stage2 (stage2Words 0x07000000)) (fun s => s.mill.readsDone .loadStage s.mill.stage2Size)
      (fun s => s.mill.plan.load) = some (.stage3 32 none) ∧
    after .loadStage2 (stage .stage2 (stage2Words 0)) (fun s => s.mill.readsDone .loadStage s.mill.stage2Size) stageEnd =
      some (.idle, .opened, some (8, 0x107)) := by decide +kernel

def chainOf (slots : List Nat) : Chain := ⟨0, slots, 60, [⟨0, 0, 4, .one, 0, 10000⟩], 1⟩
/-- Rule 1 checked: from and to sets not empty, FLUSH, a mass in range. -/
def withRule1 (p : PlanCtl) : PlanCtl := { p with
  words := (p.words.set 54 0x00010001).set 55 0x10001F40, flushChains := List.replicate 32 none }

theorem witness_LoadStages_3 :
    after .loadStage3 (stage (.stage3 0 (some (.ok (chainOf [0])))) [] withRule1) (fun _ => true) (fun s => s.mill.plan.load) =
      some (.stage3 1 none) ∧
    after .loadStage3 (stage (.stage3 32 (some (.fail ⟨5, 0xFF⟩))) []) (fun s => s.tx.isNone) stageEnd =
      some (.idle, .opened, some (9, 32)) := by decide +kernel

/-- Link walks under way, the mark and link 255 of the first one's slot returned. -/
def linking (mark : Word) : State :=
  running (fun m => { m with
    plan := { m.plan with
      state := .loading, control := some ⟨2, .loading⟩, load := .links [] [] [⟨5, 0, [0]⟩, ⟨6, 9, [9]⟩] }
    returned := [(.linkWalk, mark), (.linkWalk, 255)] })

theorem witness_LoadStageFive :
    (stage .stage5 (List.replicate 3281 0)).mill.readsDone .loadStage stage5Size = true ∧
    after .loadStage5 (linking 2) (fun s => s.mill.readsDone .linkWalk 2) (fun s => s.mill.plan.load) =
      some (.links [] [] [⟨5, 255, [0, 255]⟩, ⟨6, 9, [9]⟩]) ∧
    after .loadStage5 (linking 1) (fun s => s.mill.readsDone .linkWalk 2) (fun s => s.mill.plan.load) =
      some (.links [] [⟨5, 0, [0]⟩] [⟨6, 9, [9]⟩]) ∧
    (stage .sweeping []).settle.readyToRun = true ∧ (stage .sweeping []).finish.mill.plan.state = .running := by
  decide +kernel

/-! ### Actions answered, verification, release -/

theorem witness_ActionsAnswered :
    act .badAction .order 5 0xFF id (fun _ => decide (0xFF ∉ codesOf .order)) = some (2, 0) ∧
    act .badAction .truck 7 0x01 id (fun _ => decide (0x01 ∉ codesOf .truck)) = some (2, 0) := by decide +kernel

/-- A RELEASE of order 7 in execution, with its reads returned. -/
def releasing (x : InExec) (t : ReadTag) (words : List Word) (f : Mill → Mill := id) : State :=
  running (fun m => { f m with
    actions := ⟨[⟨⟨.order, 7⟩, 0x01, 0⟩], [⟨.order, 7⟩], x⟩
    returned := words.map (fun w => (t, w)) })

theorem witness_VerificationBegun :
    after .releaseFieldsRead (releasing .releaseFields .releaseFields [0, 0x00020109, 0, 6000, 0])
      (fun s => decide (s.mill.headSlot = some 7 ∧ (s.mill.readsOf .releaseFields).length = 5))
      (fun s => (s.mill.book.interlock, s.mill.checker.requests)) = some (some 7, [⟨.release, 9⟩]) ∧
    after .verifyWalkStart (running (fun m => { m with checker := ⟨[⟨.release, 9⟩], none, false⟩ }))
      (fun s => !s.writes (fun p => p.ofKind .ticket)) (fun s => (s.mill.checker.walk.map (·.slot), s.lane.length)) =
      some (some 9, 6) := by decide +kernel

def walking (h : Option Header) (parts : Nat) : Walk := ⟨.release, 9, 9, [9], 1, 60, parts, 0, [], h⟩
def walkingOn (w : Walk) (t : ReadTag) (words : List Word) : State :=
  releasing .releaseVerify t words (fun m => bin 4 (ofKind .raw) { m with checker := ⟨[], some w, false⟩ })

theorem witness_TicketStages :
    after .ticketHeaderStage (walkingOn (walking none 0) .ticketHeader [1, 0, 1, 60, 0x3715, 0])
      (fun s => decide ((s.mill.readsOf .ticketHeader).length = 6)) (fun s => s.mill.checker.walk.map (·.header.isSome)) =
      some (some true) ∧
    headerOf 1 [9] [5, 0, 1, 60, 0, 0] = none ∧
    (after .ticketHeaderStage (walkingOn (walking none 0) .ticketHeader [5, 0, 1, 60, 0, 0]) (fun _ => true) answerOf).join =
      some (5, 0x9FF) ∧
    after .ticketLineStage (walkingOn (walking (some ⟨.only, 0, 1, 0x3715⟩) 0) .ticketLines [0x10042710])
      (fun s => decide ((s.mill.readsOf .ticketLines).length = 1))
      (fun s => match s.mill.actions.inExec with | .releaseConfirm c => c.slots | _ => []) = some [9] ∧
    (after .ticketLineStage (walkingOn (walking (some ⟨.only, 0, 1, 0x3716⟩) 0) .ticketLines [0x10042710])
      (fun _ => decide (checkSum 1 [0x10042710] ≠ 0x3716)) answerOf).join = some (6, 0x9FF) := by decide +kernel

theorem witness_ReleaseConfirmed :
    let s (words : List Word) : State := releasing (.releaseConfirm { chainOf [9] with head := 9 }) .confirming words
    (after .confirmingRead (s [0, 0x00020308, 0, 6000, 0]) (fun s => decide ((s.mill.readsOf .confirming).length = 5)) answerOf).join =
      some (4, 0x100) ∧
    (after .confirmingRead (s [0, 0x00020109, 0, 4999, 0]) (fun s => decide (s.mill.headSlot = some 7)) answerOf).join =
      some (4, 5) ∧
    (after .confirmingRead (s [0, 0x00020109, 0, 6000, 100]) (fun _ => true) answerOf).join = some (9, 2) ∧
    after .confirmingRead (s [0, 0x00020109, 0, 6000, 0]) (fun _ => true)
      (fun s => (answerOf s, (s.mill.order 7).state, (s.mill.order 7).planned, s.mill.book.releaseList)) =
      some (some (0, 1), .released, 6000, [7]) := by decide +kernel

/-! ### Admission -/

/-- Order 5 at the head of the release list, with 100.0 kg left, and a pass at the head of the list. -/
def admitting (wait : WaitReason) (n : Nat) (m : Mill) : Mill :=
  let x : Order := { inState .released with
    wait := wait, remaining := 6000
    entry := some ⟨some .mash, some .bulk, 0, 0, 6000, 0, 100, 8000, 5000, some (chainOf [0]), [0], 0⟩ }
  let m1 := bin 4 { ofKind .raw with level := 9000 } (order 5 x m)
  { m1 with
    book := { m1.book with releaseList := [5] }
    seq := { m1.seq with pass := .visiting 0, queue := (List.finRange 32).take n } }

theorem witness_AdmissionPassRuns :
    after (.admissionPass 1) (running (admitting .none 0)) (fun s => decide (s.mill.seq.pass ≠ .idle)) (fun s => s.mill.seq.pass) =
      some (.sized 0 ⟨5, 6000, [6000]⟩) ∧
    after (.admissionPass 2) (running (admitting .short 0)) (fun _ => true)
      (fun s => (s.mill.weigh.batch, (s.mill.order 5).remaining, s.mill.stock.table.length)) = some (some 0, 0, 1) ∧
    after (.admissionPass 1) (running (admitting .none 8)) (fun s => decide (8 ≤ s.mill.seq.queue.length))
      (fun s => s.mill.seq.pass) = some .idle ∧
    after (.admissionPass 1) (running (admitting .held 7)) (fun s => decide ((s.mill.order 5).wait = .held))
      (fun s => s.mill.seq.pass) = some (.visiting 1) := by decide +kernel

theorem witness_ReserveAllOrNothing :
    let m := (running (bin 4 { ofKind .raw with level := 100 })).mill
    (match m.reserve 0 [⟨0, 4, 60⟩, ⟨1, 4, 41⟩] with
      | .inr b => decide (b = 4)
      | .inl _ => false) = true ∧
    (match m.reserve 0 [⟨0, 4, 60⟩, ⟨1, 4, 40⟩] with
      | .inr _ => false
      | .inl m' => decide (m'.stock.table.length = 2)) = true := by decide +kernel

theorem witness_NextBatchSize :
    nextSize 0 8000 5000 5000 = none ∧ nextSize 8000 8000 5000 1000 = some 8000 ∧ nextSize 9000 8000 1000 1000 = some 8000 ∧
    nextSize 8900 8000 1000 1000 = some 7900 ∧ 100 ∣ 8900 ∧ 100 ∣ 8000 ∧ 100 ∣ 1000 ∧ 1000 + 1000 ≤ 8000 := by decide

theorem witness_LineMassesSum :
    let c : Chain := ⟨0, [0], 60, [⟨0, 0, 4, .one, 0, 0⟩, ⟨0, 1, 5, .one, 0, 5000⟩, ⟨0, 2, 6, .one, 0, 5000⟩], 0⟩
    (c.lines.map (·.parts)).sum = 10000 ∧ lineMasses c 5001 = [0, 2501, 2500] ∧
      (reserveLines c (lineMasses c 5001)).map (·.mass) = [0, 2501, 2500] := by decide

/-! ### Samples and timers -/

/-- The batch of `attending` with scale 1 FEEDING: cut-off point 990, stall reference 0. -/
def feeding (m : Mill) : Mill :=
  let m1 := bin 4 { ofKind .raw with preact := 10 } (attending .none 0 0 m)
  { m1 with weigh := { m1.weigh with scale1 := { m1.weigh.scale1 with
      state := .feeding, cause := .none, target := 1000, channel := ⟨none, some 1⟩, stall := some 1 } } }

/-- What a SCALE1 sample leaves of the scale: state, stall reference, freshness timer. -/
def scaleAfter (v : BitVec 24) : Option (ScaleState × Int × Timer) :=
  after .scaleSample (sampling 0 v 0 feeding) (fun s => decide ((s.mill.scale .one).state = .feeding))
    (fun s => ((s.mill.scale .one).state, (s.mill.scale .one).stallRef, (s.mill.scale .one).channel.fresh))

theorem witness_WeighSamples :
    scaleAfter 990 = some (.settling, 0, some 3000) ∧ scaleAfter 989 = some (.feeding, 989, some 3000) ∧
    scaleAfter 10 = some (.feeding, 10, some 3000) ∧ scaleAfter 9 = some (.feeding, 0, some 3000) ∧
    scaleAfter 0xFFFFFF = some (.feeding, 0, some 3000) ∧
    after .scaleSample (sampling 1 7 0 id) (fun _ => true) (fun s => (s.mill.scale .two).channel.latest) = some (some 7) ∧
    after .scaleSample (sampling 0 990 1 feeding) (fun _ => true) (fun s => (s.mill.scale .one).channel) =
      some ⟨none, some 1⟩ ∧
    after .mixerSample (sampling 2 7 0 id) (fun _ => true) (fun s => s.mill.weigh.mixer.channel.latest) = some (some 7) := by
  decide +kernel

def withScale (f : ScaleCtl → ScaleCtl) (m : Mill) : Mill := { m with weigh := { m.weigh with scale1 := f m.weigh.scale1 } }
def withMixer (f : MixerCtl → MixerCtl) (m : Mill) : Mill := { m with weigh := { m.weigh with mixer := f m.weigh.mixer } }

theorem witness_WeighTimers :
    after (.scaleStale .one) (running (fun m => withScale (fun c => { c with channel := ⟨none, some 0⟩ }) (feeding m)))
      (fun s => decide ((s.mill.scale .one).state = .feeding)) (fun s => ((s.mill.scale .one).state, (s.mill.scale .one).ended)) =
      some (.settling, .stall) ∧
    after (.scaleStale .one) (running (withScale (fun c => { c with channel := ⟨none, some 0⟩ }))) (fun _ => true)
      (fun s => ((s.mill.scale .one).state, (s.mill.scale .one).channel.fresh)) = some (.idle, none) ∧
    after .mixerStale (running (withMixer (fun c => { c with channel := ⟨some 5, some 0⟩ }))) (fun _ => true)
      (fun s => s.mill.weigh.mixer.channel) = some ⟨some 5, none⟩ ∧
    after (.stallTimerExpiry .one) (running (fun m => withScale (fun c => { c with stall := some 0 }) (feeding m)))
      (fun _ => true) (fun s => ((s.mill.scale .one).state, (s.mill.scale .one).settle)) = some (.settling, some 2000) ∧
    after (.settleExpiry .one)
      (running (fun m => withScale (fun c => { c with state := .settling, settle := some 0, channel := ⟨some 1000, some 1⟩ }) (feeding m)))
      (fun s => decide (s.mill.weigh.batch = some 9)) (fun s => (s.mill.scale .one).settle) = some none ∧
    after .weighLimitExpiry (running (fun m => { feeding m with weigh := { (feeding m).weigh with limit := some 0 } }))
      (fun s => !s.mill.weigh.suspended) (fun s => (s.mill.weigh.cancelled, s.status.flags)) = some (true, 0x8) ∧
    after .mixTimerExpiry (running (fun m => withMixer (fun c => { c with state := .mixing, batch := some 9, mix := some 0 })
        (batch 9 { Batch.reset with state := .mixing } m)))
      (fun _ => true) (fun s => (s.mill.batch 9).state) = some .discharging ∧
    after .holdLimitExpiry (running (fun m => withMixer (fun c => { c with state := .mixed, batch := some 9, hold := some 0 })
        (batch 9 { Batch.reset with state := .mixed } m)))
      (fun _ => true) (fun s => ((s.mill.batch 9).attention.cause, s.mill.weigh.mixer.hold)) = some (.held, none) := by
  decide +kernel

theorem witness_LineSamples :
    after .tripChannelSample (sampling 7 91 0 id) (fun _ => true) (fun s => (s.mill.chan .plTemp).above) = some 1 ∧
    after .tripChannelSample (sampling 3 0 1 (fun m => m.updChan .gaLoad (fun c => { c with above := 1 }))) (fun _ => true)
      (fun s => ((s.mill.lineCtl (.grinder .a)).state, (s.mill.lineCtl (.grinder .a)).tripOut)) = some (.tripped, true) ∧
    after .grinderTotalSample (sampling 4 7 0 id) (fun _ => true) (fun s => (s.mill.grinderCtl .a).total) = some (some 7) ∧
    after .grinderTotalSample (sampling 6 0xFFFFFF 0 id) (fun _ => true) (fun s => (s.mill.grinderCtl .b).total) =
      some (some 0xFFFFFF) ∧
    after .plFeedSample (sampling 9 7 0 id) (fun _ => true) (fun s => s.mill.lines.pellet.feed) = some (some 7) ∧
    after .plProductSample (sampling 10 7 0 id) (fun _ => true) (fun s => s.mill.lines.pellet.product) = some (some 7) ∧
    deltaOf (some 0) 0x7FFFFF = .mass 0x7FFFFF ∧ deltaOf (some 0) 0x800000 = .reset ∧
    deltaOf (some 0xFFFFFF) 0 = .mass 1 ∧ deltaOf (some 0x800001) 0 = .mass 0x7FFFFF ∧ deltaOf (some 0x800000) 0 = .reset := by
  decide +kernel

/-- A working pellet line with its adjust timer due and a good load. -/
def adjusting (load : Int) : State :=
  running (fun m => line .pellet { LineCtl.reset with
    state := .running, ceiling := 105, adjust := some 0, load := ⟨none, some 1, 0, some load⟩ } m)
def draining (heard : Timer) : State :=
  running (fun m => { inLine .pellet .draining m with
    lines := { (inLine .pellet .draining m).lines with pellet :=
      { (inLine .pellet .draining m).lines.pellet with drain := some 0, heard := heard } } })

theorem witness_LineTimers :
    after (.tripChannelStale .plTemp) (running (fun m => (inLine .pellet .starved m).updChan .plTemp (fun c => { c with fresh := some 0 })))
      (fun s => (s.mill.lineCtl .pellet).state.works) (fun s => ((s.mill.lineCtl .pellet).state, (s.mill.lineCtl .pellet).cause)) =
      some (.tripped, .stale) ∧
    after (.tripChannelStale .gbLoad) (running (fun m => m.updChan .gbLoad (fun c => { c with fresh := some 0 })))
      (fun s => !(s.mill.lineCtl (.grinder .b)).state.works)
      (fun s => ((s.mill.lineCtl (.grinder .b)).state, (s.mill.chan .gbLoad).fresh)) = some (.idle, none) ∧
    after (.adjustTimerExpiry .pellet) (adjusting 101) (fun s => (s.mill.lineCtl .pellet).state.works)
      (fun s => ((s.mill.lineCtl .pellet).ceiling, (s.mill.lineCtl .pellet).adjust)) = some (100, some 60000) ∧
    after (.adjustTimerExpiry .pellet) (adjusting 100) (fun s => decide ((s.mill.lineCtl .pellet).load.good = some 100))
      (fun s => ((s.mill.lineCtl .pellet).ceiling, (s.mill.lineCtl .pellet).adjust)) = some (105, none) ∧
    after .drainTimerExpiry (draining (some 1)) (fun s => s.mill.lines.pellet.heard.isSome)
      (fun s => (s.mill.lineCtl .pellet).state) = some .starved ∧
    after .drainTimerExpiry (draining none) (fun s => decide (s.mill.lines.pellet.heard = none))
      (fun s => (s.mill.lines.pellet.drain, s.mill.lines.pellet.drainWaits)) = some (none, true) := by decide +kernel

theorem witness_OutletSamples :
    after .bagEvent (sampling 11 250 0 (bin 4 { ofKind .rework with level := 0 }))
      (fun s => decide (s.mill.pack.bagger.state ≠ .bagging))
      (fun s => (s.mill.pack.bagger.verdict, s.mill.pack.bagger.seq, (getAt s.mill.stock.bins 4).level)) =
      some (.stray, 1, 250) ∧
    after .bagEvent (sampling 11 0 0 id) (fun _ => true) (fun s => (s.mill.pack.bagger.seq, s.status.flags)) =
      some (0, 0x1000) ∧
    after .bagEvent (sampling 11 250 1 id) (fun _ => true) (fun s => (s.mill.pack.bagger.seq, s.status.flags)) =
      some (0, 0x1000) ∧
    after .truckNetSample (sampling 12 9 0 id) (fun _ => true) (fun s => s.mill.pack.loadout.channel) =
      some ⟨some 9, some 3000⟩ ∧
    after .truckNetSample (sampling 12 9 2 id) (fun _ => true) (fun s => s.mill.pack.loadout.channel) = some .reset := by
  decide +kernel

/-- A fill of trip 2's compartment 0, 60.0 kg on the channel. -/
def filling (settling stop : Bool) (settle fresh : Timer) : State :=
  running (fun m =>
    let surge := { ofKind .surgeBulk with level := 700, lots := [⟨some 5, .none, 700⟩], claim := true }
    let m1 := loadoutIn .filling (some (fillOf settling)) (loading (bin 3 surge m))
    { m1 with pack := { m1.pack with loadout := { m1.pack.loadout with
        settle := settle, stopRequest := stop, channel := ⟨some 600, fresh⟩ } } })

theorem witness_OutletTimers :
    after .loadoutSettleExpiry (filling true true (some 0) (some 1)) (fun s => s.mill.pack.loadout.stopRequest)
      (fun s => (s.mill.pack.loadout.state, (s.mill.trip 2).loaded.toList.head?, (getAt s.mill.stock.bins 3).level)) =
      some (.idle, some 600, 100) ∧
    after .loadoutSettleExpiry (filling true false (some 0) (some 1)) (fun s => !s.mill.pack.loadout.stopRequest)
      (fun s => s.mill.pack.loadout.state) = some .filling ∧
    after .truckNetStale (filling false false none (some 0)) (fun s => decide (s.mill.pack.loadout.fill = some (fillOf false)))
      (fun s => s.mill.pack.loadout.state) = some .blocked ∧
    after .truckNetStale (filling true false (some 9) (some 0)) (fun s => decide (s.mill.pack.loadout.fill = some (fillOf true)))
      (fun s => (s.mill.pack.loadout.state, s.mill.pack.loadout.channel.fresh)) = some (.filling, none) ∧
    after .truckNetStale (running (fun m => { m with
        pack := { m.pack with loadout := { m.pack.loadout with channel := ⟨some 1, some 0⟩ } } }))
      (fun s => decide (s.mill.pack.loadout.fill = none)) (fun s => s.mill.pack.loadout.channel) = some ⟨some 1, none⟩ := by
  decide +kernel

/-- The notice that a trip has left LOADING cuts off a fill on that trip, not one on the next LOADING trip. -/
theorem test_trip_left :
    ((filling false false none (some 1)).mill.spoutTaken.pack.loadout.fill.map (·.settling)) = some false ∧
    (((filling false false none (some 1)).mill.updTrip 2 ({ · with state := .loaded })).spoutTaken.pack.loadout.fill.map
      (·.settling)) = some true := by
  decide +kernel

/-! ### Lots -/

theorem witness_LotsConserve :
    (drawFrom [⟨some 1, .none, 300⟩, ⟨some 2, .none, 300⟩] 400).taken = 400 ∧
    (drawFrom [⟨some 1, .none, 300⟩, ⟨some 2, .none, 300⟩] 700).taken = 600 ∧
    (appendTo [⟨some 1, .none, 300⟩] (some 1) .overrun 50).1 = [⟨some 1, .overrun, 350⟩] ∧
    (appendTo (List.replicate 7 ⟨some 1, .none, 300⟩) (some 2) .none 50).1.length = 8 ∧
    (appendTo (List.replicate 8 ⟨some 1, .none, 300⟩) (some 2) .none 50).1.length = 8 ∧
    ((appendTo (List.replicate 8 ⟨some 1, .none, 300⟩) (some 2) .none 50).1.getLast?.map (·.owner)) = some none := by
  decide +kernel

/-! ### Clause by clause: the memory path and the flags -/

/-- One outcome gives what the other gives to the other blocks, the lane and the Status Unit. -/
def same (n m : Mill) : Bool := decide (n.outbox = m.outbox ∧ n.notices = m.notices ∧ n.reports = m.reports)

/-- A step that posts for a block waiting to post waits as a whole; one that posts for another block does not. -/
theorem witness_QuietEnd_waits :
    let s := runningWith (fun s => { s with waiting := [⟨.tripTable, [laneWrite 0x010004 1]⟩] })
    let m (b : Block) : Mill := { s.mill with outbox := [⟨b, 0x010004, .write 0xF 2 .none⟩] }
    s.reaches (m .tripTable) = true ∧ (s.leaves (m .tripTable)).mill.outbox = [] ∧ s.reaches (m .packOut) = false ∧
      (s.leaves (m .packOut)).waiting.map (·.block) = [.tripTable, .packOut] := by decide +kernel

theorem witness_WriteDecisions_words :
    let s := running id
    recordClass .rework .status 0 0 0 = .x ∧ s.meaningOf (.record .status 0 0) 0x1 1 = .flags ∧
    recordClass .rework .order 5 0 0 = .a ∧ s.meaningOf (.record .order 5 0) 0xF 1 = .action ⟨.order, 5⟩ ∧
    s.meaningOf (.record .order 5 0) 0xF 0x100 = .plain ∧ s.meaningOf (.region 0) 0xF 1 = .control ∧
    s.handoffOf (.record .reading 12 0) 0xF 0x01000002 = some (.sample ⟨12, 2, 1⟩) ∧
    s.handoffOf (.record .reading 13 0) 0xF 0 = none ∧ s.handoffOf (.record .reading 12 0) 0x7 0 = none ∧
    (running (fun m => { m with book := { m.book with interlock := some 7 } })).mill.interlocks .order 7 .f = true ∧
    (running (fun m => { m with book := { m.book with interlock := some 7 } })).mill.interlocks .order 6 .f = false ∧
    (running (inLine (.grinder .b) .blocked)).mill.inUse .unit 4 = true ∧ (running id).mill.inUse .unit 5 = false := by
  decide +kernel

theorem witness_WriteReceived_waits :
    after (.processorWrite 0x100000 [⟨0x1, 9⟩])
      (runningWith (fun s => { s with waiting := [⟨.pathUnit, [laneWrite 0x02410C 1]⟩] })) (fun s => s.waits .pathUnit)
      (fun s => s.tx) = some none := by decide +kernel

theorem witness_RefusedBeat_queueFull :
    let s := running (fun m => { m with actions := ⟨List.replicate 16 ⟨⟨.order, 6⟩, 1, 0⟩, [⟨.order, 6⟩], .none⟩ })
    let r := s.judgeBeat ⟨[], []⟩ (s.mill.recordAddr .order 5 0) ⟨0xF, 1⟩
    s.refusedFor (.record .order 5 0) 0xF 1 = 5 ∧ r.1.mill.reports = [.event .writeRefused, .event .actionFull] ∧
      r.1.mill.outbox.length = 4 ∧ r.2.beats = [] ∧
      ((runningWith (fun s => { s with status := .reset })).recordRefusal ⟨0, 0, 0, 0⟩).mill.outbox = [] := by
  decide +kernel

theorem witness_ArbiterTable_presented :
    let flagBeat (w : List Waiter) : State := runningWith (fun s => { s with
      tx := some (.write [⟨0x024100, 0x1, 1, .flags⟩] [] .waiting), waiting := w })
    let handed : State := runningWith (fun s => { s with
      tx := some (.write [⟨0x024108, 0xF, 1, .plain⟩] [.enable 0xF 1] .waiting) })
    (flagBeat []).presented = true ∧ (flagBeat [⟨.statusUnit, [laneWrite 0x024100 1]⟩]).presented = false ∧
      (flagBeat [⟨.orderBook, [laneWrite 0x010004 1]⟩]).presented = true ∧
      (flagBeat [⟨.pathUnit, [laneWrite 0x02410C 1]⟩]).presented = false ∧ handed.presented = false := by decide +kernel

theorem witness_ProcessorGrants_bursts :
    splitBursts true [0x100018, 0x10001C, 0x100020] = [⟨true, [0x100018, 0x10001C]⟩, ⟨true, [0x100020]⟩] ∧
    (0x10001C : Addr) = addrPlus 0x100018 1 ∧ splitBursts false [0x100000, 0x100008] =
      [⟨false, [0x100000]⟩, ⟨false, [0x100008]⟩] ∧
    after .processorGrant (runningWith (fun s => { s with
        tx := some (.write [⟨0x010000, 0xF, 0x101, .action ⟨.order, 0⟩⟩] [] .waiting) }))
      (fun s => decide (s.arbiter = .processor)) (fun s => (s.mill.actions.queue, s.mill.actions.marked)) =
      some ([⟨⟨.order, 0⟩, 1, 1⟩], [⟨.order, 0⟩]) ∧
    after .processorGrant (runningWith (fun s => { s with tx := some (.write [⟨0, 0xF, 1, .control⟩] [] .waiting) }))
      (fun s => decide (s.arbiter = .processor)) (fun s => s.mill.plan.control) = some (some ⟨1, .requested⟩) := by
  decide +kernel

/-- The front block's posts that merge join at once; the first that does not merge stays in front; a post of a block that
waits joins its posts. -/
theorem witness_PostsJoin_fronts :
    let s (posts : List LaneEntry) : State :=
      runningWith (fun s => { lane1 s with waiting := [⟨.orderBook, posts⟩, ⟨.tripTable, [laneWrite 0x010008 1]⟩] })
    after .postAdmitted (s [laneWrite 0x020000 3, laneWrite 0x010004 1]) (fun s => decide (s.lane.length < 32))
      (fun s => (s.lane.length, s.waiting.map (fun w => (w.block, w.posts.length)))) =
      some (1, [(.orderBook, 1), (.tripTable, 1)]) ∧
    after .postAdmitted (s [laneWrite 0x010004 1, laneWrite 0x020000 3, laneWrite 0x01000C 1]) (fun _ => true)
      (fun s => (s.lane.length, s.waiting.map (fun w => (w.block, w.posts.length)))) =
      some (2, [(.orderBook, 1), (.tripTable, 1)]) ∧
    after .postAdmitted (s [laneWrite 0x010004 1, laneWrite 0x020000 3]) (fun _ => true)
      (fun s => (s.lane.length, s.waiting.map (·.block))) = some (2, [.tripTable]) ∧
    offer ([], [⟨.orderBook, [laneWrite 0x010004 1]⟩]) ⟨.orderBook, 0x010008, .write 0xF 1 .none⟩ =
      ([], [⟨.orderBook, [laneWrite 0x010004 1, ⟨.orderBook, 0x010008, .write 0xF 1 .none⟩]⟩]) := by decide +kernel

theorem witness_ReportsSetFlags_waits :
    let s (ws : List Waiter) : State := runningWith (fun s => { s with waiting := ws }) 
      (fun m => { m with reports := [.condition .low true] })
    let w : Waiter := ⟨.statusUnit, [laneWrite 0x024100 1]⟩
    (s [w]).waits .statusUnit = true ∧ (s [w]).settleStatus.mill.reports = [.condition .low true] ∧
      (s []).settleStatus.status.flags = 0x80 ∧
      (⟨.statusUnit, 0x024100, .write 0xF 0x80 .none⟩ : LaneEntry) ∈ (s []).settleStatus.mill.outbox := by decide +kernel

/-! ### Clause by clause: the plan -/

theorem witness_RestartCarriedOut_blocks :
    let m := (running (fun m => bin 3 { ofKind .surgeBag with lots := [⟨some 5, .none, 400⟩, ⟨none, .host, 200⟩] }
      (batch 4 { Batch.reset with state := .done } (order 5 { inState .producing with inFlight := 9 } m)))).mill
    (m.order 5).state.active = true ∧ (m.batch 4).state.final = true ∧ m.pack.loadout.fill = none ∧
      (m.restart.order 5).state = .cancelled ∧ (m.restart.order 5).endReason = .restart ∧
      (m.restart.batch 4).state = .done ∧ (getAt m.restart.stock.bins 3).lots = [⟨none, .none, 600⟩] ∧
      (filling false false none (some 1)).mill.pack.loadout.fill.isSome = true ∧
      (handing .bin 9 0x20 0 id).mill.actions.unanswered.length = 1 := by decide +kernel

/-- A RESTART keeps the above count of a line that works (R166) and of one that is IDLE (log 63). -/
theorem test_restart_above :
    let c (st : LineState) : LineCtl :=
      { LineCtl.reset with state := st, load := { LineCtl.reset.load with above := 1 } }
    [LineState.idle, .running].map (fun st => ((c st).atRestart.state, (c st).atRestart.load.above)) =
      [(.idle, 1), (.idle, 1)] := by decide

/-- The small plan with one of its words replaced. -/
def planWith (w : Nat) (x : Word) : PlanCtl := { plan with words := plan.words.set (w - 4) x }

theorem witness_LoadStages_stage1 :
    plan.checkStage1 0 = none ∧ (planWith 5 0x018100).checkStage1 0 = some ⟨3, 1⟩ ∧
    (planWith 6 0x019000).checkStage1 0 = some ⟨4, 2⟩ ∧ plan.checkStage1 0x100000 = none ∧
    (planWith 12 999).checkStage1 0 = some ⟨5, 12⟩ ∧ (planWith 12 1000).constOk 12 = true ∧
    (planWith 13 9999).constOk 13 = false ∧ (planWith 13 10000).constOk 13 = true ∧
    (planWith 40 501).checkStage1 0 = some ⟨5, 40⟩ ∧ (planWith 40 0x003301F4).checkStage1 0 = some ⟨5, 40⟩ ∧
    (planWith 120 0xFF).checkStage1 0 = some ⟨7, 0⟩ ∧ (planWith 121 0xFF).checkStage1 0 = none ∧
    getAt (planWith 121 0xFF).presence 1 = false ∧ getAt plan.presence 1 = true ∧
    (planWith 122 0).checkStage1 0 = some ⟨6, 2⟩ ∧ (planWith 122 64).checkStage1 0 = some ⟨5, 122⟩ ∧
    (planWith 122 63).checkStage1 0 = none ∧ (planWith 131 0xFF).presence.toList = (planWith 131 0xFF).present.toList.set 6 false := by
  decide +kernel

def defOf (k : BinKind) (capacity low high preactMax : Nat) : BinDef := ⟨k, 0, capacity, low, high, preactMax⟩

theorem witness_LoadStages_stage2 :
    (defOf .raw 100 9 10 100).ok = true ∧ (defOf .raw 100 10 10 100).ok = false ∧ (defOf .raw 100 9 101 0).ok = false ∧
    (defOf .raw 100 9 100 101).ok = false ∧ (defOf .unused 0 1 0 1).ok = true ∧
    let m := (running id).mill
    let bs (surge : Nat) : List BinDef := [defOf .rework 100 0 1 0, defOf .surgePellet surge 0 1 0, defOf .surgeBag 50 0 1 0,
      defOf .surgeBulk 50 0 1 0]
    m.checkKinds (bs 100) = none ∧ m.checkKinds (bs 101) = some ⟨8, 1⟩ ∧ m.presentUnit 5 = true ∧
    m.checkKinds [] = some ⟨8, 0x104⟩ ∧ (running absent).mill.checkKinds [defOf .rework 1 0 1 0] = none := by
  decide +kernel

/-- Rule 1 with both its sets, and this second word. -/
def rule1 (x : Word) : PlanCtl := { plan with words := (plan.words.set 54 0x00010001).set 55 x }

theorem witness_LoadStages_stage3 :
    plan.ruleFrom 1 = 0 ∧ plan.nextRule [1, 32] = .verify 32 0 ∧
    (rule1 0x20000000).ruleTreatment 1 = 2 ∧ (rule1 0x20000000).nextRule [1] = .finished ∧
    (rule1 0x00001F40).nextRule [1] = .bad 1 ∧ (rule1 0x11001388).nextRule [1] = .verify 1 0x10 ∧
    (rule1 0x11001387).nextRule [1] = .bad 1 ∧ (rule1 0x11009C40).nextRule [1] = .verify 1 0x10 ∧
    (rule1 0x11009C41).nextRule [1] = .bad 1 := by decide +kernel

theorem witness_LoadStages_lines :
    let ws := (List.range 5).map (plan.block .pellet)
    plan.blockOk .pellet = true ∧ plan.checkLines [.pellet] ws = none ∧
    (planWith 170 0x03E903E8).blockOk .pellet = false ∧ (planWith 170 0x03E803E8).blockOk .pellet = true ∧
    (planWith 169 0x005A005A).checkLines [.pellet] ws = some ⟨10, 5⟩ ∧
    plan.checkLines [.pellet] (ws.set 4 0) = some ⟨10, 5⟩ ∧ (planWith 140 0x000A0503).blockOk (.grinder .a) = false := by
  decide +kernel

theorem witness_LoadStageFive_adoption :
    let d : BinDef := { BinDef.reset with kind := .raw, capacity := 100, preactMax := 9 }
    (adoptBin d [101, 9]).2 = true ∧ (adoptBin d [100, 10]).2 = true ∧ (adoptBin d [100, 9]).2 = false ∧
      (adoptBin d [101, 10]).1.level = 100 ∧ (adoptBin d [101, 10]).1.preact = 9 ∧
    (adoptBin { d with kind := .surgeBag } [60, 5]).1.lots = [⟨none, .none, 60⟩] ∧
    (adoptBin { d with kind := .surgeBag } [0, 5]).1.lots = [] ∧
    let o (code : Word) : List Word := [9, 0, 0, code, 0, 0, 0, 0, 0, 0, 0, 0]
    retainedState (o 8) = none ∧ adoptOrder (o 8) none = .reset ∧
    (adoptOrder (o 4) (some ⟨5, 9, [9, 7]⟩)).state = .packed ∧ (adoptOrder (o 4) none).state = .closed ∧
    (adoptOrder (o 2) none).state = .cancelled ∧ (adoptOrder (o 5) none).state = .closed ∧
    (adoptOrder (o 0x04000000) none).endReason = .none ∧ (adoptOrder (o 0x03000007) none).endReason = .restart := by
  decide +kernel

theorem witness_LoadStageFive_trips_lines :
    let t (code : Word) : List Word := [0x10000, code, 0x05000064, 0, 0, 0, 0, 0, 7, 0, 0, 0, 0, 0]
    (adoptTrip (t 0x103)).state = .loaded ∧ (adoptTrip (t 0x103)).limitMark = true ∧ (adoptTrip (t 4)).state = .departed ∧
    (adoptTrip (t 0x101)).state = .opened ∧ (adoptTrip (t 0x101)).limitMark = false ∧ (adoptTrip (t 0x105)).limitMark = false ∧
    (adoptTrip (t 3)).copy = [⟨5, 100⟩] ∧ (adoptTrip (t 3)).loaded[0] = 7 ∧
    let m := (running (line .pellet { LineCtl.reset with state := .tripped, ceiling := 5, cause := .load })).mill
    (m.adoptLine .pellet).state = .tripped ∧ (m.adoptLine .pellet).ceiling = 5 ∧ (m.adoptLine .pellet).tripOut = true ∧
    (m.adoptLine (.grinder .a)).state = .idle ∧ (m.adoptLine (.grinder .a)).ceiling = 1000 := by decide +kernel

/-! ### Clause by clause: release, orders, batches, bins -/

/-- A processor write still in progress: the checker waits for it, and its end ends the wait. -/
theorem witness_VerificationBegun_waits :
    let s : State := { releasing .releaseFields .releaseFields [0, 0x00020109, 0, 6000, 0] with
      tx := some (.write [⟨0x010008, 0xF, 0, .plain⟩] [] .waiting) }
    s.writing = true ∧ after .releaseFieldsRead s (fun s => decide (s.mill.headSlot = some 7))
      (fun s => (s.mill.checker.awaitsWrite, s.mill.checker.requests.length)) = some (true, 1) ∧
    after .verifyWalkStart (running (fun m => { m with checker := ⟨[⟨.release, 9⟩], none, true⟩ })) (fun _ => true)
      (fun s => (s.mill.checker.walk, s.mill.checker.awaitsWrite)) = some (none, true) := by decide +kernel

theorem witness_TicketStages_lines :
    let m := (running (bin 4 { ofKind .raw with plan := { (ofKind .raw).plan with classMask := 3 } })).mill
    let w : Walk := walking none 0
    (headerOf 1 [9] [2, 9, 1, 30, 7, 0]).map (·.lineCount) = none ∧
    (headerOf 1 [9] [2, 8, 24, 900, 7, 0]).map (fun h => (h.next, h.lineCount, h.check)) = some (8, 24, 7) ∧
    headerOf 1 [9] [2, 8, 25, 900, 7, 0] = none ∧ headerOf 1 [9] [2, 8, 24, 901, 7, 0] = none ∧
    headerOf 2 [9] [4, 0x300, 1, 0, 7, 0] = some ⟨.last, 0x300, 1, 7⟩ ∧ headerOf 2 [9] [3, 256, 1, 0, 7, 0] = none ∧
    m.judgeLine .release 0x10042710 = .inl (4, .one) ∧ m.judgeLine .release 0x10042711 = .inr 7 ∧
    m.judgeLine .release 0x30040001 = .inr 8 ∧ m.judgeLine .release 0x10050001 = .inr 8 ∧
    m.judgeLine .release 0x10300001 = .inr 8 ∧ m.judgeLine .release 0x20040001 = .inl (4, .two) ∧
    (running (fun m => absent (bin 4 (ofKind .raw) m))).mill.judgeLine .release 0x20040001 = .inr 8 ∧
    m.walkLines w 0 [0x15042710] =
      .inl { w with parts := 10000, mask := w.mask ||| 3, lines := w.lines ++ [⟨9, 0, 4, .one, 5, 10000⟩] } ∧
    m.walkLines w 0 [0x15042710, 0] = .inr (.fail ⟨8, 0x901⟩) := by decide +kernel

theorem witness_ReleaseConfirmed_checks :
    let m := (running id).mill
    let f : OrderFields := ⟨9, some .mash, some .bag, 50, 4000, 5000, 0⟩
    m.fieldFault 9 f = none ∧ m.fieldFault 8 f = some 0x100 ∧ m.fieldFault 9 { f with process := none } = some 1 ∧
    m.fieldFault 9 { f with pack := none } = some 2 ∧ m.fieldFault 9 { f with bagMass := 49 } = some 3 ∧
    m.fieldFault 9 { f with bagMass := 501 } = some 3 ∧ m.fieldFault 9 { f with bagCount := 0 } = some 4 ∧
    m.fieldFault 9 { f with bagCount := 4001 } = some 4 ∧ m.fieldFault 9 { f with pack := some .bulk } = none ∧
    m.fieldFault 9 { f with pack := some .bulk, ordered := 4999 } = some 5 ∧
    (running absent).mill.fieldFault 9 { f with process := some .pellet } = some 1 ∧
    (running absent).mill.fieldFault 9 f = some 2 ∧
    quantitiesOf { f with bagMass := 300 } 5000 40000 = ⟨300, 1200000, 39900, 5100⟩ ∧
    quantitiesOf { f with pack := some .bulk, ordered := 5001, request := 7999 } 5000 40000 = ⟨100, 5100, 7900, 5000⟩ ∧
    massFault ⟨100, 4999, 8000, 5000⟩ 5000 = some 1 ∧ massFault ⟨100, 5000, 4900, 5000⟩ 5000 = some 2 ∧
    massFault ⟨100, 10000, 9999, 5000⟩ 5000 = some 3 ∧ massFault ⟨100, 9999, 9999, 5000⟩ 5000 = none ∧
    massFault ⟨100, 10001, 10000, 5000⟩ 5000 = none := by decide +kernel

theorem witness_HoldAndResume_pass :
    let m := (running (admitting .forbid 7)).mill
    m.seq.pass = .visiting 0 ∧ m.seq.queue.length = 7 ∧ (m.order 5).wait = .forbid ∧
      nextSize 6000 8000 5000 m.plan.batchMin = some 6000 ∧ m.passStep.seq.pass = .sized 0 ⟨5, 6000, [6000]⟩ ∧
      m.plan.state = .running ∧ m.askPass.seq.again = true := by decide +kernel

/-- Order 5 CANCELLING, with the mixer holding a batch of it. -/
def mixerOf (st : BatchState) (d : Disposition) (m : Mill) : Mill :=
  let m1 := batch 9 { Batch.reset with state := st, order := some 5, disposition := d }
    (order 5 { inState .cancelling with entry := none } m)
  { m1 with weigh := { m1.weigh with mixer := { m1.weigh.mixer with state := .mixing, batch := some 9 } } }
/-- The pellet line with order 5 current. -/
def pelletOn (st : LineState) (m : Mill) : Mill :=
  (m.updPellet (fun c => { c with current := some 5 })).updLine .pellet (fun c => { c with state := st })

theorem witness_CancelTaken_handOffs :
    let m (f : Mill → Mill) : Mill := (running f).mill
    (m (mixerOf .mixing .good)).weigh.mixer.batch = some 9 ∧
    (((m (mixerOf .mixing .good)).cancelMixed 5).batch 9).disposition = .rework ∧
    same ((m (mixerOf .mixing .rework)).cancelMixed 5) (m (mixerOf .mixing .rework)) ∧
    same ((m (mixerOf .discharging .good)).cancelMixed 5) (m (mixerOf .discharging .good)) ∧
    (m id).weigh.mixer.batch = none ∧
    (((m (pelletOn .running)).cancelLine 5).lineCtl .pellet).state = .draining ∧
    same ((m (pelletOn .starved)).cancelLine 5) (m (pelletOn .starved)) ∧
    (m (order 5 (inState .cancelling))).exhausted 5 = true ∧
    (((m (order 5 (inState .cancelling))).judgeCancelled 5).order 5).state = .cancelled ∧
    same ((m (order 5 (tabled .cancelling 1))).judgeCancelled 5) (m (order 5 (tabled .cancelling 1))) ∧
    (m (fun m => pelletOn .draining (order 5 (inState .cancelling) m))).exhausted 5 = false ∧
    (m (fun m => attending .under 0 0 (order 5 (inState .cancelling) m))).weigh.batch = some 9 ∧
    (m (withQueue [9])).queuedOf 5 = [] ∧
    (m (fun m => withQueue [9] (mixerOf .queued .good m))).queuedOf 5 = [9] := by decide +kernel

theorem witness_LineActions_refusals :
    act .topUp .batch 9 0x11 (batch 9 { Batch.reset with state := .weighed }) (fun _ => true) 1 = some (3, 3) ∧
    act .skipLine .batch 9 0x12 (attending .under 0 0) (fun m => decide (m.scaleArg 0 = none)) 0 = some (4, 0) ∧
    act .retry .batch 9 0x13 (attending .stalled 0 0) (fun m => decide ((m.scale .two).state ≠ .attention)) 2 =
      some (3, 0x100) ∧
    act .topUp .batch 9 0x11 (attending .over 0 0) atScale 1 = some (3, 0x202) ∧
    act .skipLine .batch 9 0x12 (attending .held 0 0) atScale 1 = some (3, 0x204) ∧
    act .retry .batch 9 0x13 (attending .under 0 0) atScale 1 = some (3, 0x201) ∧
    act .accept .batch 9 0x10 (fun m => absent (attending .under 0 0 m)) (fun m => decide (m.scaleArg 2 = none)) 2 =
      some (4, 2) := by decide +kernel

theorem witness_LineActions_attention :
    let m := (running (attending .under 0 0)).mill
    let both : Mill := { m with weigh := { m.weigh with scale2 := { m.weigh.scale1 with cause := .over } } }
    (m.batch 9).attention.scale = scaleNo .one ∧ ((m.leaveAttention 9 .one).batch 9).attention.cause = .none ∧
    (both.scale .two).state = .attention ∧ ((both.leaveAttention 9 .one).batch 9).attention.scale = 2 ∧
    (m.batch 9).attention.scale ≠ scaleNo .two ∧ (m.leaveAttention 9 .two).batch 9 = m.batch 9 := by decide +kernel

/-- Three queued batches: of order 5 with class 1, a flush batch, of order 6 with class 2; rule 0 forbids 1 before 2. -/
def queued3 (m : Mill) : Mill :=
  let x (o : Option (Fin 256)) (k : BitVec 16) : Batch := { Batch.reset with state := .queued, order := o, mask := k, target := 1000 }
  let m1 := withQueue [1, 2, 3] (batch 1 (x (some 5) 1) (batch 2 (x none 0) (batch 3 (x (some 6) 2) m)))
  { m1 with plan := { m1.plan with
      words := (m1.plan.words.set 52 0x00020001).set 53 0x20000000, defaultFlush := some (chainOf [0]) } }

theorem witness_AbortTaken_removal :
    let m := (running (fun m => queued3 (order 5 (tabled .producing 1) m))).mill
    let who (b : Fin 32) := (m.batch b).member
    gapsOf who [2] m.seq.reference false m.seq.queue = [⟨some ⟨1, false⟩, 3⟩] ∧
    gapsOf who [3] m.seq.reference false m.seq.queue = [] ∧ gapsOf who [1, 2] none false m.seq.queue = [⟨none, 3⟩] ∧
    m.gapMatches ⟨some ⟨1, false⟩, 3⟩ = true ∧ m.gapMatches ⟨some ⟨0, true⟩, 3⟩ = false ∧
    m.gapMatches ⟨some ⟨2, false⟩, 3⟩ = false ∧ m.allocate = some 0 ∧
    (m.removeBatches [2]).seq.queue = [1, 0, 3] ∧ ((m.removeBatches [2]).batch 0).disposition = .rework ∧
    (m.removeBatches [2]).seq.pass = .idle ∧ (m.removeBatches [3]).seq.queue = [1, 2] ∧
    (m.removeBatches [3]).seq.pass = .visiting 0 ∧ ((m.removeBatches [1]).order 5).remaining = 1000 ∧
    (m.batch 2).order = none ∧ ((m.removeOne 2).batch 2).state = .removed := by decide +kernel

theorem witness_AbortTaken_cancel :
    let m := (running feeding).mill
    let a0 := (running (attending .under 0 0)).mill
    let a : Mill := { a0 with weigh := { a0.weigh with scale2 := { a0.weigh.scale2 with state := .done } } }
    m.weigh.cancelled = false ∧ ((m.cancelScale 9 .one).scale .one).ended = .cancelled ∧
    ((a.cancelScale 9 .one).scale .one).state = .done ∧ same (m.cancelScale 9 .two) m ∧
    ((m.cancelWeighing 9).batch 9).disposition = .rework ∧ ((m.cancelWeighing 9).batch 9).state = .weighing ∧
    ((a.cancelWeighing 9).batch 9).state = .weighed ∧ same ((a.cancelWeighing 9).cancelWeighing 9) (a.cancelWeighing 9) ∧
    let o := (running (fun m => { order 5 { inState .producing with inFlight := 9 } m with
      book := { (order 5 (inState .producing) m).book with
        orders := putAt m.book.orders 5 { inState .producing with inFlight := 9 }, releaseList := [5] } })).mill
    (o.order 5).wait ≠ .held ∧ ((o.returnMass 5 9).order 5).remaining = 9 ∧ (o.returnMass 5 9).seq.pass = .visiting 0 ∧
    let h := (running (order 5 { inState .finishing with inFlight := 9 })).mill
    5 ∉ h.book.releaseList ∧ (h.returnMass 5 4).seq.pass = .idle := by decide +kernel

/-- Surge bin 3 with these lots, the REWORK bin 4 with this much room. -/
def surging (lots : List Lot) (room : Nat) (claim : Bool) (m : Mill) : Mill :=
  bin 4 { ofKind .rework with level := 1000 - room }
    (bin 3 { ofKind .surgeBag with lots := lots, claim := claim, level := (lots.map (·.mass)).sum } m)

theorem witness_DivertHeadTaken_heads :
    let m (lots : List Lot) (room : Nat) (claim : Bool) : Mill := (running (surging lots room claim)).mill
    let orphan : Lot := ⟨none, .none, 300⟩
    let owned : Lot := ⟨some 5, .none, 300⟩
    (m [] 300 false).surgeBin .bag = some 3 ∧ (m [] 300 false).reworkBin = some 4 ∧
    ((m [owned] 300 false).checkHead .bag).stock.waitingDiverts = [] ∧
    (getAt ((m [orphan, owned] 300 false).checkHead .bag).stock.bins 3).lots = [owned] ∧
    (getAt ((m [orphan, owned] 300 false).checkHead .bag).stock.bins 4).level = 1000 ∧
    ((m [orphan] 299 false).checkHead .bag).stock.waitingDiverts = [.bag] ∧
    (((m [orphan] 299 false).checkHead .bag).checkHead .bag).stock.waitingDiverts = [.bag] ∧
    same ((m [orphan] 300 true).checkHead .bag) (m [orphan] 300 true) ∧
    hostMark [owned] = [{ owned with mark := .host }] ∧ hostMark [{ owned with mark := .overrun }] =
      [{ owned with mark := .overrun }] := by decide +kernel

/-- A surge that must wait again after a divert joins at the tail; one whose waiting head went keeps its place (log 59). -/
theorem witness_DivertHeadTaken_places :
    let m (lots : List Lot) (w : List Surge) : Mill := (running (fun m =>
      let m1 := surging lots 100 false m
      { m1 with stock := { m1.stock with waitingDiverts := w } })).mill
    let orphan (mass : Nat) : Lot := ⟨none, .none, mass⟩
    ((m [orphan 100, orphan 300] [.bag, .bulk]).checkHead .bag).stock.waitingDiverts = [.bulk, .bag] ∧
    ((m [orphan 300] [.bag, .bulk]).checkHead .bag).stock.waitingDiverts = [.bag, .bulk] := by decide +kernel

/-! ### Clause by clause: units, trucks, admission, stock -/

theorem witness_StartTaken_outlets :
    act .start .unit 6 0x30 (baggerIn .blocked) (fun m => m.presentUnit 6) = some (3, 3) ∧
    act .start .unit 7 0x30 (loadoutIn .waitTruck none) (fun m => m.presentUnit 7) = some (3, 1) := by decide +kernel

theorem witness_StopTaken_ends :
    let m (f : Mill → Mill) : Mill := (running f).mill
    let claimed (m : Mill) : Mill := bin 3 { ofKind .surgeBag with claim := true, lots := [⟨some 5, .none, 600⟩] } m
    (((m grinding).endWork (.grinder .a) .idle).lineCtl (.grinder .a)).state = .idle ∧
    ((m grinding).endWork (.grinder .a) .idle).outbox ≠ ((m id).endWork (.grinder .a) .idle).outbox ∧
    (m (fun m => m.updPellet (fun c => { c with current := some 5 }))).dropCurrent.notices = [.judgeExhausted 5, .pelletGone] ∧
    (m id).dropCurrent.notices = [] ∧ (m id).surgeBin .bag = none ∧ same ((m id).endClaim .bag) (m id) ∧
    (getAt ((m claimed).endClaim .bag).stock.bins 3).claim = false ∧ ((m claimed).endClaim .bag).notices = [] ∧
    ((m (bin 3 { ofKind .surgeBag with claim := true, lots := [⟨none, .none, 600⟩] })).endClaim .bag).stock.waitingDiverts =
      [.bag] ∧
    (getAt ((m (fun m => baggerIn .bagging (claimed m))).stopBagger .idle).stock.bins 3).claim = false ∧
    (getAt ((m (fun m => baggerIn .blocked (claimed m))).stopBagger .idle).stock.bins 3).claim = true ∧
    (m (loadoutIn .filling (some (fillOf false)))).cutFill.pack.loadout.settle = some 2000 ∧
    (m (loadoutIn .filling (some (fillOf true)))).cutFill.pack.loadout.settle = none := by decide +kernel

theorem witness_ClearTripTaken_grinder :
    let m := (running (fun m => inLine (.grinder .a) .tripped m)).mill
    (m.grinderCtl .a).autoStart = false ∧ ((m.untrip (.grinder .a)).lineCtl (.grinder .a)).state = .idle ∧
    m.chanClear .plTemp ⟨some ⟨7, 90, 0⟩, some 1, 0, none⟩ = true ∧ m.chanClear .plTemp ⟨some ⟨7, 91, 0⟩, some 1, 0, none⟩ = false ∧
    m.chanClear .plTemp ⟨some ⟨7, 90, 0⟩, none, 0, none⟩ = false ∧ m.chanClear .plTemp ⟨some ⟨7, 90, 1⟩, some 1, 0, none⟩ = false := by
  decide +kernel

theorem witness_RefillSettingTaken_checks :
    let m (f : Mill → Mill) : Mill := (running f).mill
    let bins (level high : Nat) (m : Mill) : Mill := bin 9 { ofKind .raw with level := level }
      (bin 10 { groundBin with plan := { groundBin.plan with high := high } } m)
    let ready (level high : Nat) (m : Mill) : Mill := fresh (.grinder .a) (bins level high m)
    let r := refillOf 0x0A09
    let asked (m : Mill) : Mill := m.updGrinder .a (fun c => { c with refill := some r, autoStart := true })
    (m grinding).grindChecks .a r = some ⟨3, 1⟩ ∧ (m id).binIfKind 48 .raw = none ∧
    (m id).grindChecks .a r = some ⟨4, 1⟩ ∧ (m (bin 9 (ofKind .raw))).grindChecks .a r = some ⟨4, 2⟩ ∧
    (m (bins 600 601)).grindChecks .a r = some ⟨0x0C, 3⟩ ∧ (m (ready 600 600)).grindChecks .a r = some ⟨3, 0x200⟩ ∧
    (m (ready 500 601)).grindChecks .a r = some ⟨3, 0x300⟩ ∧ (m (ready 501 601)).grindChecks .a r = none ∧
    (((m (fun m => asked (ready 501 601 m))).tryAutoStart .a).lineCtl (.grinder .a)).state = .blocked ∧
    same ((m (fun m => asked (ready 500 601 m))).tryAutoStart .a) (m (fun m => asked (ready 500 601 m))) ∧
    (m (fun m => ready 501 601 (bin 10 { groundBin with level := 500 } m))).grindChecks .a r = none := by decide +kernel

theorem witness_RefillSettingTaken_running :
    let m (raw room : Nat) (starved blocked : Bool) : Mill := (running (fun m =>
      bin 9 { ofKind .raw with level := raw } (bin 10 { groundBin with level := 1000 - room }
        (m.updGrinder .a (fun c => { c with starved := starved, blocked := blocked, line := { c.line with ceiling := 70 } }))))).mill
    let st (m : Mill) : LineState × Nat := (((m.judgeGrind .a ⟨9, 10, false⟩).lineCtl (.grinder .a)).state,
      ((m.judgeGrind .a ⟨9, 10, false⟩).lineCtl (.grinder .a)).rate)
    st (m 501 500 false false) = (.running, 70) ∧ st (m 500 500 false false) = (.starved, 0) ∧
    st (m 999 500 true false) = (.starved, 0) ∧ st (m 1000 500 true false) = (.running, 70) ∧
    st (m 501 499 false false) = (.blocked, 0) ∧ st (m 501 999 false true) = (.blocked, 0) ∧
    st (m 501 1000 false true) = (.running, 70) := by decide +kernel

theorem witness_ArriveTaken_reads :
    let s (p : TxPhase) (beats : List TxBeat) : State :=
      runningWith (fun s => { s with tx := some (.write beats [] p) })
        (fun m => { m with trips := { m.trips with arriving := some (2, false) } })
    let a := (running id).mill.recordAddr .truck 2 4
    (s .waiting [⟨a, 0xF, 0, .plain⟩]).writes (fun p => p.isIn .truck 2) = true ∧
    (s (.ended [a]) []).writes (fun p => p.isIn .truck 2) = true ∧ (s (.ended [a]) []).postArrive.mill.outbox = [] ∧
    (s .waiting [⟨a, 0xF, 0, .plain⟩]).writes (fun p => p.isIn .truck 3) = false ∧
    (s (.ended []) []).postArrive.mill.outbox.length = 7 := by decide +kernel

theorem witness_ArriveTaken_check :
    let m := (running (order 5 bulkOrder)).mill
    let x (copy : List Compartment) : Trip := { Trip.reset with state := .arrived, copy := copy }
    m.arrivalFault (x []) = some 0xFF ∧ m.arrivalFault (x [⟨5, 0⟩]) = some 0 ∧ m.arrivalFault (x [⟨5, 1⟩, ⟨6, 1⟩]) = some 1 ∧
    m.arrivalFault (x [⟨5, 1000⟩]) = none := by decide +kernel

theorem witness_LoadingEnded_bookings :
    let m (f : Mill → Mill) : Mill := (running f).mill
    let two (m : Mill) : Mill := withArrivals [4, 3] (trip 3 { Trip.reset with state := .arrived, copy := [⟨5, 900⟩] }
      (trip 4 { Trip.reset with state := .arrived, copy := [⟨5, 20⟩], limitMark := true } m))
    (((m loading).bookTrip 2 0 979).trip 2).state = .loading ∧ (((m loading).bookTrip 2 0 980).trip 2).state = .loaded ∧
    (m loading).loadingTrip = some 2 ∧ same (m loading).judgeArbiter (m loading) ∧ same (m id).judgeArbiter (m id) ∧
    ((m two).judgeArbiter.trip 4).state = .loaded ∧ ((m two).judgeArbiter.trip 4).limitMark = false ∧
    ((m two).judgeArbiter.trip 3).state = .loading ∧ (m two).judgeArbiter.trips.queue = [] ∧
    (m two).judgeArbiter.trips.limit = some 120000 := by decide +kernel

/-- Order 5, sized, with the tail of the sequence showing class 1, rule 0 of the treatment, and the order's mask 2. -/
def judging (treatment : Word) (level : Nat) (tail : Option Reference) (m : Mill) : Mill :=
  let m1 := admitting .none 0 m
  let m2 := bin 4 { ofKind .raw with level := level } (order 5 { m1.order 5 with classMask := 2 } m1)
  { m2 with
    seq := { m2.seq with pass := .sized 0 ⟨5, 6000, [6000]⟩, reference := tail }
    plan := { m2.plan with
      words := (m2.plan.words.set 52 0x00020001).set 53 (treatment + 0x1388)
      flushChains := List.replicate 32 (some (chainOf [7])) } }

theorem witness_AdmissionPassRuns_verdicts :
    let m (t : Word) (level : Nat) (r : Option Reference) : Mill := (running (judging t level r)).mill
    let one : Option Reference := some ⟨1, false⟩
    (m 0x20000000 9000 one).judgeCandidate 2 = .forbid ∧ ((m 0x20000000 9000 one).passStep.order 5).wait = .forbid ∧
    (m 0x10000000 20000 one).judgeCandidate 2 = .flush 0 ∧ (m 0x10000000 20000 one).passStep.seq.queue = [0, 1] ∧
    ((m 0x10000000 20000 one).passStep.order 5).state = .producing ∧
    ((m 0x10000000 4999 one).passStep.order 5).wait = .short ∧ (m 0x10000000 9000 (some ⟨1, true⟩)).judgeCandidate 2 = .clear ∧
    (m 0x10000000 9000 none).judgeCandidate 2 = .clear ∧ (m 0 6000 one).passStep.seq.queue = [0] ∧
    ((m 0 5999 one).passStep.order 5).wait = .short ∧ (m 0 5999 one).passStep.seq.pass = .visiting 1 ∧
    (m 0 6000 one).passStep.seq.pass = .visiting 0 ∧
    ((m 0 6000 one).created 5 6000).isSome = true ∧
    ((running (order 5 (held .producing))).mill.created 5 1).isNone = true ∧
    ((running (order 5 (inState .finishing))).mill.created 5 1).isNone = true := by decide +kernel

theorem witness_AdmissionPassRuns_full :
    let m := (running (admitting .none 8)).mill
    let all : Mill := { m with seq := { m.seq with batches := Vector.replicate 32 { Batch.reset with state := .queued } } }
    all.allocate = none ∧ (all.admitOrder 0 ⟨5, 6000, [6000]⟩).seq.pass = .idle ∧
    ({ m with seq := { m.seq with pass := .sized 0 ⟨5, 6000, [6000]⟩ } } : Mill).passStep.seq.pass = .idle := by decide +kernel

theorem witness_ReserveAllOrNothing_entries :
    let m := (running (attending .under 0 100)).mill
    let e : Reservation := ⟨9, 0, 4, 100⟩
    m.stock.entry 9 0 = some e ∧ (m.releaseEntry 9 0).stock.table = [] ∧
    (getAt (m.releaseEntry 9 0).stock.bins 4).reserved = 0 ∧ m.stock.entry 9 1 = none ∧ same (m.releaseEntry 9 1) m ∧
    same (m.bookDraw 9 0 4 0) m ∧ (m.bookDraw 9 0 4 (-1)).reports = [.event .stockDisagree] ∧
    (m.bookDraw 9 0 4 60).stock.unbooked 9 0 = 40 ∧ (m.bookDraw 9 0 4 101).stock.unbooked 9 0 = 0 ∧
    (m.bookDraw 9 0 4 101).reports = [.event .stockDisagree] ∧ (m.reserveLine 9 ⟨1, 4, 0⟩).isSome = true ∧
    (m.reserveLine 9 ⟨1, 4, 1⟩).isNone = true := by decide +kernel

theorem witness_LineMassesSum_step :
    let m := (running (admitting .short 0)).mill
    (m.order 5).entry.bind (·.chain) = some (chainOf [0]) ∧ m.passStep.seq.pass = .sized 0 ⟨5, 6000, [6000]⟩ ∧
    (reserveLines (chainOf [0]) [6000]).length = 1 := by decide +kernel

/-! ### Clause by clause: samples, timers, lots, frames -/

def sampleOf (r : Role) (v : BitVec 24) : Sample := ⟨r, v, 0⟩
/-- Batch 9 in the mixer, both scales in the given state. -/
def dumping (a b : ScaleState) (m : Mill) : Mill :=
  let m1 := batch 9 { Batch.reset with state := .filling, chain := chainOf [0] } m
  { m1 with weigh := { m1.weigh with
      scale1 := { m1.weigh.scale1 with state := a }, scale2 := { m1.weigh.scale2 with state := b }
      mixer := { m1.weigh.mixer with state := .filling, batch := some 9 } } }
/-- Scale 1 in a state with leak reference 0 and batch 9 at the scales. -/
def leaking (st : ScaleState) (m : Mill) : Mill :=
  let m1 := batch 9 Batch.reset m
  { m1 with weigh := { m1.weigh with batch := some 9, scale1 := { m1.weigh.scale1 with state := st, leakRef := some 0 } } }

theorem witness_WeighSamples_dump :
    let m (f : Mill → Mill) : Mill := (running f).mill
    ((m (dumping .dumping .dumping)).scaleSample .one (sampleOf 0 101)).weigh.scale1.state = .dumping ∧
    ((m (dumping .dumping .dumping)).scaleSample .one (sampleOf 0 100)).weigh.scale1.state = .idle ∧
    ((m (dumping .dumping .dumping)).scaleSample .one (sampleOf 0 100)).weigh.mixer.state = .filling ∧
    ((m (dumping .dumping .idle)).scaleSample .one (sampleOf 0 100)).weigh.mixer.mix = some 60000 ∧
    (((m (dumping .dumping .idle)).scaleSample .one (sampleOf 0 100)).batch 9).state = .mixing ∧
    ((m (leaking .idle)).scaleSample .one (sampleOf 0 50)).reports = [] ∧
    ((m (leaking .idle)).scaleSample .one (sampleOf 0 51)).reports = [.event .unexpectedFlow] ∧
    (((m (leaking .done)).scaleSample .one (sampleOf 0 51)).batch 9).leak = true ∧
    (((m (leaking .settling)).scaleSample .one (sampleOf 0 51)).batch 9).leak = false := by decide +kernel

/-- The mixer discharging batch 9; a batch 8 WEIGHED at scales that are done. -/
def discharging (d : Disposition) (m : Mill) : Mill :=
  let m1 := batch 9 { Batch.reset with state := .discharging, order := some 5, target := 70, disposition := d }
    (batch 8 { Batch.reset with state := .weighed } (order 5 { inState .producing with inFlight := 70 } m))
  { m1 with weigh := { m1.weigh with
      batch := some 8, scale1 := { m1.weigh.scale1 with state := .done }, scale2 := { m1.weigh.scale2 with state := .done }
      mixer := { m1.weigh.mixer with state := .discharging, batch := some 9 } } }

theorem witness_WeighSamples_mixer :
    let m (f : Mill → Mill) : Mill := (running f).mill
    let t := (m (discharging .good)).mixerSample (sampleOf 2 100)
    (t.batch 9).state = .done ∧ (t.order 5).completed = 70 ∧ t.weigh.mixer.batch = some 8 ∧ t.weigh.batch = none ∧
    (t.scale .two).state = .dumping ∧
    (((m (discharging .rework)).mixerSample (sampleOf 2 100)).order 5).completed = 0 ∧
    ((m (discharging .good)).mixerSample (sampleOf 2 101)).weigh.mixer.state = .discharging ∧
    (m id).weigh.mixer.state ≠ .discharging ∧ same (m (discharging .good)).considerDump (m (discharging .good)) := by
  decide +kernel

/-- Scale 1 of `attending` settling, so much fed in the phase, ended so. -/
def settling (fed : Int) (ended : PhaseEnd) (cancelled : Bool) (m : Mill) : Mill :=
  let m1 := attending .none 0 1000 m
  { m1 with weigh := { m1.weigh with
      cancelled := cancelled
      scale1 := { m1.weigh.scale1 with
        state := .settling, cause := .none, ended := ended, settle := some 0, channel := ⟨some fed, some 1⟩ } } }
def attendFor (x : Attention) (m : Mill) : Mill := batch 9 { m.batch 9 with attention := x } m

theorem witness_WeighTimers_settle :
    let m (fed : Int) (e : PhaseEnd) (c : Bool) : Mill := (running (fun m => attendFor .reset (settling fed e c m))).mill
    let st (m : Mill) : ScaleState × Cause := ((m.scale .one).state, (m.scale .one).cause)
    st ((m 1000 .cutOff false).settleScale 9 .one) = (.done, .none) ∧
    st ((m 999 .cutOff false).settleScale 9 .one) = (.attention, .under) ∧
    st ((m 1001 .cutOff false).settleScale 9 .one) = (.attention, .over) ∧
    st ((m 1000 .stall false).settleScale 9 .one) = (.attention, .stalled) ∧
    st ((m 1000 .cutOff true).settleScale 9 .one) = (.done, .none) ∧
    (((m 999 .cutOff false).settleScale 9 .one).batch 9).attention = ⟨.under, 1, 0, 5000, 4999⟩ ∧
    (getAt ((m 0 .cutOff false).adjustPreact 4 7).stock.bins 4).preact = 0 := by decide +kernel

theorem witness_WeighTimers_take :
    let x (mass : Nat) : Batch := { Batch.reset with
      state := .queued, chain := chainOf [0], masses := [mass], actuals := [0], target := mass, mask := 3 }
    let m (mass : Nat) (fresh : Timer) : Mill := (running (fun m =>
      withQueue [9] (batch 9 (x mass) { m with weigh := { m.weigh with scale1 := { m.weigh.scale1 with channel := ⟨some 7, fresh⟩ } } }))).mill
    let t := (m 5000 (some 1)).considerTake
    t.weigh.batch = some 9 ∧ t.weigh.limit = some 720000 ∧ t.seq.queue = [] ∧ t.seq.reference = some ⟨3, true⟩ ∧
    (t.scale .one).state = .feeding ∧ (t.scale .one).base = 7 ∧ (t.scale .two).state = .done ∧
    ((m 5000 none).considerTake.scale .one).cause = .stalled ∧ ((m 0 none).considerTake.batch 9).state = .weighed := by
  decide +kernel

/-- A batch of 600 MIXED, its route the surge bin 3, with this much room. -/
def mixedTo (room : Nat) (kind : BinKind) (m : Mill) : Mill :=
  let m1 := bin 3 { ofKind kind with level := 1000 - room, lots := if kind.isSurge then [⟨some 6, .none, 1000 - room⟩] else [] }
    (batch 9 { Batch.reset with state := .mixed, order := some 5, total := 600, route := 3, attention := ⟨.held, 0, 0, 0, 0⟩ }
      (order 5 (inState .producing) m))
  { m1 with weigh := { m1.weigh with mixer := { m1.weigh.mixer with state := .mixed, batch := some 9 } } }

theorem witness_WeighTimers_discharge :
    let m (room : Nat) (k : BinKind) : Mill := (running (mixedTo room k)).mill
    (m 600 .surgeBag).judgeDischarge.weigh.mixer.state = .discharging ∧
    ((m 600 .surgeBag).judgeDischarge.batch 9).attention = .reset ∧
    (getAt (m 600 .surgeBag).judgeDischarge.stock.bins 3).lots = [⟨some 6, .none, 400⟩, ⟨some 5, .none, 600⟩] ∧
    same (m 599 .surgeBag).judgeDischarge (m 599 .surgeBag) ∧
    (getAt (m 600 .rework).judgeDischarge.stock.bins 3).level = 1000 ∧
    (running (fun m => inLine .pellet .tripped (mixedTo 600 .surgePellet m))).mill.routeTakes
      ((running (mixedTo 600 .surgePellet)).mill.batch 9) = false := by decide +kernel

theorem witness_LineSamples_bookings :
    let m (f : Mill → Mill) : Mill := (running f).mill
    let bins (m : Mill) : Mill := bin 9 (ofKind .raw) (bin 10 groundBin m)
    let job (st : LineState) (m : Mill) : Mill :=
      (bins m).updGrinder .a (fun c => { c with total := some 0, refill := some ⟨9, 10, false⟩, line := { c.line with state := st } })
    let level (m : Mill) (i : Fin 48) : Nat := (getAt m.stock.bins i).level
    level ((m (job .running)).grinderTotal .a (sampleOf 4 100)) 9 = 500 ∧
    level ((m (job .running)).grinderTotal .a (sampleOf 4 100)) 10 = 700 ∧
    ((m (job .running)).grinderTotal .a (sampleOf 4 401)).reports = [.event .stockDisagree] ∧
    ((m (job .idle)).grinderTotal .a (sampleOf 4 100)).reports = [.event .unexpectedFlow] ∧
    ((m (job .running)).grinderTotal .a (sampleOf 4 0x800000)).reports = [.event .stockDisagree] ∧
    ((m (fun m => (bins m).updGrinder .a (fun c => { c with total := some 0 }))).grinderTotal .a (sampleOf 4 1)).reports =
      [.event .unexpectedFlow, .event .stockDisagree] ∧
    ((m bins).refill 9 9 5).reports = [.event .stockDisagree] ∧ same ((m bins).refill 48 10 5) ((m bins).raise .stockDisagree) ∧
    same ((m bins).refill 9 48 5) ((m bins).raise .stockDisagree) ∧ ((m bins).refill 9 10 401).reports =
      [.event .stockDisagree] ∧
    ((m bins).refill 9 10 400).seq.pass ≠ .idle := by decide +kernel

theorem witness_LineSamples_top :
    let m (st : LineState) (adjust : Timer) : Mill := (running (line .pellet { LineCtl.reset with
      state := st, ceiling := 500, adjust := adjust })).mill
    ((m .running none).judgeTop .pellet 101).lineCtl .pellet = { ((m .running none).judgeTop .pellet 101).lineCtl .pellet with
      top := true, ceiling := 490, adjust := some 60000 } ∧
    (((m .running none).judgeTop .pellet 100).lineCtl .pellet).adjust = none ∧
    (((m .running (some 5)).judgeTop .pellet 101).lineCtl .pellet).ceiling = 500 ∧
    same ((m .idle none).judgeTop .pellet 101) (m .idle none) ∧
    (m .tripped none).aboveAfter .plTemp (sampleOf 7 91) = 0 ∧ (m .idle none).aboveAfter .plTemp (sampleOf 7 91) = 1 ∧
    (m .idle none).aboveAfter .plTemp (sampleOf 7 90) = 0 := by decide +kernel

/-- The pellet line at work on order 5 from surge bin 3, product to the bag surge bin 2. -/
def pelleting (st : LineState) (lots : List Lot) (m : Mill) : Mill :=
  let m1 := bin 3 { ofKind .surgePellet with lots := lots, claim := true }
    (bin 2 { ofKind .surgeBag with level := 0 } (order 5 (inState .producing) m))
  m1.updPellet (fun c => { c with
    feed := some 0, product := some 0, current := some 5, productOrder := .order 5 .bag, line := { c.line with state := st } })

theorem witness_LineSamples_pellet :
    let m (st : LineState) (lots : List Lot) : Mill := (running (pelleting st lots)).mill
    let two : List Lot := [⟨some 5, .none, 100⟩, ⟨some 6, .none, 500⟩]
    let state (m : Mill) : LineState := (m.lineCtl .pellet).state
    state ((m .running two).pelletFeed (sampleOf 9 99)) = .running ∧
    state ((m .running two).pelletFeed (sampleOf 9 100)) = .draining ∧
    ((m .running two).pelletFeed (sampleOf 9 0x800000)).reports = [.event .stockDisagree] ∧
    state ((m .running two).pelletProduct (sampleOf 10 500)) = .running ∧
    state ((m .running two).pelletProduct (sampleOf 10 501)) = .blocked ∧
    (getAt ((m .running two).pelletProduct (sampleOf 10 501)).stock.bins 2).lots = [⟨some 5, .none, 501⟩] ∧
    ((m .draining two).pelletProduct (sampleOf 10 51)).lines.pellet.drain = some 60000 ∧
    ((m .draining two).pelletProduct (sampleOf 10 50)).lines.pellet.drain = none ∧
    ((running (fun m => m.updPellet (fun c => { c with product := some 0 }))).mill.pelletProduct (sampleOf 10 1)).reports =
      [.event .unexpectedFlow, .event .stockDisagree] := by decide +kernel

theorem witness_LineTimers_takes :
    let m (room : Nat) (mark : Mark) : Mill := (running (fun m =>
      bin 3 { ofKind .surgePellet with lots := [⟨some 5, mark, 600⟩] } (bin 2 { ofKind .surgeBulk with level := 1000 - room } m))).mill
    (m 500 .none).pelletTake.lines.pellet.current = some 5 ∧ ((m 500 .none).pelletTake.lineCtl .pellet).state = .running ∧
    ((m 499 .none).pelletTake.lineCtl .pellet).state = .blocked ∧
    ((m 500 .host).pelletTake.lineCtl .pellet).state = .starved ∧
    pelletRate 10 110 50 40 (some 49) = 10 ∧ pelletRate 10 110 50 40 (some 70) = 60 ∧ pelletRate 10 110 50 40 (some 91) = 110 ∧
    let t := (running (inLine .pellet .running)).mill.tripLine .pellet .temp
    (t.lineCtl .pellet).tripOut = true ∧ ((t.untrip .pellet).lineCtl .pellet).tripOut = false ∧
    ((t.tripSample .plTemp (sampleOf 7 91)).lineCtl .pellet).tripOut = true := by decide +kernel

/-- The bagger BAGGING bags of 100 of order 5, of so many bags, from surge bin 3; the REWORK bin 4 with this much room. -/
def bagging (st : BaggerState) (head more room count : Nat) (m : Mill) : Mill :=
  let e : OrderEntry := ⟨some .mash, some .bag, 100, count, 0, 0, 100, 0, 0, none, [], 0⟩
  let lots : List Lot := ⟨some 5, .none, head⟩ :: (if more = 0 then [] else [⟨some 6, .none, more⟩])
  baggerIn st (bin 4 { ofKind .rework with level := 1000 - room } (bin 3 { ofKind .surgeBag with lots := lots, level := head + more }
    (order 5 { inState .producing with entry := some e } { m with
      pack := { m.pack with bagger := { m.pack.bagger with order := some 5, bagMass := 100 } } })))

theorem witness_OutletSamples_bagging :
    let m (st : BaggerState) (head more room count : Nat) : Mill := (running (bagging st head more room count)).mill
    let v (w : BitVec 24) (count : Nat) : BagVerdict := ((m .bagging 600 0 300 count).bagEvent (sampleOf 11 w)).pack.bagger.verdict
    v 105 1 = .accepted ∧ v 106 1 = .rejected ∧ v 95 1 = .accepted ∧ v 94 1 = .rejected ∧ v 100 0 = .surplus ∧
    (((m .bagging 600 0 300 1).bagEvent (sampleOf 11 100)).order 5).bagsPacked = 1 ∧
    (m .waitLot 100 0 100 1).judgeBagger.pack.bagger.state = .bagging ∧
    (m .waitLot 100 0 99 1).judgeBagger.pack.bagger.state = .blocked ∧
    (m .blocked 100 0 199 1).judgeBagger.pack.bagger.state = .blocked ∧
    (m .blocked 100 0 200 1).judgeBagger.pack.bagger.state = .bagging ∧
    (m .bagging 99 0 300 1).judgeBagger.pack.bagger.state = .waitLot ∧
    (m .bagging 99 0 300 1).judgeBagger.reports = [.condition .headWait true] ∧
    (getAt (m .bagging 99 50 300 1).judgeBagger.stock.bins 3).lots = [⟨some 6, .none, 50⟩] ∧
    same (m .idle 100 0 300 1).judgeBagger (m .idle 100 0 300 1) := by decide +kernel

theorem witness_OutletSamples_spout :
    let m := (filling false false none (some 1)).mill
    let idle : Mill := { m with pack := { m.pack with loadout := { m.pack.loadout with state := .waitLot, fill := none, spoutRef := some 0 } } }
    (m.pack.loadout.fill.map (fun f => f.base + (f.target : Int) - (m.plan.spoutPreact : Int))) = some 980 ∧
    ((m.truckSample (sampleOf 12 980)).pack.loadout.fill.map (·.settling)) = some true ∧
    ((m.truckSample (sampleOf 12 979)).pack.loadout.fill.map (·.settling)) = some false ∧
    (m.truckSample (sampleOf 12 979)).pack.loadout.spoutRef = some 979 ∧
    idle.loadingTrip = some 2 ∧ (idle.watchSpout 50).reports = [] ∧ (idle.watchSpout 51).reports = [.event .unexpectedFlow] ∧
    same ((running id).mill.watchSpout 51) (running id).mill := by decide +kernel

/-- The loadout BLOCKED before LOADING trip 2 of 100.0 kg for order 5, surge bin 3 with this head lot. -/
def judgingSpout (lot : Lot) (fresh : Timer) (target : Nat) (m : Mill) : Mill :=
  let m1 := loadoutIn .blocked none (bin 3 { ofKind .surgeBulk with lots := [lot], level := lot.mass }
    (trip 2 { Trip.reset with state := .loading, copy := [⟨5, target⟩] } m))
  { m1 with pack := { m1.pack with loadout := { m1.pack.loadout with channel := ⟨some 7, fresh⟩ } } }

theorem witness_OutletTimers_judges :
    let m (lot : Lot) (fresh : Timer) (target : Nat) : Mill := (running (judgingSpout lot fresh target)).mill
    let own : Lot := ⟨some 5, .none, 600⟩
    let state (m : Mill) : LoadoutState := m.judgeLoadout.pack.loadout.state
    state (running (loadoutIn .blocked none)).mill = .waitTruck ∧ state (m ⟨some 6, .none, 600⟩ (some 1) 1000) = .waitLot ∧
    state (m { own with mark := .host } (some 1) 1000) = .waitLot ∧ state (m own (some 1) 20) = .waitLot ∧
    state (m own none 1000) = .blocked ∧ (m own (some 1) 1000).judgeLoadout.pack.loadout.fill = some ⟨2, 0, 7, 600, some 5, false⟩ ∧
    (m own (some 1) 21).judgeLoadout.pack.loadout.target = 21 ∧
    same (running id).mill.judgeLoadout (running id).mill ∧
    (m own (some 1) 1000).spoutGiven.pack.loadout.spoutRef = none ∧
    (m { own with mark := .host } (some 1) 1000).bulkMarked.pack.loadout.state = .waitLot := by decide +kernel

theorem witness_OutletTimers_ends :
    let m := (filling true false (some 0) (some 1)).mill
    let f (base : Int) : Fill := { fillOf true with base := base }
    ((m.endFill (f 599) .idle true).trip 2).loaded[0] = 1 ∧ (m.endFill (f 600) .idle true).reports = [] ∧
    (m.endFill (f 601) .idle true).reports = [.event .stockDisagree] ∧ (m.endFill (f 0) .idle true).pack.loadout.spoutRef = some 600 := by
  decide +kernel

theorem witness_LotsConserve_bins :
    let m (st : OrderState) (level : Nat) : Mill := (running (fun m => order 5 (inState st)
      (bin 3 { ofKind .surgeBag with level := level, lots := [⟨none, .none, 300⟩, ⟨some 5, .none, 300⟩], claim := true }
        { m with stock := { m.stock with waitingDiverts := [.bag] } }))).mill
    (∀ i, (getAt (m .producing 600).stock.bins i).plan.kind.isSurge = true →
      ((getAt (m .producing 600).stock.bins i).lots.map (·.mass)).sum = (getAt (m .producing 600).stock.bins i).level ∧
      (getAt (m .producing 600).stock.bins i).lots.length ≤ 8) ∧
    ((m .producing 600).drawLots .bag 601).1.reports = [.event .stockDisagree] ∧
    (getAt ((m .producing 600).drawLots .bag 299).1.stock.bins 3).claim = true ∧
    (getAt ((m .producing 600).drawLots .bag 300).1.stock.bins 3).claim = false ∧
    ((m .producing 1000).appendLot .bag (some 5) 5).reports = [.event .stockDisagree] ∧
    ((m .producing 1000).appendLot .bag (some 5) 5).stock = (m .producing 1000).stock ∧
    (getAt ((m .packed 600).appendLot .bag (some 5) 5).stock.bins 3).lots.length = 2 ∧
    (m .producing 0).ownerOf (some 5) = (some 5, .none) ∧ (m .cancelling 0).ownerOf (some 5) = (some 5, .cancelled) ∧
    (m .packed 0).ownerOf (some 5) = (some 5, .overrun) ∧ (m .closed 0).ownerOf (some 5) = (none, .none) := by
  decide +kernel

theorem witness_MeaningFrames :
    let m := (running (inLine (.grinder .a) .starved)).mill
    let t := m.updLine (.grinder .a) (fun c => { c with state := .blocked })
    (t.lineCtl (.grinder .a)).rate = 0 ∧ t.lineWord (.grinder .a) 3 = m.lineWord (.grinder .a) 3 ∧
    (t.outbox.filter (fun e => e.addr = m.recordAddr .unit 3 3)).length = 1 ∧
    (m.updOrder 5 (fun x => { x with wait := .short })).reports = [.condition .short true, .condition .forbid false] ∧
    (m.updOrder 5 (fun x => { x with state := .released })).reports = [.figure 8] ∧
    (m.updBin 4 (fun b => { b with level := 0 })).reports = [] ∧
    ((running (bin 4 { ofKind .raw with plan := { (ofKind .raw).plan with low := 600 } })).mill.updBin 4
      (fun b => { b with level := 599 })).reports = [.condition .low true] := by decide +kernel

/-! ### Clause by clause: shared operations -/

/-- The index of BUSY of the small plan with the blocks as f has them. -/
def busyOf (f : Mill → Mill) : Option Nat := (running f).mill.busyIndex

theorem witness_QuietEnd_notices :
    let s (ws : List Waiter) : State := runningWith (fun s => { s with waiting := ws })
      (fun m => { m with notices := [.headChanged .bag, .considerTake] })
    let w : Waiter := ⟨.packOut, [laneWrite 0x010004 1]⟩
    (s []).waiting = [] ∧ ((s []).drain 1).mill.notices = [.considerTake] ∧ ((s []).drain 2).mill.notices = [] ∧
    (s [w]).waits (Notice.headChanged .bag).receiver = true ∧
    (s [w]).nextNotice [] (s [w]).mill.notices = some (.considerTake, [.headChanged .bag]) ∧
    (running id).waits .statusUnit = false ∧
    (running id).reaches { (running id).mill with reports := [.event .short] } = false ∧
    (handing .bin 9 0x22 0 id).mill.outbox = [] := by decide +kernel

theorem witness_ReportsSetFlags_headWait :
    let m (st : BaggerState) (seen : Bool) : Mill := (running (fun m => { baggerIn st m with
      pack := { (baggerIn st m).pack with bagger := { (baggerIn st m).pack.bagger with seesHead := seen } } })).mill
    (m .waitLot true).holds .headWait = true ∧ (m .waitLot false).holds .headWait = false ∧
    (m .blocked true).holds .headWait = false ∧ (m .waitLot true).reportWait.reports = [.condition .headWait true] ∧
    (m .waitLot false).reportWait.reports = [.condition .headWait false] := by decide +kernel

/-- A condition that turns false and true again in one step, and a queue that falls and fills again, post their words. -/
theorem witness_ReportsSetFlags_onTheWay :
    let u : Status := { Status.reset with cond := 0x80 }
    let back : List Report := [.condition .low false, .condition .low true]
    (u.report back 0x80).flags = 0x80 ∧ u.changedOnTheWay back 1 = true ∧ u.changedOnTheWay [.condition .low true] 1 = false ∧
    u.changedOnTheWay [.event .short] 1 = false ∧ u.changedOnTheWay [.figure 6] 6 = true ∧
    u.changedOnTheWay [.figure 6] 9 = false ∧ (u.takeCondition 0).flags = 0 ∧
    let s (rs : List Report) : State := running (fun m => { m with reports := rs })
    (s []).settleStatus.mill.outbox = [] ∧
    (s [.figure 6]).settleStatus.mill.outbox = [⟨.statusUnit, 0x024118, .write 0xF 0 .none⟩] ∧
    (⟨.statusUnit, 0x024104, .write 0xF 0 .none⟩ : LaneEntry) ∈
      (s [.condition .low true, .condition .low false]).settleStatus.mill.outbox := by decide +kernel

/-- While the Batch Sequencer waits to post, a step that changes how many batches are not final reaches it and so waits for
it. -/
theorem witness_QuietEnd_figure :
    let s : State := runningWith (fun s => { s with waiting := [⟨.batchSequencer, [laneWrite 0x010004 1]⟩] })
      (batch 4 { Batch.reset with state := .discharging })
    let m := s.mill.updBatch .weighMix 4 (fun b => { b with state := .done })
    s.waits .batchSequencer = true ∧ s.mill.seq.nonFinal = 1 ∧ m.seq.nonFinal = 0 ∧ s.reaches m = true := by decide +kernel

theorem witness_PlanOpened_busy_orders :
    busyOf (fun m => order 6 (inState .finishing) (order 5 (inState .released) m)) = some 0x105 ∧
    busyOf (batch 9 { Batch.reset with state := .mixed }) = some 0x209 := by decide +kernel

theorem witness_PlanOpened_busy_lines :
    busyOf (fun m => inLine .pellet .starved (inLine (.grinder .b) .blocked m)) = some 0x304 ∧
    busyOf (fun m => absent (inLine .pellet .starved m)) = none := by decide +kernel

theorem witness_PlanOpened_busy_trips :
    busyOf (fun m => trip 3 { Trip.reset with state := .arrived } (loading m)) = some 0x402 ∧
    busyOf (baggerIn .blocked) = some 0x506 := by decide +kernel

theorem witness_PlanOpened_busy_outlets :
    busyOf (loadoutIn .waitTruck none) = some 0x507 ∧
    busyOf (fun m => baggerIn .waitLot (loadoutIn .waitLot none m)) = none := by decide +kernel

/-- The actions, lines and lane of a reopened plan: the action answered RESTARTED, a TRIPPED line kept, a read discarded. -/
theorem witness_PlanOpened_reopened :
    let s := runningWith (fun s => { s with lane := [⟨.stockUnit, 0x020028, .read .countValue⟩, laneWrite 0x020000 1] })
      (fun m => { inLine .pellet .tripped m with actions := ⟨[⟨⟨.bin, 10⟩, 0x20, 0⟩], [⟨.bin, 10⟩], .countValue⟩ })
    s.mill.actions.unanswered.length = 1 ∧ s.reopenPlan.mill.outbox.length = 7 ∧
    (s.reopenPlan.mill.lineCtl .pellet).state = .tripped ∧ s.reopenPlan.lane =
      [⟨.stockUnit, 0x020028, .read .discarded⟩, laneWrite 0x020000 1] := by decide +kernel

/-- A stage that a processor transaction in progress keeps waiting, the first fault of two, and the last rule checked. -/
theorem witness_LoadStages_ends :
    after .loadStage1 { stage .stage1 (plan.words.set 0 1) with tx := some (.read [0x020000] 0) }
      (fun s => s.mill.readsDone .loadStage 180 && s.tx.isSome) (fun s => s.mill.plan.load) = some .stage1 ∧
    (stage .stage2 (stage2Words 0)).mill.plan.load = .stage2 ∧
    (match readBins (stage2Words 0x07000000) with | .inl bs => bs.length | .inr i => i) = 48 ∧
    (match readBins ((stage2Words 0x07000000).set 5 0x09000000) with | .inl _ => 99 | .inr i => i) = 1 ∧
    after .loadStage2 (stage .stage2 ((stage2Words 0x07000000).set 5 0x09000000)) (fun s => s.tx.isNone) stageEnd =
      some (.idle, .opened, some (8, 1)) ∧
    plan.nextRule ((List.range 33).drop 33) = .finished ∧
    plan.checkLines allLines (allLines.flatMap (fun l => (List.range 5).map (plan.block l))) = none := by decide +kernel

/-- The first shared window, tolerance class and role of each kind of fault. -/
theorem witness_LoadStages_firsts :
    let p := planWith 6 0x019000
    (∀ j ∈ [RecordKind.order, .batch, .bin, .unit, .truck, .ticket, .reading, .status], p.baseOf j % windowAlign j = 0) ∧ p.checkStage1 0 = some ⟨4, 2⟩ ∧
    plan.toleranceAbs 0 ≤ 500 ∧ 500 < (planWith 40 501).toleranceAbs 0 ∧ 50 < (planWith 55 0x00330000).tolerancePerMille 15 ∧
    (planWith 55 0x00330000).checkStage1 0 = some ⟨5, 55⟩ ∧
    (planWith 121 64).checkRole 1 = some ⟨5, 121⟩ ∧ (planWith 121 0).checkRole 1 = some ⟨6, 1⟩ ∧ plan.checkRole 1 = none ∧
    (planWith 122 0xFF).checkRole 2 = some ⟨7, 2⟩ ∧ (planWith 123 0xFF).checkRole 3 = some ⟨7, 3⟩ ∧
    (planWith 121 0xFF).checkRole 1 = none ∧ (planWith 122 0xFF).checkRoles = some ⟨7, 2⟩ := by decide +kernel

/-- A link walk goes on at a linking mark it may hold, to a slot not yet reached; else it has ended. -/
theorem witness_LoadStageFive_walks :
    let k : LinkWalk := ⟨5, 9, [9]⟩
    k.next [2, 255] = some ⟨5, 255, [9, 255]⟩ ∧ k.next [2, 256] = none ∧ k.next [2, 9] = none ∧ k.next [1, 7] = none ∧
    k.next [3, 7] = none ∧ k.next [0, 7] = none ∧ (⟨5, 255, [9, 255]⟩ : LinkWalk).next [3, 7] = some ⟨5, 7, [9, 255, 7]⟩ ∧
    ([3, 4, 5, 7, 8, 9, 10, 11, 12, 13, 14, 15].idxOf? 15) = some 11 ∧
    orderWordOf [0, 1, 2, 3, 4, 5, 6, 7, 8, 9, 10, 11] 15 = 11 := by decide +kernel

/-- Bags of 10.0 kg: order 5 of so many bags, and so many packed. -/
def bagOrder (st : OrderState) (count packed : Nat) : Order :=
  { inState st with bagsPacked := packed, entry := some ⟨some .mash, some .bag, 100, count, 0, 0, 100, 8000, 300, none, [7, 7], 0⟩ }

/-- A walk's end with the chain summary, a header that links to the next slot, and verdicts to their callers. -/
theorem witness_TicketStages_ends :
    after .ticketLineStage (walkingOn (walking (some ⟨.first, 8, 1, 0x3715⟩) 0) .ticketLines [0x10042710])
      (fun s => decide (checkSum 1 (s.mill.readsOf .ticketLines) = 0x3715))
      (fun s => (s.mill.checker.walk.map (fun w => (w.slot, w.visited, w.position)), s.lane.length)) =
      some (some (8, [9, 8], 2), 6) ∧
    ((running (bin 4 (ofKind .raw))).mill.walkLines (walking none 0) 0 [0x10300001] matches .inr _) = true ∧
    ((stage (.stage3 4 none) []).mill.deliver .load (.fail ⟨5, 1⟩)).plan.load = .stage3 4 (some (.fail ⟨5, 1⟩)) ∧
    (handing .order 7 1 0 id).mill.headSlot = some 7 ∧
    ((handing .order 7 1 0 id).mill.deliver .release (.ok (chainOf [9]))).actions.inExec = .releaseConfirm (chainOf [9]) := by
  decide +kernel

theorem witness_CancelTaken_lots :
    let m := (running (fun m => order 5 (inState .released)
      (surging [⟨some 5, .none, 100⟩, ⟨some 6, .none, 50⟩, ⟨some 5, .overrun, 100⟩] 100 false m))).mill
    (m.markSurges 5 .cancelled).lotsOf .bag = [⟨some 5, .cancelled, 100⟩, ⟨some 6, .none, 50⟩, ⟨some 5, .cancelled, 100⟩] ∧
    (m.markSurges 5 .overrun).lotsOf .bag = [⟨some 5, .overrun, 100⟩, ⟨some 6, .none, 50⟩, ⟨some 5, .overrun, 100⟩] ∧
    (m.cancelReleased 5).lotsOf .bag = [⟨some 6, .none, 50⟩, ⟨some 5, .cancelled, 100⟩] ∧
    ((m.cancelReleased 5).order 5).state = .cancelled := by decide +kernel

theorem witness_CloseAndClear_product :
    let m (p : Product) : Mill := (running (fun m => m.updPellet (fun c => { c with productOrder := p }))).mill
    ((m (.order 5 .bag)).orphanProduct 5).lines.pellet.productOrder = .orphan .bag ∧
    same ((m (.order 6 .bag)).orphanProduct 5) (m (.order 6 .bag)) ∧ (m .none).lines.pellet.productOrder = .none ∧
    same ((m (.orphan .bulk)).orphanProduct 5) (m (.orphan .bulk)) := by decide +kernel

theorem witness_CloseAndClear_closes :
    let m (st : TripState) (x : Order) : Mill :=
      (running (fun m => trip 2 { Trip.reset with state := st, copy := [⟨5, 100⟩] } (order 5 x m))).mill
    let done : Order := { bulkOrder with state := .packed }
    (((m .departed done).autoClose 5).order 5).state = .closed ∧ (((m .loaded done).autoClose 5).order 5).state = .packed ∧
    (((m .departed { done with entry := done.entry.map (fun e => { e with nonFinal := 1 }) }).autoClose 5).order 5).state =
      .packed ∧
    (m .loaded done).tripAtMill 5 = some 2 ∧ (m .departed done).tripAtMill 5 = none ∧ (m .loaded done).tripAtMill 6 = none := by
  decide +kernel

theorem witness_CloseAndClear_finishes :
    let m (x : Order) : Mill := (running (order 5 x)).mill
    (((m (bagOrder .producing 10 10)).judgeFinishing 5).order 5).state = .finishing ∧
    (((m (bagOrder .producing 10 7)).judgeFinishing 5).order 5).state = .producing ∧
    (((m (bagOrder .producing 10 7)).judgeFinishing 5).order 5).remaining = 300 ∧
    ((m (bagOrder .producing 10 7)).judgeFinishing 5).book.releaseList = [5] ∧
    ((m (bagOrder .producing 10 7)).judgeFinishing 5).reports = [.event .makeUp] ∧
    same ((m { bagOrder .producing 10 7 with inFlight := 1 }).judgeFinishing 5) (m { bagOrder .producing 10 7 with inFlight := 1 }) ∧
    same ((m { bagOrder .finishing 10 7 with scheduled := 2 ^ 24 - 300 }).judgeMakeUp 5)
      (m { bagOrder .finishing 10 7 with scheduled := 2 ^ 24 - 300 }) ∧
    (((m { bagOrder .finishing 10 7 with scheduled := 2 ^ 24 - 301 }).judgeMakeUp 5).order 5).scheduled = 2 ^ 24 - 1 := by
  decide +kernel

theorem witness_CloseAndClear_masses :
    let bulk (loaded : Nat) : Order := { bulkOrder with loaded := loaded }
    (bagOrder .finishing 10 7).shortfall 20 = 300 ∧ (bulk 979).shortfall 20 = 21 ∧ (bulk 980).shortfall 20 = 0 ∧
    (bagOrder .finishing 10 7).credit 301 = 400 ∧ (bagOrder .finishing 10 7).credit 21 = 300 ∧ 100 ∣ 300 ∧
    (getAt ((running (fun m => { m with book := { m.book with useCount := putAt m.book.useCount 7 3 } })).mill.lowerUse
      [7, 7]).book.useCount 7) = 1 := by decide +kernel

theorem witness_RefillSettingTaken_reports :
    let m (st : LineState) (auto asked : Bool) : Mill := (running (fun m =>
      let low : Bin := { groundBin with plan := { groundBin.plan with low := 500 } }
      (bin 9 (ofKind .raw) (bin 10 low m)).updGrinder .a (fun c => { c with
        refill := some ⟨9, 10, auto⟩, autoStart := asked, blocked := true, line := { c.line with state := st, ceiling := 70 } }))).mill
    let a (m : Mill) : LineState × Bool := ((m.grinderCtl .a).line.state, (m.grinderCtl .a).autoStart)
    a ((m .running false false).binReport 10 600 601 601) = (.idle, false) ∧
    a ((m .running false false).binReport 9 600 500 500) = (.starved, false) ∧
    a ((m .running false false).binReport 10 300 0 0) = (.running, false) ∧
    a ((m .running false false).binReport 10 300 1 1) = (.blocked, false) ∧
    a ((m .idle true false).binReport 10 500 499 499) = (.idle, true) ∧
    a ((m .idle true false).binReport 10 499 498 498) = (.idle, false) ∧
    a ((m .idle true true).binReport 10 400 500 500) = (.idle, false) ∧
    a ((m .idle true true).binReport 10 499 499 0) = (.idle, true) ∧
    same ((m .running true true).binReport 11 5 6 6) (m .running true true) := by decide +kernel

/-- Both conditions at a report of either bin, the other bin on the book; a setting that names no bin leaves its own. -/
theorem witness_RefillSettingTaken_both :
    let m (starved : Bool) : Mill := (running (fun m => (bin 9 { ofKind .raw with level := 1000 } (bin 10 { groundBin with level := 0 } m)).updGrinder .a
      (fun c => { c with starved := starved, blocked := true, line := { c.line with state := .running, ceiling := 70 } }))).mill
    let c (m : Mill) : Bool × Bool × LineState :=
      ((m.grinderCtl .a).starved, (m.grinderCtl .a).blocked, (m.grinderCtl .a).line.state)
    c ((m true).reportGrind .a ⟨9, 10, false⟩ 10 1000 1000) = (false, true, .blocked) ∧
    c ((m true).reportGrind .a ⟨9, 10, false⟩ 9 0 0) = (true, false, .starved) ∧
    c ((m true).reportGrind .a ⟨48, 10, false⟩ 10 0 0) = (true, false, .starved) ∧
    c ((m false).reportGrind .a ⟨9, 48, false⟩ 9 0 1000) = (false, true, .blocked) := by decide +kernel

theorem witness_LoadingEnded_arbiter :
    let m := (running (fun m => trip 4 { Trip.reset with state := .arrived, copy := [⟨5, 20⟩] }
      (trip 3 { Trip.reset with state := .arrived, copy := [⟨5, 21⟩] } m))).mill
    (m.trip 4).unfilled m.plan.bulkTolerance = [] ∧ (m.trip 3).unfilled m.plan.bulkTolerance = [0] ∧
    ((m.arbitrate [4]).trip 4).state = .loaded ∧ ((m.arbitrate [3, 4]).trip 4).state = .arrived ∧
    (m.arbitrate [3, 4]).trips.queue = [4] := by decide +kernel

theorem witness_AdmissionPassRuns_steps :
    let m (x : Order → Order) : Mill := (running (fun m => order 5 (x ((admitting .none 0 m).order 5)) (admitting .none 0 m))).mill
    (m (fun x => { x with entry := none })).passStep.seq.pass = .visiting 1 ∧
    (m (fun x => { x with remaining := 0 })).passStep.seq.pass = .visiting 1 ∧
    ((m id).order 5).entry.bind (·.chain) = some (chainOf [0]) ∧ ((m id).passSteps 0).seq.pass = .visiting 0 ∧
    (running id).mill.seq.pass = .idle ∧ ((m id).passSteps 1).seq.pass = .sized 0 ⟨5, 6000, [6000]⟩ := by decide +kernel

/-- R113: a repeated setting posts and reports again; none reaches a held order or one off the release list (log 14). -/
theorem witness_AdmissionPassRuns_waits :
    let m (w : WaitReason) : Mill := (running (admitting w 0)).mill
    let n := (m .none).setWait 5 .short (some 4)
    (n.order 5).wait = .short ∧ (n.order 5).shortBin = 4 ∧
    (n.setWait 5 .short (some 4)).outbox = n.outbox ++ n.outbox ∧ n.outbox.length = 1 ∧
    (n.setWait 5 .short (some 4)).reports = n.reports ++ [Report.condition .short true, Report.condition .forbid false] ∧
    same ((m .held).setWait 5 .short (some 4)) (m .held) ∧ same ((m .none).setWait 6 .forbid none) (m .none) := by
  decide +kernel

theorem witness_LineMassesSum_batches :
    let m := (running (admitting .none 0)).mill
    (m.orderBatch ⟨5, 6000, [6000]⟩).masses = [6000] ∧ (m.orderBatch ⟨5, 6000, [6000]⟩).order = some 5 ∧
    (m.flushBatch (chainOf [7]) 5000).masses = [5000] ∧ (m.flushBatch (chainOf [7]) 5000).order = none := by decide +kernel

theorem witness_OutletSamples_credits :
    let m (x : Order) : Mill := (running (order 5 x)).mill
    ((m (bagOrder .producing 10 9)).acceptBag (some 5)).2 = .counted ∧
    (((m (bagOrder .producing 10 9)).acceptBag (some 5)).1.order 5).state = .packed ∧
    (((m (bagOrder .producing 10 8)).acceptBag (some 5)).1.order 5).state = .producing ∧
    ((m (bagOrder .packed 10 10)).acceptBag (some 5)).2 = .surplus ∧
    ((m (bagOrder .closed 10 9)).acceptBag (some 5)).2 = .ignored ∧
    (((m { bagOrder .producing 10 9 with bagsRejected := 0xFFFF }).rejectBag (some 5)).order 5).bagsRejected = 0xFFFF ∧
    (((m bulkOrder).reportBulk (some 5) 979).order 5).state = .producing ∧
    (((m bulkOrder).reportBulk (some 5) 980).order 5).state = .closed ∧
    same ((m (bagOrder .idle 10 9)).reportBulk (some 5) 1) (m (bagOrder .idle 10 9)) := by decide +kernel

theorem witness_OutletTimers_sees :
    let m (lot : Lot) (room : Nat) : Mill := (running (fun m => bin 4 { ofKind .rework with level := 1000 - room }
      (judgingSpout lot (some 1) 1000 m))).mill
    (m ⟨some 6, .none, 600⟩ 0).judgeLoadout.pack.loadout.seesHead = true ∧
    (m ⟨some 6, .none, 600⟩ 0).judgeLoadout.reports.getLast? = some (.condition .headWait true) ∧
    (running (loadoutIn .blocked none)).mill.judgeLoadout.pack.loadout.seesHead = false ∧
    (running (loadoutIn .blocked none)).mill.judgeLoadout.reports = [.condition .headWait false] := by decide +kernel

/-- A head diverted by the judgement with a next lot behind it: the outlet waits before that one. -/
theorem witness_OutletTimers_sees_next :
    let m := (running (bagging .waitLot 50 300 600 3)).mill.judgeBagger
    m.lotsOf .bag = [⟨some 6, .none, 300⟩] ∧ m.pack.bagger.state = .waitLot ∧ m.pack.bagger.seesHead = true ∧
      m.holds .headWait = true := by decide +kernel

theorem witness_LotsConserve_claims :
    let m (level : Nat) (claim : Bool) (lots : List Lot) : Mill := (running (fun m => order 5 (inState .producing)
      (surging lots 300 claim (bin 9 { ofKind .raw with level := level } m)))).mill
    let two : List Lot := [⟨some 6, .none, 100⟩, ⟨none, .none, 300⟩]
    ((m 0 true two).takeLots .bag 100).1.lotsOf .bag = [⟨none, .none, 300⟩] ∧
    ((m 0 true two).drawLots .bag 100).1.lotsOf .bag = [] ∧
    ((m 0 true two).takeLots .bag 401).1.reports = [.event .stockDisagree] ∧
    ((m 0 false []).appendLot .bag none 50).lotsOf .bag = [] ∧
    ((m 0 false []).putLot .bag none 50).lotsOf .bag = [⟨none, .none, 50⟩] ∧
    ((m 0 true two).appendLot .bag (some 5) 50).lotsOf .bag = two ++ [⟨some 5, .none, 50⟩] := by decide +kernel

end Sys2Proof.Tests
end

/-! SUPPORT. One tick of the part: what it makes of a timer, of each unit that holds one, and of the step on an empty
queue (R1, log 2). -/

namespace Sys2Proof.Machine

/-! ### A timer -/

@[simp] theorem Timer.tick_none : Timer.tick none = none := rfl

@[simp] theorem Timer.tick_zero : Timer.tick (some 0) = some 0 := rfl

@[simp] theorem Timer.tick_succ (n : Nat) : Timer.tick (some (n + 1)) = some n := rfl

/-- With two ticks or more to go, a timer that stops by itself runs on. -/
theorem Timer.lapse_of_two_le (n : Nat) : Timer.lapse (some (n + 2)) = some (n + 1) := rfl

/-- Stopped, due or with its last tick to go, a timer that stops by itself is stopped after a tick (log 17). -/
theorem Timer.lapse_eq_none {t : Timer} (h : t = none ∨ t = some 0 ∨ t = some 1) : Timer.lapse t = none := by
  obtain rfl | rfl | rfl := h <;> rfl

/-! ### The units -/

/-- A suspended weigh-limit timer stands still (R134). -/
theorem WeighMix.tick_limit_of_suspended {w : WeighMix} (h : w.suspended = true) : w.tick.limit = w.limit :=
  if_pos h

/-- A weigh-limit timer that is not suspended ticks like any other. -/
theorem WeighMix.tick_limit_of_not_suspended {w : WeighMix} (h : w.suspended = false) :
    w.tick.limit = Timer.tick w.limit :=
  if_neg (by simp [h])

@[simp] theorem Mill.tick_scale (m : Mill) (sc : Scale) : m.tick.scale sc = (m.scale sc).tick := by
  cases sc with
  | one => rfl
  | two => rfl

@[simp] theorem Mill.tick_grinderCtl (m : Mill) (g : Grinder) : m.tick.grinderCtl g = (m.grinderCtl g).tick := by
  cases g with
  | a => rfl
  | b => rfl

/-! ### The step -/

theorem step_of_pending_nil {s : State} (h : s.pending = []) : step s = .next s.tick := by
  simp only [step, h]

/-- Settles O2: the step is State.tick, which ticks each unit's timers by the unit's own tick. -/
theorem emptyQueueTicks : Obligations.EmptyQueueTicks := by
  intro s hempty
  refine ⟨s.tick, step_of_pending_nil hempty, rfl, Timer.tick_succ, Timer.tick_zero, Timer.tick_none, rfl, rfl,
    ?scales, rfl, WeighMix.tick_limit_of_suspended, WeighMix.tick_limit_of_not_suspended, ?grinders, ?pellet, rfl, rfl⟩
  case scales => exact fun sc => s.mill.tick_scale sc
  case grinders => exact fun g => s.mill.tick_grinderCtl g
  case pellet =>
    have heard_lapses : s.tick.mill.lines.pellet.heard = Timer.lapse s.mill.lines.pellet.heard := rfl
    refine ⟨rfl, fun n hn => ?_, fun hlast => ?_⟩
    · rw [heard_lapses, hn, Timer.lapse_of_two_le]
    · rw [heard_lapses, Timer.lapse_eq_none hlast]

end Sys2Proof.Machine

/-! SUPPORT. RETURN of a bin to use (R65): what its row comes to, a bin's available mass by its LOCKED_OUT condition
(R47), and what the Batch Sequencer makes of a request for a pass. -/

namespace Sys2Proof.Machine

/-! ### A bin's available mass -/

@[simp] theorem Bin.available_of_not_lockedOut {x : Bin} (h : x.lockedOut = false) :
    x.available = x.level - x.reserved := if_neg (Bool.eq_false_iff.mp h)

/-! ### A pass asked for -/

/-- An idle Batch Sequencer starts the pass at the head of the release list (R108). -/
theorem Sequencer.ask_of_idle {q : Sequencer} (h : q.pass = .idle) : q.ask.pass = .visiting 0 := by
  simp only [Sequencer.ask, h]

/-- A request within a pass is kept by the pass-again marker (R108). -/
theorem Sequencer.ask_of_not_idle {q : Sequencer} (h : q.pass ≠ .idle) : q.ask.again = true := by
  cases hp : q.pass with
  | idle => exact absurd hp h
  | visiting i => simp only [Sequencer.ask, hp]
  | sized i b => simp only [Sequencer.ask, hp]

/-- In a running plan the request reaches the Batch Sequencer. -/
theorem Mill.askPass_seq_of_running {m : Mill} (h : m.plan.state = .running) : m.askPass.seq = m.seq.ask := by
  simp only [Mill.askPass, if_pos h]

/-! ### The row -/

/-- RETURN handed over runs its meaning on its bin (R65). -/
theorem execReturnBin_eq {s : State} {b : Fin 48} {arg : BitVec 24} (h : s.hands ⟨.bin, b⟩ 0x22 arg) :
    exec .returnBin s = .next (s.leaves (s.mill.returnToUse b)) := binRow_eq h _

theorem Mill.returnToUse_of_lockedOut {m : Mill} {b : Fin 48} (h : (getAt m.stock.bins b).lockedOut = true) :
    m.returnToUse b = ((m.updBin b ({ · with lockedOut := false })).answer ⟨0x00, 0⟩).askPass := if_pos h

theorem Mill.returnToUse_of_not_lockedOut {m : Mill} {b : Fin 48} (h : (getAt m.stock.bins b).lockedOut = false) :
    m.returnToUse b = m.answer ⟨0x03, 0⟩ := if_neg (Bool.eq_false_iff.mp h)

/-- Settles O40: the row runs Mill.returnToUse, split on the bin's LOCKED_OUT condition. -/
theorem returnTaken : Obligations.ReturnTaken := by
  refine ⟨fun s b arg h => ⟨fun hlocked => ?locked, fun hin => ?notLocked⟩, fun x => Bin.available_of_not_lockedOut,
    fun m hrun => ?pass⟩
  case locked => rw [execReturnBin_eq h, Mill.returnToUse_of_lockedOut hlocked]
  case notLocked => rw [execReturnBin_eq h, Mill.returnToUse_of_not_lockedOut hin]
  case pass =>
    rw [Mill.askPass_seq_of_running hrun]
    exact ⟨Sequencer.ask_of_idle, Sequencer.ask_of_not_idle⟩

end Sys2Proof.Machine

/-! SUPPORT. The line masses of a batch (R88): which line is the first with the largest parts, what each line takes, and
that the masses of a chain whose parts sum to 10,000 sum to the size. -/

namespace Sys2Proof.Machine

/-! ### The first line with the largest parts -/

/-- What the search of largestLine looks for. -/
theorem all_le_iff {parts : List Nat} {p : Nat} : parts.all (fun q => q ≤ p) = true ↔ ∀ q ∈ parts, q ≤ p := by
  simp only [List.all_eq_true, decide_eq_true_eq]

theorem largestLine_lt_length {parts : List Nat} (h : parts ≠ []) : largestLine parts < parts.length :=
  List.findIdx_lt_length_of_exists ⟨parts.max h, List.max_mem h, all_le_iff.mpr fun _ hq => List.le_max_of_mem hq⟩

theorem le_getElem_largestLine {parts : List Nat} (hk : largestLine parts < parts.length) {q : Nat} (hq : q ∈ parts) :
    q ≤ parts[largestLine parts] := by
  have found : parts.all (fun q => q ≤ parts[largestLine parts]) = true := List.findIdx_getElem (w := hk)
  exact all_le_iff.mp found q hq

/-- A line ahead of the found one has smaller parts: some line exceeds it, and the found line is the largest. -/
theorem getElem_lt_getElem_largestLine {parts : List Nat} (hk : largestLine parts < parts.length) {i : Nat}
    (hi : i < largestLine parts) : parts[i] < parts[largestLine parts] := by
  have passed : parts.all (fun q => q ≤ parts[i]) = false := List.not_of_lt_findIdx hi
  obtain ⟨q, hq, hlt⟩ : ∃ q ∈ parts, parts[i] < q := by simpa using passed
  exact hlt.trans_le (le_getElem_largestLine hk hq)

/-! ### Shares and their remainder -/

@[simp] theorem lineShare_zero (size : Nat) : lineShare size 0 = 0 := by
  simp only [lineShare, Nat.mul_zero, Nat.zero_div]

/-- Truncating line by line never gives more than truncating the whole. -/
theorem sum_lineShare_le (size : Nat) (parts : List Nat) :
    (parts.map (lineShare size)).sum ≤ lineShare size parts.sum := by
  induction parts with
  | nil => exact Nat.zero_le _
  | cons p t ih =>
    simp only [List.map_cons, List.sum_cons]
    calc lineShare size p + (t.map (lineShare size)).sum
        ≤ lineShare size p + lineShare size t.sum := Nat.add_le_add_left ih _
      _ ≤ (size * p + size * t.sum) / 10000 := Nat.div_add_div_le_add_div ..
      _ = lineShare size (p + t.sum) := by rw [lineShare, Nat.mul_add]

theorem lineShare_whole (size : Nat) : lineShare size 10000 = size := Nat.mul_div_cancel size (by decide)

/-- An amount added to one entry of a list is added to its sum. -/
theorem sum_modify_add {l : List Nat} {k : Nat} (hk : k < l.length) (r : Nat) :
    (l.modify k (· + r)).sum = l.sum + r := by
  induction l generalizing k with
  | nil => exact absurd hk (Nat.not_lt_zero k)
  | cons a t ih =>
    cases k with
    | zero => simp only [List.modify_zero_cons, List.sum_cons]; omega
    | succ j =>
      have tail : (t.modify j (· + r)).sum = t.sum + r := ih (Nat.lt_of_succ_lt_succ hk)
      simp only [List.modify_succ_cons, List.sum_cons, tail]; omega

/-! ### The masses of a chain's lines -/

/-- The parts of a chain's lines, in chain line order. -/
def Chain.parts (c : Chain) : List Nat := c.lines.map (·.parts)

theorem Chain.parts_ne_nil {c : Chain} (h : c.parts.sum ≠ 0) : c.parts ≠ [] :=
  fun hnil => h (by rw [hnil, List.sum_nil])

/-- The sum of the lines' shares, what truncation leaves of the size. -/
def Chain.shared (c : Chain) (size : Nat) : Nat := (c.parts.map (lineShare size)).sum

theorem lineMasses_eq (c : Chain) (size : Nat) : lineMasses c size =
    (c.parts.map (lineShare size)).modify (largestLine c.parts) (· + (size - c.shared size)) := rfl

@[simp] theorem length_lineMasses (c : Chain) (size : Nat) : (lineMasses c size).length = c.parts.length := by
  rw [lineMasses_eq, List.length_modify, List.length_map]

/-- A line but the first largest has its truncated share. -/
theorem getD_lineMasses_of_ne (c : Chain) (size : Nat) {i : Nat} (hi : i ≠ largestLine c.parts) :
    (lineMasses c size).getD i 0 = lineShare size (c.parts.getD i 0) := by
  calc (lineMasses c size).getD i 0
      = (c.parts.map (lineShare size)).getD i 0 := by simp [lineMasses_eq, hi.symm]
    _ = (c.parts.map (lineShare size)).getD i (lineShare size 0) := by rw [lineShare_zero]
    _ = lineShare size (c.parts.getD i 0) := List.getD_map ..

/-- The first largest line has its truncated share and the remainder. -/
theorem getD_lineMasses_largestLine (c : Chain) (size : Nat) (h : c.parts ≠ []) :
    (lineMasses c size).getD (largestLine c.parts) 0 =
      lineShare size (c.parts.getD (largestLine c.parts) 0) + (size - c.shared size) := by
  have hk := largestLine_lt_length h
  simp [lineMasses_eq, hk]

theorem sum_lineMasses (c : Chain) (size : Nat) (h : c.parts.sum = 10000) : (lineMasses c size).sum = size := by
  have hk : largestLine c.parts < (c.parts.map (lineShare size)).length := by
    rw [List.length_map]
    exact largestLine_lt_length (Chain.parts_ne_nil (by rw [h]; decide))
  have within : c.shared size ≤ size :=
    calc c.shared size
        ≤ lineShare size c.parts.sum := sum_lineShare_le size c.parts
      _ = size := by rw [h, lineShare_whole]
  rw [lineMasses_eq, sum_modify_add hk]
  exact Nat.add_sub_cancel' within

/-- Parts that do not sum to 0 are not all 0, so a line of 0 parts is not the largest and takes no remainder. -/
theorem getD_lineMasses_of_parts_zero (c : Chain) (size : Nat) (h : c.parts.sum ≠ 0) {i : Nat}
    (hi : c.parts.getD i 0 = 0) : (lineMasses c size).getD i 0 = 0 := by
  have hk := largestLine_lt_length (Chain.parts_ne_nil h)
  have hne : i ≠ largestLine c.parts := by
    rintro rfl
    rw [List.getD_eq_getElem _ _ hk] at hi
    exact h (List.sum_eq_zero fun q hq => Nat.le_zero.mp (hi ▸ le_getElem_largestLine hk hq))
  rw [getD_lineMasses_of_ne c size hne, hi, lineShare_zero]

/-! ### The reservation entries of a batch's lines -/

theorem length_reserveLines {c : Chain} {masses : List Nat} (h : masses.length = c.lines.length) :
    (reserveLines c masses).length = c.lines.length := by
  rw [reserveLines, List.length_mapIdx, List.length_zip, h, Nat.min_self]

/-- Each entry holds its line's mass, in chain line order. -/
theorem map_mass_reserveLines {c : Chain} {masses : List Nat} (h : masses.length = c.lines.length) :
    (reserveLines c masses).map (·.mass) = masses := by
  refine List.ext_getElem (by rw [List.length_map, length_reserveLines h, h]) fun i _ _ => ?_
  simp only [reserveLines, List.getElem_map, List.getElem_mapIdx, List.getElem_zip]

/-! ### The admission of a batch and the Order Book -/

/-- An admission writes no order. -/
theorem admitBatch_order (m : Mill) (b : Fin 32) (x : Batch) (o : Fin 256) :
    (m.admitBatch b x).order o = m.order o := by
  rw [Mill.order, admitBatch_book, Mill.order]

/-- Settles O52: the remainder goes to largestLine, which is the first line of the largest parts. -/
theorem lineMassesSum : Obligations.LineMassesSum := by
  refine ⟨?masses, fun m s => ⟨rfl, rfl⟩, fun c masses h => ⟨map_mass_reserveLines h, length_reserveLines h⟩,
    fun m c mass b o => ⟨rfl, rfl, admitBatch_order m b _ o⟩⟩
  intro c size parts shares (hsum : c.parts.sum = 10000)
  have total_ne_zero : c.parts.sum ≠ 0 := by rw [hsum]; decide
  have nonempty : c.parts ≠ [] := Chain.parts_ne_nil total_ne_zero
  have hk := largestLine_lt_length nonempty
  refine ⟨length_lineMasses c size, sum_lineMasses c size hsum,
    fun i _ => getD_lineMasses_of_parts_zero c size total_ne_zero,
    largestLine c.parts, hk, fun i (hi : i < c.parts.length) => ?largest, fun i hi => ?first,
    fun i _ hi => getD_lineMasses_of_ne c size hi, getD_lineMasses_largestLine c size nonempty⟩
  case largest =>
    change c.parts.getD i 0 ≤ c.parts.getD (largestLine c.parts) 0
    rw [List.getD_eq_getElem _ _ hi, List.getD_eq_getElem _ _ hk]
    exact le_getElem_largestLine hk (List.getElem_mem hi)
  case first =>
    change c.parts.getD i 0 < c.parts.getD (largestLine c.parts) 0
    rw [List.getD_eq_getElem _ _ (hi.trans hk), List.getD_eq_getElem _ _ hk]
    exact getElem_lt_getElem_largestLine hk hi

end Sys2Proof.Machine

/-! SUPPORT. What every step keeps: each proof here is one case for each constructor of Shape, what a command can answer. -/

namespace Sys2Proof.Machine

/-! ### A step and its command -/

/-- A step on a queue that is not empty runs its front command on the rest. -/
theorem step_of_pending_cons {c : Instr} {rest : List Instr} {s : State} (h : s.pending = c :: rest) :
    step s = exec c { s with pending := rest } := by
  simp only [step, h]

/-- Settles O1: by the second case of step. -/
theorem stepTakesFront : Obligations.StepTakesFront := fun _ _ _ h => step_of_pending_cons h

/-- The three commands with operands that are no commands of the part (R2, log 13). -/
theorem exec_of_not_wf {c : Instr} {s : State} (h : c.wf = false) : exec c s = .refused .malformed := by
  cases c with
  | processorWrite a bs =>
    have hb : burstWf bs.length = false := h
    simp only [exec, execProcessorWrite, hb, Bool.not_false, if_true]
  | processorRead a es =>
    have hb : burstWf es.length = false := h
    simp only [exec, execProcessorRead, hb, Bool.not_false, if_true]
  | admissionPass n =>
    have hn : n = 0 := by simpa [Instr.wf] using h
    simp only [exec, execAdmissionPass, hn, if_true]
  | _ => cases h

/-- A command that answers a next state is well formed. -/
theorem wf_of_exec_next {c : Instr} {s t : State} (h : exec c s = .next t) : c.wf = true := by
  cases hw : c.wf with
  | true => rfl
  | false => rw [exec_of_not_wf hw] at h; cases h

/-- The next state of a command has one of its shapes. -/
theorem shape_of_exec {c : Instr} {s t : State} (h : exec c s = .next t) : Shape s c t := by
  obtain ⟨u, hu, hs⟩ := exec_shape c s (wf_of_exec_next h)
  rw [h] at hu
  cases hu
  exact hs

/-- Settles O6: a well-formed command answers by its shape, the others by the refusal. -/
theorem wellFormedCommandsComplete : Obligations.WellFormedCommandsComplete := by
  refine fun c s => ⟨fun hw => ?_, exec_of_not_wf⟩
  obtain ⟨t, ht, _⟩ := exec_shape c s hw
  exact ⟨t, ht⟩

/-! ### The memory path -/

/-- The hold target of a read just presented is within the lane (R17). -/
theorem holdOf_le (addrs : List Addr) (lane : List LaneEntry) : holdOf addrs lane ≤ lane.length := by
  induction lane with
  | nil => exact Nat.le_refl 0
  | cons e es ih =>
    simp only [holdOf, List.length_cons]
    split
    · omega
    · cases e.op with
      | write k d n => dsimp only; split <;> omega
      | read tag => exact Nat.zero_le _

/-- Reset, whatever memory, queue and strap value it leaves, is in order. -/
theorem pathOk_reset {s : State} (h : PathOk s) :
    PathOk { State.reset with pending := s.pending, mem := s.mem, strap := s.strap } :=
  ⟨h.mem, ⟨Nat.zero_le _, List.nodup_nil⟩, List.nodup_nil, trivial, Nat.zero_le _⟩

/-- Beats that land keep the canonical form of memory. -/
theorem wf_landBeats (bs : List TxBeat) {mem : Memory} (h : mem.wf = true) : (bs.foldl landBeat mem).wf = true := by
  induction bs generalizing mem with
  | nil => exact h
  | cons b bs ih => exact ih (Memory.wf_writeWord b.addr b.lanes b.data h)

theorem pathOk_grantWrite {s : State} (bs : List TxBeat) (h : PathOk s) : PathOk (s.grantWrite bs) :=
  ⟨wf_landBeats _ h.mem, h.lane, h.waiting, trivial, Nat.min_le_left _ _⟩

theorem pathOk_grantRead {s : State} (as : List Addr) (h : PathOk s) : PathOk (s.grantRead as) :=
  ⟨h.mem, h.lane, h.waiting, trivial, Nat.min_le_left _ _⟩

/-- A granted entry counts the hold of a read down with the lane (R17). -/
theorem holdOk_granted {tx : Option Tx} {e : LaneEntry} {rest : List LaneEntry} (h : holdOk tx (e :: rest)) :
    holdOk (tx.map (·.granted)) rest := by
  match tx, h with
  | none, _ => trivial
  | some (.write _ _ _), _ => trivial
  | some (.read as n), h =>
    have hn : n ≤ rest.length + 1 := h
    show n - 1 ≤ rest.length
    omega

theorem pathOk_grantLane {s : State} {e : LaneEntry} {rest : List LaneEntry} (hl : s.lane = e :: rest) (h : PathOk s) :
    PathOk (s.grantLane e rest) := by
  have lane : laneOk rest := laneOk_tail (hl ▸ h.lane)
  have hold : holdOk (s.tx.map (·.granted)) rest := holdOk_granted (hl ▸ h.hold)
  unfold State.grantLane
  cases e.op with
  | write k d n => exact ⟨Memory.wf_writeWord _ _ _ h.mem, lane, h.waiting, hold, Nat.zero_le _⟩
  | read tag =>
    dsimp only
    split
    · exact ⟨h.mem, lane, h.waiting, hold, Nat.zero_le _⟩
    · exact ⟨h.mem, lane, h.waiting, hold, Nat.zero_le _⟩

theorem pathOk_admit {s : State} (h : PathOk s) :
    PathOk { s with lane := (admitPost s.lane s.waiting).1, waiting := (admitPost s.lane s.waiting).2 } :=
  ⟨h.mem, laneOk_admitPost _ h.lane, waiters_admitPost _ h.waiting, holdOk_longer h.hold (length_admitPost _ _), h.count⟩

theorem pathOk_clearFlags {s : State} (b : TxBeat) (rest : List TxBeat) (landed : List Addr) (h : PathOk s) :
    PathOk (s.clearFlags b rest landed) := by
  refine ⟨Memory.wf_writeWord b.addr 0xF _ h.mem, laneOk_replaceData h.lane, ?_, trivial, h.count⟩
  rw [State.clearFlags, List.map_map]
  exact h.waiting

/-- Reads discarded keep the path; windows and blocks are no part of it. -/
theorem pathOk_discardReads {s : State} (p : ReadTag → Bool) (h : PathOk s) : PathOk (s.discardReads p) := by
  refine ⟨h.mem, laneOk_discard h.lane, ?_, ?_, h.count⟩
  · rw [State.discardReads, List.map_map]
    exact h.waiting
  · exact holdOk_longer h.hold (by simp [State.discardReads])

theorem pathOk_presentedRead {s : State} (addrs : List Addr) (h : PathOk s) :
    PathOk { s with tx := some (.read addrs (holdOf addrs s.lane)) } :=
  ⟨h.mem, h.lane, h.waiting, holdOf_le addrs s.lane, h.count⟩

theorem pathOk_judged {s : State} (base : Addr) (bs : List WriteBeat) (h : PathOk s) :
    let r := s.judgeBeats ⟨[], []⟩ base 0 bs
    PathOk { r.1 with tx := some (.write r.2.beats r.2.handoffs .waiting) } := by
  obtain ⟨_, _, _, hmem, _, _, hcount, hlane, hwaiting, _, _⟩ := judgeBeats_keeps s ⟨[], []⟩ base 0 bs
  exact ⟨hmem ▸ h.mem, hlane ▸ h.lane, hwaiting ▸ h.waiting, trivial, hcount ▸ h.count⟩

/-- Every command keeps the memory path in order. -/
theorem pathOk_shape {c : Instr} {s t : State} (h : PathOk s) (g : Shape s c t) : PathOk t := by
  cases g with
  | same => exact h
  | leaves _ m => exact pathOk_leaves m h
  | takes _ b m => exact pathOk_stepTo h (pathOk_mill m (pathOk_takes b h))
  | low => exact pathOk_reset h
  | rel p => exact ⟨h.mem, h.lane, h.waiting, h.hold, h.count⟩
  | write a bs => exact pathOk_stepTo h (pathOk_judged _ bs h)
  | read a es => exact pathOk_presentedRead _ h
  | gw bs => exact pathOk_finish (pathOk_grantWrite bs h)
  | gr as => exact pathOk_finish (pathOk_grantRead as h)
  | land e rest hl => exact pathOk_finish (pathOk_grantLane hl h)
  | joins => exact pathOk_finish (pathOk_admit h)
  | clear b rest hs landed => exact pathOk_finish (pathOk_clearFlags b rest landed h)
  | enable l d =>
    have taken := pathOk_takes .statusUnit h
    exact pathOk_finish ⟨taken.mem, taken.lane, taken.waiting, taken.hold, taken.count⟩
  | reopen =>
    have discarded := pathOk_discardReads (fun _ => true) h
    exact pathOk_stepTo h ⟨discarded.mem, discarded.lane, discarded.waiting, discarded.hold, discarded.count⟩
  | restart => exact pathOk_stepTo h (pathOk_mill _ (pathOk_discardReads _ h))
  | adopt ws d m => exact pathOk_stepTo h ⟨h.mem, h.lane, h.waiting, h.hold, h.count⟩

/-- Settles O4: a tick touches no part of the path, a command keeps it by its shape. -/
theorem everyStepKeepsThePath : Obligations.EveryStepKeepsThePath := by
  intro s t h hstep
  cases hp : s.pending with
  | nil =>
    rw [step_of_pending_nil hp] at hstep
    cases hstep
    exact pathOk_mill _ h
  | cons c rest =>
    rw [step_of_pending_cons hp] at hstep
    exact pathOk_shape (s := { s with pending := rest }) ⟨h.mem, h.lane, h.waiting, h.hold, h.count⟩ (shape_of_exec hstep)

/-! ### The Status Unit -/

theorem statusOk_reset : StatusOk Status.reset := ⟨by decide, by decide, by decide, by decide⟩

/-- A condition that holds keeps its flag: no clear request takes a flag whose condition bit is set (R198). -/
theorem held_cleared {c f r e k : Word} (hc : c &&& ~~~k = 0) (hf : c &&& ~~~f = 0) (hk : k &&& e = 0) :
    c &&& ~~~(f &&& ~~~(r &&& (e ||| (k &&& ~~~c)))) = 0 := by
  apply BitVec.eq_of_getLsbD_eq
  intro i hi
  have isCondition := congrArg (fun w : Word => w.getLsbD i) hc
  have isSet := congrArg (fun w : Word => w.getLsbD i) hf
  have noEvent := congrArg (fun w : Word => w.getLsbD i) hk
  simp only [BitVec.getLsbD_and, BitVec.getLsbD_or, BitVec.getLsbD_not, hi, decide_true, Bool.true_and] at *
  cases holds : c.getLsbD i with
  | false => simp
  | true => simp_all

/-- Flags cleared where their condition is false leave the Status Unit in order (R198). -/
theorem statusOk_clear {u : Status} (request : Word) (h : StatusOk u) : StatusOk (u.clear request) := by
  have flags : (u.flags &&& ~~~(request &&& (flagsOf eventFlags ||| (flagsOf conditionFlags &&& ~~~u.cond)))) &&&
      ~~~allFlags = 0 := and_within _ h.flags
  refine ⟨flags, h.cond, ?held, judgeAlert_ok flags⟩
  case held => exact held_cleared h.cond h.held (by decide)

/-- An enable copy taken leaves the flags as they were, with ALERT_N judged anew (R199). -/
theorem statusOk_takeEnable {u : Status} (l : Lanes) (d : Word) (h : StatusOk u) : StatusOk (u.takeEnable l d) :=
  ⟨h.flags, h.cond, h.held, judgeAlert_ok h.flags⟩

/-- The Status Unit that a load adopts is in order: it reports from zero flags (R40, R201). -/
theorem statusOk_adopted (m : Mill) (enable : Word) (base : Option Addr) : StatusOk (m.adoptedStatus enable base) :=
  statusOk_report m.reports m ⟨by simp, by simp, by simp, by simp⟩

/-- Every command keeps the Status Unit in order. -/
theorem statusOk_shape {c : Instr} {s t : State} (h : StatusOk s.status) (g : Shape s c t) : StatusOk t.status := by
  cases g with
  | same => exact h
  | leaves _ m => exact statusOk_leaves m h
  | takes _ b m => exact statusOk_stepTo h h
  | low => exact statusOk_reset
  | rel p => exact h
  | write a bs =>
    obtain ⟨_, _, _, _, _, _, _, _, _, hstatus, _⟩ := judgeBeats_keeps s ⟨[], []⟩ (wordAddr a) 0 bs
    exact statusOk_stepTo h (hstatus ▸ h)
  | read a es => exact h
  | gw bs => exact statusOk_finish (s := s.grantWrite bs) h
  | gr as => exact statusOk_finish (s := s.grantRead as) h
  | land e rest hl =>
    refine statusOk_finish (s := s.grantLane e rest) ?_
    unfold State.grantLane
    cases e.op with
    | write k d n => exact h
    | read tag => dsimp only; split <;> exact h
  | joins => exact statusOk_finish h
  | clear b rest hs landed => exact statusOk_finish (s := s.clearFlags b rest landed) (statusOk_clear _ h)
  | enable l d => exact statusOk_finish (statusOk_takeEnable l d h)
  | reopen => exact statusOk_stepTo h h
  | restart => exact statusOk_stepTo h h
  | adopt ws d m => exact statusOk_stepTo h (statusOk_adopted _ _ _)

/-- Settles O5: a tick leaves the Status Unit, a command keeps it in order by its shape. -/
theorem everyStepKeepsTheFlags : Obligations.EveryStepKeepsTheFlags := by
  intro s t h hstep
  cases hp : s.pending with
  | nil =>
    rw [step_of_pending_nil hp] at hstep
    cases hstep
    exact h
  | cons c rest =>
    rw [step_of_pending_cons hp] at hstep
    exact statusOk_shape (s := { s with pending := rest }) h (shape_of_exec hstep)

end Sys2Proof.Machine

/-! SUPPORT. The frame of a command on the memory path, and the rows of reset, reads and the arbiter. -/

namespace Sys2Proof.Machine

/-! ### The frame of a command -/

/-- What a command leaves of the memory path (the frame that Obligations.PathFrame asks of it). -/
structure Framed (c : Instr) (s t : State) : Prop where
  pending : t.pending = s.pending
  mem : c ≠ .processorGrant → c ≠ .laneWriteLand → c ≠ .flagClear → t.mem = s.mem
  data : c ≠ .processorGrant → c ≠ .rstNLow → t.readData = s.readData ∧ t.bursts = s.bursts
  count : c ≠ .processorGrant → c ≠ .laneWriteLand → c ≠ .rstNLow → t.grantCount = s.grantCount
  refusal : c ≠ .loadStage5 → c ≠ .rstNLow → (∀ a bs, c ≠ .processorWrite a bs) → t.refusal = s.refusal
  pins : c ≠ .rstNLow → (∀ p, c ≠ .rstNRelease p) → t.rstN = s.rstN ∧ t.strap = s.strap

/-- A step that keeps every figure of the path meets the frame of any command. -/
theorem Framed.of_keeps {c : Instr} {s t : State}
    (h : t.pending = s.pending ∧ t.rstN = s.rstN ∧ t.strap = s.strap ∧ t.mem = s.mem ∧ t.readData = s.readData ∧
      t.bursts = s.bursts ∧ t.grantCount = s.grantCount ∧ t.refusal = s.refusal) : Framed c s t := by
  obtain ⟨pending, rstN, strap, mem, readData, bursts, count, refusal⟩ := h
  exact ⟨pending, fun _ _ _ => mem, fun _ _ => ⟨readData, bursts⟩, fun _ _ _ => count, fun _ _ _ => refusal,
    fun _ _ => ⟨rstN, strap⟩⟩

/-- The end of a step adds nothing to the frame. -/
theorem Framed.finish {c : Instr} {s t : State} (h : Framed c s t) : Framed c s t.finish := by
  obtain ⟨pending, rstN, strap, mem, readData, bursts, count, refusal⟩ := finish_keeps t
  exact ⟨pending.trans h.pending, fun a b d => mem.trans (h.mem a b d),
    fun a b => ⟨readData.trans (h.data a b).1, bursts.trans (h.data a b).2⟩,
    fun a b d => count.trans (h.count a b d), fun a b d => refusal.trans (h.refusal a b d),
    fun a b => ⟨rstN.trans (h.pins a b).1, strap.trans (h.pins a b).2⟩⟩

/-- Nor does a step that may wait as a whole. -/
theorem Framed.stepTo {c : Instr} {s t : State} (h : Framed c s t) : Framed c s (s.stepTo t) := by
  rcases stepTo_cases s t with e | e
  · rw [e]; exact .of_keeps ⟨rfl, rfl, rfl, rfl, rfl, rfl, rfl, rfl⟩
  · rw [e]; exact h.finish

/-- The grant of a lane entry changes memory and the grant count alone of the path's figures. -/
theorem grantLane_keeps (s : State) (e : LaneEntry) (rest : List LaneEntry) :
    (s.grantLane e rest).pending = s.pending ∧ (s.grantLane e rest).rstN = s.rstN ∧
    (s.grantLane e rest).strap = s.strap ∧ (s.grantLane e rest).readData = s.readData ∧
    (s.grantLane e rest).bursts = s.bursts ∧ (s.grantLane e rest).refusal = s.refusal ∧
    (s.grantLane e rest).grantCount = 0 := by
  unfold State.grantLane
  cases e.op with
  | write k d n => exact ⟨rfl, rfl, rfl, rfl, rfl, rfl, rfl⟩
  | read tag => dsimp only; split <;> exact ⟨rfl, rfl, rfl, rfl, rfl, rfl, rfl⟩

/-- Every command meets its frame. -/
theorem framed_shape {c : Instr} {s t : State} (g : Shape s c t) : Framed c s t := by
  cases g with
  | same => exact .of_keeps ⟨rfl, rfl, rfl, rfl, rfl, rfl, rfl, rfl⟩
  | leaves _ m => exact .of_keeps (leaves_keeps s m)
  | takes _ b m => exact Framed.stepTo (.of_keeps ⟨rfl, rfl, rfl, rfl, rfl, rfl, rfl, rfl⟩)
  | low =>
    exact ⟨rfl, fun _ _ _ => rfl, fun _ h => absurd rfl h, fun _ _ h => absurd rfl h, fun _ h => absurd rfl h,
      fun h => absurd rfl h⟩
  | rel p =>
    exact ⟨rfl, fun _ _ _ => rfl, fun _ _ => ⟨rfl, rfl⟩, fun _ _ _ => rfl, fun _ _ _ => rfl, fun _ h => absurd rfl (h p)⟩
  | write a bs =>
    obtain ⟨pending, rstN, strap, mem, readData, bursts, count, _⟩ := judgeBeats_keeps s ⟨[], []⟩ (wordAddr a) 0 bs
    exact Framed.stepTo ⟨pending, fun _ _ _ => mem, fun _ _ => ⟨readData, bursts⟩, fun _ _ _ => count,
      fun _ _ h => absurd rfl (h a bs), fun _ _ => ⟨rstN, strap⟩⟩
  | read a es => exact .of_keeps ⟨rfl, rfl, rfl, rfl, rfl, rfl, rfl, rfl⟩
  | gw bs =>
    exact Framed.finish ⟨rfl, fun h => absurd rfl h, fun h => absurd rfl h, fun h => absurd rfl h, fun _ _ _ => rfl,
      fun _ _ => ⟨rfl, rfl⟩⟩
  | gr as =>
    exact Framed.finish ⟨rfl, fun h => absurd rfl h, fun h => absurd rfl h, fun h => absurd rfl h, fun _ _ _ => rfl,
      fun _ _ => ⟨rfl, rfl⟩⟩
  | land e rest _ =>
    obtain ⟨pending, rstN, strap, readData, bursts, refusal, _⟩ := grantLane_keeps s e rest
    exact Framed.finish ⟨pending, fun _ h => absurd rfl h, fun _ _ => ⟨readData, bursts⟩, fun _ h => absurd rfl h,
      fun _ _ _ => refusal, fun _ _ => ⟨rstN, strap⟩⟩
  | joins => exact Framed.finish (.of_keeps ⟨rfl, rfl, rfl, rfl, rfl, rfl, rfl, rfl⟩)
  | clear b rest hs landed _ =>
    exact Framed.finish ⟨rfl, fun _ _ h => absurd rfl h, fun _ _ => ⟨rfl, rfl⟩, fun _ _ _ => rfl, fun _ _ _ => rfl,
      fun _ _ => ⟨rfl, rfl⟩⟩
  | enable l d => exact Framed.finish (.of_keeps ⟨rfl, rfl, rfl, rfl, rfl, rfl, rfl, rfl⟩)
  | reopen => exact Framed.stepTo (.of_keeps ⟨rfl, rfl, rfl, rfl, rfl, rfl, rfl, rfl⟩)
  | restart => exact Framed.stepTo (.of_keeps ⟨rfl, rfl, rfl, rfl, rfl, rfl, rfl, rfl⟩)
  | adopt ws d m =>
    exact Framed.stepTo ⟨rfl, fun _ _ _ => rfl, fun _ _ => ⟨rfl, rfl⟩, fun _ _ _ => rfl, fun h => absurd rfl h,
      fun _ _ => ⟨rfl, rfl⟩⟩

/-- Settles O7: each command meets its frame by its shape. -/
theorem pathFrame : Obligations.PathFrame := by
  intro c s t h
  have f := framed_shape (shape_of_exec h)
  exact ⟨f.pending, fun h1 h2 h3 a => by rw [f.mem h1 h2 h3], f.data, f.count, f.refusal, f.pins⟩

/-! ### Reset -/

/-- Settles O3: the values of State.reset, of which the invariants hold. -/
theorem resetValues : Obligations.ResetValues := by
  refine ⟨⟨rfl, rfl, rfl, rfl, rfl, rfl, rfl, rfl, rfl, rfl, rfl, rfl, rfl, rfl, rfl, rfl, rfl, rfl, ?tripOutputs⟩,
    ?path, statusOk_reset, rfl, fun _ => rfl⟩
  case tripOutputs =>
    intro l _
    cases l with
    | grinder g => cases g <;> rfl
    | pellet => rfl
  case path => exact ⟨rfl, ⟨Nat.zero_le _, List.nodup_nil⟩, List.nodup_nil, trivial, Nat.zero_le _⟩

/-- Settles O9: the two reset rows by their definitions, the bases by the strap. -/
theorem resetRows : Obligations.ResetRows := by
  refine ⟨fun _ => rfl, fun s p h => ?low, fun s p h => ?high, rfl, rfl, rfl, rfl⟩
  case low => simp only [exec, execRstNRelease, h, Bool.false_eq_true, if_false]
  case high => simp only [exec, execRstNRelease, h, if_true, noOccasion]

/-! ### The arbiter -/

theorem State.presented_write {s : State} {b : TxBeat} {bs : List TxBeat}
    (h : s.tx = some (.write (b :: bs) [] .waiting)) : s.presented = !s.withheld (b :: bs) := by
  simp only [State.presented, h]

/-- The owner of a beat's word takes it when it does not wait to post (R10). -/
theorem owner_ready_iff (s : State) (x : BeatMeaning) :
    (x.owner.map s.waits).getD false = false ↔
      (∀ r, x = .action r → s.waits .actionExecutor = false) ∧ (x = .control → s.waits .planController = false) ∧
        (x = .flags → s.waits .statusUnit = false) := by
  cases x <;> simp [BeatMeaning.owner]

theorem State.withheld_eq_false_iff (s : State) (bs : List TxBeat) :
    s.withheld bs = false ↔ s.waits .pathUnit = false ∧ ∀ x ∈ bs, (x.meaning.owner.map s.waits).getD false = false := by
  simp only [State.withheld, Bool.or_eq_false_iff, List.any_eq_false, Bool.not_eq_true]

/-- A held read has been presented (R17). -/
theorem presented_of_readHeld {s : State} (h : s.readHeld = true) : s.presented = true := by
  unfold State.readHeld at h
  unfold State.presented
  split at h
  · next addrs n htx => simp only [htx]
  · cases h

/-- Settles O14: the rows of the table by the order of its checks, then what presents each transaction. -/
theorem arbiterTable : Obligations.ArbiterTable := by
  refine ⟨fun s free => ⟨fun held busy => ?held, fun open_ busy full => ?full, fun open_ room shown => ?grant,
    fun hidden busy => ?lane, fun hidden empty => ?nobody⟩, fun s => ⟨fun addrs n h => ?read, fun h => ?noTx,
    fun b bs x hs h => ?handing, fun b bs h => ?write⟩⟩
  case held => simp [State.arbiter, free, held, busy]
  case full => simp [State.arbiter, free, open_, busy, full, Config.grantLimit]
  case grant =>
    have notFull : ¬(!s.lane.isEmpty && decide (s.grantCount = Config.grantLimit)) = true := by
      rcases room with h | h <;> simp [h, Config.grantLimit]
    simp only [State.arbiter, free, open_, notFull, shown, Bool.false_eq_true, if_false, if_true]
  case lane =>
    have notHeld : s.readHeld = false := by
      by_contra h
      simp [presented_of_readHeld (by simpa using h)] at hidden
    simp [State.arbiter, free, notHeld, hidden, busy]
  case nobody =>
    have notHeld : s.readHeld = false := by
      by_contra h
      simp [presented_of_readHeld (by simpa using h)] at hidden
    simp [State.arbiter, free, notHeld, hidden, empty]
  case read =>
    refine ⟨by simp only [State.presented, h], ?_⟩
    cases n with
    | zero => simp [State.readHeld, h]
    | succ n => simp [State.readHeld, h]
  case noTx => simp only [State.presented, h]
  case handing => simp only [State.presented, h]
  case write =>
    rw [State.presented_write h, Bool.not_eq_true', State.withheld_eq_false_iff]
    simp only [owner_ready_iff]

end Sys2Proof.Machine

/-! SUPPORT. How the Path Unit decides on a write (R6 to R8, R18, R27) and what a refused beat leaves (R8, R9, R19). -/

namespace Sys2Proof.Machine

/-! ### The decision on a lane (R6, R7, R18, R27) -/

theorem judgeRegionLane_of_loading {m : Mill} (h : m.plan.state = .loading) (w : Nat) (lanes : Lanes) (data : Word) :
    m.judgeRegionLane w lanes data = some .planBusy := if_pos h

theorem judgeRegionLane_of_not_loading {m : Mill} (h : m.plan.state ≠ .loading) (w : Nat) (lanes : Lanes)
    (data : Word) : m.judgeRegionLane w lanes data = match regionClass w with
      | .c => (m.judgeControl lanes data).reason
      | .d => some .deviceField
      | .p => if m.plan.state = .opened then none else some .planField
      | .w | .f | .a | .x => none := if_neg h

/-- The classes of the plan region's words (R5). -/
theorem regionClass_control : regionClass 0 = .c := rfl

theorem regionClass_device {w : Nat} (h : w = 1 ∨ w = 2) : regionClass w = .d := by
  rcases h with rfl | rfl <;> rfl

theorem regionClass_plan {w : Nat} (h : 4 ≤ w) (h' : w ≤ 183) : regionClass w = .p := by
  simp [regionClass, show w ≠ 0 by omega, show ¬w ≤ 2 by omega, h, h']

theorem regionClass_spare {w : Nat} (h : w = 3 ∨ 184 ≤ w) : regionClass w = .w := by
  simp only [regionClass, show w ≠ 0 by omega, show ¬w ≤ 2 by omega, if_false]
  rw [if_neg]
  simp only [Bool.and_eq_true, decide_eq_true_eq]
  omega

theorem judgeRecordLane_of_interlocked {m : Mill} {k : RecordKind} {i w l : Nat} (lanes : Lanes) (data : Word)
    (h : m.interlocks k i (recordClass (m.binKind i) k i w l) = true) :
    m.judgeRecordLane k i w lanes data l = some .verifyInterlock := if_pos h

theorem judgeRecordLane_of_not_interlocked {m : Mill} {k : RecordKind} {i w l : Nat} (lanes : Lanes) (data : Word)
    (h : m.interlocks k i (recordClass (m.binKind i) k i w l) = false) :
    m.judgeRecordLane k i w lanes data l = match recordClass (m.binKind i) k i w l with
      | .w | .x | .c => none
      | .p => some .planField
      | .f => if m.inUse k i then some .frozen else none
      | .d => some .deviceField
      | .a => (m.judgeAction ⟨k, i⟩ lanes data).reason := by
  simp only [Mill.judgeRecordLane, h, Bool.false_eq_true, if_false]
  cases recordClass (m.binKind i) k i w l <;> rfl

/-! ### The decision on a whole ACTION or control word (R18, R27) -/

theorem judgeWord_of_partial {lanes : Lanes} (h : lanes ≠ 0xF) (data : Word) (isPending full : Bool) :
    judgeWord lanes data isPending full = .refused .actionPartial := if_pos h

theorem judgeWord_of_pending (data : Word) (full : Bool) : judgeWord 0xF data true full = .refused .actionPending := rfl

theorem judgeWord_of_zero {data : Word} (h : bits data 0 8 = 0) (full : Bool) : judgeWord 0xF data false full = .plain := by
  simp [judgeWord, h]

theorem judgeWord_of_code {data : Word} (h : bits data 0 8 ≠ 0) (full : Bool) :
    judgeWord 0xF data false full = if full then .refused .actionQueueFull else .taken := by
  simp [judgeWord, h]

/-- The pending marker as the executor's list holds it. -/
theorem contains_marked {m : Mill} {r : RecordRef} (h : r ∉ m.actions.marked) : m.actions.marked.contains r = false := by
  simpa using h

/-! ### What is in use (R6), what the interlock covers (R7) -/

theorem Mill.inUse_order_iff (m : Mill) (o : Fin 256) : m.inUse .order o = true ↔
    (m.order o).state = .released ∨ (m.order o).state = .producing ∨ (m.order o).state = .finishing ∨
      (m.order o).state = .cancelling ∨ (m.order o).state = .packed := by
  simp only [Mill.inUse, toSlot_val]
  cases (m.order o).state <;> simp [OrderState.active]

theorem Mill.inUse_ticket_iff (m : Mill) (t : Fin 256) :
    m.inUse .ticket t = true ↔ 0 < getAt m.book.useCount t ∨ getAt m.book.planMark t = true := by
  simp only [Mill.inUse, toSlot_val, OrderBook.slotInUse, Bool.or_eq_true, decide_eq_true_eq]

theorem Mill.inUse_grinder_iff (m : Mill) (g : Grinder) : m.inUse .unit (lineUnit (.grinder g)) = true ↔
    (m.grinderCtl g).line.state = .running ∨ (m.grinderCtl g).line.state = .starved ∨
      (m.grinderCtl g).line.state = .blocked := by
  have key : m.inUse .unit (lineUnit (.grinder g)) = (m.grinderCtl g).line.state.grinding := by cases g <;> rfl
  rw [key]
  cases (m.grinderCtl g).line.state <;> simp [LineState.grinding]

/-- Units without a refill setting have no F bytes in use. -/
theorem Mill.inUse_otherUnit (m : Mill) {i : Nat} (h : i ≤ 2 ∨ 5 ≤ i) : m.inUse .unit i = false := by
  match i, h with
  | 0, _ | 1, _ | 2, _ | 5, _ => rfl
  | n + 6, _ => rfl

theorem Mill.inUse_truck_iff (m : Mill) (t : Fin 8) : m.inUse .truck t = true ↔ (m.trip t).state ≠ .opened := by
  simp [Mill.inUse, Mill.trip, getAt]

theorem Mill.interlocks_of_none {m : Mill} (h : m.book.interlock = none) (k : RecordKind) (i : Nat) (r : FieldClass) :
    m.interlocks k i r = false := by
  simp only [Mill.interlocks, h]

theorem Mill.interlocks_iff {m : Mill} {o : Fin 256} (h : m.book.interlock = some o) (k : RecordKind) (i : Nat)
    (r : FieldClass) : m.interlocks k i r = true ↔ k = .ticket ∨ (k = .order ∧ i = o.val ∧ r = .f) := by
  simp only [Mill.interlocks, h, Bool.or_eq_true, Bool.and_eq_true, decide_eq_true_eq, and_assoc]

/-! ### What a word means to its owner (R10, R11) -/

theorem meaningOf_flags {s : State} {k : RecordKind} {i w : Nat} (lanes : Lanes) (data : Word)
    (h : recordClass (s.mill.binKind i) k i w 0 = .x) : s.meaningOf (.record k i w) lanes data = .flags := if_pos h

theorem meaningOf_action {s : State} {k : RecordKind} {i w : Nat} (lanes : Lanes) (data : Word)
    (h : recordClass (s.mill.binKind i) k i w 0 = .a) : s.meaningOf (.record k i w) lanes data =
      if s.mill.judgeAction ⟨k, i⟩ lanes data = .taken then .action ⟨k, i⟩ else .plain := by
  simp only [State.meaningOf, h, reduceCtorEq, if_false, decide_true, Bool.true_and, decide_eq_true_eq]

theorem meaningOf_plain {s : State} {k : RecordKind} {i w : Nat} (lanes : Lanes) (data : Word)
    (hx : recordClass (s.mill.binKind i) k i w 0 ≠ .x) (ha : recordClass (s.mill.binKind i) k i w 0 ≠ .a) :
    s.meaningOf (.record k i w) lanes data = .plain := by
  simp [State.meaningOf, hx, ha]

end Sys2Proof.Machine

namespace Sys2Proof.Machine

/-! ### The classes of the records (12.3 to 12.10) -/

theorem recordClass_order (b : BinKind) (i l : Nat) :
    recordClass b .order i 0 l = .a ∧ recordClass b .order i 1 l = .d ∧ recordClass b .order i 2 l = .f ∧
      recordClass b .order i 4 l = .f ∧
      (∀ w, w = 3 ∨ w = 5 ∨ w = 6 → recordClass b .order i w l = if l = 3 then .w else .f) ∧
      (∀ w, 7 ≤ w → recordClass b .order i w l = .d) := by
  refine ⟨rfl, rfl, rfl, rfl, fun w hw => ?_, fun w hw => ?_⟩
  · rcases hw with rfl | rfl | rfl <;> rfl
  · simp [recordClass, show w ≠ 0 by omega, show w ≠ 1 by omega, show w ≠ 2 by omega, show w ≠ 4 by omega,
      show w ≠ 3 by omega, show w ≠ 5 by omega, show w ≠ 6 by omega]

theorem recordClass_ticket (b : BinKind) (i w l : Nat) :
    recordClass b .ticket i w l = if w = 6 ∨ w = 7 then .d else .f := by
  simp [recordClass]

theorem recordClass_bin (b : BinKind) (i l : Nat) :
    recordClass b .bin i 0 l = .a ∧ recordClass b .bin i 1 l = .d ∧ recordClass b .bin i 2 l = .p ∧
      recordClass b .bin i 3 l = .p ∧ (∀ w, w = 4 ∨ w = 5 → recordClass b .bin i w l = if l = 3 then .d else .p) ∧
      recordClass b .bin i 6 l = .d ∧ recordClass b .bin i 7 l = .d ∧
      (∀ w, 8 ≤ w → recordClass b .bin i w l = if b.isSurge ∨ w ≤ 9 then .d else .w) := by
  refine ⟨rfl, rfl, rfl, rfl, fun w hw => ?_, rfl, rfl, fun w hw => ?_⟩
  · rcases hw with rfl | rfl <;> rfl
  · have low : (w = 8 ∨ w = 9) ↔ w ≤ 9 := by omega
    cases hs : b.isSurge <;>
      simp [recordClass, show w ≠ 0 by omega, show w ≠ 1 by omega, show w ≠ 2 by omega, show w ≠ 3 by omega,
        show w ≠ 4 by omega, show w ≠ 5 by omega, show w ≠ 6 by omega, show w ≠ 7 by omega, hs, low]

theorem recordClass_unit (b : BinKind) (i l : Nat) :
    recordClass b .unit i 0 l = .a ∧ (∀ w, 1 ≤ w → w ≤ 3 → recordClass b .unit i w l = .d) ∧
      (∀ w, 4 ≤ w → i < 3 ∨ 5 < i → recordClass b .unit i w l = .w) ∧
      (3 ≤ i → i ≤ 5 → recordClass b .unit i 4 l = .d ∧
        recordClass b .unit i 5 l = (if i = 5 ∨ l = 3 then .w else .f) ∧
        (∀ w, 6 ≤ w → recordClass b .unit i w l = if w ≤ 10 then .p else .w)) := by
  refine ⟨rfl, fun w h1 h3 => ?device, fun w h4 hi => ?other, fun h3 h5 => ⟨?rate, ?setting, fun w h6 => ?block⟩⟩
  case device =>
    have : w = 1 ∨ w = 2 ∨ w = 3 := by omega
    rcases this with rfl | rfl | rfl <;> rfl
  case other =>
    simp [recordClass, show w ≠ 0 by omega, show w ≠ 1 by omega, show w ≠ 2 by omega, show w ≠ 3 by omega,
      show ¬(3 ≤ i ∧ i ≤ 5) by omega]
  case rate => simp [recordClass, h3, h5]
  case setting => simp [recordClass, h3, h5]
  case block =>
    simp [recordClass, show w ≠ 0 by omega, show w ≠ 1 by omega, show w ≠ 2 by omega, show w ≠ 3 by omega,
      show w ≠ 4 by omega, show w ≠ 5 by omega, h3, h5, h6]

theorem recordClass_batch (b : BinKind) (i l : Nat) :
    recordClass b .batch i 0 l = .a ∧ (∀ w, 1 ≤ w → recordClass b .batch i w l = .d) :=
  ⟨rfl, fun _ hw => if_neg (by omega)⟩

theorem recordClass_truck (b : BinKind) (i l : Nat) :
    recordClass b .truck i 0 l = .a ∧ recordClass b .truck i 1 l = .d ∧
      recordClass b .truck i 2 l = (if l = 3 then .w else .f) ∧ recordClass b .truck i 3 l = .d ∧
      (∀ w, 4 ≤ w → recordClass b .truck i w l = if w ≤ 9 then .f else .d) := by
  refine ⟨rfl, rfl, rfl, rfl, fun w hw => ?_⟩
  simp [recordClass, show w ≠ 0 by omega, show w ≠ 1 by omega, show w ≠ 2 by omega, show w ≠ 3 by omega]

theorem recordClass_status (b : BinKind) (i l : Nat) :
    recordClass b .status i 0 l = .x ∧ recordClass b .status i 1 l = .d ∧ recordClass b .status i 2 l = .w ∧
      (∀ w, 3 ≤ w → w ≤ 9 → recordClass b .status i w l = .d) ∧ recordClass b .status i 10 l = .a ∧
      recordClass b .status i 11 l = .d ∧ (∀ w, 12 ≤ w → recordClass b .status i w l = .w) := by
  refine ⟨rfl, rfl, rfl, fun w h3 h9 => ?_, rfl, rfl, fun w h12 => ?_⟩
  · simp [recordClass, show w ≠ 0 by omega, show w ≠ 1 by omega, show w ≠ 2 by omega, h9]
  · simp [recordClass, show w ≠ 0 by omega, show w ≠ 1 by omega, show w ≠ 2 by omega, show ¬w ≤ 9 by omega,
      show w ≠ 10 by omega, show w ≠ 11 by omega]

/-- Settles O10: the decision on a lane, on a whole word, the classes, the use states, the meanings, each by its rule. -/
theorem writeDecisions : Obligations.WriteDecisions := by
  refine ⟨⟨fun m w lanes data h => judgeRegionLane_of_loading h w lanes data, fun m w lanes data h => ?region,
    fun m k i w lanes data l h => judgeRecordLane_of_interlocked lanes data h,
    fun m k i w lanes data l h => ?record, fun _ _ _ _ => rfl⟩,
    fun m r lanes data => ?words,
    fun b i l _ => ⟨recordClass_order b i l, fun w => recordClass_ticket b i w l, recordClass_bin b i l,
      recordClass_unit b i l, recordClass_batch b i l, recordClass_truck b i l, fun _ => rfl, recordClass_status b i l⟩,
    fun m => ⟨m.inUse_order_iff, m.inUse_ticket_iff, m.inUse_grinder_iff, fun _ => m.inUse_otherUnit,
      m.inUse_truck_iff, fun h => m.interlocks_of_none h, fun _ h => m.interlocks_iff h⟩,
    fun s lanes data => ?meanings⟩
  case region =>
    rw [judgeRegionLane_of_not_loading h]
    refine ⟨?_, fun hw => ?_, fun h4 h183 ho => ?_, fun h4 h183 ho => ?_, fun hw => ?_⟩
    · rintro rfl
      rw [regionClass_control]
    · rw [regionClass_device hw]
    · rw [regionClass_plan h4 h183]
      exact if_pos ho
    · rw [regionClass_plan h4 h183]
      exact if_neg ho
    · rw [regionClass_spare hw]
  case record =>
    refine (judgeRecordLane_of_not_interlocked lanes data h).trans ?_
    cases recordClass (m.binKind i) k i w l <;> rfl
  case words =>
    refine ⟨fun h => ⟨judgeWord_of_partial h data _ _, judgeWord_of_partial h data _ _⟩, ?_, ?_, ?_, ?_, ?_, ?_, ?_⟩
    · rintro rfl marked
      rw [Mill.judgeAction, List.contains_iff_mem.mpr marked]
      exact judgeWord_of_pending data _
    · rintro rfl pending
      rw [Mill.judgeControl, pending]
      exact judgeWord_of_pending data _
    · rintro rfl unmarked zero
      rw [Mill.judgeAction, contains_marked unmarked]
      exact judgeWord_of_zero zero _
    · rintro rfl unmarked code room
      rw [Mill.judgeAction, contains_marked unmarked, judgeWord_of_code code]
      exact if_neg (by rw [decide_eq_true_eq]; exact Nat.not_le.mpr room)
    · rintro rfl unmarked code full
      rw [Mill.judgeAction, contains_marked unmarked, judgeWord_of_code code]
      exact if_pos (decide_eq_true full)
    · rintro rfl none_ zero
      rw [Mill.judgeControl, none_]
      exact judgeWord_of_zero zero _
    · rintro rfl none_ code
      rw [Mill.judgeControl, none_]
      exact judgeWord_of_code code false
  case meanings =>
    refine ⟨?_, fun w hw => ?_, rfl, fun k i w h => meaningOf_flags lanes data h,
      fun k i w h => meaningOf_action lanes data h, fun k i w hx ha => meaningOf_plain lanes data hx ha, fun _ _ => rfl,
      fun i => ?_⟩
    · simp [State.meaningOf]
    · simp [State.meaningOf, hw]
    · simp only [State.handoffOf, ne_eq, ite_not]

end Sys2Proof.Machine

/-! SUPPORT. A write received and refused (R2, R8, R9, R19), a read presented (R17). -/

namespace Sys2Proof.Machine

/-! ### A write received (R2) -/

theorem burstWf_of_bounds {n : Nat} (h1 : 1 ≤ n) (h8 : n ≤ 8) : burstWf n = true := by
  simp only [burstWf, h1, h8, decide_true, Bool.and_self]

/-- The port can take a transaction (R2, log 7). -/
theorem ready_of {s : State} (hr : s.rstN = true) (ht : s.tx = none) (hw : s.waits .pathUnit = false) :
    s.ready = true := by
  simp only [State.ready, hr, ht, hw, Option.isNone_none, Bool.not_false, Bool.and_self]

theorem not_ready_of {s : State} (h : s.rstN = false ∨ s.tx.isSome = true ∨ s.waits .pathUnit = true) :
    s.ready = false := by
  rcases h with h | h | h
  · simp only [State.ready, h, Bool.false_and]
  · simp only [State.ready, Option.isNone_eq_false_iff.mpr h, Bool.and_false,
      Bool.false_and]
  · simp only [State.ready, h, Bool.not_true, Bool.and_false]

/-- No lane of a beat outside all decode is refused. -/
theorem refusedLanes_outside (s : State) (lanes : Lanes) (data : Word) : s.refusedLanes .outside lanes data = 0 :=
  BitVec.and_zero

/-- Settles O11: the row by its checks, the beats by the recursion over them. -/
theorem writeReceived : Obligations.WriteReceived := by
  refine ⟨fun addr bs s h1 h8 hr ht hw => ?received, fun _ _ _ _ _ _ => ⟨rfl, rfl⟩, fun s j a b hp hl => ?outside,
    fun addr bs s h1 h8 h => ?busy⟩
  case received =>
    simp only [exec, execProcessorWrite, burstWf_of_bounds h1 h8, ready_of hr ht hw, Bool.not_true, Bool.false_eq_true,
      if_false]
  case outside =>
    have left : b.lanes &&& ~~~(0 : Lanes) = b.lanes := BitVec.and_allOnes
    simp only [State.judgeBeat, hp, refusedLanes_outside, left, if_true, hl, if_false, State.meaningOf,
      State.handoffOf, Option.toList_none, List.append_nil]
  case busy =>
    simp only [exec, execProcessorWrite, burstWf_of_bounds h1 h8, not_ready_of h, Bool.not_true, Bool.not_false,
      Bool.false_eq_true, if_false, if_true, noOccasion]

/-! ### A refused beat (R8, R9, R19) -/

/-- A lane picked by p stands in the mask by p. -/
theorem getLsbD_lanesWhere (p : Nat → Bool) {l : Nat} (h : l < 4) : (lanesWhere p).getLsbD l = p l := by
  have key : ∀ a b c d : Bool,
      let v : Lanes := BitVec.ofNat 4 (bit a + 2 * bit b + 4 * bit c + 8 * bit d)
      v.getLsbD 0 = a ∧ v.getLsbD 1 = b ∧ v.getLsbD 2 = c ∧ v.getLsbD 3 = d := by decide
  obtain ⟨h0, h1, h2, h3⟩ := key (p 0) (p 1) (p 2) (p 3)
  match l, h with
  | 0, _ => exact h0
  | 1, _ => exact h1
  | 2, _ => exact h2
  | 3, _ => exact h3

theorem getLsbD_refusedLanes (s : State) (p : Place) (lanes : Lanes) (data : Word) {l : Nat} (h : l < 4) :
    (s.refusedLanes p lanes data).getLsbD l = (lanes.getLsbD l && (s.judgeLane p lanes data l).isSome) := by
  rw [State.refusedLanes, BitVec.getLsbD_and, getLsbD_lanesWhere _ h]

/-- A mask that is not empty has a lane. -/
theorem exists_lane {v : Lanes} (h : v ≠ 0) : ∃ l, l < 4 ∧ v.getLsbD l = true := by
  by_contra hn
  push Not at hn
  refine h (BitVec.eq_of_getLsbD_eq fun i hi => ?_)
  simpa using hn i hi

/-- The least of a list of numbers and a bound: below each of them, and one of them. -/
theorem foldl_min_le (xs : List Nat) (a : Nat) : xs.foldl min a ≤ a ∧ ∀ x ∈ xs, xs.foldl min a ≤ x := by
  induction xs generalizing a with
  | nil => simp
  | cons y ys ih =>
    obtain ⟨below, each⟩ := ih (min a y)
    refine ⟨below.trans (Nat.min_le_left a y), fun x hx => ?_⟩
    rcases List.mem_cons.mp hx with rfl | hx
    · exact below.trans (Nat.min_le_right a x)
    · exact each x hx

theorem foldl_min_mem (xs : List Nat) (a : Nat) : xs.foldl min a = a ∨ xs.foldl min a ∈ xs := by
  induction xs generalizing a with
  | nil => exact .inl rfl
  | cons y ys ih =>
    rw [List.foldl_cons]
    rcases ih (min a y) with h | h
    · rw [h]
      rcases Nat.le_total a y with hl | hl
      · rw [Nat.min_eq_left hl]; exact .inl rfl
      · rw [Nat.min_eq_right hl]; exact .inr List.mem_cons_self
    · exact .inr (List.mem_cons_of_mem y h)

theorem Refused.code_le (x : Refused) : x.code ≤ 8 := by cases x <;> decide

/-- The codes of a beat's refused lanes, whose least is the reason reported (R8). -/
def State.refusedCodes (s : State) (p : Place) (lanes : Lanes) (data : Word) : List Nat :=
  ((List.range 4).filter (fun l => lanes.getLsbD l)).filterMap (fun l => (s.judgeLane p lanes data l).map (·.code))

theorem refusedFor_eq (s : State) (p : Place) (lanes : Lanes) (data : Word) :
    s.refusedFor p lanes data = (s.refusedCodes p lanes data).foldl min 8 := rfl

theorem mem_refusedCodes {s : State} {p : Place} {lanes : Lanes} {data : Word} {n : Nat} :
    n ∈ s.refusedCodes p lanes data ↔
      ∃ l x, l < 4 ∧ lanes.getLsbD l = true ∧ s.judgeLane p lanes data l = some x ∧ n = x.code := by
  simp only [State.refusedCodes, List.mem_filterMap, List.mem_filter, List.mem_range, Option.map_eq_some_iff]
  constructor
  · rintro ⟨l, ⟨hl, he⟩, x, hx, rfl⟩
    exact ⟨l, x, hl, he, hx, rfl⟩
  · rintro ⟨l, x, hl, he, hx, rfl⟩
    exact ⟨l, ⟨hl, he⟩, x, hx, rfl⟩

theorem refusedFor_le {s : State} {p : Place} {lanes : Lanes} {data : Word} {l : Nat} {x : Refused} (hl : l < 4)
    (he : lanes.getLsbD l = true) (hx : s.judgeLane p lanes data l = some x) : s.refusedFor p lanes data ≤ x.code :=
  (foldl_min_le _ 8).2 _ (mem_refusedCodes.mpr ⟨l, x, hl, he, hx, rfl⟩)

/-- The reason of a beat with a refused lane is the code of one of them. -/
theorem refusedFor_mem {s : State} {p : Place} {lanes : Lanes} {data : Word} (h : s.refusedLanes p lanes data ≠ 0) :
    s.refusedFor p lanes data ∈ s.refusedCodes p lanes data := by
  obtain ⟨l, hl, hr⟩ := exists_lane h
  rw [getLsbD_refusedLanes s p lanes data hl, Bool.and_eq_true] at hr
  obtain ⟨x, hx⟩ := Option.isSome_iff_exists.mp hr.2
  rcases foldl_min_mem (s.refusedCodes p lanes data) 8 with h8 | hm
  · have least : s.refusedFor p lanes data ≤ x.code := refusedFor_le hl hr.1 hx
    rw [refusedFor_eq, h8] at least
    have top : x.code = 8 := Nat.le_antisymm x.code_le least
    exact mem_refusedCodes.mpr ⟨l, x, hl, hr.1, hx, by rw [refusedFor_eq, h8, top]⟩
  · exact hm

/-- The reports and posts of a refusal that no full queue gives (R8, R9). -/
theorem refuseBeat_of_ne_full {s : State} {a : Addr} (b : WriteBeat) (refused : Lanes) {reason : Nat}
    (h : ∀ k i w, s.place a = .record k i w → reason ≠ 5) :
    s.refuseBeat a b refused reason = s.recordRefusal ⟨a, b.data, refused, BitVec.ofNat 8 reason⟩ := by
  unfold State.refuseBeat
  cases hp : s.place a with
  | record k i w => exact if_neg (h k i w hp)
  | region w => rfl
  | outside => rfl

/-- A refusal for a full queue answers QUEUE_FULL as well (R19). -/
theorem refuseBeat_of_full {s : State} {a : Addr} (b : WriteBeat) (refused : Lanes) {k : RecordKind} {i w : Nat}
    (h : s.place a = .record k i w) :
    s.refuseBeat a b refused 5 =
      { s.recordRefusal ⟨a, b.data, refused, 5⟩ with
        mill := (s.recordRefusal ⟨a, b.data, refused, 5⟩).mill.answerFull ⟨k, i⟩ b.data } := by
  unfold State.refuseBeat
  rw [h]
  rfl

/-- A word of one field alone that fits. -/
theorem wordOf_single {n width : Nat} (h : n < 2 ^ width) : wordOf [(n, 0, width)] = BitVec.ofNat 32 n := by
  simp [wordOf, Nat.min_eq_left (Nat.le_sub_one_of_lt h)]

/-- The lanes and the reason as word 5 of the status window holds them (12.10). -/
theorem refusal_word5 (r : BitVec 8) (l : Lanes) :
    wordOf [(l.toNat, 0, 4), (r.toNat, 8, 8)] = (0 : BitVec 16) ++ r ++ (0 : BitVec 4) ++ l := by
  have hl : l.toNat < 16 := l.isLt
  have hr : r.toNat < 256 := r.isLt
  refine BitVec.eq_of_toNat_eq ?_
  have packed : ((0 : BitVec 16) ++ r ++ (0 : BitVec 4) ++ l).toNat = r.toNat * 256 + l.toNat := by
    have inner : ((0 : BitVec 16) ++ r ++ (0 : BitVec 4)).toNat = r.toNat * 16 := by
      simp only [BitVec.ofNat_eq_ofNat, BitVec.toNat_append, BitVec.toNat_ofNat, Nat.zero_mod, Nat.zero_mul,
        Nat.zero_or, Nat.or_zero, Nat.shiftLeft_eq]
    rw [BitVec.toNat_append, inner, ← Nat.shiftLeft_add_eq_or_of_lt hl, Nat.shiftLeft_eq]
    omega
  rw [packed]
  simp only [wordOf, List.foldl_cons, List.foldl_nil, BitVec.toNat_ofNat]
  omega

/-- Settles O12: what is refused by the lanes' decisions, the record and posts by the two sorts of refusal. -/
theorem refusedBeat : Obligations.RefusedBeat := by
  intro s j a b
  refine ⟨fun l hl => getLsbD_refusedLanes s _ b.lanes b.data hl, rfl, fun h => ?whole, fun h => ⟨?reason, ?least,
    fun notFull => ?plain, fun k i w hp full => ?full⟩, fun q => ⟨?word3, rfl, refusal_word5 q.reason q.lanes⟩, rfl⟩
  case whole =>
    show (s.judgeBeat j a b).1 = s
    simp only [State.judgeBeat, h, if_true]
  case reason => exact mem_refusedCodes.mp (refusedFor_mem h)
  case least => exact fun l x hl he hx => refusedFor_le hl he hx
  case plain =>
    show (s.judgeBeat j a b).1 = _
    simp only [State.judgeBeat, h, if_false]
    rw [refuseBeat_of_ne_full b _ notFull]
    cases hb : s.status.base <;> simp only [State.recordRefusal, Mill.raise, hb]
  case full =>
    show (s.judgeBeat j a b).1 = _
    simp only [State.judgeBeat, h, if_false]
    rw [full, refuseBeat_of_full b _ hp]
    cases hb : s.status.base <;>
      simp [State.recordRefusal, Mill.raise, Mill.answerFull, Mill.post, hb, answerWord, ans, resQueueFull,
        Config.actionDepth, Mill.recordAddr]
  case word3 =>
    show wordOf [(q.addr.toNat, 0, 24)] = _
    rw [wordOf_single q.addr.isLt, BitVec.ofNat_toNat]

end Sys2Proof.Machine

/-! SUPPORT. Grants, the lane and the flag word (R3, R12 to R17, R198, R199). -/

namespace Sys2Proof.Machine

/-! ### A read's hold (R17) -/

theorem writtenWords_cons_write {e : LaneEntry} {k : Lanes} {d : Word} {n : LandNote} (h : e.op = .write k d n)
    (es : List LaneEntry) : writtenWords (e :: es) = e.addr :: writtenWords es := by
  simp only [writtenWords, List.filterMap_cons, h]

theorem writtenWords_cons_read {e : LaneEntry} {t : ReadTag} (h : e.op = .read t) (es : List LaneEntry) :
    writtenWords (e :: es) = writtenWords es := by
  simp only [writtenWords, List.filterMap_cons, h]

/-- A word written behind the head is written by the lane. -/
theorem mem_writtenWords_tail {e : LaneEntry} {es : List LaneEntry} {w : Addr} (h : w ∈ writtenWords es) :
    w ∈ writtenWords (e :: es) := by
  cases hop : e.op with
  | write k d n => rw [writtenWords_cons_write hop]; exact List.mem_cons_of_mem _ h
  | read t => rw [writtenWords_cons_read hop]; exact h

theorem holdOf_cons_of_pos {addrs : List Addr} {e : LaneEntry} {es : List LaneEntry} (h : 0 < holdOf addrs es) :
    holdOf addrs (e :: es) = holdOf addrs es + 1 := if_pos h

theorem holdOf_cons_of_zero {addrs : List Addr} {e : LaneEntry} {es : List LaneEntry} (h : holdOf addrs es = 0) :
    holdOf addrs (e :: es) = match e.op with
      | .write _ _ _ => if addrs.contains e.addr then 1 else 0
      | .read _ => 0 := by
  rw [holdOf, h]
  rfl

/-- There is no hold exactly where no write of the lane is to a word of the read. -/
theorem holdOf_eq_zero_iff (addrs : List Addr) (lane : List LaneEntry) :
    holdOf addrs lane = 0 ↔ ∀ w ∈ writtenWords lane, w ∉ addrs := by
  induction lane with
  | nil => simp [holdOf, writtenWords]
  | cons e es ih =>
    rcases Nat.eq_zero_or_pos (holdOf addrs es) with h0 | hpos
    · rw [holdOf_cons_of_zero h0]
      have behind := ih.mp h0
      cases hop : e.op with
      | write k d n => simpa [writtenWords_cons_write hop] using fun _ => behind
      | read t => simpa [writtenWords_cons_read hop] using behind
    · rw [holdOf_cons_of_pos hpos]
      refine ⟨fun h => absurd h (Nat.succ_ne_zero _), fun h => ?_⟩
      exact absurd (ih.mpr fun w hw => h w (mem_writtenWords_tail hw)) hpos.ne'

/-- A hold ends at the latest write to a word of the read. -/
theorem holdOf_latest (addrs : List Addr) (lane : List LaneEntry) (n : Nat) (h : holdOf addrs lane = n + 1) :
    (∃ w, writtenWords (lane.drop n) = w :: writtenWords (lane.drop (n + 1)) ∧ w ∈ addrs) ∧
      ∀ w ∈ writtenWords (lane.drop (n + 1)), w ∉ addrs := by
  induction lane generalizing n with
  | nil => cases h
  | cons e es ih =>
    rcases Nat.eq_zero_or_pos (holdOf addrs es) with h0 | hpos
    · rw [holdOf_cons_of_zero h0] at h
      cases hop : e.op with
      | write k d nt =>
        rw [hop] at h
        dsimp only at h
        split at h
        · next hc =>
          obtain rfl : n = 0 := by omega
          exact ⟨⟨e.addr, writtenWords_cons_write hop es, by simpa using hc⟩, (holdOf_eq_zero_iff addrs es).mp h0⟩
        · cases h
      | read t => rw [hop] at h; cases h
    · rw [holdOf_cons_of_pos hpos] at h
      obtain ⟨k, hk⟩ : ∃ k, holdOf addrs es = k + 1 := ⟨_, (Nat.succ_pred_eq_of_pos hpos).symm⟩
      obtain rfl : n = k + 1 := by omega
      exact ih k hk

/-- Settles O13: the row by its checks, the hold by the lane's recursion. -/
theorem readPresented : Obligations.ReadPresented := by
  refine ⟨fun addr es s h1 h8 hr ht hw => ?_, fun addrs lane => ⟨holdOf_eq_zero_iff addrs lane, holdOf_latest addrs lane⟩⟩
  simp only [exec, execProcessorRead, burstWf_of_bounds h1 h8, ready_of hr ht hw, Bool.not_true, Bool.false_eq_true,
    if_false]

/-! ### The grant of a processor transaction (R3, R16) -/

/-- The bytes outside the surviving lanes of the beats that land are unchanged. -/
theorem readByte_landBeats (bs : List TxBeat) (mem : Memory) (a : Nat)
    (h : ∀ b ∈ bs, ∀ n, n < 4 → b.lanes.getLsbD n = true → a ≠ laneKey b.addr n) :
    (bs.foldl landBeat mem).readByte a = mem.readByte a := by
  induction bs generalizing mem with
  | nil => rfl
  | cons b bs ih =>
    rw [List.foldl_cons, ih _ fun c hc => h c (List.mem_cons_of_mem b hc)]
    exact Memory.readByte_writeWord_ne (h b List.mem_cons_self)

/-- A flag-word beat changes no block at the grant, so the others alone give what all do. -/
theorem grantBeats_plain (bs : List TxBeat) (m : Mill) :
    (bs.filter (fun b => b.meaning ≠ .flags)).foldl (fun m b => m.grantBeat b) m =
      bs.foldl (fun m b => m.grantBeat b) m := by
  induction bs generalizing m with
  | nil => rfl
  | cons b bs ih =>
    by_cases hb : b.meaning = .flags
    · have same : m.grantBeat b = m := by simp only [Mill.grantBeat, hb]
      rw [List.filter_cons_of_neg (by simp [hb]), List.foldl_cons, same, ih]
    · rw [List.filter_cons_of_pos (by simp [hb]), List.foldl_cons, List.foldl_cons, ih]

/-- The port stays busy after the grant exactly where a beat is to the flag word (R12, log 9). -/
theorem portBusy_grantWrite (s : State) (bs : List TxBeat) :
    (s.grantWrite bs).portBusy = true ↔ ∃ b ∈ bs, b.meaning = .flags := by
  cases hf : (bs.filter (fun b => b.meaning = .flags)).isEmpty with
  | true =>
    have none_ : ¬∃ b ∈ bs, b.meaning = .flags := by simpa using hf
    simp only [State.grantWrite, State.portBusy, hf, if_true, Bool.false_eq_true, none_]
  | false =>
    have one : ∃ b ∈ bs, b.meaning = .flags := by simpa using hf
    simp only [State.grantWrite, State.portBusy, hf, Bool.false_eq_true, if_false, one]

/-- A transaction over stays over at the end of the step. -/
theorem finish_tx_none {s : State} (h : s.tx = none) : s.finish.tx = none := by
  have settled : ∀ {t : State}, t.tx = none → t.settle.tx = none := fun {t} ht => by
    rcases settle_tx t with e | e
    · rw [e, ht]
    · exact e
  unfold State.finish
  dsimp only
  split
  · exact settled (t := s.settle.run) (settled h)
  · exact settled h

/-- The bursts of addresses that are not none begin with a burst at the first of them. -/
theorem splitBursts_cons (w : Bool) (b : Addr) (as : List Addr) :
    ∃ xs rest, splitBursts w (b :: as) = ⟨w, b :: xs⟩ :: rest := by
  induction as generalizing b with
  | nil => exact ⟨[], [], rfl⟩
  | cons c cs ih =>
    obtain ⟨xs, rest, h⟩ := ih c
    rw [splitBursts, h]
    dsimp only
    split
    · exact ⟨c :: xs, rest, rfl⟩
    · exact ⟨[], _, rfl⟩

/-- An address that follows the one before it within its block joins its burst. -/
theorem splitBursts_joins {w : Bool} {a b : Addr} {xs as : List Addr} {rest : List Burst} (hb : b = addrPlus a 1)
    (hk : blockOf b = blockOf a) (h : splitBursts w (b :: as) = ⟨w, b :: xs⟩ :: rest) :
    splitBursts w (a :: b :: as) = ⟨w, a :: b :: xs⟩ :: rest := by
  rw [splitBursts, h]
  simp only [hb.symm, hk, decide_true, Bool.and_self, if_true]

/-- Any other begins a burst of its own. -/
theorem splitBursts_splits {w : Bool} {a b : Addr} (as : List Addr) (h : b ≠ addrPlus a 1 ∨ blockOf b ≠ blockOf a) :
    splitBursts w (a :: b :: as) = ⟨w, [a]⟩ :: splitBursts w (b :: as) := by
  obtain ⟨xs, rest, hs⟩ := splitBursts_cons w b as
  rw [splitBursts, hs]
  dsimp only
  rw [if_neg]
  simpa [imp_iff_not_or] using h

/-- Settles O15: the grant by the row's arm, the bursts by the recursion over the addresses. -/
theorem processorGrants : Obligations.ProcessorGrants := by
  refine ⟨⟨fun s bs hs p harb htx => ?write, fun m a l d r => ⟨rfl, ?marked, rfl, rfl, rfl⟩⟩,
    fun s addrs hold harb htx => ?read, fun w a b as => ⟨rfl, rfl, fun hb hk => ?joins, fun h => splitBursts_splits as h⟩⟩
  case write =>
    obtain ⟨_, _, _, hmem, _, hbursts, hcount, _⟩ := finish_keeps (s.grantWrite bs)
    refine ⟨(s.grantWrite bs).finish, ?_, rfl, hmem, hbursts, hcount, portBusy_grantWrite s bs,
      grantBeats_plain bs s.mill, fun a ha => ?_⟩
    · simp only [exec, execProcessorGrant, harb, if_true, htx]
    · rw [hmem]
      refine readByte_landBeats _ s.mem a fun b hb => ?_
      obtain ⟨hmem', hplain⟩ := List.mem_filter.mp hb
      exact ha b hmem' (by simpa using hplain)
  case marked => exact List.mem_append_right _ (List.mem_singleton.mpr rfl)
  case read =>
    obtain ⟨_, _, _, hmem, hdata, hbursts, hcount, _⟩ := finish_keeps (s.grantRead addrs)
    refine ⟨(s.grantRead addrs).finish, ?_, hdata, hmem, finish_tx_none rfl, hbursts, hcount⟩
    simp only [exec, execProcessorGrant, harb, if_true, htx]
  case joins =>
    obtain ⟨xs, rest, hs⟩ := splitBursts_cons w b as
    exact ⟨xs, rest, hs, splitBursts_joins hb hk hs⟩

/-! ### The grant of the lane head (R13, R16) -/

theorem exec_laneWriteLand {s : State} {e : LaneEntry} {rest : List LaneEntry} (h : s.arbiter = .lane)
    (hl : s.lane = e :: rest) : exec .laneWriteLand s = .next (s.grantLane e rest).finish := by
  simp only [exec, execLaneWriteLand, h, if_true, hl]

theorem grantLane_mem_of_write {s : State} {e : LaneEntry} {k : Lanes} {d : Word} {n : LandNote}
    (h : e.op = .write k d n) (rest : List LaneEntry) : (s.grantLane e rest).mem = s.mem.writeWord e.addr k d := by
  simp only [State.grantLane, h]

theorem grantLane_mem_of_read {s : State} {e : LaneEntry} {t : ReadTag} (h : e.op = .read t) (rest : List LaneEntry) :
    (s.grantLane e rest).mem = s.mem := by
  simp only [State.grantLane, h]
  split <;> rfl

theorem grantLane_mill_of_write {s : State} {e : LaneEntry} {k : Lanes} {d : Word} {n : LandNote}
    (h : e.op = .write k d n) (rest : List LaneEntry) : (s.grantLane e rest).mill = s.mill.landNote n := by
  simp only [State.grantLane, h]

/-- Settles O16: a write or a read at the head, each by what its grant makes of memory and of the blocks. -/
theorem laneHeadGranted : Obligations.LaneHeadGranted := by
  refine ⟨fun s e rest harb hl => ?granted, fun s e rest => ⟨fun k d r hop => ?marker, fun k d hop => ?control,
    fun tag hop hkept => ?data⟩⟩
  case granted =>
    obtain ⟨_, _, _, hmem, _, _, hcount, _⟩ := finish_keeps (s.grantLane e rest)
    obtain ⟨_, _, _, _, _, _, hzero⟩ := grantLane_keeps s e rest
    refine ⟨_, exec_laneWriteLand harb hl, rfl, hcount.trans hzero, fun k d n hop => ?_, fun tag hop => ?_⟩
    · rw [hmem, grantLane_mem_of_write hop]
      exact ⟨rfl, fun a ha => Memory.readByte_writeWord_ne fun i hi hk => ha i hi hk,
        fun hwf i hi hk => Memory.readByte_writeWord_same hwf hi hk⟩
    · rw [hmem, grantLane_mem_of_read hop]
  case marker =>
    rw [grantLane_mill_of_write hop]
    exact ⟨by simp [Mill.landNote], fun q hq => by simp [Mill.landNote, hq]⟩
  case control =>
    rw [grantLane_mill_of_write hop]
    rfl
  case data => simp only [State.grantLane, hop, hkept, if_false]

end Sys2Proof.Machine

/-! SUPPORT. Posts that join the lane (R14, R15), the flag word (R12, R198) and the reports of a step (R196, R197). -/

namespace Sys2Proof.Machine

/-! ### Posts that join the lane (R14, R15) -/

/-- A merge keeps the poster and the word of every entry. -/
theorem laneMerge_posters {e : LaneEntry} {lane lane' : List LaneEntry} (h : laneMerge e lane = some lane') :
    lane'.map (fun x => (x.poster, x.addr)) = lane.map (fun x => (x.poster, x.addr)) := by
  induction lane generalizing lane' with
  | nil => cases h
  | cons x xs ih =>
    have behind : ∀ {l}, (laneMerge e xs).map (x :: ·) = some l →
        l.map (fun x => (x.poster, x.addr)) = (x :: xs).map (fun x => (x.poster, x.addr)) := by
      intro l hl
      obtain ⟨ys, hys, rfl⟩ := Option.map_eq_some_iff.mp hl
      rw [List.map_cons, List.map_cons, ih hys]
    unfold laneMerge at h
    split at h
    · split at h
      · cases h; rfl
      · exact behind h
    · exact behind h

theorem mergeRun_posters (es lane : List LaneEntry) :
    (mergeRun lane es).1.map (fun x => (x.poster, x.addr)) = lane.map (fun x => (x.poster, x.addr)) := by
  induction es generalizing lane with
  | nil => rfl
  | cons e es ih =>
    unfold mergeRun
    split
    · next l hl => rw [ih, laneMerge_posters hl]
    · rfl

/-- A write merges into the ungranted write of its word, which keeps its place (R14). -/
theorem laneMerge_at {pre : List LaneEntry} (post : List LaneEntry) (p q : Block) {a : Addr} (k k' : Lanes)
    (d d' : Word) (n n' : LandNote) (h : a ∉ writtenWords pre) :
    laneMerge ⟨q, a, .write k' d' n'⟩ (pre ++ ⟨p, a, .write k d n⟩ :: post) =
      some (pre ++ ⟨p, a, .write (k ||| k') ((d' &&& laneBits k') ||| (d &&& ~~~ laneBits k')) (n.merge n')⟩ :: post) := by
  induction pre with
  | nil => simp only [List.nil_append, laneMerge, if_true]
  | cons x xs ih =>
    obtain ⟨xp, xa, xop⟩ := x
    cases xop with
    | write xk xd xn =>
      rw [writtenWords_cons_write rfl, List.mem_cons, not_or] at h
      simp only [List.cons_append, laneMerge, Ne.symm h.1, if_false, ih h.2, Option.map_some]
    | read t =>
      rw [writtenWords_cons_read rfl] at h
      simp only [List.cons_append, laneMerge, ih h, Option.map_some]

/-- A read, and a write of a word that no write of the lane is to, merge nowhere. -/
theorem laneMerge_eq_none {e : LaneEntry} {lane : List LaneEntry}
    (h : ∀ k d n, e.op = .write k d n → e.addr ∉ writtenWords lane) : laneMerge e lane = none := by
  induction lane with
  | nil => rfl
  | cons x xs ih =>
    have behind : laneMerge e xs = none := ih fun k d n hop hx => h k d n hop (mem_writtenWords_tail hx)
    unfold laneMerge
    split
    · next m d n m' d' n' hx he =>
      have apart := h m' d' n' he
      rw [writtenWords_cons_write hx, List.mem_cons, not_or] at apart
      rw [if_neg (Ne.symm apart.1), behind]
      rfl
    · rw [behind]; rfl

/-- A block none of the waiters is does not wait. -/
theorem any_block_eq_false {ws : List Waiter} {q : Block} (h : ∀ w ∈ ws, w.block ≠ q) :
    ws.any (fun w => w.block = q) = false := by
  simpa [List.any_eq_false] using h

theorem offer_of_merge {lane l : List LaneEntry} {ws : List Waiter} {e : LaneEntry} (hw : ∀ w ∈ ws, w.block ≠ e.poster)
    (hm : laneMerge e lane = some l) : offer (lane, ws) e = (l, ws) := by
  simp only [offer, any_block_eq_false hw, Bool.false_eq_true, if_false, hm]

theorem offer_of_no_merge {lane : List LaneEntry} {ws : List Waiter} {e : LaneEntry}
    (hw : ∀ w ∈ ws, w.block ≠ e.poster) (hm : laneMerge e lane = none) :
    offer (lane, ws) e =
      if ws.isEmpty && lane.length < Config.laneDepth then (lane ++ [e], ws) else (lane, ws ++ [⟨e.poster, [e]⟩]) := by
  simp only [offer, any_block_eq_false hw, Bool.false_eq_true, if_false, hm]

/-- A post of a block that waits stands behind its earlier posts (R15). -/
theorem offer_of_waiting {lane : List LaneEntry} {pre post : List Waiter} {w : Waiter} {e : LaneEntry}
    (he : e.poster = w.block) (h : ∀ x ∈ pre ++ post, x.block ≠ w.block) :
    offer (lane, pre ++ w :: post) e = (lane, pre ++ ⟨w.block, w.posts ++ [e]⟩ :: post) := by
  have others : ∀ ws : List Waiter, (∀ x ∈ ws, x.block ≠ w.block) →
      ws.map (fun x => if x.block = e.poster then { x with posts := x.posts ++ [e] } else x) = ws := by
    intro ws hws
    conv_rhs => rw [← List.map_id ws]
    refine List.map_congr_left fun x hx => ?_
    rw [he, if_neg (hws x hx), id]
  have waits : (pre ++ w :: post).any (fun x => x.block = e.poster) = true := by simp [he]
  unfold offer
  rw [if_pos waits, List.map_append, List.map_cons, if_pos he.symm, others pre fun x hx => h x (List.mem_append_left _ hx),
    others post fun x hx => h x (List.mem_append_right _ hx)]

/-- The front post admitted: merged or at the tail, with those behind it that merge (R15). -/
theorem admitPost_eq {lane : List LaneEntry} {w : Waiter} {ws : List Waiter} {e : LaneEntry} {es : List LaneEntry}
    (hw : w.posts = e :: es) (hl : lane.length < 32) :
    admitPost lane (w :: ws) =
      (let r := mergeRun ((laneMerge e lane).getD (lane ++ [e])) es
       (r.1, if r.2 = [] then ws else ⟨w.block, r.2⟩ :: ws)) := by
  have room : lane.length < Config.laneDepth := hl
  cases hm : laneMerge e lane with
  | none =>
    simp only [admitPost, room, if_true, hw, hm, Option.getD_none, List.isEmpty_iff]
    split <;> rfl
  | some l =>
    simp only [admitPost, room, if_true, hw, hm, Option.getD_some, List.isEmpty_iff]
    split <;> rfl

/-- Settles O17: the row by the front post, an offered post by whether its block waits and it merges. -/
theorem postsJoin : Obligations.PostsJoin := by
  refine ⟨fun s w ws e es hs hp hl => ?row, fun lane l e es => ⟨rfl, fun h => ?_, fun h => ?_⟩, ⟨?merges, ?joins,
    fun lane pre post w e he h => offer_of_waiting he h⟩⟩
  case row =>
    have room : ¬32 ≤ s.lane.length := Nat.not_le.mpr hl
    refine ⟨(admitPost s.lane (w :: ws)).1, (admitPost s.lane (w :: ws)).2, ?next, fun l hm => ?merged, fun hm => ?tail⟩
    case next =>
      simp only [exec, execPostAdmitted, hs, List.isEmpty_cons, Bool.false_or, Config.laneDepth, room, decide_false,
        Bool.false_eq_true, if_false]
    case merged =>
      rw [admitPost_eq hp hl, hm]
      exact ⟨rfl, fun h => if_pos h, fun h => if_neg h⟩
    case tail =>
      rw [admitPost_eq hp hl, hm]
      have posters := mergeRun_posters es (s.lane ++ [e])
      have length_eq : (mergeRun (s.lane ++ [e]) es).1.length = s.lane.length + 1 := by
        simpa using congrArg List.length posters
      refine ⟨rfl, length_eq, ?_, fun h => if_pos h, fun h => if_neg h⟩
      have tail := congrArg (fun xs => xs[s.lane.length]?) posters
      simpa using tail
  · simp only [mergeRun, h]
  · simp only [mergeRun, h]
  case merges =>
    intro pre post ws p q a k k' d d' n n' ha hw
    exact offer_of_merge (e := ⟨q, a, .write k' d' n'⟩) hw (laneMerge_at post p q k k' d d' n n' ha)
  case joins =>
    intro lane ws q a op ha hw
    have alone : laneMerge ⟨q, a, op⟩ lane = none := laneMerge_eq_none ha
    rw [offer_of_no_merge (e := ⟨q, a, op⟩) hw alone]
    refine ⟨fun hn hl => if_pos ?_, fun hf => if_neg ?_⟩
    · subst hn
      exact Bool.and_eq_true_iff.mpr ⟨rfl, decide_eq_true hl⟩
    · rw [Bool.and_eq_true, List.isEmpty_iff, decide_eq_true_eq, not_and, Nat.not_lt]
      exact fun hn => hf.resolve_left (fun h => h hn)

/-! ### The flag word (R12, R198) and the enable word (R199) -/

/-- A write of the flag word that waits for its grant carries the new value in all lanes (R12). -/
theorem replaceData_data {a : Addr} {v : Word} {lane : List LaneEntry} {e : LaneEntry} (he : e ∈ replaceData a v lane)
    {k : Lanes} {d : Word} {n : LandNote} (hop : e.op = .write k d n) (ha : e.addr = a) : k = 0xF ∧ d = v := by
  obtain ⟨x, _, rfl⟩ := List.mem_map.mp he
  obtain ⟨xp, xa, xop⟩ := x
  cases xop with
  | write xk xd xn =>
    by_cases hx : xa = a
    · simp only [hx, if_true, LaneOp.write.injEq] at hop
      exact ⟨hop.1.symm, hop.2.1.symm⟩
    · simp only [hx, if_false] at ha
  | read t => cases hop

theorem replaceData_addr (a : Addr) (v : Word) (lane : List LaneEntry) :
    (replaceData a v lane).map (·.addr) = lane.map (·.addr) := by
  rw [replaceData, List.map_map]
  refine List.map_congr_left fun e _ => ?_
  simp only [Function.comp]
  split
  · split <;> rfl
  · rfl

/-- A request of 0s clears no flag (R198). -/
theorem clear_zero_flags (u : Status) : (u.clear 0).flags = u.flags := by
  show u.flags &&& ~~~((0 : Word) &&& _) = u.flags
  rw [show ∀ x : Word, 0 &&& x = 0 from fun _ => BitVec.zero_and]
  exact BitVec.and_allOnes

/-- The interlock covers no word of the status window (R7). -/
theorem interlocks_status (m : Mill) (i : Nat) (r : FieldClass) : m.interlocks .status i r = false := by
  unfold Mill.interlocks
  split
  · rfl
  · simp

/-- Settles O18: the row by its arm, what is replaced by the lane's words. -/
theorem flagWordCleared : Obligations.FlagWordCleared := by
  refine ⟨fun s b rest hs landed htx => ?cleared, fun m lanes data l => ⟨?flags, ?conditions⟩⟩
  case cleared =>
    obtain ⟨_, _, _, hmem, _⟩ := finish_keeps (s.clearFlags b rest landed)
    refine ⟨?_, rfl, rfl, fun hz => ?_, hmem, fun a ha => ?_, fun e he k d n hop hae => ?_, ?_, ?_⟩
    · simp only [exec, execFlagClear, htx]
    · rw [State.clearFlags, hz]
      exact clear_zero_flags s.status
    · rw [hmem]
      show (s.mem.writeWord b.addr 0xF _).readByte a = _
      exact Memory.readByte_writeWord_ne fun i hi _ => ha i hi
    · rcases List.mem_append.mp he with hl | hw
      · exact replaceData_data hl hop hae
      · obtain ⟨ps, hps, hep⟩ := List.mem_flatten.mp hw
        obtain ⟨w, hw', rfl⟩ := List.mem_map.mp hps
        obtain ⟨x, _, rfl⟩ := List.mem_map.mp hw'
        exact replaceData_data hep hop hae
    · exact replaceData_addr _ _ _
    · rw [State.clearFlags, List.map_map]
      rfl
  case flags => rw [judgeRecordLane_of_not_interlocked lanes data (interlocks_status m 0 _)]; rfl
  case conditions => rw [judgeRecordLane_of_not_interlocked lanes data (interlocks_status m 0 _)]; rfl

/-- A block that takes its next event does not wait to post. -/
theorem waits_of_free {s : State} {b : Block} (h : s.free b) : s.waits b = false := by
  have hb := h.2
  rw [State.busy, State.barred, Bool.or_eq_false_iff] at hb
  exact hb.1

/-- Settles O19: the row by its checks, the copy by takeEnable. -/
theorem enableCopied : Obligations.EnableCopied := by
  refine ⟨fun s lanes data hf hh => ⟨?_, rfl, rfl, rfl, rfl⟩, fun m lanes data l => ?_⟩
  · simp only [exec, execEnableWrite, hh, hf.1, waits_of_free hf, Bool.not_false, Bool.and_self, if_true]
  · rw [judgeRecordLane_of_not_interlocked lanes data (interlocks_status m 0 _)]; rfl

end Sys2Proof.Machine

/-! SUPPORT. The reports a step gives the Status Unit (R196, R197) and the end of a step (R15, logs 10 to 12). -/

namespace Sys2Proof.Machine

/-! ### Flag bits -/

theorem Flag.bitNo_lt (f : Flag) : f.bitNo < 32 := by cases f <;> decide

/-- A flag is the one at its bit. -/
theorem Flag.ofNat_bitNo (f : Flag) : Flag.ofNat f.bitNo = f := by cases f <;> rfl

theorem Flag.bitNo_inj {f g : Flag} (h : f.bitNo = g.bitNo) : f = g := by
  rw [← f.ofNat_bitNo, h, g.ofNat_bitNo]

theorem Flag.getLsbD_mask (f : Flag) (i : Nat) : f.mask.getLsbD i = decide (f.bitNo = i) := by
  have small := f.bitNo_lt
  rw [Flag.mask, BitVec.getLsbD_ofNat, Nat.testBit_two_pow]
  by_cases h : f.bitNo = i
  · simp [← h, small]
  · simp [h]

/-- The bits of some flags, over bits already set. -/
theorem getLsbD_foldl_mask (fs : List Flag) (w : Word) (i : Nat) :
    (fs.foldl (fun w f => w ||| f.mask) w).getLsbD i = (w.getLsbD i || fs.any (fun f => decide (f.bitNo = i))) := by
  induction fs generalizing w with
  | nil => simp
  | cons f fs ih => rw [List.foldl_cons, ih, BitVec.getLsbD_or, f.getLsbD_mask, List.any_cons, Bool.or_assoc]

theorem getLsbD_flagsOf (fs : List Flag) (i : Nat) :
    (flagsOf fs).getLsbD i = fs.any (fun f => decide (f.bitNo = i)) := by
  rw [flagsOf, getLsbD_foldl_mask]
  simp

/-- The bits of some flags hold the bit of each flag that is one of them. -/
theorem flagsOf_and_mask_of_mem {fs : List Flag} {f : Flag} (h : f ∈ fs) : flagsOf fs &&& f.mask = f.mask := by
  refine BitVec.eq_of_getLsbD_eq fun i _ => ?_
  rw [BitVec.getLsbD_and, f.getLsbD_mask, getLsbD_flagsOf]
  by_cases hi : f.bitNo = i
  · have : fs.any (fun f => decide (f.bitNo = i)) = true := List.any_eq_true.mpr ⟨f, h, decide_eq_true hi⟩
    rw [this, Bool.true_and]
  · simp [hi]

/-- And the bit of no other. -/
theorem flagsOf_and_mask_of_not_mem {fs : List Flag} {f : Flag} (h : f ∉ fs) : flagsOf fs &&& f.mask = 0 := by
  refine BitVec.eq_of_getLsbD_eq fun i _ => ?_
  rw [BitVec.getLsbD_and, f.getLsbD_mask, getLsbD_flagsOf]
  by_cases hi : f.bitNo = i
  · have : fs.any (fun g => decide (g.bitNo = i)) = false := by
      refine List.any_eq_false.mpr fun g hg => ?_
      rw [decide_eq_true_eq]
      intro hgi
      exact h (Flag.bitNo_inj (hi.trans hgi.symm) ▸ hg)
    rw [this, Bool.false_and]
    simp
  · simp [hi]

theorem conditionMask_of_condition {f : Flag} (h : f ∈ conditionFlags) : f.conditionMask = f.mask := by
  rw [Flag.conditionMask, BitVec.and_comm, flagsOf_and_mask_of_mem h]

/-- No event flag is a condition flag. -/
theorem not_condition_of_event {f : Flag} (h : f ∈ eventFlags) : f ∉ conditionFlags := by
  revert h
  cases f <;> decide

theorem conditionMask_of_event {f : Flag} (h : f ∈ eventFlags) : f.conditionMask = 0 := by
  rw [Flag.conditionMask, BitVec.and_comm, flagsOf_and_mask_of_not_mem (not_condition_of_event h)]

/-- The condition word has the bit of a condition flag by its condition's truth (R197). -/
theorem condition_and_mask_of_holds {m : Mill} {f : Flag} (hf : f ∈ conditionFlags) (h : m.holds f = true) :
    m.condition &&& f.mask = f.mask :=
  flagsOf_and_mask_of_mem (List.mem_filter.mpr ⟨hf, h⟩)

theorem condition_and_mask_of_not_holds {m : Mill} {f : Flag} (h : m.holds f = false) : m.condition &&& f.mask = 0 :=
  flagsOf_and_mask_of_not_mem fun hm => by simp [h] at hm

theorem condition_and_mask_of_event {m : Mill} {f : Flag} (h : f ∈ eventFlags) : m.condition &&& f.mask = 0 :=
  flagsOf_and_mask_of_not_mem fun hm => not_condition_of_event h (List.mem_filter.mp hm).1

/-! ### One report taken -/

/-- What turns true of a word that only grows is what is new. -/
theorem or_and_not_self (c k : Word) : (c ||| k) &&& ~~~c = k &&& ~~~c := by
  refine BitVec.eq_of_getLsbD_eq fun i hi => ?_
  simp only [BitVec.getLsbD_and, BitVec.getLsbD_or, BitVec.getLsbD_not, hi, decide_true, Bool.true_and]
  cases c.getLsbD i <;> simp

/-- Nothing of a word that only shrinks turns true. -/
theorem and_and_not_self (c k : Word) : (c &&& k) &&& ~~~c = 0 := by
  rw [BitVec.and_comm c k, BitVec.and_assoc]
  simp

theorem take_condition_true {u : Status} {f : Flag} (h : f ∈ conditionFlags) : u.take (.condition f true) =
    { u with flags := u.flags ||| (f.mask &&& ~~~u.cond), cond := u.cond ||| f.mask } := by
  rw [Status.take, Status.takeCondition, conditionMask_of_condition h, or_and_not_self]

theorem take_condition_false {u : Status} {f : Flag} (h : f ∈ conditionFlags) : u.take (.condition f false) =
    { u with cond := u.cond &&& ~~~f.mask } := by
  rw [Status.take, Status.takeCondition, conditionMask_of_condition h, and_and_not_self]
  simp

theorem take_condition_event {u : Status} {f : Flag} (h : f ∈ eventFlags) (b : Bool) : u.take (.condition f b) = u := by
  cases b with
  | true =>
    rw [Status.take, Status.takeCondition, conditionMask_of_event h, or_and_not_self]
    simp
  | false =>
    have kept : u.cond &&& ~~~(0 : Word) = u.cond := BitVec.and_allOnes
    rw [Status.take, Status.takeCondition, conditionMask_of_event h, and_and_not_self, kept]
    simp

/-! ### Each condition (section 11.1) -/

theorem Mill.holds_lineTrip_iff (m : Mill) : m.holds .lineTrip = true ↔ ∃ l, (m.lineCtl l).state = .tripped := by
  constructor
  · intro h
    obtain ⟨c, hc, ht⟩ := List.any_eq_true.mp h
    have tripped : c.state = .tripped := by simpa using ht
    simp only [Lines.all, List.mem_cons, List.not_mem_nil, or_false] at hc
    rcases hc with rfl | rfl | rfl
    · exact ⟨.grinder .a, tripped⟩
    · exact ⟨.grinder .b, tripped⟩
    · exact ⟨.pellet, tripped⟩
  · rintro ⟨l, hl⟩
    refine List.any_eq_true.mpr ⟨m.lineCtl l, ?_, by simpa using hl⟩
    cases l with
    | grinder g => cases g <;> simp [Lines.all, Mill.lineCtl, Lines.line, Lines.grinder]
    | pellet => simp [Lines.all, Mill.lineCtl, Lines.line]

theorem Mill.holds_topExceeded_iff (m : Mill) : m.holds .topExceeded = true ↔ ∃ l, (m.lineCtl l).top = true := by
  constructor
  · intro h
    obtain ⟨c, hc, top⟩ := List.any_eq_true.mp h
    simp only [Lines.all, List.mem_cons, List.not_mem_nil, or_false] at hc
    rcases hc with rfl | rfl | rfl
    · exact ⟨.grinder .a, top⟩
    · exact ⟨.grinder .b, top⟩
    · exact ⟨.pellet, top⟩
  · rintro ⟨l, hl⟩
    refine List.any_eq_true.mpr ⟨m.lineCtl l, ?_, hl⟩
    cases l with
    | grinder g => cases g <;> simp [Lines.all, Mill.lineCtl, Lines.line, Lines.grinder]
    | pellet => simp [Lines.all, Mill.lineCtl, Lines.line]

/-! ### The reports of a step taken -/

theorem settleStatus_of_waits {s : State} (h : s.waits .statusUnit = true) : s.settleStatus = s := if_pos h

theorem settleStatus_of_not_waits {s : State} (h : s.waits .statusUnit = false) : s.settleStatus =
    { s with
      status := (s.status.report s.mill.reports s.mill.condition).summarise s.mill
      mill := { s.mill with
        reports := []
        outbox := s.mill.outbox ++
          Status.posts s.status ((s.status.report s.mill.reports s.mill.condition).summarise s.mill) s.mill.reports } } :=
  if_neg (by simp [h])

/-- A changed word of the window in use is posted. -/
theorem mem_posts {old new : Status} {reports : List Report} {base : Addr} {w : Nat} (hb : new.base = some base)
    (hw : w ∈ statusWords) (h : old.word w ≠ new.word w ∨ old.changedOnTheWay reports w = true) :
    (⟨.statusUnit, addrPlus base w, .write 0xF (new.word w) .none⟩ : LaneEntry) ∈ Status.posts old new reports := by
  rw [Status.posts, hb]
  exact List.mem_map.mpr ⟨w, List.mem_filter.mpr ⟨hw, by simpa using h⟩, rfl⟩

theorem posts_of_no_base {old new : Status} (reports : List Report) (h : new.base = none) :
    Status.posts old new reports = [] := by
  rw [Status.posts, h]

/-- Settles O20: a report by its kind, the reports of a step by their fold, the conditions by what their owners hold. -/
theorem reportsSetFlags : Obligations.ReportsSetFlags := by
  refine ⟨fun u f b w x r rs => ⟨rfl, rfl, fun hf => ⟨take_condition_true hf, take_condition_false hf⟩,
    fun hf => take_condition_event hf b, rfl, rfl, rfl, ?figure, ?condition⟩,
    fun u reports m => ⟨Status.report_cond u reports _, rfl, Status.report_enable u reports _,
      fun f hf h => condition_and_mask_of_holds hf h, fun f _ h => condition_and_mask_of_not_holds h,
      fun f hf => condition_and_mask_of_event hf⟩,
    fun s => ⟨settleStatus_of_waits, fun hw => ?taken⟩,
    fun m => ⟨?attention, ?mixHeld, ?short, ?forbid, ?deficit, ?low, m.holds_lineTrip_iff, m.holds_topExceeded_iff,
      ?headWait⟩⟩
  case figure => simp [Status.changedBy]
  case condition => simp [Status.changedBy]
  case taken =>
    rw [settleStatus_of_not_waits hw]
    exact ⟨rfl, rfl, fun base w hb hin h => List.mem_append_right _ (mem_posts hb hin h),
      fun hb => by rw [posts_of_no_base _ hb, List.append_nil]⟩
  case attention => simp only [Mill.holds, toList_any, decide_eq_true_eq, Mill.batch]
  case mixHeld => simp only [Mill.holds, toList_any, decide_eq_true_eq, Mill.batch]
  case short => simp only [Mill.holds, toList_any, decide_eq_true_eq, Mill.order]
  case forbid => simp only [Mill.holds, toList_any, decide_eq_true_eq, Mill.order]
  case deficit => simp only [Mill.holds, toList_any]
  case low => simp only [Mill.holds, toList_any]
  case headWait => simp only [Mill.holds, Bool.or_eq_true, Bool.and_eq_true, decide_eq_true_eq]

end Sys2Proof.Machine

/-! SUPPORT. The end of a step, clause by clause (R15, logs 10 to 12, 60). -/

namespace Sys2Proof.Machine

/-! ### A quiet end -/

/-- A step that reaches no block that waits ends with the blocks as named. -/
theorem leaves_eq_finish {s : State} {m : Mill} (h : s.reaches m = false) :
    s.leaves m = State.finish { s with mill := m } := stepTo_finish (t := { s with mill := m }) h

/-- A block that neither waits nor posts does not wait after the posts. -/
theorem not_waits_offers {b : Block} (es : List LaneEntry) (p : List LaneEntry × List Waiter)
    (hp : p.2.any (fun w => w.block = b) = false) (hes : ∀ e ∈ es, e.poster ≠ b) :
    (es.foldl offer p).2.any (fun w => w.block = b) = false := by
  have one : ∀ (p : List LaneEntry × List Waiter) (e : LaneEntry), p.2.any (fun w => w.block = b) = false →
      e.poster ≠ b → (offer p e).2.any (fun w => w.block = b) = false := by
    intro p e hp he
    unfold offer
    split
    · rw [List.any_map]
      rw [List.any_eq_false] at hp ⊢
      intro w hw
      simp only [Function.comp]
      split <;> exact hp w hw
    · split
      · exact hp
      · split
        · exact hp
        · simp only [List.any_append, hp, List.any_cons, he, decide_false, List.any_nil, Bool.or_self]
  induction es generalizing p with
  | nil => exact hp
  | cons e es ih =>
    exact ih _ (one p e hp (hes e List.mem_cons_self)) fun x hx => hes x (List.mem_cons_of_mem e hx)

/-- The Status Unit after a quiet end at which it does not wait: it has taken the reports (R196, R197, R200). -/
theorem finish_status_quiet {s : State} (hn : s.mill.notices = []) (hl : s.mill.plan.load ≠ .sweeping)
    (hw : s.waits .statusUnit = false) (ho : ∀ e ∈ s.mill.outbox, e.poster ≠ .statusUnit) :
    s.finish.status = (s.status.report s.mill.reports s.mill.condition).summarise s.mill := by
  have notReady : s.settle.readyToRun = false := by
    rw [State.readyToRun, settle_plan, decide_eq_false hl, Bool.false_and, Bool.false_and]
  have ended : s.finish = s.settle := by
    unfold State.finish
    dsimp only
    rw [if_neg (by simp [notReady])]
  have drained : s.drained = s.flush := drain_quiet (s := s.flush) hn _
  have flushed : s.flush.waits .statusUnit = false := not_waits_offers s.mill.outbox (s.lane, s.waiting) hw ho
  have taken : s.settle.status = s.flush.settleStatus.status := by rw [settle_eq, drained]; simp
  rw [ended, taken, settleStatus_of_not_waits flushed]
  rfl

/-! ### Steps that wait for a block (log 11) -/

theorem waiting_ne_nil_of_waits {s : State} {b : Block} (h : s.waits b = true) : s.waiting ≠ [] := by
  intro hn
  simp [State.waits, hn] at h

theorem Block.mem_all (b : Block) : b ∈ Block.all := by cases b <;> decide

/-- A step in which a block acts that can take no event waits as a whole. -/
theorem reaches_of_acts {s : State} {n : Mill} {b : Block} (hw : s.waits b = true) (ha : s.mill.acts n b = true) :
    s.reaches n = true := by
  rw [State.reaches, State.stops, Bool.and_eq_true]
  refine ⟨by simpa using waiting_ne_nil_of_waits hw, List.any_eq_true.mpr ⟨b, b.mem_all, ?_⟩⟩
  simp only [State.barred, hw, ha, Bool.true_or, Bool.and_self]

/-- A step in which only blocks act that can take an event reaches none that cannot. -/
theorem reaches_eq_false {s : State} {n : Mill} (h : ∀ b, s.busy b = true → s.mill.acts n b = false) :
    s.reaches n = false := by
  rw [State.reaches, State.stops, Bool.and_eq_false_iff]
  refine .inr (List.any_eq_false.mpr fun b _ => ?_)
  rw [Bool.and_eq_true]
  rintro ⟨hb, ha⟩
  rw [h b hb] at ha
  cases ha

/-! ### Notices taken (log 10) -/

/-- While no block waits, the oldest notice is taken. -/
theorem nextNotice_of_none {s : State} (h : s.waiting = []) (x : Notice) (xs : List Notice) :
    s.nextNotice [] (x :: xs) = some (x, xs) := by
  have free : s.barred [] x.receiver = false := by simp [State.barred, State.waits, h]
  have unstopped : ∀ n, s.stops [] n = false := fun n => by simp [State.stops, h]
  simp only [State.nextNotice, free, unstopped, Bool.or_self, Bool.false_eq_true, if_false, List.nil_append]

theorem drain_succ_of_none {s : State} {x : Notice} {xs : List Notice} (h : s.waiting = [])
    (hn : s.mill.notices = x :: xs) (n : Nat) : s.drain (n + 1) =
      (State.flush { s with mill := { s.mill with notices := xs }.onNotice x }).drain n := by
  rw [State.drain, hn, nextNotice_of_none h]
  rfl

/-- A notice whose receiver waits to post is kept, and the next looked at (log 11). -/
theorem nextNotice_of_waits {s : State} {x : Notice} (h : s.waits x.receiver = true) (xs : List Notice) :
    s.nextNotice [] (x :: xs) = s.nextNotice [x] xs := by
  simp only [State.nextNotice, State.barred, h, Bool.true_or, if_true, List.nil_append]

/-! ### RETURN and the blocks that wait (R65) -/

/-- What an answer posts is the Action Executor's. -/
theorem answer_posts (m : Mill) (r : Answer) :
    ∃ more, (m.answer r).outbox = m.outbox ++ more ∧ ∀ e ∈ more, e.poster = .actionExecutor := by
  unfold Mill.answer
  split
  · exact ⟨[], by simp, by simp⟩
  · refine ⟨[_, _], (List.append_assoc _ _ _).trans rfl, fun e he => ?_⟩
    simp only [List.mem_cons, List.not_mem_nil, or_false] at he
    rcases he with rfl | rfl <;> rfl

/-- What a change of a bin's book posts is the Stock Unit's. -/
theorem updBin_posts (m : Mill) (i : Fin 48) (f : Bin → Bin) :
    ∃ more, (m.updBin i f).outbox = m.outbox ++ more ∧ ∀ e ∈ more, e.poster = .stockUnit := by
  unfold Mill.updBin
  exact postChanged_posts _ _ _ _ _ _ _

/-- A request for a pass changes neither the queue, the hold, the reference nor the batches (R108). -/
theorem ask_keeps (q : Sequencer) :
    q.ask.queue = q.queue ∧ q.ask.hold = q.hold ∧ q.ask.reference = q.reference ∧ q.ask.nonFinal = q.nonFinal := by
  unfold Sequencer.ask
  split <;> exact ⟨rfl, rfl, rfl, rfl⟩

/-- With an empty outbox a block acts in an answer only if it is the Action Executor. -/
theorem acts_answer {m : Mill} {b : Block} (ho : m.outbox = []) (r : Answer) (hb : b ≠ .actionExecutor) :
    m.acts (m.answer r) b = false := by
  obtain ⟨more, hout, hposter⟩ := answer_posts m r
  rw [Mill.acts, hout, ho, List.nil_append, Bool.or_eq_false_iff]
  refine ⟨List.any_eq_false.mpr fun e he => by simpa [hposter e he] using hb.symm, ?_⟩
  cases b <;> simp_all [Mill.holdsOther]

/-- In the return of a bin act the Action Executor and the Stock Unit alone: the pass is asked for, not held. -/
theorem acts_return {m : Mill} {b : Block} (ho : m.outbox = []) (i : Fin 48) (f : Bin → Bin) (r : Answer)
    (hx : b ≠ .actionExecutor) (hs : b ≠ .stockUnit) : m.acts ((m.updBin i f).answer r).askPass b = false := by
  obtain ⟨words, hwords, hstock⟩ := updBin_posts m i f
  obtain ⟨more, hout, hposter⟩ := answer_posts (m.updBin i f) r
  obtain ⟨hqueue, hhold, hreference, hfinal⟩ := ask_keeps m.seq
  have outbox : ((m.updBin i f).answer r).askPass.outbox = words ++ more := by
    rw [← List.nil_append words, ← ho, ← hwords, ← hout]
    unfold Mill.askPass
    split <;> rfl
  rw [Mill.acts, outbox, Bool.or_eq_false_iff]
  refine ⟨List.any_eq_false.mpr fun e he => ?_, ?_⟩
  · rcases List.mem_append.mp he with h | h
    · simpa [hstock e h] using hs.symm
    · simpa [hposter e h] using hx.symm
  · unfold Mill.askPass
    split <;> cases b <;> simp_all [Mill.holdsOther]

/-- Settles O8: the quiet end by finish_quiet, the waiting by the blocks that act, the notices by the recursion over them. -/
theorem quietEnd : Obligations.QuietEnd := by
  refine ⟨fun s m hn ha hl => ⟨fun hw => reaches_of_none hw m, fun hr => stepTo_waits hr, fun hr => ?quiet, ?kept⟩,
    fun s m hn ha hl hr hw ho => ?status, fun s m hw hd => ?batches,
    fun s x xs hx => ⟨rfl, fun hw n => drain_succ_of_none hw hx n, fun hw => hx ▸ nextNotice_of_waits hw xs⟩,
    fun s n hn => drain_quiet hn n, fun m g b old new available o => ?notices, fun s b arg hh ho => ⟨?returned, ?refused⟩⟩
  case quiet =>
    rw [leaves_eq_finish hr]
    obtain ⟨a, k, e, more, hpop, hrel, he, hmore, hmill, hlane⟩ := finish_quiet (s := { s with mill := m }) hn ha hl
    refine ⟨a, k, e, more, hpop.imp_right fun ⟨hx, hq⟩ => ⟨hx, hq⟩, hrel, he, hmill, hmore, hlane⟩
  case kept =>
    obtain ⟨pending, rstN, strap, mem, _, _, count, refusal⟩ := leaves_keeps s m
    exact ⟨mem, pending, rstN, strap, count, refusal⟩
  case status =>
    rw [leaves_eq_finish hr]
    exact finish_status_quiet (s := { s with mill := m }) hn hl hw ho
  case batches =>
    refine stepTo_waits (reaches_of_acts hw ?_)
    simp [Mill.acts, Mill.holdsOther, Ne.symm hd]
  case notices => exact ⟨rfl, rfl, rfl, rfl, rfl, rfl, rfl, rfl, rfl, rfl, rfl, rfl, rfl, rfl, rfl, rfl, rfl, rfl, rfl,
    rfl, rfl, rfl, rfl, rfl⟩
  case returned =>
    obtain ⟨_, ⟨_, executor⟩, _, owner⟩ := hh
    change s.busy .stockUnit = false at owner
    refine reaches_eq_false fun x hx => acts_return ho b _ _ ?_ ?_
    · exact fun h => Bool.false_ne_true (executor.symm.trans (h ▸ hx))
    · exact fun h => Bool.false_ne_true (owner.symm.trans (h ▸ hx))
  case refused =>
    obtain ⟨_, ⟨_, executor⟩, _⟩ := hh
    refine reaches_eq_false fun x hx => acts_answer ho _ fun h => ?_
    exact Bool.false_ne_true (executor.symm.trans (h ▸ hx))

end Sys2Proof.Machine

/-! SUPPORT. The control requests of the plan (R26 to R32): their outcome, the idle check, reopening, the reads of stage 1. -/

namespace Sys2Proof.Machine

/-! ### The lowest index of a table -/

theorem findAt_eq_some_of_least {α : Type} {n : Nat} {v : Vector α n} {p : α → Bool} {i : Fin n}
    (h : p (getAt v i) = true) (hl : ∀ j, j < i → p (getAt v j) = false) : findAt v p = some i := by
  rw [findAt, List.find?_eq_some_iff_getElem]
  refine ⟨h, i.val, by simp, by simp, fun j hj => ?_⟩
  simpa using hl ⟨j, hj.trans i.isLt⟩ hj

theorem findAt_eq_none_of_all {α : Type} {n : Nat} {v : Vector α n} {p : α → Bool}
    (h : ∀ i, p (getAt v i) = false) : findAt v p = none := by
  rw [findAt, List.find?_eq_none]
  simpa using h

/-! ### Outcomes (R27, R28) -/

/-- The three posts of an outcome; the request stays pending until the zero control word lands. -/
theorem postOutcome_eq (m : Mill) (region : Addr) (r : PlanResult) : m.postOutcome region r = { m with
    plan := { m.plan with control := m.plan.control.map (fun c => { c with stage := .answered }) }
    outbox := m.outbox ++
      [⟨.planController, addrPlus region 1, .write 0xF (wordOf [(m.plan.state.code, 0, 8)]) .none⟩,
       ⟨.planController, addrPlus region 2, .write 0xF (wordOf [(r.code, 0, 8), (r.index, 16, 16)]) .none⟩,
       ⟨.planController, region, .write 0xF 0 .clearsControl⟩] } := by
  simp [Mill.postOutcome, Mill.postPlanState, Mill.post, Mill.postNoted]

theorem planFree_of_free {s : State} (h : s.free .planController) : s.planFree = true := by
  obtain ⟨high, idle⟩ := h
  simp only [State.planFree, high, idle, Bool.not_false, Bool.and_self]

/-- The pairings that R28 gives an outcome other than BAD_CONTROL. -/
theorem controlFits_iff (code : BitVec 8) (s : PlanState) : controlFits code s = true ↔
    (code = 1 ∧ (s = .unplanned ∨ s = .running)) ∨ (code = 2 ∧ (s = .unplanned ∨ s = .opened)) ∨
      (code = 3 ∧ s = .running) := by
  simp only [controlFits, Bool.or_eq_true, Bool.and_eq_true, decide_eq_true_eq, or_assoc]
  rfl

/-- Settles O24: the row by the pairing of code and state, the outcome by its three posts. -/
theorem badControlAnswered : Obligations.BadControlAnswered := by
  refine ⟨fun s code hf hreq h1 h2 h3 => ?row, fun m region r => ?posts⟩
  case row =>
    have unfit : controlFits code s.mill.plan.state = false := by
      rw [← Bool.not_eq_true, controlFits_iff]
      rintro (h | h | h)
      · exact h1 h
      · exact h2 h
      · exact h3 h
    simp only [exec, execBadControl, hreq, planFree_of_free hf, unfit, Bool.not_false, Bool.and_self, if_true]
    rfl
  case posts =>
    rw [postOutcome_eq]
    exact ⟨rfl, Option.isSome_map, rfl⟩

/-! ### PLAN_CLOSE (R28, R32) -/

/-- Reads of one tag posted by the Plan Controller, a list of addresses in order. -/
theorem foldl_postRead (f : Nat → Addr) (tag : ReadTag) (p : Block) (ws : List Nat) (m : Mill) :
    ws.foldl (fun m w => m.postRead p (f w) tag) m =
      { m with outbox := m.outbox ++ ws.map (fun w => ⟨p, f w, .read tag⟩) } := by
  induction ws generalizing m with
  | nil => simp
  | cons w ws ih =>
    rw [List.foldl_cons, ih]
    simp [Mill.postRead]

/-- Settles O22: the row by its checks, the posts by those of the plan state and of the reads. -/
theorem planClosed : Obligations.PlanClosed := by
  intro s hf hreq hstate htx
  have fits : controlFits controlClose s.mill.plan.state = true := (controlFits_iff _ _).mpr (.inr (.inl ⟨rfl, hstate⟩))
  have hpending : s.mill.plan.control.isSome = true := by
    unfold PlanCtl.requested at hreq
    split at hreq
    · next h => rw [h]; rfl
    · cases hreq
  refine ⟨?row, ?_⟩
  case row =>
    simp only [exec, execPlanClose, planFree_of_free hf, hreq, controlClose, decide_true, htx, Option.isNone_none,
      Bool.and_true, Bool.true_and]
    exact if_pos fits
  rw [State.closePlan, Mill.readRegion, foldl_postRead (fun w => addrPlus s.region w)]
  refine ⟨rfl, rfl, Option.isSome_map.trans hpending, ?_⟩
  rw [List.map_map]
  rfl

/-! ### RESTARTED answers (R23, R24) -/

/-- The two posts of an answered action (R21). -/
def answerPosts (m : Mill) (a : Action) (r : Answer) : List LaneEntry :=
  [⟨.actionExecutor, m.recordAddr a.record.kind a.record.idx a.record.kind.answerWord,
      .write 0xF (answerWord a.code r) .none⟩,
   ⟨.actionExecutor, m.recordAddr a.record.kind a.record.idx a.record.kind.actionWord,
      .write 0xF 0 (.clearsMarker a.record)⟩]

theorem postAnswer_eq (m : Mill) (a : Action) (r : Answer) :
    m.postAnswer a r = { m with outbox := m.outbox ++ answerPosts m a r } := by
  simp [Mill.postAnswer, Mill.post, Mill.postNoted, answerPosts, Mill.recordAddr]

theorem foldl_postAnswer (r : Answer) (as : List Action) (m : Mill) :
    as.foldl (fun m a => m.postAnswer a r) m =
      { m with outbox := m.outbox ++ as.flatMap (fun a => answerPosts m a r) } := by
  induction as generalizing m with
  | nil => simp
  | cons a as ih =>
    rw [List.foldl_cons, ih, postAnswer_eq]
    simp [answerPosts, Mill.recordAddr]

/-- Every unanswered action answered RESTARTED, the queue emptied, the markers kept until the zero words land. -/
theorem answerRestarted_eq (m : Mill) : m.answerRestarted = { m with
    actions := ⟨[], m.actions.marked, .none⟩
    outbox := m.outbox ++ m.actions.unanswered.flatMap (fun a => answerPosts m a ⟨0x10, 0⟩) } := by
  rw [Mill.answerRestarted]
  rw [foldl_postAnswer]
  rfl

/-! ### Reopening (R30) -/

/-- STOP posted to a present outlet (R30). -/
theorem postStops_eq (m : Mill) : m.postStops = { m with
    outbox := m.outbox ++
      (if m.presentUnit 6 = true then
        [⟨.packOut, m.recordAddr .unit 6 2, .write (m.deviceMask .unit 6 2) (m.pack.bagger.word 2) .none⟩] else []) ++
      (if m.presentUnit 7 = true then
        [⟨.packOut, m.recordAddr .unit 7 2, .write (m.deviceMask .unit 7 2) (m.pack.loadout.word 2) .none⟩] else []) } := by
  unfold Mill.postStops
  cases h6 : m.presentUnit 6 <;> cases h7 : m.presentUnit 7 <;>
    simp [Mill.postAll, Mill.postRecord, Mill.post, Mill.recordAddr, Mill.deviceMask, Mill.binKind]

/-- Reopening: the blocks as R30 leaves them. -/
theorem reopen_eq (m : Mill) : m.reopen = { m.answerRestarted.postStops with
    plan := { m.plan with state := .opened }
    checker := ⟨[], none, false⟩
    stock := .reset
    book := .reset
    seq := .reset
    weigh := .reset
    lines :=
      ⟨{ GrinderCtl.reset with line := m.lines.grinderA.line.atReopen },
        { GrinderCtl.reset with line := m.lines.grinderB.line.atReopen },
        { PelletCtl.reset with line := m.lines.pellet.line.atReopen }⟩
    pack := .reset
    trips := .reset
    returned := [] } := by
  rw [Mill.reopen, postStops_eq, answerRestarted_eq]

/-! ### The idle check (R30) -/

theorem workingUnit_eq_some {m : Mill} {l : Line} (h : m.presentLine l = true ∧ (m.lineCtl l).state.works = true)
    (hl : ∀ k, lineUnit k < lineUnit l → ¬(m.presentLine k = true ∧ (m.lineCtl k).state.works = true)) :
    m.workingUnit = some (lineUnit l) := by
  have here : (m.presentLine l && (m.lineCtl l).state.works) = true := by simp [h.1, h.2]
  have before : ∀ k, lineUnit k < lineUnit l → (m.presentLine k && (m.lineCtl k).state.works) = false := fun k hk => by
    simpa using hl k hk
  rw [Mill.workingUnit, allLines]
  match l, here, before with
  | .grinder .a, here, _ => simp [here]
  | .grinder .b, here, before => simp [here, before (.grinder .a) (by decide)]
  | .pellet, here, before => simp [here, before (.grinder .a) (by decide), before (.grinder .b) (by decide)]

theorem workingUnit_eq_none {m : Mill} (h : ∀ l, ¬(m.presentLine l = true ∧ (m.lineCtl l).state.works = true)) :
    m.workingUnit = none := by
  have idle : ∀ k, (m.presentLine k && (m.lineCtl k).state.works) = false := fun k => by simpa using h k
  simp [Mill.workingUnit, allLines, idle]

theorem busyOutlet_bagger {m : Mill} (h : m.pack.bagger.state = .bagging ∨ m.pack.bagger.state = .blocked) :
    m.busyOutlet = some 6 := by
  rw [Mill.busyOutlet, if_pos (by simpa using h)]

theorem busyOutlet_loadout {m : Mill} (h : m.pack.bagger.state = .idle ∨ m.pack.bagger.state = .waitLot) :
    m.busyOutlet = if m.pack.loadout.state = .idle ∨ m.pack.loadout.state = .waitLot then none else some 7 := by
  rw [Mill.busyOutlet, if_neg (by rcases h with h | h <;> simp [h])]
  cases m.pack.loadout.state <;> simp

theorem unfinished {m : Mill} (b : Fin 32) (h : (m.batch b).state.final = false) :
    (!(getAt m.seq.batches b).state.final) = true := by
  simpa [Mill.batch] using h

theorem finished {m : Mill} (b : Fin 32) (h : (m.batch b).state.final = true) :
    (!(getAt m.seq.batches b).state.final) = false := by
  simpa [Mill.batch] using h

/-- BUSY past its first class: no order is active. -/
theorem busyIndex_of_no_order {m : Mill} (orders : ∀ o, (m.order o).state.active = false) :
    m.busyIndex = match findAt m.seq.batches (fun b => !b.state.final) with
      | some b => some (0x200 + b.val)
      | none => match m.workingUnit with
        | some u => some (0x300 + u)
        | none => match findAt m.trips.trips (fun t => t.state = .arrived || t.state = .loading) with
          | some t => some (0x400 + t.val)
          | none => m.busyOutlet.map (0x500 + ·) := by
  rw [Mill.busyIndex, findAt_eq_none_of_all orders] <;> rfl

/-- BUSY past its second class: no batch is unfinished. -/
theorem busyIndex_of_no_batch {m : Mill} (orders : ∀ o, (m.order o).state.active = false)
    (batches : ∀ b, (m.batch b).state.final = true) :
    m.busyIndex = match m.workingUnit with
      | some u => some (0x300 + u)
      | none => match findAt m.trips.trips (fun t => t.state = .arrived || t.state = .loading) with
        | some t => some (0x400 + t.val)
        | none => m.busyOutlet.map (0x500 + ·) := by
  rw [busyIndex_of_no_order orders, findAt_eq_none_of_all fun b => finished b (batches b)]

/-- BUSY past its fourth class: no line works and no trip is at the mill. -/
theorem busyIndex_of_no_trip {m : Mill} (orders : ∀ o, (m.order o).state.active = false)
    (batches : ∀ b, (m.batch b).state.final = true)
    (lines : ∀ l, ¬(m.presentLine l = true ∧ (m.lineCtl l).state.works = true))
    (trips : ∀ r, ¬((m.trip r).state = .arrived ∨ (m.trip r).state = .loading)) :
    m.busyIndex = m.busyOutlet.map (0x500 + ·) := by
  rw [busyIndex_of_no_batch orders batches, workingUnit_eq_none lines,
    findAt_eq_none_of_all fun r => by simpa [Mill.trip] using trips r]

/-- Settles O21: the row by the plan state, the reopened blocks by the posts of each part, BUSY by the five classes. -/
theorem planOpened : Obligations.PlanOpened := by
  refine ⟨fun s hf hreq => ⟨fun hs htx => ?unplanned, fun i hs hi => ?busy, fun hs hi htx => ⟨?reopen, ?reopened⟩,
    fun htx h => ?waits⟩, fun s => ⟨?blocks, ?lane, fun e => ⟨fun tag hop => ?read, fun k d n hop => ?write⟩⟩,
    fun m => ⟨fun o ho hlow => ?order, fun orders => ⟨fun b hb hlow => ?batch, fun batches => ⟨fun l hl hlow => ?line,
      fun lines => ⟨fun r hr hlow => ?trip, fun trips => ⟨fun hb => ?bagger, fun hb => ⟨fun hl => ?idle,
        fun h1 h2 => ?loadout⟩⟩⟩⟩⟩⟩⟩
  case unplanned =>
    simp only [exec, execPlanOpen, planFree_of_free hf, hreq, controlOpen, decide_true, Bool.and_self, if_true, hs, htx,
      Option.isNone_none]
    rfl
  case busy =>
    simp only [exec, execPlanOpen, planFree_of_free hf, hreq, controlOpen, decide_true, Bool.and_self, if_true, hs, hi]
    rfl
  case reopen =>
    simp only [exec, execPlanOpen, planFree_of_free hf, hreq, controlOpen, decide_true, Bool.and_self, if_true, hs, hi,
      htx, Option.isNone_none]
  case reopened =>
    rw [State.reopenPlan, postOutcome_eq, reopen_eq, postStops_eq, answerRestarted_eq]
    refine ⟨rfl, rfl, rfl, rfl, rfl, rfl, rfl, rfl, fun l _ => ?_⟩
    cases l with
    | grinder g => cases g <;> exact ⟨rfl, rfl⟩
    | pellet => exact ⟨rfl, rfl⟩
  case waits =>
    have open_ : s.tx.isNone = false := Option.isNone_eq_false_iff.mpr htx
    rcases h with hs | ⟨hs, hi⟩
    · simp only [exec, execPlanOpen, planFree_of_free hf, hreq, controlOpen, decide_true, Bool.and_self, if_true, hs,
        open_, Bool.false_eq_true, if_false, noOccasion]
    · simp only [exec, execPlanOpen, planFree_of_free hf, hreq, controlOpen, decide_true, Bool.and_self, if_true, hs,
        hi, open_, Bool.false_eq_true, if_false, noOccasion]
  case blocks =>
    rw [State.reopenPlan, postOutcome_eq, reopen_eq, postStops_eq, answerRestarted_eq]
    rfl
  case lane =>
    rw [State.discardReads, List.map_map]
    refine List.map_congr_left fun e _ => ?_
    simp only [Function.comp, LaneEntry.discard]
    split
    · rfl
    · rfl
  case read => simp only [LaneEntry.discard, hop, if_true]
  case write => simp only [LaneEntry.discard, hop]
  case order => rw [Mill.busyIndex, findAt_eq_some_of_least (i := o) ho hlow]
  case batch => rw [busyIndex_of_no_order orders, findAt_eq_some_of_least (i := b) (unfinished b hb) fun c hc => finished c (hlow c hc)]
  case line => rw [busyIndex_of_no_batch orders batches, workingUnit_eq_some hl hlow]
  case trip =>
    rw [busyIndex_of_no_batch orders batches, workingUnit_eq_none lines,
      findAt_eq_some_of_least (i := r) (by simpa [Mill.trip] using hr) fun q hq => by simpa [Mill.trip] using hlow q hq]
  case bagger => rw [busyIndex_of_no_trip orders batches lines trips, busyOutlet_bagger hb]; rfl
  case idle => rw [busyIndex_of_no_trip orders batches lines trips, busyOutlet_loadout hb, if_pos hl]; rfl
  case loadout =>
    rw [busyIndex_of_no_trip orders batches lines trips, busyOutlet_loadout hb, if_neg (by simp [h1, h2])]; rfl

end Sys2Proof.Machine

/-! SUPPORT. The rows of actions that one block answers from its own figures: an answer's posts (R20, R21), HOLD and
RESUME (R93, R94), COUNT and LOCKOUT (R63, R64), the queue hold (R118), WITHDRAW and DEPART (R193). -/

namespace Sys2Proof.Machine

/-! ### Answers -/

/-- The head action is the queue's head while none is in execution. -/
theorem queue_of_headAction {m : Mill} {a : Action} (h : m.headAction = some a) : m.actions.queue.head? = some a := by
  unfold Mill.headAction at h
  split at h
  · exact h
  · cases h

/-- Settles O27: the two posts of an answer, and the row for a code outside its record kind's codes. -/
theorem actionsAnswered : Obligations.ActionsAnswered := by
  refine ⟨fun m a rest r h => ?posts, fun s a ha free bad => ?badAction⟩
  case posts =>
    have head : m.actions.queue.head? = some a := by rw [h]; rfl
    simp only [Mill.answer, head, postAnswer_eq]
    rfl
  case badAction =>
    have unknown : (codesOf a.record.kind).contains a.code = false := by simpa using bad
    simp only [exec, execBadAction, ha, unknown, Bool.false_eq_true, if_false]
    exact runMill_next free.1 (busy_of_free free) rfl

/-! ### The rows -/

theorem execHold_eq {s : State} {o : Fin 256} {arg} (h : s.hands ⟨.order, o⟩ 0x02 arg) :
    exec .hold s = .next (s.leaves (s.mill.holdOrder o)) := orderRow_eq h _

theorem execResume_eq {s : State} {o : Fin 256} {arg} (h : s.hands ⟨.order, o⟩ 0x03 arg) :
    exec .resume s = .next (s.leaves (s.mill.resumeOrder o)) := orderRow_eq h _

theorem execRelease_eq {s : State} {o : Fin 256} {arg} (h : s.hands ⟨.order, o⟩ 0x01 arg) :
    exec .release s = .next (s.leaves (s.mill.release o)) := orderRow_eq h _

theorem execCount_eq {s : State} {b : Fin 48} {arg} (h : s.hands ⟨.bin, b⟩ 0x20 arg) :
    exec .count s = .next (s.leaves (s.mill.countBin b)) := binRow_eq h _

theorem execLockout_eq {s : State} {b : Fin 48} {arg} (h : s.hands ⟨.bin, b⟩ 0x21 arg) :
    exec .lockout s = .next (s.leaves (s.mill.lockOut b)) := binRow_eq h _

theorem execQueueHold_eq {s : State} {arg} (h : s.hands ⟨.status, 0⟩ 0x50 arg) :
    exec .queueHold s = .next (s.leaves s.mill.holdQueue) := actionRow_next h _

theorem execQueueResume_eq {s : State} {arg} (h : s.hands ⟨.status, 0⟩ 0x51 arg) :
    exec .queueResume s = .next (s.leaves s.mill.resumeQueue) := actionRow_next h _

theorem execWithdraw_eq {s : State} {t : Fin 8} {arg} (h : s.hands ⟨.truck, t⟩ 0x43 arg) :
    exec .withdraw s = .next (s.leaves (s.mill.withdraw t)) := truckRow_eq h _

theorem execDepart_eq {s : State} {t : Fin 8} {arg} (h : s.hands ⟨.truck, t⟩ 0x42 arg) :
    exec .depart s = .next (s.leaves (s.mill.depart t)) := truckRow_eq h _

/-! ### HOLD and RESUME -/

theorem OrderState.holdable_iff (st : OrderState) : st.holdable = true ↔ st = .released ∨ st = .producing := by
  simp only [OrderState.holdable, Bool.or_eq_true, decide_eq_true_eq]

/-- An order that waits for no hold is visited by the pass and asked for its next batch (R109). -/
theorem passStep_visit {m : Mill} {pos : Nat} {o : Fin 256} {e : OrderEntry} {size : Nat}
    (visiting : m.seq.pass = .visiting pos) (room : m.seq.queue.length < 8) (listed : m.book.releaseList[pos]? = some o)
    (entry : (m.order o).entry = some e) (free : (m.order o).wait ≠ .held)
    (sized : nextSize (m.order o).remaining e.batchSize e.floor m.plan.batchMin = some size) :
    m.passStep = { m with
      seq := { m.seq with pass := .sized pos ⟨o, size, lineMasses (e.chain.getD .reset) size⟩ } } := by
  have queueFree : m.queueFree = true := decide_eq_true room
  simp only [Mill.passStep, visiting, queueFree, listed, entry, if_neg free, sized, Bool.not_true, Bool.false_eq_true,
    if_false]

/-- Settles O32: the two meanings by the state and the wait reason, the pass as an idle or running pass is asked. -/
theorem holdAndResume : Obligations.HoldAndResume := by
  refine ⟨fun s o arg => ⟨fun h => ?hold, fun h => ?resume⟩, fun m run => ?pass, ?visit⟩
  case hold =>
    rw [execHold_eq h, ← OrderState.holdable_iff, Mill.holdOrder]
    refine ⟨fun able free => ?_, fun able held => ?_, fun unable => ?_⟩
    · simp only [able, free, Bool.not_true, Bool.false_eq_true, if_false]; rfl
    · simp only [able, held, Bool.not_true, Bool.false_eq_true, if_false, if_true]; rfl
    · simp only [Bool.eq_false_iff.mpr unable, Bool.not_false, if_true]; rfl
  case resume =>
    rw [execResume_eq h, ← OrderState.holdable_iff, Mill.resumeOrder]
    refine ⟨fun able held => ?_, fun able free => ?_, fun unable => ?_⟩
    · simp only [able, held, Bool.not_true, Bool.false_eq_true, if_false, ne_eq, not_true_eq_false]; rfl
    · simp only [able, free, Bool.not_true, Bool.false_eq_true, if_false, ne_eq, not_false_eq_true, if_true]; rfl
    · simp only [Bool.eq_false_iff.mpr unable, Bool.not_false, if_true]; rfl
  case pass =>
    rw [Mill.askPass_seq_of_running run]
    exact ⟨Sequencer.ask_of_idle, Sequencer.ask_of_not_idle⟩
  case visit =>
    intro m pos o e size visiting room listed entry waits sized
    have free : (m.order o).wait ≠ .held := by rcases waits with h | h | h <;> rw [h] <;> decide
    exact passStep_visit visiting room listed entry free sized

/-! ### RELEASE begun -/

/-- Settles O28: the two refusals in their order, else the reads of the F words. -/
theorem releaseBegun : Obligations.ReleaseBegun := by
  intro s o arg h
  rw [execRelease_eq h, Mill.release]
  refine ⟨fun notIdle => ?_, fun idle full => ?_, fun idle room => ?_⟩
  · rw [if_pos notIdle]; rfl
  · rw [if_neg (not_not.mpr idle), if_pos (show Config.activeOrders ≤ _ from full)]; rfl
  · rw [if_neg (not_not.mpr idle), if_neg (show ¬Config.activeOrders ≤ _ from not_le.mpr room)]
    simp [Mill.readOrderFields, Mill.postRead, Mill.awaits, Mill.recordAddr]

/-! ### The queue hold -/

/-- Settles O37: the two meanings by the hold state; a held queue's head is not taken; the summary takes the state. -/
theorem queueHoldAndResume : Obligations.QueueHoldAndResume := by
  refine ⟨fun s arg h => ?hold, fun s arg h => ?resume, fun m held => ?take, fun u m run => ?figure⟩
  case hold =>
    rw [execQueueHold_eq h, Mill.holdQueue]
    refine ⟨fun free => ?_, fun held => ?_⟩
    · rw [if_neg (by simp [free])]; rfl
    · rw [if_pos held]; rfl
  case resume =>
    rw [execQueueResume_eq h, Mill.resumeQueue]
    refine ⟨fun held => ?_, fun free => ?_⟩
    · rw [if_pos held]; rfl
    · rw [if_neg (by simp [free])]; rfl
  case take =>
    unfold Mill.considerTake
    split
    · rfl
    · simp only [held, Bool.not_true, Bool.and_false, Bool.false_eq_true, if_false]
  case figure => simp only [Status.summarise, if_pos run]

/-! ### COUNT and LOCKOUT -/

/-- Settles O38: the row by the bin's kind, the value read by the two bounds it is judged against. -/
theorem countTaken : Obligations.CountTaken := by
  refine ⟨fun s b arg h => ?row, fun s b a rest w ws free inExec queue index reads => ?counted⟩
  case row =>
    rw [execCount_eq h, Mill.countBin]
    refine ⟨fun counts => ?_, fun other => ?_⟩
    · rw [if_pos (by rcases counts with k | k | k | k <;> rw [k] <;> decide)]; rfl
    · rw [if_neg (by rcases other with k | k | k | k <;> rw [k] <;> decide)]; rfl
  case counted =>
    have named : s.mill.actions.queue.head?.bind (fun a => toBin a.record.idx) = some b := by
      rw [queue]; simp only [List.head?_cons, Option.bind_some, index, toBin_val]
    have row : exec .countReadReturn s = .next (s.leaves ((s.mill.takeReads .countValue).counted b (bits w 0 24))) := by
      change execCountReadReturn s = _
      exact runMill_next free.1 (busy_of_free free) (by simp only [inExec, reads, named])
    intro m x value
    rw [row, Mill.counted, Mill.takeReads_stock]
    refine ⟨fun below => ?_, fun within above => ?_, fun within fits => ⟨fun falls => ?_, fun rises => ?_⟩⟩
    · rw [if_pos below]; rfl
    · rw [if_neg (not_lt.mpr within), if_pos above]; rfl
    · rw [if_neg (not_lt.mpr within), if_neg (not_lt.mpr fits), if_neg (not_lt.mpr falls)]; rfl
    · rw [if_neg (not_lt.mpr within), if_neg (not_lt.mpr fits), if_pos rises]; rfl

/-- Settles O39: the four refusals in their order, else the condition. -/
theorem lockoutTaken : Obligations.LockoutTaken := by
  refine ⟨fun s b arg h => ?row, fun x locked => if_pos locked⟩
  rw [execLockout_eq h, Mill.lockOut]
  refine ⟨fun kind => ?_, fun kind => ⟨fun locked => ?_, fun free held => ?_, fun free none jobs => ?_,
    fun free none idle => ?_⟩⟩
  · simp only [kind, Bool.not_false, if_true]; rfl
  · simp only [kind, locked, Bool.not_true, Bool.false_eq_true, if_false, if_true]; rfl
  · simp only [kind, free, held, Bool.not_true, Bool.false_eq_true, if_false, if_true]; rfl
  · simp only [kind, free, none, jobs, Bool.not_true, Bool.false_eq_true, if_false, if_true, lt_irrefl]; rfl
  · simp only [kind, free, none, idle, Bool.not_true, Bool.false_eq_true, if_false, lt_irrefl]; rfl

/-! ### WITHDRAW and DEPART -/

/-- A truck record is in use while its trip is not OPEN (R7). -/
theorem Mill.inUse_truck (m : Mill) (t : Fin 8) : m.inUse .truck t = true ↔ (m.trip t).state ≠ .opened := by
  simp [Mill.inUse, Mill.trip, getAt]

theorem Mill.fillingTrip_iff (m : Mill) (t : Fin 8) :
    m.fillingTrip t = true ↔ ∃ f, m.pack.loadout.fill = some f ∧ f.truck = t := by
  simp only [Mill.fillingTrip, beq_iff_eq, Option.map_eq_some_iff]

/-- Settles O48: the two meanings by the trip's state, DEPART also by a fill in progress for the trip. -/
theorem withdrawAndDepart : Obligations.WithdrawAndDepart := by
  intro s t arg x
  refine ⟨fun h => ?withdraw, fun h => ?depart, fun opened => ?free, fun gone => ?used⟩
  case withdraw =>
    rw [execWithdraw_eq h, Mill.withdraw]
    refine ⟨fun arrived => ?_, fun departed => ⟨?_, fun o => rfl⟩, fun other => ?_⟩
    · simp only [show (s.mill.trip t).state = .arrived from arrived]; rfl
    · simp only [show (s.mill.trip t).state = .departed from departed]; rfl
    · rcases other with e | e | e <;> simp only [x, show (s.mill.trip t).state = _ from e] <;> rfl
  case depart =>
    rw [execDepart_eq h, Mill.depart]
    refine ⟨fun loaded free => ?_, fun f loaded filling own => ?_, fun other => ?_⟩
    · have notFilling : ¬s.mill.fillingTrip t = true := by
        rw [Mill.fillingTrip_iff]
        rintro ⟨f, filling, own⟩
        exact free f filling own
      rw [if_neg (not_not.mpr loaded), if_neg notFilling]; rfl
    · have filled : s.mill.fillingTrip t = true := (s.mill.fillingTrip_iff t).mpr ⟨f, filling, own⟩
      rw [if_neg (not_not.mpr loaded), if_pos filled]; rfl
    · rw [if_pos other]; rfl
  case free => exact Bool.eq_false_iff.mpr (mt (s.mill.inUse_truck t).mp (not_not.mpr opened))
  case used => exact (s.mill.inUse_truck t).mpr gone

end Sys2Proof.Machine

/-! SUPPORT. DIVERT_HEAD (R66) and what the check of a surge's head lot comes to, case by case (R59, R60). -/

namespace Sys2Proof.Machine

theorem execDivertHead_eq {s : State} {b : Fin 48} {arg} (h : s.hands ⟨.bin, b⟩ 0x23 arg) :
    exec .divertHead s = .next (s.leaves (s.mill.divertHead b)) := binRow_eq h _

/-! ### The check of a head lot -/

theorem Lot.diverts_iff (l : Lot) : l.diverts = true ↔ l.owner = none ∨ l.mark ≠ .none := by
  simp only [Lot.diverts, Bool.or_eq_true, Option.isNone_iff_eq_none, decide_eq_true_eq]

/-- The surge no longer among the waiting diverts. -/
def Mill.stopsWaiting (m : Mill) (g : Surge) : Mill :=
  { m with stock := { m.stock with waitingDiverts := m.stock.waitingDiverts.filter (· ≠ g) } }

/-- The surge at the tail of the waiting diverts, if it was not among them. -/
def Mill.startsWaiting (m : Mill) (g : Surge) : Mill :=
  if m.stock.waitingDiverts.contains g then m
  else { m with stock := { m.stock with waitingDiverts := m.stock.waitingDiverts ++ [g] } }

theorem checkHeads_nil {m : Mill} {g : Surge} {i : Fin 48} (n : Nat) (bin : m.surgeBin g = some i)
    (lots : (getAt m.stock.bins i).lots = []) : m.checkHeads g (n + 1) = m.stopsWaiting g := by
  simp only [Mill.checkHeads, bin, lots, Mill.stopsWaiting]

/-- The head lot judged: one that is not diverted ends the wait; a claimed one is left; one with room is diverted and the
next judged; the others wait. -/
theorem checkHeads_cons {m : Mill} {g : Surge} {i : Fin 48} {l : Lot} {t : List Lot} (n : Nat)
    (bin : m.surgeBin g = some i) (lots : (getAt m.stock.bins i).lots = l :: t) : m.checkHeads g (n + 1) =
      if l.diverts = false then m.stopsWaiting g
      else if (getAt m.stock.bins i).claim = true then m
      else if l.mass ≤ m.reworkRoom then (m.divert g i l).checkHeads g n
      else m.startsWaiting g := by
  simp only [Mill.checkHeads, bin, lots, Mill.stopsWaiting, Mill.startsWaiting, Bool.not_eq_true']

/-! ### The divert of a head lot -/

@[simp] theorem postLots_stock (m : Mill) (i : Fin 48) (ps : List Nat) : (m.postLots i ps).stock = m.stock :=
  Mill.postAll_stock ..

/-- What a divert makes of the surge's bin. -/
def Bin.diverted (b : Bin) (l : Lot) : Bin :=
  { b.fall l.mass with lots := b.lots.tail, claim := false, divertMass := l.mass, divertSeq := b.divertSeq + 1 }

theorem addRework_stock {m : Mill} {r : Fin 48} (rework : m.reworkBin = some r) (mass : Nat) :
    (m.addRework mass).stock = (m.updBin r (·.rise mass)).stock := by
  simp only [Mill.addRework, rework, Mill.addMass, Mill.raiseIf_stock]

/-- The first part of a divert: the lot off its surge, the list posted. -/
def Mill.afterFall (m : Mill) (i : Fin 48) (l : Lot) : Mill := (m.updBin i (·.diverted l)).postLots i allPlaces

theorem divert_stock_bins (m : Mill) (g : Surge) (i : Fin 48) (l : Lot) :
    (m.divert g i l).stock.bins = ((m.afterFall i l).addRework l.mass).stock.bins := rfl

/-- The surge's bin and the REWORK bin after a divert. -/
theorem divert_bins {m : Mill} {g : Surge} {i r : Fin 48} (l : Lot) (bin : m.surgeBin g = some i)
    (rework : m.reworkBin = some r) :
    getAt (m.divert g i l).stock.bins i = ((getAt m.stock.bins i).diverted l).judge ∧
      getAt (m.divert g i l).stock.bins r = ((getAt m.stock.bins r).rise l.mass).judge := by
  have apart : r ≠ i := reworkBin_ne bin rework
  have fall : StockOnly m (m.afterFall i l) :=
    (stockOnly_updBin m i (·.diverted l) rfl).trans (stockOnly_postLots ..)
  rw [divert_stock_bins, addRework_stock (fall.reworkBin.trans rework), Mill.updBin_bin,
    Mill.updBin_other _ _ _ _ apart.symm, Mill.afterFall, postLots_stock, Mill.updBin_bin,
    Mill.updBin_other _ _ _ _ apart]
  exact ⟨rfl, rfl⟩

theorem diverted_mem_reports (m : Mill) (g : Surge) (i : Fin 48) (l : Lot) :
    Report.event .diverted ∈ (m.divert g i l).reports :=
  List.mem_append_right _ (List.mem_singleton_self _)

theorem not_mem_waitingDiverts (m : Mill) (g : Surge) (i : Fin 48) (l : Lot) :
    g ∉ (m.divert g i l).stock.waitingDiverts := by
  simp [Mill.divert]

/-- Settles O41: the row by the bin's surge and lots, the check by checkHeads_cons, the divert by divert_bins. -/
theorem divertHeadTaken : Obligations.DivertHeadTaken := by
  refine ⟨fun s b arg h => ?row, fun l t => ⟨fun bare => ?marks, fun marked => ?keeps⟩, fun m g i n bin =>
    ⟨checkHeads_nil n bin, fun l t lots => ⟨l.diverts_iff, ?drops, ?claimed, ?room, ?waits, ?does⟩, rfl⟩⟩
  case row =>
    rw [execDivertHead_eq h, Mill.divertHead]
    refine ⟨fun none => ?_, fun g surge empty => ?_, fun g surge held => ?_⟩
    · simp only [none]; rfl
    · simp only [surge, empty]; rfl
    · simp only [surge, List.isEmpty_eq_false_iff.mpr held, Bool.false_eq_true, if_false]; rfl
  case marks => simp only [hostMark, bare, if_true]
  case keeps => simp only [hostMark, if_neg marked]
  case drops => intro stays; rw [checkHeads_cons n bin lots, if_pos stays]; rfl
  case claimed => intro goes claim; rw [checkHeads_cons n bin lots, if_neg (by simp [goes]), if_pos claim]
  case room =>
    intro goes free fits
    rw [checkHeads_cons n bin lots, if_neg (by simp [goes]), if_neg (by simp [free]), if_pos fits]
  case waits =>
    intro goes free tight
    rw [checkHeads_cons n bin lots, if_neg (by simp [goes]), if_neg (by simp [free]), if_neg (not_le.mpr tight)]
    rfl
  case does =>
    intro r rework fits
    obtain ⟨surge, other⟩ := divert_bins l bin rework
    have room : m.reworkRoom = (getAt m.stock.bins r).plan.capacity - (getAt m.stock.bins r).level := by
      simp only [Mill.reworkRoom, rework, Bin.room]
    dsimp only
    rw [surge, other]
    refine ⟨by simp [Bin.judge, Bin.diverted, lots], rfl, rfl, rfl, rfl, fun within => ?_,
      diverted_mem_reports m g i l, not_mem_waitingDiverts m g i l⟩
    simp only [Bin.judge, Bin.rise]
    omega

end Sys2Proof.Machine

/-! SUPPORT. The rows of the unit actions: START, STOP and CLEAR_TRIP by unit and state (R153 to R155, R161, R168). -/

namespace Sys2Proof.Machine

/-! ### The rows and their units -/

theorem execStart_eq {s : State} {u : Nat} {arg} (h : s.hands ⟨.unit, u⟩ 0x30 arg) :
    exec .start s = .next (s.leaves (s.mill.startUnit u)) := actionRow_next h _

theorem execStop_eq {s : State} {u : Nat} {arg} (h : s.hands ⟨.unit, u⟩ 0x31 arg) :
    exec .stop s = .next (s.leaves (s.mill.stopUnit u)) := actionRow_next h _

theorem execClearTrip_eq {s : State} {u : Nat} {arg} (h : s.hands ⟨.unit, u⟩ 0x32 arg) :
    exec .clearTrip s = .next (s.leaves (s.mill.clearUnit u)) := actionRow_next h _

theorem lineOfUnit_of_le {u : Nat} (h : u ≤ 2) : lineOfUnit u = none := by
  obtain rfl | rfl | rfl : u = 0 ∨ u = 1 ∨ u = 2 := by omega
  all_goals rfl

/-- A unit with a line is the line's unit. -/
theorem eq_lineUnit {u : Nat} {l : Line} (h : lineOfUnit u = some l) : u = lineUnit l := by
  unfold lineOfUnit at h
  split at h <;> cases h <;> rfl

theorem lineOfUnit_lineUnit (l : Line) : lineOfUnit (lineUnit l) = some l := by
  cases l with
  | grinder g => cases g <;> rfl
  | pellet => rfl

/-- The units from 3 to 7 are a line's, the bagger's and the loadout's. -/
theorem unit_cases {u : Nat} (low : 3 ≤ u) (high : u ≤ 7) : (∃ l, u = lineUnit l) ∨ u = 6 ∨ u = 7 := by
  obtain rfl | rfl | rfl | h | h : u = 3 ∨ u = 4 ∨ u = 5 ∨ u = 6 ∨ u = 7 := by omega
  · exact .inl ⟨.grinder .a, rfl⟩
  · exact .inl ⟨.grinder .b, rfl⟩
  · exact .inl ⟨.pellet, rfl⟩
  · exact .inr (.inl h)
  · exact .inr (.inr h)

/-! ### START -/

theorem startUnit_of_le (m : Mill) {u : Nat} (h : u ≤ 2) : m.startUnit u = m.answer ⟨0x03, 0xFFFF⟩ := by
  have not6 : u ≠ 6 := by omega
  have not7 : u ≠ 7 := by omega
  simp only [Mill.startUnit, lineOfUnit_of_le h, if_neg not6, if_neg not7]
  rfl

theorem startUnit_lineUnit (m : Mill) (l : Line) : m.startUnit (lineUnit l) = m.startLine l := by
  simp only [Mill.startUnit, lineOfUnit_lineUnit]

theorem startLine_of_not_idle {m : Mill} {l : Line} (here : m.presentLine l = true)
    (busy : (m.lineCtl l).state ≠ .idle) :
    m.startLine l = m.answer ⟨0x03, BitVec.ofNat 16 (m.lineCtl l).state.code⟩ := by
  simp only [Mill.startLine, here, Bool.not_true, Bool.false_eq_true, if_false, if_pos busy]
  rfl

theorem startUnit_of_absent {m : Mill} {u : Nat} (low : 3 ≤ u) (high : u ≤ 7) (gone : m.presentUnit u = false) :
    m.startUnit u = m.answer ⟨0x0D, 0⟩ := by
  rcases unit_cases low high with ⟨l, rfl⟩ | rfl | rfl
  · simp only [startUnit_lineUnit, Mill.startLine, Mill.presentLine, gone, Bool.not_false, if_true]; rfl
  · simp only [Mill.startUnit, lineOfUnit, gone, Bool.not_false, if_true]; rfl
  · simp only [Mill.startUnit, lineOfUnit, gone, Bool.not_false, if_true]; rfl

/-- Settles O42: START by the unit, its presence and its state. -/
theorem startTaken : Obligations.StartTaken := by
  intro s u arg h
  rw [execStart_eq h]
  refine ⟨fun low => ?low, fun low high gone => ?absent, fun l line here busy => ?busyLine,
    fun g line here idle => ?grinder, fun line here idle => ⟨fun ch fails => ?stale, fun fresh => ?pellet⟩,
    fun unit here busy => ?busyBagger, fun unit here busy => ?busyLoadout, fun unit here idle => ?bagger,
    fun unit here idle => ?loadout⟩
  case low => rw [startUnit_of_le _ low]
  case absent => rw [startUnit_of_absent low high gone]
  case busyLine => rw [eq_lineUnit line, startUnit_lineUnit, startLine_of_not_idle here busy]
  case grinder =>
    rw [eq_lineUnit line, startUnit_lineUnit]
    simp only [Mill.startLine, here, idle, Bool.not_true, Bool.false_eq_true, if_false, ne_eq, not_true_eq_false]
  case stale =>
    rw [line, show (5 : Nat) = lineUnit .pellet from rfl, startUnit_lineUnit]
    simp only [Mill.startLine, here, idle, Bool.not_true, Bool.false_eq_true, if_false, ne_eq, not_true_eq_false,
      Mill.startPellet, fails]
    rfl
  case pellet =>
    rw [line, show (5 : Nat) = lineUnit .pellet from rfl, startUnit_lineUnit]
    simp only [Mill.startLine, here, idle, Bool.not_true, Bool.false_eq_true, if_false, ne_eq, not_true_eq_false,
      Mill.startPellet, fresh]
    rfl
  case busyBagger =>
    rw [unit]
    simp only [Mill.startUnit, lineOfUnit, here, Bool.not_true, Bool.false_eq_true, if_false, if_true, if_pos busy]
    rfl
  case busyLoadout =>
    rw [unit]
    simp only [Mill.startUnit, lineOfUnit, here, Bool.not_true, Bool.false_eq_true, if_false, if_true, if_pos busy]
    rfl
  case bagger =>
    rw [unit]
    simp only [Mill.startUnit, lineOfUnit, here, idle, Bool.not_true, Bool.false_eq_true, if_false, if_true, ne_eq,
      not_true_eq_false]
    rfl
  case loadout =>
    rw [unit]
    simp only [Mill.startUnit, lineOfUnit, here, idle, Bool.not_true, Bool.false_eq_true, if_false, if_true, ne_eq,
      not_true_eq_false]
    rfl

/-! ### STOP -/

theorem stopUnit_of_le (m : Mill) {u : Nat} (h : u ≤ 2) : m.stopUnit u = m.answer ⟨0x03, 0xFFFF⟩ := by
  have not6 : u ≠ 6 := by omega
  have not7 : u ≠ 7 := by omega
  simp only [Mill.stopUnit, lineOfUnit_of_le h, if_neg not6, if_neg not7]
  rfl

theorem stopUnit_lineUnit (m : Mill) (l : Line) : m.stopUnit (lineUnit l) = m.stopLine l := by
  simp only [Mill.stopUnit, lineOfUnit_lineUnit]

theorem stopUnit_of_absent {m : Mill} {u : Nat} (low : 3 ≤ u) (high : u ≤ 7) (gone : m.presentUnit u = false) :
    m.stopUnit u = m.answer ⟨0x0D, 0⟩ := by
  rcases unit_cases low high with ⟨l, rfl⟩ | rfl | rfl
  · simp only [stopUnit_lineUnit, Mill.stopLine, Mill.presentLine, gone, Bool.not_false, if_true]; rfl
  · simp only [Mill.stopUnit, lineOfUnit, Mill.stopBaggerAction, gone, Bool.not_false, if_true]; rfl
  · exact (show m.stopUnit 7 = m.stopLoadoutAction from rfl).trans (if_pos (by rw [gone]; rfl))

theorem stopLine_of_tripped {m : Mill} {l : Line} (here : m.presentLine l = true)
    (tripped : (m.lineCtl l).state = .tripped) :
    m.stopLine l = m.answer ⟨0x03, BitVec.ofNat 16 LineState.tripped.code⟩ := by
  simp only [Mill.stopLine, here, Bool.not_true, Bool.false_eq_true, if_false, tripped]
  rfl

/-- STOP of an IDLE line: a grinder's request is cleared and its setting read. -/
theorem stopLine_of_idle {m : Mill} {l : Line} (here : m.presentLine l = true)
    (idle : (m.lineCtl l).state = .idle) : (∀ g, l = .grinder g →
      m.stopLine l = ((m.clearAutoStart g).readRefill g false).answer ⟨0x00, 1⟩) ∧
    (l = .pellet → m.stopLine l = m.answer ⟨0x00, 1⟩) := by
  simp only [Mill.stopLine, here, Bool.not_true, Bool.false_eq_true, if_false, idle]
  exact ⟨by rintro g rfl; rfl, by rintro rfl; rfl⟩

/-- STOP of a working line ends its work. -/
theorem stopLine_of_works {m : Mill} {l : Line} (here : m.presentLine l = true)
    (works : (m.lineCtl l).state.works = true) : (∀ g, l = .grinder g →
      m.stopLine l = ((m.clearAutoStart g).endWork (.grinder g) .idle).answer ⟨0x00, 0⟩) ∧
    (l = .pellet → m.stopLine l = (m.endWork .pellet .idle).answer ⟨0x00, 0⟩) := by
  simp only [Mill.stopLine, here, Bool.not_true, Bool.false_eq_true, if_false]
  cases state : (m.lineCtl l).state with
  | idle | tripped => rw [state] at works; cases works
  | running | starved | blocked | draining => exact ⟨by rintro g rfl; rfl, by rintro rfl; rfl⟩

/-- STOP of the present loadout by its state. -/
theorem stopLoadoutAction_cases {m : Mill} (here : m.presentUnit 7 = true) :
    (m.pack.loadout.state = .idle → m.stopLoadoutAction = m.answer ⟨0x00, 1⟩) ∧
    (m.pack.loadout.state = .filling → m.stopLoadoutAction =
      ((m.updLoadout (fun l => { l with stopRequest := true })).cutFill).answer ⟨0x00, 0⟩) ∧
    (m.pack.loadout.state ≠ .idle → m.pack.loadout.state ≠ .filling → m.stopLoadoutAction =
      (m.updLoadout (fun l => { l with state := .idle, spout := false })).answer ⟨0x00, 0⟩) := by
  simp only [Mill.stopLoadoutAction, here, Bool.not_true, Bool.false_eq_true, if_false]
  refine ⟨fun idle => ?_, fun filling => ?_, fun notIdle notFilling => ?_⟩
  · rw [if_pos idle]; rfl
  · rw [if_neg (by rw [filling]; decide), if_pos filling]; rfl
  · rw [if_neg notIdle, if_neg notFilling]; rfl

/-- What an end of work does to a grinder (R155, R159). -/
theorem endWork_grinder (m : Mill) (g : Grinder) (st : LineState) : m.endWork (.grinder g) st =
    let m1 := (m.updLine (.grinder g) (·.rest st)).updGrinder g (fun c => { c with starved := false, blocked := false })
    if (m.lineCtl (.grinder g)).state.works then m1.readRefill g false else m1 := rfl

theorem dropCurrent_eq (m : Mill) : m.dropCurrent =
    let m1 := (m.updPellet (fun c => { c with current := none, drain := none, drainWaits := false })).endClaim .pellet
    (m.lines.pellet.current.map (fun o => (m1.tell (.judgeExhausted o)).tell .pelletGone)).getD m1 := by
  unfold Mill.dropCurrent
  cases m.lines.pellet.current <;> rfl

/-- A claim that ends has the head lot checked. -/
theorem endClaim_of_claim {m : Mill} {g : Surge} {i : Fin 48} (bin : m.surgeBin g = some i)
    (claim : (getAt m.stock.bins i).claim = true) :
    m.endClaim g = (m.updBin i (fun b => { b with claim := false })).checkHead g := by
  simp only [Mill.endClaim, Mill.dropClaim, bin, claim, if_true]

theorem endClaim_of_no_claim {m : Mill} {g : Surge} {i : Fin 48} (bin : m.surgeBin g = some i)
    (free : (getAt m.stock.bins i).claim = false) : m.endClaim g = m := by
  simp only [Mill.endClaim, bin, free, Bool.false_eq_true, if_false]

theorem endClaim_of_no_bin {m : Mill} {g : Surge} (bin : m.surgeBin g = none) : m.endClaim g = m := by
  simp only [Mill.endClaim, bin]

/-- Settles O43: STOP by the unit, its presence and its state, then the ends of work, claim and fill. -/
theorem stopTaken : Obligations.StopTaken := by
  refine ⟨fun s u arg h => ?row, fun m g st => ⟨fun works => ?job, fun rests => ?noJob, rfl⟩,
    fun m => ⟨fun none => ?noOrder, fun o some => ?order⟩,
    fun m g => ⟨endClaim_of_no_bin, fun _ => endClaim_of_no_claim, fun _ => endClaim_of_claim⟩,
    fun m st => ⟨fun bagging => if_pos bagging, fun rests => if_neg rests⟩,
    fun m => ⟨fun none => ?noFill, fun f fill settles => ?settling, fun f fill feeds => ?feeding⟩⟩
  case row =>
    rw [execStop_eq h]
    refine ⟨fun low => ?low, fun low high gone => ?absent, fun l line here tripped => ?tripped,
      fun g line here => ⟨fun idle => ?idleGrinder, fun works => ?grinder⟩,
      fun unit here => ⟨fun idle => ?idlePellet, fun works => ?pellet⟩,
      fun unit here => ⟨fun idle => ?idleBagger, fun busy => ?bagger⟩,
      fun unit here => ⟨fun idle => ?idleLoadout, fun filling => ?fill, fun busy other => ?loadout⟩⟩
    case low => rw [stopUnit_of_le _ low]
    case absent => rw [stopUnit_of_absent low high gone]
    case tripped => rw [eq_lineUnit line, stopUnit_lineUnit, stopLine_of_tripped here tripped]
    case idleGrinder => rw [eq_lineUnit line, stopUnit_lineUnit, (stopLine_of_idle here idle).1 g rfl]
    case grinder => rw [eq_lineUnit line, stopUnit_lineUnit, (stopLine_of_works here works).1 g rfl]
    case idlePellet =>
      rw [unit, show (5 : Nat) = lineUnit .pellet from rfl, stopUnit_lineUnit, (stopLine_of_idle here idle).2 rfl]
    case pellet =>
      rw [unit, show (5 : Nat) = lineUnit .pellet from rfl, stopUnit_lineUnit, (stopLine_of_works here works).2 rfl]
    case idleBagger =>
      rw [unit, show s.mill.stopUnit 6 = s.mill.stopBaggerAction from rfl, Mill.stopBaggerAction,
        if_neg (by rw [here]; decide), if_pos idle]
      rfl
    case bagger =>
      rw [unit, show s.mill.stopUnit 6 = s.mill.stopBaggerAction from rfl, Mill.stopBaggerAction,
        if_neg (by rw [here]; decide), if_neg busy]
      rfl
    case idleLoadout =>
      rw [unit, show s.mill.stopUnit 7 = s.mill.stopLoadoutAction from rfl, (stopLoadoutAction_cases here).1 idle]
    case fill =>
      rw [unit, show s.mill.stopUnit 7 = s.mill.stopLoadoutAction from rfl, (stopLoadoutAction_cases here).2.1 filling]
    case loadout =>
      rw [unit, show s.mill.stopUnit 7 = s.mill.stopLoadoutAction from rfl,
        (stopLoadoutAction_cases here).2.2 busy other]
  case job => rw [endWork_grinder]; exact if_pos works
  case noJob => rw [endWork_grinder]; exact if_neg (by simp [rests])
  case noOrder => rw [dropCurrent_eq, none]; rfl
  case order => rw [dropCurrent_eq, some]; rfl
  case noFill => simp only [Mill.cutFill, none]
  case settling => simp only [Mill.cutFill, fill, settles, if_true]
  case feeding => simp only [Mill.cutFill, fill, feeds, Bool.false_eq_true, if_false]

/-! ### CLEAR_TRIP -/

theorem clearUnit_of_le (m : Mill) {u : Nat} (h : u ≤ 2) : m.clearUnit u = m.answer ⟨0x03, 0xFFFF⟩ := by
  have low : ¬(6 ≤ u) := by omega
  simp only [Mill.clearUnit, lineOfUnit_of_le h, low, decide_false, Bool.false_and, Bool.false_eq_true, if_false]
  rfl

theorem clearUnit_lineUnit (m : Mill) (l : Line) : m.clearUnit (lineUnit l) = m.clearLine l := by
  simp only [Mill.clearUnit, lineOfUnit_lineUnit]

/-- An outlet has no trip to clear. -/
theorem clearUnit_outlet (m : Mill) {u : Nat} (h : u = 6 ∨ u = 7) :
    m.clearUnit u = if m.presentUnit u = true then m.answer ⟨0x03, 0xFFFF⟩ else m.answer ⟨0x0D, 0⟩ := by
  rcases h with rfl | rfl <;> simp only [Mill.clearUnit, lineOfUnit] <;> cases m.presentUnit _ <;> rfl

theorem clearUnit_of_absent {m : Mill} {u : Nat} (low : 3 ≤ u) (high : u ≤ 7) (gone : m.presentUnit u = false) :
    m.clearUnit u = m.answer ⟨0x0D, 0⟩ := by
  rcases unit_cases low high with ⟨l, rfl⟩ | outlet
  · simp only [clearUnit_lineUnit, Mill.clearLine, Mill.presentLine, gone, Bool.not_false, if_true]; rfl
  · rw [clearUnit_outlet m outlet, gone]; rfl

/-- CLEAR_TRIP of a present line by its state and its channels. -/
theorem clearLine_cases {m : Mill} {l : Line} (here : m.presentLine l = true) :
    ((m.lineCtl l).state ≠ .tripped →
      m.clearLine l = m.answer ⟨0x03, BitVec.ofNat 16 (m.lineCtl l).state.code⟩) ∧
    (∀ ch, (m.lineCtl l).state = .tripped → m.firstFailing l m.chanClear = some ch →
      m.clearLine l = m.answer ⟨0x0C, BitVec.ofNat 16 (chanRole ch).val⟩) ∧
    ((m.lineCtl l).state = .tripped → m.firstFailing l m.chanClear = none → m.clearLine l = m.untrip l) := by
  simp only [Mill.clearLine, here, Bool.not_true, Bool.false_eq_true, if_false]
  refine ⟨fun other => ?_, fun ch tripped fails => ?_, fun tripped passes => ?_⟩
  · rw [if_pos other]; rfl
  · rw [if_neg (not_not.mpr tripped), fails]; rfl
  · rw [if_neg (not_not.mpr tripped), passes]

/-- The check of a channel: fresh, its latest sample good and not above the limit. -/
theorem chanClear_iff (m : Mill) (ch : TripChannel) (c : TripChan) : m.chanClear ch c = true ↔
    c.fresh ≠ none ∧ ∃ x, c.latest = some x ∧ x.quality = 0 ∧ x.raw.toInt ≤ m.tripLimit ch := by
  unfold Mill.chanClear
  rw [Bool.and_eq_true, Option.isSome_iff_ne_none]
  refine and_congr_right fun _ => ?_
  cases c.latest with
  | none => simp
  | some x =>
    change _ ↔ ∃ y, some x = some y ∧ y.quality = 0 ∧ y.value ≤ m.tripLimit ch
    simp [Mill.countsAbove, Sample.good]

/-- The pellet line at rest again after a trip. -/
def Mill.restsPellet (m : Mill) : Mill :=
  m.updLine .pellet (fun c => { c with state := .idle, cause := .none, tripOut := false })

theorem untrip_pellet_eq (m : Mill) :
    m.untrip .pellet = ((m.restsPellet.clearAbove .pellet).answer ⟨0x00, 0⟩).tell .pelletLeftTrip := rfl

theorem untrip_pellet_lines (m : Mill) : (m.untrip .pellet).lines = (m.restsPellet.clearAbove .pellet).lines := by
  rw [untrip_pellet_eq, Mill.tell_lines, Mill.answer_lines]

/-- The pellet line after its trip is cleared: IDLE, its cause gone, its trip output inactive, its ceiling kept. -/
theorem untrip_pellet_line (m : Mill) :
    ((m.untrip .pellet).lineCtl .pellet).state = .idle ∧ ((m.untrip .pellet).lineCtl .pellet).cause = .none ∧
    ((m.untrip .pellet).lineCtl .pellet).tripOut = false ∧
    ((m.untrip .pellet).lineCtl .pellet).ceiling = (m.lineCtl .pellet).ceiling := by
  obtain ⟨state, cause, ceiling, _, _, tripOut⟩ := clearAbove_lineCtl m.restsPellet .pellet
  rw [Mill.lineCtl, untrip_pellet_lines, ← Mill.lineCtl, state, cause, ceiling, tripOut, Mill.restsPellet,
    updLine_lineCtl]
  exact ⟨rfl, rfl, rfl, rfl⟩

theorem untrip_pellet_above (m : Mill) : ∀ ch ∈ lineChannels .pellet, ((m.untrip .pellet).chan ch).above = 0 := by
  intro ch mem
  rw [Mill.chan, untrip_pellet_lines]
  exact clearAbove_above m.restsPellet .pellet ch mem

/-- Without a request nothing is started. -/
theorem tryAutoStart_of_no_request {m : Mill} {g : Grinder} (h : (m.grinderCtl g).autoStart = false) :
    m.tryAutoStart g = m := by
  simp only [Mill.tryAutoStart]
  split
  · simp only [h, Bool.false_and, Bool.false_eq_true, if_false]
  · rfl

/-- Settles O44: CLEAR_TRIP by the unit, its presence and its state, then what is left of the line. -/
theorem clearTripTaken : Obligations.ClearTripTaken := by
  refine ⟨fun s u arg h => ?row, fun m => ?pellet, fun m g => ?grinder, chanClear_iff⟩
  case row =>
    rw [execClearTrip_eq h]
    refine ⟨fun low => ?_, fun low high gone => ?_, fun outlet here => ?_, fun l line here => ?_⟩
    · rw [clearUnit_of_le _ low]
    · rw [clearUnit_of_absent low high gone]
    · rw [clearUnit_outlet _ outlet, if_pos here]
    · rw [eq_lineUnit line, clearUnit_lineUnit]
      obtain ⟨other, fails, passes⟩ := clearLine_cases here
      exact ⟨fun a => by rw [other a], fun ch a b => by rw [fails ch a b], fun a b => by rw [passes a b]⟩
  case pellet =>
    obtain ⟨state, cause, tripOut, ceiling⟩ := untrip_pellet_line m
    exact ⟨rfl, state, cause, tripOut, ceiling, untrip_pellet_above m⟩
  case grinder =>
    obtain ⟨⟨state, cause, tripOut, above, ceiling⟩, autoStart, _⟩ := grinder_untripped m g ⟨0x00, 0⟩
    intro c m1
    obtain ⟨causeKept, outKept, loadKept⟩ := tryAutoStart_line m1 g
    refine ⟨rfl, state, causeKept.trans cause, outKept.trans tripOut, (congrArg TripChan.above loadKept).trans above,
      fun none => ?_⟩
    have stays : m1.tryAutoStart g = m1 := tryAutoStart_of_no_request (autoStart.trans none)
    have line : c = m1.lineCtl (.grinder g) := congrArg (fun x => Mill.lineCtl x (.grinder g)) stays
    rw [line]
    exact ⟨state, ceiling⟩

end Sys2Proof.Machine

/-! SUPPORT. The ends of an order: CLOSE, CLEAR, the automatic closing, FINISHING and the make-up credit, and the final
report of a batch (R75, R90, R92, R97, R100 to R102). -/

namespace Sys2Proof.Machine

theorem execClose_eq {s : State} {o : Fin 256} {arg} (h : s.hands ⟨.order, o⟩ 0x05 arg) :
    exec .close s = .next (s.leaves (s.mill.closePacked o)) := orderRow_eq h _

theorem execClear_eq {s : State} {o : Fin 256} {arg} (h : s.hands ⟨.order, o⟩ 0x06 arg) :
    exec .clear s = .next (s.leaves (s.mill.clearOrder o)) := orderRow_eq h _

/-- An order closed gives up its entry, its chain's use counts lowered. -/
theorem closeOrder_eq (m : Mill) (o : Fin 256) : m.closeOrder o =
    (m.updOrder o (fun y => { y with state := .closed, entry := none })).lowerUse (m.order o).slots := rfl

/-! ### What stands against a CLEAR -/

theorem hasLot_iff (m : Mill) (o : Fin 256) :
    m.hasLot o = true ↔ ∃ g l, l ∈ m.lotsOf g ∧ l.owner = some o := by
  have held (g : Surge) : (m.lotsOf g).any (fun l => l.owner = some o) = true ↔ ∃ l, l ∈ m.lotsOf g ∧ l.owner = some o := by
    simp only [List.any_eq_true, decide_eq_true_eq]
  simp only [Mill.hasLot, List.any_cons, List.any_nil, Bool.or_false, Bool.or_eq_true, held]
  constructor
  · rintro (h | h | h)
    exacts [⟨_, h⟩, ⟨_, h⟩, ⟨_, h⟩]
  · rintro ⟨g, h⟩
    cases g
    exacts [.inl h, .inr (.inl h), .inr (.inr h)]

theorem Trip.names_iff (t : Trip) (o : Fin 256) : t.names o = true ↔ ∃ k ∈ t.copy, k.order = o := by
  simp only [Trip.names, List.any_eq_true, decide_eq_true_eq]

/-- The trip is ARRIVED, LOADING or LOADED and names the order. -/
def Mill.atMill (m : Mill) (o : Fin 256) (r : Fin 8) : Prop :=
  ((m.trip r).state = .arrived ∨ (m.trip r).state = .loading ∨ (m.trip r).state = .loaded) ∧
    ∃ k ∈ (m.trip r).copy, k.order = o

/-- What the search of tripAtMill looks for. -/
theorem atMill_iff (m : Mill) (o : Fin 256) (r : Fin 8) :
    (((getAt m.trips.trips r).state = .arrived || (getAt m.trips.trips r).state = .loading
      || (getAt m.trips.trips r).state = .loaded) && (getAt m.trips.trips r).names o) = true ↔ m.atMill o r := by
  simp only [Bool.and_eq_true, Bool.or_eq_true, decide_eq_true_eq, Trip.names_iff, Mill.atMill, Mill.trip, or_assoc]

/-- The lowest index of a table whose entry passes a test. -/
theorem findAt_eq_some_iff {α : Type} {n : Nat} {v : Vector α n} {p : α → Bool} {i : Fin n} :
    findAt v p = some i ↔ p (getAt v i) = true ∧ ∀ j, j < i → p (getAt v j) = false := by
  refine ⟨fun h => ⟨findAt_some h, fun j lt => ?_⟩, fun ⟨h, least⟩ => findAt_eq_some_of_least h least⟩
  rw [findAt, List.find?_eq_some_iff_getElem] at h
  obtain ⟨_, k, hk, at_k, before⟩ := h
  rw [List.getElem_finRange] at at_k
  have below : j.val < k := by
    rw [← at_k] at lt
    exact lt
  simpa using before j.val below

theorem findAt_eq_none_iff {α : Type} {n : Nat} {v : Vector α n} {p : α → Bool} :
    findAt v p = none ↔ ∀ i, p (getAt v i) = false :=
  ⟨fun h i => findAt_none h i, findAt_eq_none_of_all⟩

theorem tripAtMill_eq_none_iff (m : Mill) (o : Fin 256) : m.tripAtMill o = none ↔ ∀ r, ¬m.atMill o r := by
  simp only [Mill.tripAtMill, findAt_eq_none_iff, ← atMill_iff, Bool.not_eq_true]

theorem tripAtMill_eq_some_iff (m : Mill) (o : Fin 256) (r : Fin 8) :
    m.tripAtMill o = some r ↔ m.atMill o r ∧ ∀ q, q < r → ¬m.atMill o q := by
  simp only [Mill.tripAtMill, findAt_eq_some_iff, ← atMill_iff, Bool.not_eq_true]

/-! ### The product order at a CLEAR (R163) -/

/-- The product order of the pellet line, made orphan where it names the slot. -/
theorem orphanProduct_cases (m : Mill) (o : Fin 256) :
    (m.lines.pellet.productOrder = .none → m.orphanProduct o = m) ∧
    (∀ d, m.lines.pellet.productOrder = .order o d →
      m.orphanProduct o = m.updPellet (fun c => { c with productOrder := .orphan d })) ∧
    (∀ p d, p ≠ o → m.lines.pellet.productOrder = .order p d → m.orphanProduct o = m) ∧
    (∀ d, m.lines.pellet.productOrder = .orphan d → m.orphanProduct o = m) := by
  unfold Mill.orphanProduct
  refine ⟨fun h => ?_, fun d h => ?_, fun p d other h => ?_, fun d h => ?_⟩
  · rw [h]
  · simp only [h, if_true]
  · simp only [h, if_neg other]
  · rw [h]

/-! ### The rows -/

theorem closePacked_cases (m : Mill) (o : Fin 256) :
    ((m.order o).state = .packed → (m.order o).nonFinal = 0 → m.closePacked o = (m.closeOrder o).answer ⟨0x00, 0⟩) ∧
    ((m.order o).state = .packed → 0 < (m.order o).nonFinal →
      m.closePacked o = m.answer ⟨0x03, BitVec.ofNat 16 (0x400 + (m.order o).state.code)⟩) ∧
    ((m.order o).state ≠ .packed → m.closePacked o = m.answer ⟨0x03, BitVec.ofNat 16 (m.order o).state.code⟩) := by
  unfold Mill.closePacked
  refine ⟨fun packed final => ?_, fun packed open_ => ?_, fun other => ?_⟩
  · rw [if_neg (not_not.mpr packed), if_neg (by omega)]; rfl
  · rw [if_neg (not_not.mpr packed), if_pos open_]; rfl
  · rw [if_pos other]; rfl

theorem clearOrder_of_open {m : Mill} {o : Fin 256} (notClosed : (m.order o).state ≠ .closed)
    (notCancelled : (m.order o).state ≠ .cancelled) :
    m.clearOrder o = m.answer ⟨0x03, BitVec.ofNat 16 (m.order o).state.code⟩ := by
  unfold Mill.clearOrder
  rw [if_pos (by simp [notClosed, notCancelled])]
  rfl

/-- CLEAR of an ended order: a lot, a trip at the mill, else the record reset. -/
theorem clearOrder_of_ended {m : Mill} {o : Fin 256}
    (ended : (m.order o).state = .closed ∨ (m.order o).state = .cancelled) :
    (m.hasLot o = true → m.clearOrder o = m.answer ⟨0x03, 0x200⟩) ∧
    (∀ t, m.hasLot o = false → m.tripAtMill o = some t →
      m.clearOrder o = m.answer ⟨0x03, BitVec.ofNat 16 (0x300 + t.val)⟩) ∧
    (m.hasLot o = false → m.tripAtMill o = none →
      m.clearOrder o = ((m.updOrder o (fun _ => Order.reset)).orphanProduct o).answer ⟨0x00, 0⟩) := by
  have pass : ¬((m.order o).state ≠ .closed && (m.order o).state ≠ .cancelled) = true := by
    rcases ended with h | h <;> simp [h]
  simp only [Mill.clearOrder, if_neg pass]
  refine ⟨fun lot => ?_, fun t none trip => ?_, fun none free => ?_⟩
  · rw [if_pos lot]; rfl
  · rw [if_neg (by simp [none]), trip]; rfl
  · rw [if_neg (by simp [none]), free]; rfl

/-! ### The automatic closing (R101) -/

theorem tripHolds_eq_false_iff (m : Mill) (o : Fin 256) :
    m.tripHolds o = false ↔ ∀ r, (m.trip r).state = .departed ∨ ∀ k ∈ (m.trip r).copy, k.order ≠ o := by
  rw [← Bool.not_eq_true, Mill.tripHolds, toList_any]
  simp only [Bool.and_eq_true, decide_eq_true_eq, Trip.names_iff, Mill.trip, not_exists, not_and, ne_eq]
  exact forall_congr' fun r => ⟨fun h => or_iff_not_imp_left.mpr h, fun h => or_iff_not_imp_left.mp h⟩

/-- A PACKED BULK order with no non-final batch that no trip but DEPARTED ones names. -/
def Mill.closesItself (m : Mill) (o : Fin 256) : Prop :=
  (m.order o).state = .packed ∧ (m.order o).pack = some .bulk ∧ (m.order o).nonFinal = 0 ∧
    ∀ r, (m.trip r).state = .departed ∨ ∀ k ∈ (m.trip r).copy, k.order ≠ o

/-- The test that the automatic closing makes. -/
theorem closesItself_iff (m : Mill) (o : Fin 256) : ((m.order o).state = .packed && (m.order o).pack = some .bulk
    && (m.order o).nonFinal = 0 && !m.tripHolds o) = true ↔ m.closesItself o := by
  simp only [Bool.and_eq_true, decide_eq_true_eq, Bool.not_eq_true', tripHolds_eq_false_iff, Mill.closesItself, and_assoc]

theorem autoClose_of_closes {m : Mill} {o : Fin 256} (h : m.closesItself o) : m.autoClose o = m.closeOrder o :=
  if_pos ((closesItself_iff m o).mpr h)

theorem autoClose_of_stays {m : Mill} {o : Fin 256} (h : ¬m.closesItself o) : m.autoClose o = m :=
  if_neg (mt (closesItself_iff m o).mp h)

/-! ### The release list (R91) -/

theorem leaveList_releaseList (m : Mill) (o : Fin 256) :
    (m.leaveList o).book.releaseList = m.book.releaseList.filter (· ≠ o) := by
  unfold Mill.leaveList
  cases found : m.book.releaseList.findIdx? (· = o) with
  | some i => rfl
  | none =>
    have off : ∀ p ∈ m.book.releaseList, p ≠ o := by simpa using found
    exact (List.filter_eq_self.mpr fun p hp => decide_eq_true (off p hp)).symm

theorem not_mem_leaveList (m : Mill) (o : Fin 256) : o ∉ (m.leaveList o).book.releaseList :=
  (leaveList_same m o).2

/-! ### FINISHING and the make-up credit (R92, R100) -/

theorem judgeFinishing_of_ends {m : Mill} {o : Fin 256} (works : (m.order o).state = .released ∨
    (m.order o).state = .producing) (remaining : (m.order o).remaining = 0) (inFlight : (m.order o).inFlight = 0) :
    m.judgeFinishing o = (((m.leaveList o).updOrder o (fun y => { y with state := .finishing, wait := .none })).tell
      (.orderFinishing o)).judgeMakeUp o :=
  if_pos (by simp [works, remaining, inFlight])

theorem judgeFinishing_of_stays {m : Mill} {o : Fin 256} (h : ¬(((m.order o).state = .released ∨
    (m.order o).state = .producing) ∧ (m.order o).remaining = 0 ∧ (m.order o).inFlight = 0)) :
    m.judgeFinishing o = m :=
  if_neg (by simpa [and_assoc] using h)

/-- The make-up test passes. -/
def Mill.madeUp (m : Mill) (o : Fin 256) : Prop :=
  (m.order o).state = .finishing ∧ m.exhausted o = true ∧ 0 < (m.order o).shortfall m.plan.bulkTolerance ∧
    (m.order o).scheduled + (m.order o).credit ((m.order o).shortfall m.plan.bulkTolerance) ≤ massMax

/-- The test that the make-up makes. -/
theorem madeUp_iff (m : Mill) (o : Fin 256) :
    ((m.order o).state = .finishing && m.exhausted o && decide (0 < (m.order o).shortfall m.plan.bulkTolerance)
      && decide ((m.order o).scheduled + (m.order o).credit ((m.order o).shortfall m.plan.bulkTolerance) ≤ massMax)) = true
      ↔ m.madeUp o := by
  simp only [Bool.and_eq_true, decide_eq_true_eq, Mill.madeUp, and_assoc]

theorem judgeMakeUp_of_made {m : Mill} {o : Fin 256} (h : m.madeUp o) :
    let credit := (m.order o).credit ((m.order o).shortfall m.plan.bulkTolerance)
    m.judgeMakeUp o = (((m.updOrder o (fun y => { y with
      scheduled := y.scheduled + credit, remaining := y.remaining + credit, state := .producing, wait := .none })).joinList
        o).raise .makeUp).askPass :=
  if_pos ((madeUp_iff m o).mpr h)

theorem judgeMakeUp_of_not_made {m : Mill} {o : Fin 256} (h : ¬m.madeUp o) : m.judgeMakeUp o = m :=
  if_neg (mt (madeUp_iff m o).mp h)

theorem dvd_roundUp {n u : Nat} (h : 0 < u) : u ∣ roundUp n u := by
  rw [roundUp, if_neg (by omega)]
  exact Nat.dvd_mul_left u _

theorem le_roundUp (n u : Nat) : n ≤ roundUp n u := by
  unfold roundUp
  split
  · exact le_rfl
  · next h =>
    have split := Nat.div_add_mod (n + u - 1) u
    have rest := Nat.mod_lt (n + u - 1) (by omega : 0 < u)
    rw [Nat.mul_comm] at split
    omega

theorem roundUp_lt {n u : Nat} (h : 0 < u) : roundUp n u < n + u := by
  rw [roundUp, if_neg (by omega)]
  have := Nat.div_mul_le_self (n + u - 1) u
  omega

/-- The credit of an order: a multiple of the unit, at least the shortfall and the floor, and no more than needed. -/
theorem credit_spec {x : Order} {e : OrderEntry} (entry : x.entry = some e) (n : Nat) (unit : 0 < e.unit)
    (floor : e.unit ∣ e.floor) : e.unit ∣ x.credit n ∧ n ≤ x.credit n ∧ e.floor ≤ x.credit n ∧
      (x.credit n = e.floor ∨ x.credit n < n + e.unit) := by
  have credit : x.credit n = max (roundUp n e.unit) e.floor := by simp only [Order.credit, entry]
  have covers := le_roundUp n e.unit
  have close := roundUp_lt (n := n) unit
  rw [credit]
  refine ⟨?_, by omega, by omega, by omega⟩
  rcases max_choice (roundUp n e.unit) e.floor with h | h <;> rw [h]
  exacts [dvd_roundUp unit, floor]

/-- Settles O34: the two rows, then each of the ends of an order by the test it makes. -/
theorem closeAndClear : Obligations.CloseAndClear := by
  refine ⟨fun s o arg => ⟨fun h => ?close, fun h => ?clear⟩,
    fun m o => ⟨hasLot_iff m o, tripAtMill_eq_none_iff m o, tripAtMill_eq_some_iff m o, orphanProduct_cases m o⟩,
    fun m o => ⟨fun h => (autoClose_of_closes h).trans (closeOrder_eq m o), autoClose_of_stays⟩,
    fun m o => ⟨fun ⟨works, remaining, inFlight⟩ => judgeFinishing_of_ends works remaining inFlight,
      judgeFinishing_of_stays, not_mem_leaveList m o, leaveList_releaseList m o⟩,
    fun m o => ⟨judgeMakeUp_of_made, judgeMakeUp_of_not_made⟩,
    fun x e tol n entry => ⟨fun bag => ?bag, fun bulk => ?bulk, credit_spec entry n⟩,
    fun m o c target => ⟨rfl, rfl, rfl, fun slots => ⟨Mill.useSlots_orders .., lowerUse_count slots m⟩⟩⟩
  case close =>
    rw [execClose_eq h]
    obtain ⟨closes, open_, other⟩ := closePacked_cases s.mill o
    exact ⟨fun a b => by rw [closes a b, closeOrder_eq], fun a b => by rw [open_ a b], fun a => by rw [other a]⟩
  case clear =>
    rw [execClear_eq h]
    refine ⟨fun a b => by rw [clearOrder_of_open a b], fun ended => ?_⟩
    obtain ⟨lot, trip, reset⟩ := clearOrder_of_ended ended
    exact ⟨fun a => by rw [lot a], fun t a b => by rw [trip t a b], fun a b => by rw [reset a b]⟩
  case bag => simp only [Order.shortfall, entry, bag]
  case bulk =>
    simp only [Order.shortfall, entry, bulk]
    exact ⟨fun above => if_pos above, fun within => if_neg (not_lt.mpr within)⟩

end Sys2Proof.Machine

/-! SUPPORT. CANCEL of an order (R95) and what it is handed to: the lots' marks (R62), the scale stage and the mixer (R133),
the pellet line (R164), and the end of a cancellation (R97). -/

namespace Sys2Proof.Machine

theorem execCancel_eq {s : State} {o : Fin 256} {arg} (h : s.hands ⟨.order, o⟩ 0x04 arg) :
    exec .cancel s = .next (s.leaves (s.mill.cancelOrder o)) := orderRow_eq h _

theorem cancelOrder_of_released {m : Mill} {o : Fin 256} (h : (m.order o).state = .released) :
    m.cancelOrder o = (m.cancelReleased o).answer ⟨0x00, 0⟩ := by
  simp only [Mill.cancelOrder, h]; rfl

theorem cancelOrder_of_working {m : Mill} {o : Fin 256}
    (h : (m.order o).state = .producing ∨ (m.order o).state = .finishing) :
    m.cancelOrder o = ((m.beginCancel o).answer ⟨0x00, 1⟩).handCancel o := by
  rcases h with h | h <;> (simp only [Mill.cancelOrder, h]; rfl)

theorem cancelOrder_of_other {m : Mill} {o : Fin 256} (h : (m.order o).state = .idle ∨ (m.order o).state = .packed ∨
    (m.order o).state = .closed ∨ (m.order o).state = .cancelling ∨ (m.order o).state = .cancelled) :
    m.cancelOrder o = m.answer ⟨0x03, BitVec.ofNat 16 (m.order o).state.code⟩ := by
  rcases h with h | h | h | h | h <;> (simp only [Mill.cancelOrder, h]; rfl)

/-! ### The Order Book's part -/

@[simp] theorem updOrder_releaseList (m : Mill) (o : Fin 256) (f : Order → Order) :
    (m.updOrder o f).book.releaseList = m.book.releaseList := by
  simp [Mill.updOrder]

@[simp] theorem leaveList_order (m : Mill) (o p : Fin 256) : (m.leaveList o).order p = m.order p := by
  rw [(leaveList_same m o).1]; rfl

theorem beginCancel_does (m : Mill) (o : Fin 256) :
    (m.beginCancel o).order o = { m.order o with state := .cancelling, endReason := .host, wait := .none } ∧
    o ∉ (m.beginCancel o).book.releaseList ∧ ∀ p, p ≠ o → (m.beginCancel o).order p = m.order p := by
  unfold Mill.beginCancel
  refine ⟨by rw [Mill.updOrder_order, leaveList_order], ?_, fun p other => ?_⟩
  · rw [updOrder_releaseList]
    exact not_mem_leaveList m o
  · rw [Mill.updOrder_other _ _ _ _ other, leaveList_order]

/-- What a cancel from RELEASED does before the marking. -/
def Mill.endReleased (m : Mill) (o : Fin 256) : Mill :=
  (m.leaveList o).giveUp o ({ · with state := .cancelled, endReason := .host, wait := .none })

theorem cancelReleased_eq (m : Mill) (o : Fin 256) : m.cancelReleased o = (m.endReleased o).markOrder o .cancelled := rfl

/-! ### The marks of an order's lots (R62) -/

theorem markLots_eq (o : Fin 256) (mark : Mark) (lots : List Lot) : markLots o mark lots = lots.map (fun l =>
    if l.owner = some o ∧ (mark = .cancelled ∨ l.mark = .none) then { l with mark := mark } else l) := by
  simp only [markLots, Bool.and_eq_true, Bool.or_eq_true, decide_eq_true_eq]

theorem mark_of_mem_markLots {o : Fin 256} {lots : List Lot} {l : Lot} (mem : l ∈ markLots o .cancelled lots)
    (own : l.owner = some o) : l.mark = .cancelled := by
  rw [markLots_eq, List.mem_map] at mem
  obtain ⟨k, _, rfl⟩ := mem
  split at own
  · next h => rw [if_pos h]
  · next h => exact absurd ⟨own, .inl rfl⟩ h

theorem mark_of_mem_markOrder {m : Mill} {o : Fin 256} {g : Surge} {l : Lot}
    (mem : l ∈ (m.markOrder o .cancelled).lotsOf g) (own : l.owner = some o) : l.mark = .cancelled := by
  obtain ⟨k, left⟩ := checkSurges_lots (m.markSurges o .cancelled) g
  rw [Mill.markOrder, left, markSurges_lots] at mem
  exact mark_of_mem_markLots (List.mem_of_mem_drop mem) own

theorem cancelReleased_order (m : Mill) (o p : Fin 256) :
    (m.cancelReleased o).order p = (m.endReleased o).order p :=
  (stockOnly_markOrder (m.endReleased o) o .cancelled).order p

theorem cancelReleased_book (m : Mill) (o : Fin 256) : (m.cancelReleased o).book = (m.endReleased o).book :=
  (stockOnly_markOrder (m.endReleased o) o .cancelled).book

theorem endReleased_does (m : Mill) (o : Fin 256) :
    (m.endReleased o).order o =
      { m.order o with state := .cancelled, endReason := .host, wait := .none, entry := none } ∧
    (∀ p, p ≠ o → (m.endReleased o).order p = m.order p) ∧ o ∉ (m.endReleased o).book.releaseList ∧
    ∀ n : Fin 256, getAt (m.endReleased o).book.useCount n =
      getAt m.book.useCount n - (m.order o).slots.count n.val := by
  obtain ⟨own, others, list, _, uses, _⟩ := giveUp_does (m.leaveList o) o
    ({ · with state := .cancelled, endReason := .host, wait := .none })
  have useCount : (m.leaveList o).book.useCount = m.book.useCount := by rw [(leaveList_same m o).1]
  rw [leaveList_order] at own
  refine ⟨own, fun p other => (others p other).trans (leaveList_order m o p), ?_, fun n => ?_⟩
  · exact fun mem => not_mem_leaveList m o (list ▸ mem)
  · rw [Mill.endReleased, uses n, useCount, leaveList_order]

/-! ### The scale stage and the mixer (R133, R135) -/

theorem cancelBatch_of_own {m : Mill} {o : Fin 256} {b : Fin 32} (weighs : m.weigh.batch = some b)
    (own : (m.batch b).order = some o) : m.cancelBatch o = (m.cancelWeighing b).cancelMixed o := by
  simp only [Mill.cancelBatch, weighs, if_pos own]

theorem cancelBatch_of_not_own {m : Mill} {o : Fin 256}
    (h : ∀ b, m.weigh.batch = some b → (m.batch b).order ≠ some o) : m.cancelBatch o = m.cancelMixed o := by
  unfold Mill.cancelBatch
  split
  · next b weighs => rw [if_neg (h b weighs)]
  · rfl

/-- The batch is the order's, GOOD and not yet discharging. -/
def Batch.reworkable (x : Batch) (o : Fin 256) : Prop :=
  x.order = some o ∧ x.disposition = .good ∧ (x.state = .filling ∨ x.state = .mixing ∨ x.state = .mixed)

theorem cancelMixed_of_batch {m : Mill} {o : Fin 256} {b : Fin 32} (mixes : m.weigh.mixer.batch = some b) :
    ((m.batch b).reworkable o → m.cancelMixed o = m.reworkMixed b) ∧
      (¬(m.batch b).reworkable o → m.cancelMixed o = m) := by
  have test : (((m.batch b).order = some o && (m.batch b).disposition = .good && ((m.batch b).state = .filling ||
      (m.batch b).state = .mixing || (m.batch b).state = .mixed)) = true) ↔ (m.batch b).reworkable o := by
    simp only [Bool.and_eq_true, Bool.or_eq_true, decide_eq_true_eq, Batch.reworkable, and_assoc, or_assoc]
  simp only [Mill.cancelMixed, mixes]
  exact ⟨fun h => if_pos (test.mpr h), fun h => if_neg (mt test.mp h)⟩

theorem not_reworkable {x : Batch} {o : Fin 256} (h : x.order ≠ some o ∨ x.disposition ≠ .good ∨
    (x.state ≠ .filling ∧ x.state ≠ .mixing ∧ x.state ≠ .mixed)) : ¬x.reworkable o := by
  rintro ⟨own, good, filling | mixing | mixed⟩ <;>
    rcases h with other | rework | ⟨notFilling, notMixing, notMixed⟩ <;> contradiction

/-! ### The pellet line (R164) -/

theorem cancelLine_of_feeding {m : Mill} {o : Fin 256} (own : m.lines.pellet.current = some o)
    (feeds : m.lines.pellet.line.state = .running ∨ m.lines.pellet.line.state = .blocked) :
    m.cancelLine o = m.beginDrain := by
  have holds : m.pelletHolds o = true := by simp [Mill.pelletHolds, own]
  rw [Mill.cancelLine, if_pos holds, Mill.drainIfFeeding]
  rcases feeds with h | h <;> rw [h]

theorem drainIfFeeding_of_not_feeding {m : Mill} (notRunning : m.lines.pellet.line.state ≠ .running)
    (notBlocked : m.lines.pellet.line.state ≠ .blocked) : m.drainIfFeeding = m := by
  unfold Mill.drainIfFeeding
  cases state : m.lines.pellet.line.state with
  | running => exact absurd state notRunning
  | blocked => exact absurd state notBlocked
  | idle | starved | draining | tripped => rfl

theorem cancelLine_of_not_feeding {m : Mill} {o : Fin 256} (h : m.lines.pellet.current ≠ some o ∨
    (m.lines.pellet.line.state ≠ .running ∧ m.lines.pellet.line.state ≠ .blocked)) : m.cancelLine o = m := by
  unfold Mill.cancelLine
  split
  · next holds =>
    rcases h with other | ⟨notRunning, notBlocked⟩
    · exact absurd (by simpa [Mill.pelletHolds] using holds) other
    · exact drainIfFeeding_of_not_feeding notRunning notBlocked
  · rfl

/-! ### The end of a cancellation (R97) -/

theorem exhausted_iff (m : Mill) (o : Fin 256) :
    m.exhausted o = true ↔ m.hasLot o = false ∧ m.lines.pellet.current ≠ some o ∧ m.fillHolds o = false := by
  simp [Mill.exhausted, Mill.pelletHolds, and_assoc]

theorem judgeCancelled_of_ended {m : Mill} {o : Fin 256} (cancelling : (m.order o).state = .cancelling)
    (final : (m.order o).nonFinal = 0) (exhausted : m.exhausted o = true) :
    m.judgeCancelled o = m.giveUp o (fun y => { y with state := .cancelled }) :=
  if_pos (by simp [cancelling, final, exhausted])

theorem judgeCancelled_of_open {m : Mill} {o : Fin 256} (h : (m.order o).state ≠ .cancelling ∨
    0 < (m.order o).nonFinal ∨ m.exhausted o = false) : m.judgeCancelled o = m := by
  refine if_neg ?_
  simp only [Bool.and_eq_true, decide_eq_true_eq]
  rintro ⟨⟨cancelling, final⟩, exhausted⟩
  rcases h with other | open_ | held
  · exact other cancelling
  · omega
  · rw [exhausted] at held
    cases held

/-- Settles O33: the row by the order's state, each hand-off by what it finds of the order. -/
theorem cancelTaken : Obligations.CancelTaken := by
  refine ⟨fun s o arg h => ?row, fun m o => ?begin, fun m o => ?released,
    fun m o mark => ⟨fun g => ?marks, checkSurges_eq (m.markSurges o mark)⟩, fun m o => ⟨rfl, rfl, fun b => cancelBatch_of_own,
      cancelBatch_of_not_own, fun none => ?noBatch, fun b mixes => ?mixed, cancelLine_of_feeding,
      cancelLine_of_not_feeding⟩, fun m o => ⟨judgeCancelled_of_ended, judgeCancelled_of_open, exhausted_iff m o⟩⟩
  case row =>
    rw [execCancel_eq h]
    exact ⟨fun a => by rw [cancelOrder_of_released a], fun a => by rw [cancelOrder_of_working a],
      fun a => by rw [cancelOrder_of_other a]⟩
  case begin =>
    obtain ⟨own, off, others⟩ := beginCancel_does m o
    rw [own]
    exact ⟨rfl, rfl, rfl, off, others⟩
  case released =>
    obtain ⟨own, others, off, uses⟩ := endReleased_does m o
    intro t
    rw [show t.order o = _ from (cancelReleased_order m o o).trans own, cancelReleased_book]
    exact ⟨rfl, rfl, rfl, rfl, off, fun p other => (cancelReleased_order m o p).trans (others p other), uses,
      fun g l => mark_of_mem_markOrder⟩
  case marks => rw [markSurges_lots, markLots_eq]
  case noBatch => simp only [Mill.cancelMixed, none]
  case mixed =>
    obtain ⟨reworks, stays⟩ := cancelMixed_of_batch (o := o) mixes
    exact ⟨fun own good state => reworks ⟨own, good, state⟩, fun h => stays (not_reworkable h)⟩

end Sys2Proof.Machine

/-! SUPPORT. The batch actions on a line in ATTENTION (R128 to R131). -/

namespace Sys2Proof.Machine

/-! ### The order in which a line action is judged (R129) -/

/-- The scale that an argument names, if it is present. -/
theorem scaleArg_eq_some_iff (m : Mill) (arg : BitVec 24) (sc : Scale) :
    m.scaleArg arg = some sc ↔ arg = BitVec.ofNat 24 (scaleNo sc) ∧ m.presentUnit (scaleUnit sc) = true := by
  unfold Mill.scaleArg
  constructor
  · intro h
    split at h
    · next one => cases h; simpa [scaleNo, scaleUnit] using one
    · split at h
      · next two => cases h; simpa [scaleNo, scaleUnit] using two
      · cases h
  · rintro ⟨rfl, here⟩
    cases sc with
    | one => exact if_pos (by simpa [scaleNo, scaleUnit] using here)
    | two => exact (if_neg (by simp [scaleNo])).trans (if_pos (by simpa [scaleNo, scaleUnit] using here))

/-- A line action refused: the batch not WEIGHING, no present scale named, the scale not in ATTENTION, its cause not
accepted. -/
theorem lineAction_refuses (m : Mill) (b : Fin 32) (arg : BitVec 24) (accepts : Cause → Bool) (f : Scale → Mill → Mill) :
    ((m.batch b).state ≠ .weighing →
      m.lineAction b arg accepts f = m.answer ⟨0x03, BitVec.ofNat 16 (m.batch b).state.code⟩) ∧
    ((m.batch b).state = .weighing → m.scaleArg arg = none →
      m.lineAction b arg accepts f = m.answer ⟨0x04, arg.extractLsb' 0 16⟩) ∧
    (∀ sc, (m.batch b).state = .weighing → m.scaleArg arg = some sc →
      ((m.scale sc).state ≠ .attention → m.lineAction b arg accepts f =
        m.answer ⟨0x03, BitVec.ofNat 16 (0x100 + (m.scale sc).state.code)⟩) ∧
      ((m.scale sc).state = .attention → accepts (m.scale sc).cause = false → m.lineAction b arg accepts f =
        m.answer ⟨0x03, BitVec.ofNat 16 (0x200 + (m.scale sc).cause.code)⟩)) := by
  unfold Mill.lineAction
  refine ⟨fun other => ?_, fun weighs none => ?_, fun sc weighs named => ⟨fun calm => ?_, fun alarm cause => ?_⟩⟩
  · rw [if_pos other]; rfl
  · rw [if_neg (not_not.mpr weighs), none]; rfl
  · rw [if_neg (not_not.mpr weighs), named]; exact if_pos calm
  · rw [if_neg (not_not.mpr weighs), named]
    exact (if_neg (not_not.mpr alarm)).trans (if_pos (by rw [cause]; rfl))

/-- A line action carried out. -/
theorem lineAction_runs {m : Mill} {b : Fin 32} {arg : BitVec 24} {accepts : Cause → Bool} {sc : Scale}
    (f : Scale → Mill → Mill) (weighs : (m.batch b).state = .weighing) (named : m.scaleArg arg = some sc)
    (alarm : (m.scale sc).state = .attention) (cause : accepts (m.scale sc).cause = true) :
    m.lineAction b arg accepts f = f sc m := by
  unfold Mill.lineAction
  rw [if_neg (not_not.mpr weighs), named]
  exact (if_neg (not_not.mpr alarm)).trans (if_neg (by rw [cause]; decide))

/-! ### The rows -/

theorem execAccept_eq {s : State} {b : Fin 32} {arg} (h : s.hands ⟨.batch, b⟩ 0x10 arg) : exec .accept s =
    .next (s.leaves (s.mill.lineAction b arg acceptCause (fun sc m => m.finishAttention b sc))) :=
  batchRow_eq h (fun b arg m => m.lineAction b arg acceptCause (fun sc m => m.finishAttention b sc))

theorem execTopUp_eq {s : State} {b : Fin 32} {arg} (h : s.hands ⟨.batch, b⟩ 0x11 arg) : exec .topUp s =
    .next (s.leaves (s.mill.lineAction b arg topUpCause (fun sc m => m.topUpLine b sc))) :=
  batchRow_eq h (fun b arg m => m.lineAction b arg topUpCause (fun sc m => m.topUpLine b sc))

theorem execSkipLine_eq {s : State} {b : Fin 32} {arg} (h : s.hands ⟨.batch, b⟩ 0x12 arg) : exec .skipLine s =
    .next (s.leaves (s.mill.lineAction b arg skipCause (fun sc m => m.finishAttention b sc))) :=
  batchRow_eq h (fun b arg m => m.lineAction b arg skipCause (fun sc m => m.finishAttention b sc))

theorem execRetry_eq {s : State} {b : Fin 32} {arg} (h : s.hands ⟨.batch, b⟩ 0x13 arg) : exec .retry s =
    .next (s.leaves (s.mill.lineAction b arg retryCause (fun sc m => m.retryLine b sc))) :=
  batchRow_eq h (fun b arg m => m.lineAction b arg retryCause (fun sc m => m.retryLine b sc))

/-- Each of the four actions is a line action with its causes. -/
theorem lineRow_eq {s : State} {b : Fin 32} {code : BitVec 8} {i : Instr} {causes : List Cause} {arg : BitVec 24}
    (mem : (code, i, causes) ∈ [((0x10 : BitVec 8), Instr.accept, [Cause.under, .over]), (0x11, .topUp, [.under]),
       (0x12, .skipLine, [.stalled, .under, .over]), (0x13, .retry, [.stalled])])
    (h : s.hands ⟨.batch, b⟩ code arg) : ∃ accepts f, (∀ c, c ∉ causes → accepts c = false) ∧
      exec i s = .next (s.leaves (s.mill.lineAction b arg accepts f)) := by
  simp only [List.mem_cons, Prod.mk.injEq, List.not_mem_nil, or_false] at mem
  rcases mem with ⟨rfl, rfl, rfl⟩ | ⟨rfl, rfl, rfl⟩ | ⟨rfl, rfl, rfl⟩ | ⟨rfl, rfl, rfl⟩
  · exact ⟨_, _, fun c => by cases c <;> decide, execAccept_eq h⟩
  · exact ⟨_, _, fun c => by cases c <;> decide, execTopUp_eq h⟩
  · exact ⟨_, _, fun c => by cases c <;> decide, execSkipLine_eq h⟩
  · exact ⟨_, _, fun c => by cases c <;> decide, execRetry_eq h⟩

/-! ### What they do -/

theorem retryLine_cases (m : Mill) (b : Fin 32) (sc : Scale) :
    (0 < m.stock.unbooked b (m.scale sc).current → m.retryLine b sc =
      (m.nextPhase b sc (m.stock.unbooked b (m.scale sc).current)).answer
        ⟨0x00, BitVec.ofNat 16 (m.scale sc).current⟩) ∧
    (m.stock.unbooked b (m.scale sc).current = 0 → m.retryLine b sc =
      ((m.leaveAttention b sc).checkTolerance b sc).answer ⟨0x00, BitVec.ofNat 16 (m.scale sc).current⟩) := by
  simp only [Mill.retryLine]
  exact ⟨fun some => by rw [if_neg (by omega)]; rfl, fun none => by rw [if_pos none]; rfl⟩

theorem topUpLine_cases (m : Mill) (b : Fin 32) (sc : Scale) :
    let l := (m.scale sc).current
    let deficit := (m.batch b).lineTarget l - (m.batch b).lineActual l
    let bin := ((m.batch b).chainLine l).bin
    (deficit ≤ (getAt m.stock.bins bin).available → m.topUpLine b sc =
      ((m.makeEntry b ⟨l, bin, deficit⟩).nextPhase b sc deficit).answer ⟨0x00, BitVec.ofNat 16 l⟩) ∧
    ((getAt m.stock.bins bin).available < deficit → m.topUpLine b sc = m.answer ⟨0x0B, BitVec.ofNat 16 bin.val⟩) := by
  simp only [Mill.topUpLine, Mill.reserveLine]
  exact ⟨fun covered => by rw [if_pos covered]; rfl, fun short => by rw [if_neg (not_le.mpr short)]; rfl⟩

/-- The attention of a batch once a scale has left it. -/
theorem leaveAttention_batch (m : Mill) (b : Fin 32) (sc : Scale) : (m.leaveAttention b sc).batch b =
    if (m.batch b).attention.scale = scaleNo sc then
      { m.batch b with attention :=
          if (m.scale (otherScale sc)).state = .attention then
            attentionOf (m.batch b) (otherScale sc) (m.scale (otherScale sc)) else .reset }
    else m.batch b :=
  Mill.updBatch_batch ..

/-- Settles O35: each row is a line action; judged in its order, then carried out by its meaning. -/
theorem lineActions : Obligations.LineActions := by
  refine ⟨?runs, ?refuses, scaleArg_eq_some_iff, fun m b sc target => ⟨rfl, rfl, fun other => ?kept, fun shown => ?shown⟩⟩
  case runs =>
    intro s b sc arg c x line weighs here alarm
    have named : s.mill.scaleArg arg = some sc := (scaleArg_eq_some_iff ..).mpr ⟨rfl, here⟩
    refine ⟨fun h cause => ?_, fun h cause => ?_, fun h cause => ?_, fun h cause => ?_⟩
    · rw [execAccept_eq h, lineAction_runs _ weighs named alarm (by simpa [acceptCause] using cause)]
      rfl
    · rw [execSkipLine_eq h, lineAction_runs _ weighs named alarm (by simpa [skipCause, or_assoc] using cause)]
      rfl
    · rw [execRetry_eq h, lineAction_runs _ weighs named alarm (by simpa [retryCause] using cause)]
      obtain ⟨some, none⟩ := retryLine_cases s.mill b sc
      exact ⟨fun a => by rw [some a], fun a => by rw [none a]⟩
    · rw [execTopUp_eq h, lineAction_runs _ weighs named alarm (by simpa [topUpCause] using cause)]
      obtain ⟨covered, short⟩ := topUpLine_cases s.mill b sc
      exact ⟨fun a => by rw [covered a], fun a => by rw [short a]⟩
  case refuses =>
    intro code i causes mem s b arg h
    obtain ⟨accepts, f, only, row⟩ := lineRow_eq mem h
    obtain ⟨other, unnamed, judged⟩ := lineAction_refuses s.mill b arg accepts f
    rw [row]
    refine ⟨fun a => by rw [other a], fun a b => by rw [unnamed a b], fun sc weighs named => ?_⟩
    obtain ⟨calm, cause⟩ := judged sc weighs named
    exact ⟨fun a => by rw [calm a], fun a b => by rw [cause a (only _ b)]⟩
  case kept => rw [leaveAttention_batch, if_neg other]
  case shown =>
    rw [leaveAttention_batch, if_pos shown]
    exact ⟨fun calm => if_neg calm, fun alarm => if_pos alarm⟩

end Sys2Proof.Machine

/-! SUPPORT. ABORT of a batch (R115, R133) and what it sets off: the removal of queued batches, the re-check of the gaps
(R116), cancelled weighing (R132) and the mass given back to the order (R90). -/

namespace Sys2Proof.Machine

theorem execAbort_eq {s : State} {b : Fin 32} {arg} (h : s.hands ⟨.batch, b⟩ 0x14 arg) :
    exec .abort s = .next (s.leaves (s.mill.abortBatch b)) := batchRow_eq h (fun b _ m => m.abortBatch b)

/-! ### ABORT by the batch's state -/

theorem abortBatch_of_queued {m : Mill} {b : Fin 32} (h : (m.batch b).state = .queued) :
    m.abortBatch b = (m.removeBatches [b]).answer ⟨0x00, 0⟩ := by
  simp only [Mill.abortBatch, h]; rfl

theorem abortBatch_of_weighing {m : Mill} {b : Fin 32}
    (h : (m.batch b).state = .weighing ∨ (m.batch b).state = .weighed) :
    (m.weigh.cancelled = false → m.abortBatch b = (m.cancelWeighing b).answer ⟨0x00, 0⟩) ∧
      (m.weigh.cancelled = true → m.abortBatch b = m.answer ⟨0x00, 1⟩) := by
  rcases h with h | h <;> simp only [Mill.abortBatch, h] <;>
    exact ⟨fun open_ => by rw [open_]; rfl, fun cancelled => by rw [cancelled]; rfl⟩

theorem abortBatch_of_mixer {m : Mill} {b : Fin 32}
    (h : (m.batch b).state = .filling ∨ (m.batch b).state = .mixing ∨ (m.batch b).state = .mixed) :
    ((m.batch b).disposition = .good → m.abortBatch b = (m.reworkMixed b).answer ⟨0x00, 0⟩) ∧
      ((m.batch b).disposition = .rework → m.abortBatch b = m.answer ⟨0x00, 1⟩) := by
  rcases h with h | h | h <;> simp only [Mill.abortBatch, h] <;>
    exact ⟨fun good => by rw [good]; rfl, fun rework => by rw [rework]; rfl⟩

theorem abortBatch_of_over {m : Mill} {b : Fin 32}
    (h : (m.batch b).state = .discharging ∨ (m.batch b).state.final = true) :
    m.abortBatch b = m.answer ⟨0x03, BitVec.ofNat 16 (m.batch b).state.code⟩ := by
  unfold Mill.abortBatch
  cases state : (m.batch b).state with
  | free | discharging | done | removed | void => simp only [state]; rfl
  | queued | weighing | weighed | filling | mixing | mixed => rw [state] at h; simp [BatchState.final] at h

/-! ### The removal of queued batches (R115, R116) -/

/-- A queued batch taken out: its reservations released, REMOVED, out of the queue. -/
def Mill.dequeue (m : Mill) (b : Fin 32) : Mill :=
  let m1 := (m.releaseBatch b).updBatch .batchSequencer b (fun y => { y with state := .removed })
  m1.setQueue (m1.seq.queue.filter (· ≠ b))

theorem removeOne_of_flush {m : Mill} {b : Fin 32} (h : (m.batch b).order = none) :
    m.removeOne b = (m.dequeue b).reportFinal none (m.batch b).chain := by
  simp only [Mill.removeOne, h]; rfl

theorem removeOne_of_order {m : Mill} {b : Fin 32} {o : Fin 256} (h : (m.batch b).order = some o) :
    m.removeOne b = ((m.dequeue b).returnMass o (m.batch b).target).reportFinal (some o) (m.batch b).chain := by
  simp only [Mill.removeOne, h]; rfl

/-- The batches removed, and the gaps they open re-checked. -/
def Mill.afterRemoval (m : Mill) (rs : List (Fin 32)) : Mill :=
  (rs.foldl (fun m b => m.removeOne b) m).recheckGaps
    (gapsOf (fun b => (m.batch b).member) rs m.seq.reference false m.seq.queue)

theorem removeBatches_of_nonempty {m : Mill} {rs : List (Fin 32)} (h : rs ≠ []) : m.removeBatches rs =
    if (m.afterRemoval rs).seq.queue.length < m.seq.queue.length then (m.afterRemoval rs).askPass
    else m.afterRemoval rs :=
  if_neg (by simp [h])

/-- A gap is opened by a run of removed batches before a batch that stays. -/
theorem gapsOf_cons (who : Fin 32 → Reference) (rs : List (Fin 32)) (ahead : Option Reference) (run : Bool) (b : Fin 32)
    (t : List (Fin 32)) :
    (b ∈ rs → gapsOf who rs ahead run (b :: t) = gapsOf who rs ahead true t) ∧
    (b ∉ rs → gapsOf who rs ahead run (b :: t) =
      (if run then [⟨ahead, b⟩] else []) ++ gapsOf who rs (some (who b)) false t) :=
  ⟨fun removed => if_pos (by simpa using removed), fun stays => if_neg (by simpa using stays)⟩

/-- The gap behind a flush batch is never filled. -/
theorem gapMatches_of_flush {m : Mill} {g : Gap} {r : Reference} (ahead : g.ahead = some r) (flush : r.isFlush = true) :
    m.gapMatches g = false :=
  if_pos (by rw [ahead]; exact flush)

theorem maskAhead_of_no_flush {a : Option Reference} (h : ∀ r, a = some r → r.isFlush = false) (initial : BitVec 16) :
    maskAhead initial a = (a.map (·.mask)).getD initial := by
  cases a with
  | none => rfl
  | some r => simp [maskAhead, h r rfl]

/-- Any other gap is filled where a rule of some treatment matches. -/
theorem gapMatches_iff {m : Mill} {g : Gap} (h : ∀ r, g.ahead = some r → r.isFlush = false) :
    m.gapMatches g = true ↔ ∃ n, n < 32 ∧
      m.plan.ruleFrom n &&& ((g.ahead.map (·.mask)).getD m.plan.initialMask) ≠ 0 ∧
      m.plan.ruleTo n &&& (m.batch g.follower).mask ≠ 0 ∧
      (m.plan.ruleTreatment n = 1 ∨ m.plan.ruleTreatment n = 2) := by
  have open_ : (g.ahead.map (·.isFlush)).getD false = false := by
    cases ahead : g.ahead with
    | none => rfl
    | some r => exact h r ahead
  simp only [Mill.gapMatches, open_, Bool.false_eq_true, if_false, decide_eq_true_eq, ne_eq, judgePair_clear,
    maskAhead_of_no_flush h, not_forall, not_and_or, not_not]
  refine exists_congr fun n => ?_
  simp only [PlanCtl.hits, flushCode, forbidCode]
  tauto

/-- A granted claim is its entries made. -/
theorem eq_makeEntries_of_reserve {m m' : Mill} {b : Fin 32} {ls : List ReserveLine} (granted : m.reserve b ls = .inl m') :
    m' = m.makeEntries b ls := by
  unfold Mill.reserve at granted
  cases short : firstShort m.stock [] ls with
  | some i =>
    rw [short] at granted
    cases granted
  | none =>
    rw [short] at granted
    exact (Sum.inl.inj granted).symm

/-- The default flush batch of a gap: its entries made, its record written, its chain's use counts raised, its place
before the follower taken. -/
theorem substitute_eq {m : Mill} {follower b : Fin 32} {c : Chain} (free : m.allocate = some b)
    (flush : m.plan.defaultFlush = some c) :
    let x := m.flushBatch c m.plan.flushMass
    let m2 := ((m.makeEntries b (reserveLines c x.masses)).newBatch b x).raiseUse c.slots
    m.substitute follower =
      m2.setQueue (m2.seq.queue.flatMap (fun q => if q = follower then [b, follower] else [q])) := by
  cases claim : m.reserve b (reserveLines c (m.flushBatch c m.plan.flushMass).masses) with
  | inl made =>
    rw [eq_makeEntries_of_reserve claim] at claim
    simp only [Mill.substitute, free, flush, Option.getD_some, claim]
  | inr short => simp only [Mill.substitute, free, flush, Option.getD_some, claim]

/-! ### Cancelled weighing (R132, R133) -/

theorem makeRework_of_good_order {m : Mill} {b : Fin 32} {o : Fin 256} (good : (m.batch b).disposition = .good)
    (own : (m.batch b).order = some o) : m.makeRework b =
      (m.updBatch .weighMix b (fun y => { y with disposition := .rework, route := m.routeTo .rework })).returnMass o
        (m.batch b).target := by
  simp only [Mill.makeRework, good, own]; rfl

theorem makeRework_of_other {m : Mill} {b : Fin 32}
    (h : (m.batch b).disposition = .rework ∨ (m.batch b).order = none) : m.makeRework b =
      m.updBatch .weighMix b (fun y => { y with disposition := .rework, route := m.routeTo .rework }) := by
  simp only [Mill.makeRework]
  rcases h with rework | flush
  · rw [rework]; rfl
  · rw [flush]; cases (m.batch b).disposition <;> rfl

theorem cancelWeighing_of_open {m : Mill} {b : Fin 32} (h : m.weigh.cancelled = false) :
    let m1 := Mill.makeRework { m with weigh := { m.weigh with cancelled := true, limit := none } } b
    m.cancelWeighing b = (m1.scales.foldl (fun m sc => m.cancelScale b sc) m1).judgeWeighed b :=
  if_neg (by simp [h])

theorem cancelScale_of_feeding {m : Mill} {b : Fin 32} {sc : Scale} (h : (m.scale sc).state = .feeding) :
    (m.cancelScale b sc).scale sc = { m.scale sc with
      state := .settling, ended := .cancelled, stall := none, settle := some m.plan.settleTime } := by
  simp only [Mill.cancelScale, h, Mill.updScale_scale]

theorem cancelScale_of_attention {m : Mill} {b : Fin 32} {sc : Scale} (h : (m.scale sc).state = .attention) :
    ((m.cancelScale b sc).scale sc).state = .done ∧ ((m.cancelScale b sc).scale sc).lines = [] ∧
      ((m.cancelScale b sc).scale sc).cause = .none := by
  simp only [Mill.cancelScale, h, Mill.dropLines, Mill.updScale_scale, and_self]

theorem cancelScale_of_other {m : Mill} {b : Fin 32} {sc : Scale} (notFeeding : (m.scale sc).state ≠ .feeding)
    (calm : (m.scale sc).state ≠ .attention) : m.cancelScale b sc = m := by
  unfold Mill.cancelScale
  cases state : (m.scale sc).state with
  | feeding => exact absurd state notFeeding
  | attention => exact absurd state calm
  | idle | settling | done | dumping => rfl

/-! ### The mass given back (R90) -/

theorem moveBack_order (m : Mill) (o : Fin 256) (target : Nat) : (m.moveBack o target).order o = { m.order o with
    inFlight := (m.order o).inFlight - target, remaining := (m.order o).remaining + target } :=
  Mill.updOrder_order ..

theorem returnMass_eq (m : Mill) (o : Fin 256) (target : Nat) :
    let m1 := (m.moveBack o target).judgeFinishing o
    m.returnMass o target = if o ∈ m1.book.releaseList ∧ (m1.order o).wait ≠ .held then m1.askPass else m1 := by
  simp only [Mill.returnMass, List.contains_iff_mem, Bool.and_eq_true, decide_eq_true_eq]

/-- Settles O36: the row by the batch's state, then each part of a removal and of a cancelled weighing. -/
theorem abortTaken : Obligations.AbortTaken := by
  refine ⟨fun s b arg h => ?row, fun m b => ⟨removeOne_of_flush, fun o => removeOne_of_order⟩, fun m rs => ?batches,
    fun who rs ahead run b t => ⟨rfl, gapsOf_cons who rs ahead run b t⟩,
    fun m g gs => ⟨rfl, fun fill => ?fill, fun leave => ?leave, fun r => gapMatches_of_flush, gapMatches_iff⟩,
    fun m follower b c => substitute_eq, fun m b => ⟨fun h => if_pos h, cancelWeighing_of_open⟩,
    fun m b => ⟨fun o => makeRework_of_good_order, makeRework_of_other, rfl⟩,
    fun m b sc => ⟨fun feeds => ?feeding, cancelScale_of_attention, cancelScale_of_other⟩, fun m o target => ?mass⟩
  case row =>
    rw [execAbort_eq h]
    refine ⟨fun a => by rw [abortBatch_of_queued a], fun weighs => ?_, fun mixes => ?_,
      fun a => by rw [abortBatch_of_over a]⟩
    · obtain ⟨open_, cancelled⟩ := abortBatch_of_weighing weighs
      exact ⟨fun a => by rw [open_ a], fun a => by rw [cancelled a]⟩
    · obtain ⟨good, rework⟩ := abortBatch_of_mixer mixes
      exact ⟨fun a => by rw [good a], fun a => by rw [rework a]⟩
  case batches =>
    refine ⟨rfl, fun nonempty => ?_⟩
    rw [removeBatches_of_nonempty nonempty]
    exact ⟨fun shorter => if_pos shorter, fun same => if_neg (not_lt.mpr same)⟩
  case fill => simp only [Mill.recheckGaps, List.foldl_cons, fill, if_true]
  case leave => simp only [Mill.recheckGaps, List.foldl_cons, leave, Bool.false_eq_true, if_false]
  case feeding =>
    rw [cancelScale_of_feeding feeds]
    exact ⟨rfl, rfl, rfl, rfl⟩
  case mass =>
    rw [moveBack_order, returnMass_eq]
    exact ⟨rfl, rfl, fun listed free => if_pos ⟨listed, free⟩,
      fun h => if_neg fun ⟨listed, free⟩ => h.elim (· listed) (free ·)⟩

end Sys2Proof.Machine

/-! SUPPORT. The grinders' refill settings and jobs: the checks of a start (R157), the auto-start request (R158), the two
conditions of a running job and the reports that judge them (R159). -/

namespace Sys2Proof.Machine

/-! ### The checks of a start (R157) -/

theorem binIfKind_eq_some_iff (m : Mill) (i : Nat) (k : BinKind) (x : Bin) :
    m.binIfKind i k = some x ↔ ∃ b : Fin 48, b.val = i ∧ x = getAt m.stock.bins b ∧ x.plan.kind = k := by
  unfold Mill.binIfKind toBin
  by_cases h : i < 48
  · rw [dif_pos h]
    dsimp only
    constructor
    · intro found
      split at found
      · next kind =>
        cases found
        exact ⟨⟨i, h⟩, rfl, rfl, kind⟩
      · cases found
    · rintro ⟨b, rfl, rfl, kind⟩
      exact if_pos kind
  · rw [dif_neg h]
    dsimp only
    refine ⟨nofun, ?_⟩
    rintro ⟨b, rfl, _⟩
    exact absurd b.isLt h

theorem grindChecks_of_not_idle {m : Mill} {g : Grinder} (r : Refill) (h : (m.grinderCtl g).line.state ≠ .idle) :
    m.grindChecks g r = some ⟨0x03, BitVec.ofNat 16 (m.grinderCtl g).line.state.code⟩ :=
  if_pos h

theorem grindChecks_of_no_raw {m : Mill} {g : Grinder} {r : Refill} (idle : (m.grinderCtl g).line.state = .idle)
    (raw : m.binIfKind r.raw .raw = none) : m.grindChecks g r = some ⟨0x04, 1⟩ := by
  simp only [Mill.grindChecks, idle, ne_eq, not_true_eq_false, if_false, raw]; rfl

theorem grindChecks_of_no_ground {m : Mill} {g : Grinder} {r : Refill} {x : Bin}
    (idle : (m.grinderCtl g).line.state = .idle) (raw : m.binIfKind r.raw .raw = some x)
    (ground : m.binIfKind r.ground .ground = none) : m.grindChecks g r = some ⟨0x04, 2⟩ := by
  simp only [Mill.grindChecks, idle, ne_eq, not_true_eq_false, if_false, raw, ground]; rfl

/-- The checks on the channel and the two bins' masses. -/
theorem grindChecks_of_bins {m : Mill} {g : Grinder} {r : Refill} {x y : Bin}
    (idle : (m.grinderCtl g).line.state = .idle) (raw : m.binIfKind r.raw .raw = some x)
    (ground : m.binIfKind r.ground .ground = some y) : m.grindChecks g r =
      if (m.grinderCtl g).line.load.fresh = none then some ⟨0x0C, BitVec.ofNat 16 (grinderLoadRole g)⟩
      else if y.plan.high ≤ y.level then some ⟨0x03, 0x200⟩
      else if x.available ≤ m.plan.stopMargin then some ⟨0x03, 0x300⟩
      else none := by
  simp only [Mill.grindChecks, idle, ne_eq, not_true_eq_false, if_false, raw, ground, Option.isNone_iff_eq_none]
  rfl

/-! ### The auto-start request (R158) -/

theorem tryAutoStart_of_no_refill {m : Mill} {g : Grinder} (h : (m.grinderCtl g).refill = none) :
    m.tryAutoStart g = m := by
  simp only [Mill.tryAutoStart, h]

theorem tryAutoStart_of_refill {m : Mill} {g : Grinder} {x : Refill} (h : (m.grinderCtl g).refill = some x) :
    ((m.grinderCtl g).autoStart = true → (m.lineCtl (.grinder g)).state = .idle → m.grindChecks g x = none →
      m.tryAutoStart g = m.beginJob g x) ∧
    ((m.grinderCtl g).autoStart = false ∨ (m.lineCtl (.grinder g)).state ≠ .idle ∨ m.grindChecks g x ≠ none →
      m.tryAutoStart g = m) := by
  have line : m.lineCtl (.grinder g) = (m.grinderCtl g).line := rfl
  simp only [Mill.tryAutoStart, h, line]
  refine ⟨fun asked idle pass => if_pos (by simp [asked, idle, pass]), fun fails => if_neg ?_⟩
  simp only [Bool.and_eq_true, decide_eq_true_eq, Option.isNone_iff_eq_none]
  rintro ⟨⟨asked, idle⟩, pass⟩
  rcases fails with h | h | h
  · rw [asked] at h; cases h
  · exact h idle
  · exact h pass

/-- A level below the low mark sets the request where it was not below it, and keeps it; one at or above clears it. -/
theorem requestBy_eq (c : GrinderCtl) (low old new : Nat) :
    c.requestBy low old new = decide (new < low ∧ (c.autoStart = true ∨ low ≤ old)) := by
  unfold GrinderCtl.requestBy
  by_cases below : new < low <;> simp [below]

/-! ### The two conditions of a job (R159) -/

theorem starvedBy_iff (p : PlanCtl) (was : Bool) (avail : Nat) :
    p.starvedBy was avail = true ↔ avail ≤ p.stopMargin ∨ (was = true ∧ avail < 2 * p.stopMargin) := by
  simp only [PlanCtl.starvedBy, Bool.or_eq_true, Bool.and_eq_true, decide_eq_true_eq]

theorem blockedBy_iff (p : PlanCtl) (was : Bool) (room : Nat) :
    p.blockedBy was room = true ↔ room < p.blockMargin ∨ (was = true ∧ room < 2 * p.blockMargin) := by
  simp only [PlanCtl.blockedBy, Bool.or_eq_true, Bool.and_eq_true, decide_eq_true_eq]

/-- The rate of a grinder: its ceiling while it runs, else 0 (R146). -/
theorem rateOf_grinder (m : Mill) (g : Grinder) : m.rateOf (.grinder g) =
    if (m.grinderCtl g).line.state = .running then (m.grinderCtl g).line.ceiling else 0 := rfl

theorem grinderCtl_setGrinder (m : Mill) (g : Grinder) (c : GrinderCtl) :
    ({ m with lines := m.lines.setGrinder g c } : Mill).grinderCtl g = c := by
  cases g <;> rfl

/-- A grinder shows its conditions by its line's state, and its rate by that. -/
structure ShowsGrind (c t : GrinderCtl) : Prop where
  starved : t.starved = true → t.line.state = .starved
  blocked : t.starved = false → t.blocked = true → t.line.state = .blocked
  running : t.starved = false → t.blocked = false → t.line.state = .running ∧ t.line.rate = c.line.ceiling
  rest : t.line.state ≠ .running → t.line.rate = 0

theorem setGrind_does (m : Mill) (g : Grinder) (a b : Bool) :
    ((m.setGrind g a b).grinderCtl g).starved = a ∧ ((m.setGrind g a b).grinderCtl g).blocked = b ∧
      ShowsGrind (m.grinderCtl g) ((m.setGrind g a b).grinderCtl g) := by
  rw [Mill.setGrind, updGrinder_grinderCtl, rateOf_grinder, grinderCtl_setGrinder]
  refine ⟨rfl, rfl, fun h => ?_, fun h k => ?_, fun h k => ?_, fun h => if_neg h⟩
  · exact if_pos h
  · exact (if_neg (by rw [show a = false from h]; decide)).trans (if_pos k)
  · have state : (if a = true then LineState.starved else if b = true then .blocked else .running) = .running := by
      rw [show a = false from h, show b = false from k]; rfl
    exact ⟨state, if_pos state⟩

/-! ### Reports of a bin (R158, R159) -/

theorem toBin_of_le {n : Nat} (h : 48 ≤ n) : toBin n = none := dif_neg (not_lt.mpr h)

/-- The available mass a report gives of a bin: the reported one for its own bin, else the book's. -/
theorem reported_fst (s : Stock) (b i : Fin 48) (level available : Nat) :
    (s.reported b level available i).1 = if i = b then available else (getAt s.bins i).available := by
  simp only [Stock.reported]; split <;> rfl

theorem reported_snd (s : Stock) (b i : Fin 48) (level available : Nat) : (s.reported b level available i).2 =
    (getAt s.bins i).plan.capacity - if i = b then level else (getAt s.bins i).level := by
  simp only [Stock.reported]; split <;> rfl

theorem reportGrind_does (m : Mill) (g : Grinder) (r : Refill) (b : Fin 48) (level available : Nat) :
    let c := m.grinderCtl g
    let t := (m.reportGrind g r b level available).grinderCtl g
    (t.starved = ((toBin r.raw).map fun i =>
      m.plan.starvedBy c.starved (m.stock.reported b level available i).1).getD c.starved) ∧
    (t.blocked = ((toBin r.ground).map fun i =>
      m.plan.blockedBy c.blocked (m.stock.reported b level available i).2).getD c.blocked) ∧ ShowsGrind c t := by
  intro c t
  obtain ⟨starved, blocked, shows⟩ := setGrind_does m g _ _
  refine ⟨starved.trans ?_, blocked.trans ?_, shows⟩
  · cases toBin r.raw <;> rfl
  · cases toBin r.ground <;> rfl

theorem grinding_iff (st : LineState) : st.grinding = true ↔ st = .running ∨ st = .starved ∨ st = .blocked := by
  cases st <;> decide

/-- What a report of one of its bins does to a job that runs. -/
def Mill.jobReport (m : Mill) (g : Grinder) (r : Refill) (b : Fin 48) (new available : Nat) : Mill :=
  if (m.grinderCtl g).line.state = .running ∨ (m.grinderCtl g).line.state = .starved ∨
      (m.grinderCtl g).line.state = .blocked then
    if r.ground = b.val ∧ (getAt m.stock.bins b).plan.high ≤ new then m.endWork (.grinder g) .idle
    else m.reportGrind g r b new available
  else m

theorem grinderReport_of_no_refill {m : Mill} {g : Grinder} (h : (m.grinderCtl g).refill = none) (b : Fin 48)
    (old new available : Nat) : m.grinderReport g b old new available = m := by
  simp only [Mill.grinderReport, h]

theorem grinderReport_of_other_bin {m : Mill} {g : Grinder} {r : Refill} {b : Fin 48}
    (h : (m.grinderCtl g).refill = some r) (raw : r.raw ≠ b.val) (ground : r.ground ≠ b.val) (old new available : Nat) :
    m.grinderReport g b old new available = m := by
  simp only [Mill.grinderReport, h]
  exact if_neg (by simp [raw, ground])

/-- A report of one of a grinder's bins: the job judged, then the request where the ground bin's level has changed. -/
theorem grinderReport_of_own_bin {m : Mill} {g : Grinder} {r : Refill} {b : Fin 48}
    (h : (m.grinderCtl g).refill = some r) (own : r.raw = b.val ∨ r.ground = b.val) (old new available : Nat) :
    let job := m.jobReport g r b new available
    m.grinderReport g b old new available = (if r.ground = b.val ∧ old ≠ new ∧ r.auto = true then
        job.updGrinder g (fun c => { c with
          autoStart := decide (new < (getAt m.stock.bins b).plan.low ∧
            (c.autoStart = true ∨ (getAt m.stock.bins b).plan.low ≤ old)) })
      else job).tryAutoStart g := by
  simp only [Mill.grinderReport, h, Mill.jobReport, requestBy_eq, ← grinding_iff, Bool.and_eq_true, decide_eq_true_eq,
    and_assoc]
  exact if_pos (by simpa using own)

/-! ### A setting read (R156 to R158) -/

/-- The setting taken from a returned read. -/
theorem takeRefill_refill (m : Mill) (g : Grinder) (w : Word) :
    ((m.takeRefill g w).grinderCtl g).refill = some ⟨bits w 0 8, bits w 8 8, bits w 16 1 = 1⟩ := by
  rw [Mill.takeRefill, updGrinder_grinderCtl]
  rfl

/-- The oldest returned read of a grinder's setting taken. -/
theorem refillRead_of_cons {m : Mill} {g : Grinder} {forStart : Bool} {w : Word} {rest : List (ReadTag × Word)}
    (h : m.returned = (.refill g forStart, w) :: rest) : m.refillRead g =
      some (if forStart = true ∧ m.actions.inExec = .startRefill g then
        (({ m with returned := rest } : Mill).takeRefill g w).judgeStart g (refillOf w)
      else (({ m with returned := rest } : Mill).takeRefill g w).tryAutoStart g) := by
  have mine : isRefill g (.refill g forStart) = true := by cases forStart <;> simp [isRefill]
  have found : m.returned.find? (fun r => isRefill g r.1) = some (.refill g forStart, w) := by
    rw [h]; exact List.find?_cons_of_pos mine
  have erased : m.returned.eraseP (fun x => isRefill g x.1) = rest := by
    rw [h]; exact List.eraseP_cons_of_pos mine
  simp only [Mill.refillRead, found, erased]
  cases forStart with
  | false => simp
  | true => by_cases waits : m.actions.inExec = .startRefill g <;> simp [waits]

theorem judgeStart_cases (m : Mill) (g : Grinder) (r : Refill) :
    (∀ a, m.grindChecks g r = some a → m.judgeStart g r = m.answer a) ∧
      (m.grindChecks g r = none → m.judgeStart g r = (m.beginJob g r).answer ⟨0x00, 0⟩) := by
  unfold Mill.judgeStart
  exact ⟨fun a fails => by rw [fails], fun pass => by rw [pass]; rfl⟩

/-- Settles O45: the row by the read's purpose, the checks in their order, the conditions by setGrind_does. -/
theorem refillSettingTaken : Obligations.RefillSettingTaken := by
  refine ⟨fun s g forStart w rest free returned => ?row, fun m g r => ⟨grindChecks_of_not_idle r, fun idle =>
      ⟨grindChecks_of_no_raw idle, fun x => grindChecks_of_no_ground idle, fun x y raw ground => ?bins⟩⟩,
    binIfKind_eq_some_iff, fun m g r => ⟨rfl, fun x => tryAutoStart_of_refill, tryAutoStart_of_no_refill⟩,
    fun m g r raw ground hraw hground => ?judge, fun m g b old new available => ⟨rfl,
      fun none => grinderReport_of_no_refill none b old new available,
      fun r refill raw ground => grinderReport_of_other_bin refill raw ground old new available,
      fun r refill own => ?report⟩, fun m g r b level available => ?reported⟩
  case row =>
    have row : exec (.refillSettingRead g) s = .next (s.leaves (if forStart = true ∧
        s.mill.actions.inExec = .startRefill g then
          (({ s.mill with returned := rest } : Mill).takeRefill g w).judgeStart g (refillOf w)
        else (({ s.mill with returned := rest } : Mill).takeRefill g w).tryAutoStart g)) := by
      change execRefillSettingRead g s = _
      exact runMill_next free.1 (busy_of_free free) (refillRead_of_cons returned)
    intro m
    refine ⟨fun start inExec => ?_, fun other => ?_, takeRefill_refill ..⟩
    · rw [row, if_pos ⟨start, inExec⟩]
      obtain ⟨fails, pass⟩ := judgeStart_cases m g (refillOf w)
      exact ⟨fun a h => by rw [fails a h], fun h => by rw [pass h]⟩
    · rw [row, if_neg (by simp [other])]
  case bins =>
    rw [grindChecks_of_bins idle raw ground]
    refine ⟨fun stale => ?_, fun fresh full => ?_, fun fresh room short => ?_, fun fresh room enough => ?_⟩
    · rw [if_pos stale]
      cases g <;> rfl
    · rw [if_neg fresh, if_pos full]
    · rw [if_neg fresh, if_neg (not_le.mpr room), if_pos short]
    · rw [if_neg fresh, if_neg (not_le.mpr room), if_neg (not_le.mpr enough)]
  case judge =>
    intro c t avail room
    have judged : m.judgeGrind g r =
        m.setGrind g (m.plan.starvedBy c.starved avail) (m.plan.blockedBy c.blocked room) := by
      simp only [Mill.judgeGrind, hraw, hground, toBin_val]; rfl
    obtain ⟨starved, blocked, shows⟩ :=
      setGrind_does m g (m.plan.starvedBy c.starved avail) (m.plan.blockedBy c.blocked room)
    rw [← judged] at starved blocked shows
    rw [← starvedBy_iff, ← blockedBy_iff, ← starved, ← blocked]
    exact ⟨Iff.rfl, Iff.rfl, shows.starved, shows.blocked, shows.running, shows.rest⟩
  case report =>
    intro plan runs m1
    rw [grinderReport_of_own_bin refill own]
    refine ⟨fun ground changed auto => ?_, fun h => ?_⟩
    · rw [if_pos ⟨ground, changed, auto⟩]; rfl
    · have unasked : ¬(r.ground = b.val ∧ old ≠ new ∧ r.auto = true) := by
        rintro ⟨ground, changed, auto⟩
        rcases h with h | h | h
        · exact h ground
        · exact changed h
        · rw [auto] at h; cases h
      rw [if_neg unasked]; rfl
  case reported =>
    intro c t
    obtain ⟨starved, blocked, shows⟩ := reportGrind_does m g r b level available
    refine ⟨fun raw hraw => ?_, fun none => ?_, fun ground hground => ?_, fun none => ?_, shows.starved, shows.blocked,
      shows.running, shows.rest⟩
    · rw [starved, hraw, toBin_val, Option.map_some, Option.getD_some, reported_fst, starvedBy_iff]
    · rw [starved, toBin_of_le none, Option.map_none, Option.getD_none]
    · rw [blocked, hground, toBin_val, Option.map_some, Option.getD_some, reported_snd, blockedBy_iff]
    · rw [blocked, toBin_of_le none, Option.map_none, Option.getD_none]

end Sys2Proof.Machine

/-! SUPPORT. Delivery trips: the arrival and its read (R188), the arrival check (R189), the spout arbiter, and the ends of a
trip's loading (R190 to R192). -/

namespace Sys2Proof.Machine

theorem execArrive_eq {s : State} {t : Fin 8} {arg} (h : s.hands ⟨.truck, t⟩ 0x40 arg) :
    exec .arrive s = .next (s.leaves (s.mill.arrive t)) := truckRow_eq h (fun t m => m.arrive t)

theorem execFinish_eq {s : State} {t : Fin 8} {arg} (h : s.hands ⟨.truck, t⟩ 0x41 arg) :
    exec .finish s = .next (s.leaves (s.mill.finishTrip t)) := truckRow_eq h (fun t m => m.finishTrip t)

/-! ### ARRIVE (R188) -/

theorem updTrip_trips (m : Mill) (t : Fin 8) (f : Trip → Trip) :
    (m.updTrip t f).trips = { m.trips with trips := putAt m.trips.trips t (f (m.trip t)) } := by
  simp only [Mill.updTrip, Mill.postChanged_trips]

theorem arrive_of_opened {m : Mill} {t : Fin 8} (h : (m.trip t).state = .opened) :
    ((m.arrive t).trip t).state = .arrived ∧ (m.arrive t).trips.arriving = some (t, false) ∧
      (m.arrive t).actions.inExec = .arriveRead ∧ (m.arrive t).trips.queue = m.trips.queue := by
  rw [Mill.arrive, if_neg (not_not.mpr h)]
  have own := Mill.updTrip_trip m t ({ · with state := .arrived })
  have queue : (m.updTrip t ({ · with state := .arrived })).trips.queue = m.trips.queue := by rw [updTrip_trips]
  refine ⟨?_, rfl, rfl, ?_⟩
  · rw [Mill.trip, Mill.awaits_trips]
    exact congrArg Trip.state own
  · rw [Mill.awaits_trips]
    exact queue

/-- The read of an ARRIVE posted. -/
def Mill.postArriveRead (m : Mill) (t : Fin 8) : Mill := { m with
  outbox := m.outbox ++ [2, 4, 5, 6, 7, 8, 9].map (fun w =>
    ⟨.tripTable, m.recordAddr .truck t w, .read .arrive⟩)
  trips := { m.trips with arriving := some (t, true) } }

theorem postArrive_of_arriving {s : State} {t : Fin 8} (h : s.mill.trips.arriving = some (t, false)) :
    (s.writes (fun p => p.isIn .truck t) = true → s.postArrive = s) ∧
      (s.writes (fun p => p.isIn .truck t) = false →
        s.postArrive = { s with mill := s.mill.postArriveRead t }) := by
  simp only [State.postArrive, h]
  refine ⟨fun busy => if_pos busy, fun free => ?_⟩
  rw [if_neg (by simp [free])]
  simp [Mill.postRead, Mill.recordAddr, Mill.postArriveRead]

theorem writes_iff {s : State} {bs : List TxBeat} {hs : List Handoff} {p : TxPhase} (q : Place → Bool)
    (tx : s.tx = some (.write bs hs p)) :
    s.writes q = true ↔ (∃ b ∈ bs, q (s.place b.addr) = true) ∨ ∃ a ∈ p.landed, q (s.place a) = true := by
  simp only [State.writes, tx, List.any_append, List.any_map, Bool.or_eq_true, List.any_eq_true, Function.comp]

/-- The returned read of an ARRIVE by the check that it leads to. -/
theorem arrived_cases (m : Mill) (t : Fin 8) (ws : List Word) :
    let old := (m.trip t).copy
    let new := copyOf (ws.getD 0 0) (ws.drop 1)
    let m1 := m.updTrip t (fun x => { x with copy := new })
    let m2 := { m1 with trips := { m1.trips with arriving := none } }
    (∀ d, m2.arrivalFault (m2.trip t) = some d → m.arrived t ws =
      ((m2.updTrip t (fun x => { x with state := .opened })).answer ⟨0x0E, BitVec.ofNat 16 d⟩).reportDropped
        (droppedOrders old new)) ∧
    (m2.arrivalFault (m2.trip t) = none → m.arrived t ws =
      ((Mill.answer { m2 with trips := { m2.trips with queue := m2.trips.queue ++ [t] } }
        ⟨0x00, BitVec.ofNat 16 new.length⟩).judgeArbiter).reportDropped (droppedOrders old new)) := by
  intro old new m1 m2
  simp only [Mill.arrived]
  exact ⟨fun d fault => by rw [fault]; rfl, fun pass => by rw [pass]; rfl⟩

/-! ### The arrival check (R189) -/

/-- A trip has such a compartment at an index. -/
def Trip.compIs (x : Trip) (p : Compartment → Bool) (c : Nat) : Bool := (x.copy[c]?.map p).getD false

/-- The compartment cannot be loaded. -/
def Mill.badComp (m : Mill) (k : Compartment) : Bool := !m.loadable k.order || k.target = 0

/-- More is spoken for than the compartment's order has left. -/
def Mill.overspoken (m : Mill) (k : Compartment) : Bool :=
  decide ((m.order k.order).planned + m.plan.bulkTolerance < m.spoken k.order + (m.order k.order).loaded)

theorem find?_congr_all {α : Type} {l : List α} {p q : α → Bool} (h : ∀ a, p a = q a) : l.find? p = l.find? q :=
  congrArg (l.find? ·) (funext h)

/-- The check of an arrival: no compartment, the first that cannot be loaded, the first whose order is overspoken. -/
theorem arrivalFault_eq (m : Mill) (x : Trip) : m.arrivalFault x = if x.copy = [] then some 0xFF
    else (x.comps.find? (x.compIs m.badComp)).or ((x.comps.find? (x.compIs m.overspoken)).map (0x100 + ·)) := by
  simp only [Mill.arrivalFault, List.isEmpty_iff]
  refine if_congr Iff.rfl rfl ?_
  split
  · next c found =>
    have bad : x.comps.find? (x.compIs m.badComp) = some c := by
      rw [← found]
      exact find?_congr_all fun c => by unfold Trip.compIs; cases x.copy[c]? <;> rfl
    rw [bad, Option.some_or]
  · next found =>
    have noBad : x.comps.find? (x.compIs m.badComp) = none := by
      rw [← found]
      exact find?_congr_all fun c => by unfold Trip.compIs; cases x.copy[c]? <;> rfl
    rw [noBad, Option.none_or]
    exact congrArg (Option.map _) (find?_congr_all fun c => by unfold Trip.compIs; cases x.copy[c]? <;> rfl)

theorem compIs_iff (x : Trip) (p : Compartment → Bool) (c : Nat) :
    x.compIs p c = true ↔ ∃ k, x.copy[c]? = some k ∧ p k = true := by
  unfold Trip.compIs
  cases x.copy[c]? <;> simp

/-- No compartment of a trip passes a test. -/
theorem find?_compIs_eq_none_iff (x : Trip) (p : Compartment → Bool) :
    x.comps.find? (x.compIs p) = none ↔ ∀ k ∈ x.copy, p k = false := by
  simp only [List.find?_eq_none, Trip.comps, List.mem_range, compIs_iff, not_exists, not_and, Bool.not_eq_true]
  constructor
  · intro none k mem
    obtain ⟨c, lt, rfl⟩ := List.mem_iff_getElem.mp mem
    exact none c lt _ (List.getElem?_eq_getElem lt)
  · intro none c _ k at_c
    exact none k (List.mem_of_getElem? at_c)

theorem badComp_eq_false_iff (m : Mill) (k : Compartment) : m.badComp k = false ↔
    0 < k.target ∧ (m.order k.order).state.active = true ∧ (m.order k.order).pack = some .bulk := by
  simp only [Mill.badComp, Mill.loadable, Bool.or_eq_false_iff, Bool.not_eq_false', Bool.and_eq_true, decide_eq_true_eq,
    decide_eq_false_iff_not, Nat.pos_iff_ne_zero]
  tauto

theorem overspoken_eq_false_iff (m : Mill) (k : Compartment) : m.overspoken k = false ↔
    m.spoken k.order + (m.order k.order).loaded ≤ (m.order k.order).planned + m.plan.bulkTolerance := by
  simp only [Mill.overspoken, decide_eq_false_iff_not, not_lt]

theorem arrivalFault_eq_none_iff (m : Mill) (x : Trip) : m.arrivalFault x = none ↔ x.copy ≠ [] ∧ (∀ k ∈ x.copy,
    0 < k.target ∧ (m.order k.order).state.active = true ∧ (m.order k.order).pack = some .bulk ∧
      m.spoken k.order + (m.order k.order).loaded ≤ (m.order k.order).planned + m.plan.bulkTolerance) := by
  rw [arrivalFault_eq]
  split
  · next empty => simp [empty]
  · next nonempty =>
    simp only [Option.or_eq_none_iff, Option.map_eq_none_iff, find?_compIs_eq_none_iff, badComp_eq_false_iff,
      overspoken_eq_false_iff, ← and_assoc, ← forall₂_and]
    exact (and_iff_right nonempty).symm

/-- A detail below 6 is the index of a compartment that cannot be loaded. -/
theorem arrivalFault_comp {m : Mill} {x : Trip} {c : Nat} (low : c < 6) (h : m.arrivalFault x = some c) :
    ∃ k, x.copy[c]? = some k ∧ m.badComp k = true := by
  rw [arrivalFault_eq] at h
  split at h
  · cases h
    exact absurd low (by decide)
  · cases bad : x.comps.find? (x.compIs m.badComp) with
    | some d =>
      rw [bad, Option.some_or] at h
      cases h
      exact (compIs_iff ..).mp (List.find?_some bad)
    | none =>
      rw [bad, Option.none_or, Option.map_eq_some_iff] at h
      obtain ⟨d, _, rfl⟩ := h
      omega

theorem badComp_cases {m : Mill} {k : Compartment} (h : m.badComp k = true) :
    k.target = 0 ∨ (m.order k.order).state.active = false ∨ (m.order k.order).pack ≠ some .bulk := by
  by_contra none
  push Not at none
  obtain ⟨target, active, bulk⟩ := none
  have := (badComp_eq_false_iff m k).mpr ⟨Nat.pos_of_ne_zero target, by simpa using active, bulk⟩
  rw [h] at this
  cases this

/-- Settles O46: the row by the trip's state, the read by the check, the check by its two searches. -/
theorem arriveTaken : Obligations.ArriveTaken := by
  refine ⟨fun s t arg h => ?row, fun s t free arriving inExec reads => ?read, fun s t => postArrive_of_arriving,
    fun s bs hs p q => writes_iff q, fun m x => ⟨fun empty => ?empty, arrivalFault_eq_none_iff m x,
      fun c low fault => ?comp⟩⟩
  case row =>
    rw [execArrive_eq h]
    refine ⟨fun opened => ⟨rfl, arrive_of_opened opened⟩, fun other => ?_⟩
    rw [Mill.arrive, if_pos other]
    rfl
  case read =>
    have row : exec .arriveReadReturn s =
        .next (s.leaves ((s.mill.takeReads .arrive).arrived t (s.mill.readsOf .arrive))) := by
      change execArriveReadReturn s = _
      exact runMill_next free.1 (busy_of_free free) (by simp only [arriving, inExec, reads]; rfl)
    intro ws old new m1 m2
    rw [row]
    obtain ⟨fault, pass⟩ := arrived_cases (s.mill.takeReads .arrive) t ws
    exact ⟨fun d h => by rw [fault d h]; rfl, fun h => by rw [pass h]; rfl⟩
  case empty => rw [arrivalFault_eq, if_pos empty]
  case comp =>
    obtain ⟨k, at_c, bad⟩ := arrivalFault_comp low fault
    exact ⟨k, at_c, badComp_cases bad⟩

/-! ### The ends of a loading (R191, R192) -/

theorem endLoading_does (m : Mill) (t : Fin 8) (mark : Bool) :
    (m.endLoading t mark).trip t = { m.trip t with state := .loaded, limitMark := mark } ∧
    (∀ u, u ≠ t → (m.endLoading t mark).trip u = m.trip u) ∧ (m.endLoading t mark).trips.limit = none ∧
    (m.endLoading t mark).notices = m.notices ++ [.tripLeft] := by
  have own := Mill.updTrip_trip m t (fun x => { x with state := .loaded, limitMark := mark })
  have others (u : Fin 8) (h : u ≠ t) := Mill.updTrip_other m t u (fun x => { x with state := .loaded, limitMark := mark }) h
  have notices := Mill.updTrip_notices m t (fun x => { x with state := .loaded, limitMark := mark })
  refine ⟨?_, fun u h => ?_, ?_, ?_⟩
  · rw [Mill.trip, Mill.endLoading, Mill.tell_trips]
    exact own
  · rw [Mill.trip, Mill.endLoading, Mill.tell_trips]
    exact others u h
  · rw [Mill.endLoading, Mill.tell_trips]
  · exact congrArg (· ++ [Notice.tripLeft]) notices

theorem loadedOf_val (x : Trip) (c : Fin 6) : x.loadedOf c.val = getAt x.loaded c := by
  simp [Trip.loadedOf, getAt]

/-- The first part of a booking: the compartment's loaded mass raised. -/
def Mill.loadsComp (m : Mill) (t : Fin 8) (c : Fin 6) (mass : Nat) : Mill :=
  m.updTrip t (fun x => { x with loaded := putAt x.loaded c (min (2 ^ 24 - 1) (getAt x.loaded c + mass)) })

theorem bookTrip_eq (m : Mill) (t : Fin 8) (c : Fin 6) (mass : Nat) : m.bookTrip t c.val mass =
    let m1 := m.loadsComp t c mass
    if (m1.trip t).state = .loading ∧ (m1.trip t).unfilled m.plan.bulkTolerance = [] then
      (m1.endLoading t false).judgeArbiter
    else m1 := by
  have raise : (fun x : Trip => if h : c.val < 6 then
      { x with loaded := putAt x.loaded ⟨c.val, h⟩ (min massMax (x.loadedOf c.val + mass)) } else x) =
      fun x => { x with loaded := putAt x.loaded c (min (2 ^ 24 - 1) (getAt x.loaded c + mass)) } := by
    funext x
    rw [dif_pos c.isLt, loadedOf_val]
    rfl
  simp only [Mill.bookTrip, raise]
  refine if_congr ?_ rfl rfl
  rw [Bool.and_eq_true, decide_eq_true_eq, List.isEmpty_iff]
  rfl

theorem loadsComp_state (m : Mill) (t : Fin 8) (c : Fin 6) (mass : Nat) :
    ((m.loadsComp t c mass).trip t).state = (m.trip t).state := by
  rw [Mill.loadsComp, Mill.updTrip_trip]

theorem mem_unfilled_iff (x : Trip) (tol c : Nat) : c ∈ x.unfilled tol ↔
    ∃ k, x.copy[c]? = some k ∧ tol < k.target - x.loaded.toList.getD c 0 := by
  rw [Trip.unfilled, List.mem_filter, Trip.comps, List.mem_range, decide_eq_true_eq]
  constructor
  · rintro ⟨lt, short⟩
    refine ⟨_, List.getElem?_eq_getElem lt, ?_⟩
    rw [Trip.remaining, List.getElem?_eq_getElem lt] at short
    exact short
  · rintro ⟨k, at_c, short⟩
    refine ⟨(List.getElem?_eq_some_iff.mp at_c).1, ?_⟩
    rw [Trip.remaining, at_c]
    exact short

/-! ### The spout arbiter (R190) -/

/-- The spout given to a trip, the trips behind it left in the queue. -/
def Mill.givesSpout (m : Mill) (t : Fin 8) (ts : List (Fin 8)) : Mill :=
  let m1 := m.updTrip t (fun x => { x with state := .loading })
  Mill.tell { m1 with trips := { m1.trips with
    queue := ts
    limit := some (1000 * (m.plan.loadBase + ((m.trip t).copy.length + 1) * m.plan.loadComp)) } } .tripLoading

/-- The first trip of the queue: it loads if it has an unfilled compartment, else it is LOADED and the next is taken. -/
theorem arbitrate_cons (m : Mill) (t : Fin 8) (ts : List (Fin 8)) : m.arbitrate (t :: ts) =
    if (m.trip t).unfilled m.plan.bulkTolerance = [] then ((m.givesSpout t ts).endLoading t false).arbitrate ts
    else m.givesSpout t ts := by
  have own := Mill.updTrip_trip m t ({ · with state := .loading })
  have plan := Mill.updTrip_plan m t ({ · with state := .loading })
  simp only [Mill.arbitrate, own, List.isEmpty_iff]
  rfl

theorem judgeArbiter_cons {m : Mill} {t : Fin 8} {ts : List (Fin 8)} (free : m.loadingTrip = none)
    (queue : m.trips.queue = t :: ts) : m.judgeArbiter = m.arbitrate (t :: ts) := by
  simp only [Mill.judgeArbiter, free, queue, List.isEmpty_cons, Bool.false_eq_true, if_false]

/-- Settles O47: the two rows, the end of a loading, the booking, and the arbiter over its queue. -/
theorem loadingEnded : Obligations.LoadingEnded := by
  refine ⟨fun s t arg h => ?finish, fun s t free loads due => ?expiry, fun m t mark => ?ends, fun m t c mass => ?books,
    fun m => ⟨fun t loads => ?busy, fun empty => ?nobody, fun t ts free queue => ?judge⟩, fun m t ts => ?arbiter,
    mem_unfilled_iff⟩
  case finish =>
    rw [execFinish_eq h, Mill.finishTrip]
    exact ⟨fun loads => by rw [if_neg (not_not.mpr loads)]; rfl, fun other => by rw [if_pos other]; rfl⟩
  case expiry =>
    change execTripLimitExpiry s = _
    exact runMill_next free.1 (busy_of_free free) (by simp only [loads, due]; rfl)
  case ends =>
    obtain ⟨own, others, limit, notices⟩ := endLoading_does m t mark
    rw [own]
    exact ⟨rfl, rfl, rfl, limit, others, notices⟩
  case books =>
    intro m1
    have state := loadsComp_state m t c mass
    rw [bookTrip_eq, ← state]
    exact ⟨fun loads filled => if_pos ⟨loads, filled⟩,
      fun h => if_neg fun ⟨loads, filled⟩ => h.elim (· loads) (· filled)⟩
  case busy => simp only [Mill.judgeArbiter, loads]
  case nobody =>
    unfold Mill.judgeArbiter
    split
    · rfl
    · rw [empty]; rfl
  case judge =>
    intro m1 m2
    rw [judgeArbiter_cons free queue, arbitrate_cons]
    exact ⟨fun short => if_neg short, fun filled => if_pos filled⟩
  case arbiter =>
    intro m1 m2
    rw [arbitrate_cons]
    exact ⟨rfl, fun short => if_neg short, fun filled => if_pos filled⟩

end Sys2Proof.Machine

/-! SUPPORT. The size of a next batch (R87), and the Stock Unit's reservations: claims, releases and draws (R49 to R52). -/

namespace Sys2Proof.Machine

/-! ### The size of the next batch (R87) -/

theorem nextSize_of_last {R B : Nat} (m min : Nat) (pos : 0 < R) (le : R ≤ B) : nextSize R B m min = some R := by
  rw [nextSize, if_neg (by omega), if_pos le]

theorem nextSize_of_full {R B min : Nat} (m : Nat) (more : B < R) (enough : min ≤ R - B) :
    nextSize R B m min = some B := by
  rw [nextSize, if_neg (by omega), if_neg (by omega), if_pos enough]

theorem nextSize_of_shared {R B min : Nat} (m : Nat) (more : B < R) (little : R - B < min) :
    nextSize R B m min = some (R - m) := by
  rw [nextSize, if_neg (by omega), if_neg (by omega), if_neg (by omega)]

/-- Settles O51: the three cases of nextSize, each bounded by the mass rules. -/
theorem nextBatchSize : Obligations.NextBatchSize := by
  refine ⟨fun B m min => if_pos rfl, fun R B m min pos => ⟨nextSize_of_last m min pos, nextSize_of_full m,
    nextSize_of_shared m⟩, ?bounds⟩
  intro R B m min u n unit dvdR dvdB dvdM floor minR minB shares size
  have pos : 0 < R := Nat.pos_of_ne_zero fun zero => by rw [zero] at size; cases size
  rcases Nat.lt_or_ge B R with more | last
  · have room := shares more
    rcases Nat.lt_or_ge (R - B) min with little | enough
    · rw [nextSize_of_shared m more little] at size
      cases size
      exact ⟨Nat.dvd_sub dvdR dvdM, by omega, by omega, by omega⟩
    · rw [nextSize_of_full m more enough] at size
      cases size
      exact ⟨dvdB, minB, le_rfl, .inr enough⟩
  · rw [nextSize_of_last m min pos last] at size
    cases size
    exact ⟨dvdR, minR, last, .inl (Nat.sub_self R)⟩

/-! ### Claims (R49, R50) -/

theorem reserve_of_short {m : Mill} {b : Fin 32} {ls : List ReserveLine} {short : Fin 48}
    (h : m.reserve b ls = .inr short) : firstShort m.stock [] ls = some short := by
  unfold Mill.reserve at h
  split at h
  · next found => cases h; exact found
  · cases h

theorem reserve_of_covered {m m' : Mill} {b : Fin 32} {ls : List ReserveLine} (h : m.reserve b ls = .inl m') :
    firstShort m.stock [] ls = none ∧ m' = m.makeEntries b ls := by
  unfold Mill.reserve at h
  split at h
  · cases h
  · next none => cases h; exact ⟨none, rfl⟩

/-! ### Releases (R52) -/

theorem releaseEntry_of_none {m : Mill} {b : Fin 32} {line : Nat} (h : m.stock.entry b line = none) :
    m.releaseEntry b line = m := by
  simp only [Mill.releaseEntry, h]

theorem releaseEntry_of_some {m : Mill} {b : Fin 32} {line : Nat} {e : Reservation}
    (h : m.stock.entry b line = some e) : m.releaseEntry b line =
      Mill.updBin { m with stock := { m.stock with
        table := m.stock.table.filter (fun x => !(x.batch = b && x.line = line)) } } e.bin
        (fun x => { x with reserved := x.reserved - e.unbooked }) := by
  simp only [Mill.releaseEntry, h]

theorem releaseEntry_entry {m : Mill} {b : Fin 32} {line : Nat} {e : Reservation}
    (h : m.stock.entry b line = some e) : (m.releaseEntry b line).stock.entry b line = none := by
  rw [releaseEntry_of_some h, Stock.entry, updBin_table, List.find?_eq_none]
  intro x mem
  exact Bool.eq_false_iff.mp ((Bool.not_eq_true' _).mp (List.mem_filter.mp mem).2)

/-! ### Draws (R51) -/

/-- The entry is the batch's on the line. -/
def Reservation.isOf (b : Fin 32) (line : Nat) (e : Reservation) : Bool := e.batch = b && e.line = line

/-- A draw booked on a line's entry. -/
def Reservation.drawn (b : Fin 32) (line cut : Nat) (e : Reservation) : Reservation :=
  if e.isOf b line then { e with unbooked := e.unbooked - cut } else e

theorem bookDraw_of_mass (m : Mill) (b : Fin 32) (line : Nat) (bin : Fin 48) {mass : Nat} (pos : 0 < mass) :
    let cut := min mass (m.stock.unbooked b line)
    m.bookDraw b line bin mass =
      (Mill.updBin { m with stock := { m.stock with table := m.stock.table.map (Reservation.drawn b line cut) } } bin
        (fun x => { x.fall mass with reserved := x.reserved - cut })).raiseIf
          (decide ((getAt m.stock.bins bin).level < mass)) .stockDisagree :=
  if_neg (by omega)

theorem drawn_isOf (b : Fin 32) (line cut : Nat) (e : Reservation) :
    (e.drawn b line cut).isOf b line = e.isOf b line := by
  unfold Reservation.drawn
  split <;> rfl

/-- A draw keeps the keys of the entries. -/
theorem find?_map_drawn (b : Fin 32) (line cut : Nat) (table : List Reservation) :
    (table.map (Reservation.drawn b line cut)).find? (Reservation.isOf b line) =
      (table.find? (Reservation.isOf b line)).map (fun e => { e with unbooked := e.unbooked - cut }) := by
  have keys : Reservation.isOf b line ∘ Reservation.drawn b line cut = Reservation.isOf b line :=
    funext (drawn_isOf b line cut)
  rw [List.find?_map, keys]
  cases found : table.find? (Reservation.isOf b line) with
  | none => rfl
  | some e =>
    have own : e.isOf b line = true := List.find?_some found
    exact congrArg some (if_pos own)

theorem bookDraw_unbooked (m : Mill) (b : Fin 32) (line : Nat) (bin : Fin 48) {mass : Nat} (pos : 0 < mass) :
    (m.bookDraw b line bin mass).stock.unbooked b line =
      m.stock.unbooked b line - min mass (m.stock.unbooked b line) := by
  have entry (s : Stock) : s.entry b line = s.table.find? (Reservation.isOf b line) := rfl
  rw [bookDraw_of_mass m b line bin pos, Stock.unbooked, entry, Mill.raiseIf_stock, updBin_table, find?_map_drawn]
  generalize min mass (m.stock.unbooked b line) = cut
  rw [Stock.unbooked, entry]
  cases m.stock.table.find? (Reservation.isOf b line) with
  | none => exact (Nat.zero_sub cut).symm
  | some e => rfl

/-- Settles O50: a claim by the check of its lines, a release and a draw by what they make of the bin and the table. -/
theorem reserveAllOrNothing : Obligations.ReserveAllOrNothing := by
  refine ⟨fun m b ls => ⟨fun short h => ?short, fun m' h => ?covered, makeEntries_does b ls m⟩,
    fun m b l => ⟨fun fits => if_pos fits, fun short => if_neg (not_le.mpr short)⟩,
    fun m b line => ⟨releaseEntry_of_none, fun e h => ?release⟩,
    fun m b line bin => ⟨rfl, fun inc negative => ?negative, fun mass pos => ?draw⟩⟩
  case short =>
    obtain ⟨pre, l, post, split, bin, mass, short, before⟩ := firstShort_some (reserve_of_short h)
    exact ⟨pre, l, post, split, bin, mass, short, before⟩
  case covered =>
    obtain ⟨none, rfl⟩ := reserve_of_covered h
    have only := stockOnly_makeEntries b ls m
    exact ⟨rfl, firstShort_none none, only.book, only.seq, only.weigh, only.lines, only.pack, only.trips, only.plan,
      only.actions⟩
  case release =>
    intro t
    have released : t = _ := releaseEntry_of_some h
    refine ⟨releaseEntry_entry h, ?_, ?_, fun i other => ?_⟩
    · rw [released, Mill.updBin_bin]; rfl
    · rw [released, Mill.updBin_bin]; rfl
    · rw [released, Mill.updBin_other _ _ _ _ other]
  case negative =>
    rw [Mill.bookDraw, if_pos (le_of_lt negative), decide_eq_true negative]
    rfl
  case draw =>
    intro t x cut
    have drawn : t = _ := bookDraw_of_mass m b line bin pos
    refine ⟨?_, ?_, bookDraw_unbooked m b line bin pos, fun short => ?_, fun i other => ?_⟩
    · rw [drawn, Mill.raiseIf_stock, Mill.updBin_bin]; rfl
    · rw [drawn, Mill.raiseIf_stock, Mill.updBin_bin]; rfl
    · rw [drawn, decide_eq_true short]
      exact List.mem_append_right _ (List.mem_singleton_self _)
    · rw [drawn, Mill.raiseIf_stock, Mill.updBin_other _ _ _ _ other]

end Sys2Proof.Machine

/-! SUPPORT. The admission pass (R107 to R113): each case of a step, the verdict against the tail, the wait reasons and the
creation report. -/

namespace Sys2Proof.Machine

/-! ### The steps of a pass (R109) -/

theorem queueFree_iff (m : Mill) : m.queueFree = true ↔ m.seq.queue.length < 8 := by
  simp only [Mill.queueFree, decide_eq_true_eq]; rfl

theorem queueFree_of_lt {m : Mill} (h : m.seq.queue.length < 8) : m.queueFree = true := (queueFree_iff m).mpr h

theorem queueFree_of_le {m : Mill} (h : 8 ≤ m.seq.queue.length) : m.queueFree = false :=
  Bool.eq_false_iff.mpr (mt (queueFree_iff m).mp (not_lt.mpr h))

theorem passStep_idle {m : Mill} (h : m.seq.pass = .idle) : m.passStep = m := by
  simp only [Mill.passStep, h]

/-- A step with the queue full, or past the end of the list, ends the pass. -/
theorem passStep_ends {m : Mill} {pos : Nat} (visiting : m.seq.pass = .visiting pos)
    (h : 8 ≤ m.seq.queue.length ∨ m.book.releaseList.length ≤ pos) : m.passStep = m.endPass := by
  simp only [Mill.passStep, visiting]
  cases free : m.queueFree with
  | false => rfl
  | true =>
    have past : m.book.releaseList.length ≤ pos :=
      h.resolve_left (not_le.mpr ((queueFree_iff m).mp free))
    rw [List.getElem?_eq_none past]
    rfl

section visit
variable {m : Mill} {pos : Nat} {o : Fin 256} (visiting : m.seq.pass = .visiting pos) (room : m.seq.queue.length < 8)
  (listed : m.book.releaseList[pos]? = some o)
include visiting room listed

theorem passStep_held (held : (m.order o).wait = .held) : m.passStep = m.stayAt (pos + 1) := by
  simp only [Mill.passStep, visiting, queueFree_of_lt room, listed, held, Bool.not_true, Bool.false_eq_true, if_false,
    if_true]

theorem passStep_no_entry (free : (m.order o).wait ≠ .held) (entry : (m.order o).entry = none) :
    m.passStep = m.stayAt (pos + 1) := by
  simp only [Mill.passStep, visiting, queueFree_of_lt room, listed, if_neg free, entry, Bool.not_true, Bool.false_eq_true,
    if_false]

theorem passStep_no_size (free : (m.order o).wait ≠ .held) {e : OrderEntry} (entry : (m.order o).entry = some e)
    (sized : nextSize (m.order o).remaining e.batchSize e.floor m.plan.batchMin = none) :
    m.passStep = m.stayAt (pos + 1) := by
  simp only [Mill.passStep, visiting, queueFree_of_lt room, listed, if_neg free, entry, sized, Bool.not_true,
    Bool.false_eq_true, if_false]

end visit

/-- The step of a sized batch: the queue full, else the verdict on it. -/
theorem passStep_sized {m : Mill} {pos : Nat} {x : Sized} (sized : m.seq.pass = .sized pos x) :
    (8 ≤ m.seq.queue.length → m.passStep = m.endPass) ∧
    (m.seq.queue.length < 8 →
      (m.judgeCandidate (m.order x.order).classMask = .forbid →
        m.passStep = (m.setWait x.order .forbid none).nextOrder pos x.order) ∧
      (∀ n, m.judgeCandidate (m.order x.order).classMask = .flush n → m.passStep = m.insertFlush pos x n) ∧
      (m.judgeCandidate (m.order x.order).classMask = .clear → m.passStep = m.admitOrder pos x)) := by
  simp only [Mill.passStep, sized]
  refine ⟨fun full => ?_, fun room => ?_⟩
  · rw [queueFree_of_le full]; rfl
  · rw [queueFree_of_lt room]
    exact ⟨fun verdict => by rw [verdict]; rfl, fun n verdict => by rw [verdict]; rfl, fun verdict => by rw [verdict]; rfl⟩

/-! ### Wait reasons (R113) -/

theorem setWait_of_listed {m : Mill} {o : Fin 256} (r : WaitReason) (short : Option (Fin 48))
    (listed : o ∈ m.book.releaseList) (free : (m.order o).wait ≠ .held) :
    let x : Order := { m.order o with wait := r, shortBin := (short.map (·.val)).getD (m.order o).shortBin }
    let n : Mill := { m with book := { m.book with orders := putAt m.book.orders o x } }
    m.setWait o r short = { n with
      outbox := m.outbox ++ [⟨.orderBook, m.recordAddr .order o 7, .write (m.deviceMask .order o 7) (x.word 7) .none⟩]
      reports := m.reports ++ [.condition .short (n.holds .short), .condition .forbid (n.holds .forbid)] } :=
  if_pos (by simp [listed, free])

theorem setWait_of_not_listed {m : Mill} {o : Fin 256} (r : WaitReason) (short : Option (Fin 48))
    (h : o ∉ m.book.releaseList ∨ (m.order o).wait = .held) : m.setWait o r short = m :=
  if_neg (by rcases h with h | h <;> simp [h])

/-! ### Admission and insertion (R111, R112) -/

theorem admitOrder_of_no_slot {m : Mill} (pos : Nat) (x : Sized) (h : m.allocate = none) :
    m.admitOrder pos x = m.endPass := by
  simp only [Mill.admitOrder, h]

section admission
variable {m : Mill} {b : Fin 32} (slot : m.allocate = some b) (pos : Nat) (x : Sized)
include slot

theorem admitOrder_of_short {short : Fin 48}
    (h : m.reserve b (reserveLines (m.orderBatch x).chain x.masses) = .inr short) :
    m.admitOrder pos x = (m.setWait x.order .short (some short)).nextOrder pos x.order := by
  simp only [Mill.admitOrder, slot, h]

theorem admitOrder_of_reserved {m1 : Mill}
    (h : m.reserve b (reserveLines (m.orderBatch x).chain x.masses) = .inl m1) :
    (m1.created x.order x.size = none → m.admitOrder pos x = (m1.releaseBatch b).nextOrder pos x.order) ∧
    (∀ m2, m1.created x.order x.size = some m2 →
      m.admitOrder pos x = (m2.admitBatch b (m.orderBatch x)).stayAt pos) := by
  simp only [Mill.admitOrder, slot, h]
  exact ⟨fun refused => by rw [refused], fun m2 created => by rw [created]⟩

end admission

theorem insertFlush_of_no_slot {m : Mill} (pos : Nat) (x : Sized) (n : Nat) (h : m.allocate = none) :
    m.insertFlush pos x n = m.endPass := by
  simp only [Mill.insertFlush, h]

section flush
variable {m : Mill} {b : Fin 32} {n : Nat} {c : Chain} (chain : m.plan.flushChains.getD n none = some c)
  (slot : m.allocate = some b) (pos : Nat) (x : Sized)
include chain slot

theorem insertFlush_of_short {short : Fin 48}
    (h : m.reserve b (reserveLines c (m.flushBatch c (m.plan.ruleMass n)).masses) = .inr short) :
    m.insertFlush pos x n = (m.setWait x.order .short (some short)).nextOrder pos x.order := by
  simp only [Mill.insertFlush, slot, chain, Option.getD_some, h]

/-- A flush batch admitted: the queue full ends the pass, else the order's batch is judged again. -/
theorem insertFlush_of_reserved {m1 : Mill}
    (h : m.reserve b (reserveLines c (m.flushBatch c (m.plan.ruleMass n)).masses) = .inl m1) :
    let m2 := (m1.admitBatch b (m.flushBatch c (m.plan.ruleMass n))).raiseUse c.slots
    (8 ≤ m2.seq.queue.length → m.insertFlush pos x n = m2.endPass) ∧
    (m2.seq.queue.length < 8 →
      (m2.judgeCandidate (m2.order x.order).classMask = .forbid →
        m.insertFlush pos x n = (m2.setWait x.order .forbid none).nextOrder pos x.order) ∧
      (m2.judgeCandidate (m2.order x.order).classMask ≠ .forbid → m.insertFlush pos x n = m2.admitOrder pos x)) := by
  intro m2
  simp only [Mill.insertFlush, slot, chain, Option.getD_some, h]
  refine ⟨fun full => ?_, fun room => ?_⟩
  · rw [queueFree_of_le full]; rfl
  · rw [queueFree_of_lt room]
    refine ⟨fun forbid => by rw [forbid]; rfl, fun free => ?_⟩
    cases verdict : m2.judgeCandidate (m2.order x.order).classMask with
    | forbid => exact absurd verdict free
    | flush _ | clear => rfl

end flush

theorem admitBatch_batch (m : Mill) (b : Fin 32) (x : Batch) :
    (m.admitBatch b x).batch b = x ∧ ∀ c, c ≠ b → (m.admitBatch b x).batch c = m.batch c := by
  simp only [Mill.batch, admitBatch_seq]
  exact ⟨getAt_putAt_same .., fun c other => getAt_putAt_ne _ _ _ _ other⟩

/-! ### The verdict against the tail (R106, R107) -/

theorem judgeCandidate_cases (m : Mill) (mask : BitVec 16) :
    (m.plan.judgePair m.tailMask mask = .forbid → m.judgeCandidate mask = .forbid) ∧
    (m.plan.judgePair m.tailMask mask = .clear → m.judgeCandidate mask = .clear) ∧
    (∀ n, m.plan.judgePair m.tailMask mask = .flush n → (∀ r, m.tail = some r → r.isFlush = false) →
      m.judgeCandidate mask = .flush n) ∧
    (∀ n r, m.plan.judgePair m.tailMask mask = .flush n → m.tail = some r → r.isFlush = true →
      m.judgeCandidate mask = .clear) := by
  unfold Mill.judgeCandidate
  refine ⟨fun v => by rw [v], fun v => by rw [v], fun n v noFlush => ?_, fun n r v tail flush => ?_⟩
  · rw [v]
    refine if_neg ?_
    cases tail : m.tail with
    | none => decide
    | some r => simp [noFlush r tail]
  · rw [v]
    exact if_pos (by simp [tail, flush])

theorem tail_of_append {m : Mill} {q : List (Fin 32)} {b : Fin 32} (h : m.seq.queue = q ++ [b]) :
    m.tail = some (m.batch b).member := by
  simp only [Mill.tail, h, List.getLast?_concat]

theorem tail_of_nil {m : Mill} (h : m.seq.queue = []) : m.tail = m.seq.reference := by
  simp only [Mill.tail, h, List.getLast?_nil]

theorem tailMask_of_batch {m : Mill} {r : Reference} (tail : m.tail = some r) (h : r.isFlush = false) :
    m.tailMask = r.mask := by
  simp only [Mill.tailMask, maskAhead, tail, h, Bool.false_eq_true, if_false]

theorem tailMask_of_initial {m : Mill} (h : m.tail = none ∨ ∃ r, m.tail = some r ∧ r.isFlush = true) :
    m.tailMask = m.plan.initialMask := by
  rcases h with none | ⟨r, tail, flush⟩
  · simp only [Mill.tailMask, maskAhead, none]
  · simp only [Mill.tailMask, maskAhead, tail, flush, if_true]

/-! ### The creation report (R89) -/

/-- The state of an order that a batch is created for. -/
def Order.creating (x : Order) (target : Nat) : Order :=
  { x with remaining := x.remaining - target, inFlight := x.inFlight + target, state := .producing, wait := .none }

/-- What a creation report does. -/
def Mill.creates (m : Mill) (o : Fin 256) (target : Nat) : Mill :=
  ((m.updOrder o (·.creating target)).updEntry o (fun e => { e with nonFinal := e.nonFinal + 1 })).raiseUse
    (m.order o).slots

theorem created_of_admissible {m : Mill} {o : Fin 256} (target : Nat)
    (works : (m.order o).state = .released ∨ (m.order o).state = .producing) (free : (m.order o).wait ≠ .held) :
    m.created o target = some (m.creates o target) :=
  if_pos (by simp [works, free])

theorem created_of_other_state {m : Mill} {o : Fin 256} (target : Nat) (notReleased : (m.order o).state ≠ .released)
    (notProducing : (m.order o).state ≠ .producing) : m.created o target = none :=
  if_neg (by simp [notReleased, notProducing])

theorem created_of_held {m : Mill} {o : Fin 256} (target : Nat) (held : (m.order o).wait = .held) :
    m.created o target = none :=
  if_neg (by simp [held])

theorem creates_order (m : Mill) (o : Fin 256) (target : Nat) : (m.creates o target).order o =
    { (m.order o).creating target with
      entry := (m.order o).entry.map (fun e => { e with nonFinal := e.nonFinal + 1 }) } := by
  rw [Mill.creates, Mill.raiseUse, Mill.useSlots_order, Mill.updEntry_order, Mill.updOrder_order]
  rfl

theorem updOrder_useCount (m : Mill) (o : Fin 256) (f : Order → Order) :
    (m.updOrder o f).book.useCount = m.book.useCount := by
  simp [Mill.updOrder]

theorem creates_useCount (m : Mill) (o : Fin 256) (target : Nat) (n : Fin 256) :
    getAt (m.creates o target).book.useCount n = getAt m.book.useCount n + (m.order o).slots.count n.val := by
  rw [Mill.creates, raiseUse_count]
  exact congrArg (fun v => getAt v n + (m.order o).slots.count n.val) (updOrder_useCount m o _)

/-- Settles O49: each case of a step, of an insertion and of an admission, then the verdict and the report. -/
theorem admissionPassRuns : Obligations.AdmissionPassRuns := by
  refine ⟨fun s n free running => ?row, fun m n => ⟨rfl, rfl, passStep_idle⟩,
    fun m pos o visiting room listed free => ⟨fun entry => passStep_no_entry visiting room listed free entry,
      fun e entry => ⟨passStep_no_size visiting room listed free entry, fun c size chain sized => ?visit⟩⟩,
    fun m pos visiting => ⟨passStep_ends visiting, fun o room listed => passStep_held visiting room listed⟩,
    fun m pos x => passStep_sized, fun m o r short => ⟨setWait_of_listed r short, setWait_of_not_listed r short⟩,
    fun m pos x => ⟨admitOrder_of_no_slot pos x, fun b slot => ⟨fun short => admitOrder_of_short slot pos x,
      fun m1 => admitOrder_of_reserved slot pos x⟩⟩,
    fun m pos n x c chain => ⟨insertFlush_of_no_slot pos x n, fun b slot =>
      ⟨fun short => insertFlush_of_short chain slot pos x, fun m1 => insertFlush_of_reserved chain slot pos x⟩⟩,
    fun m b x => ?admission, fun m mask => ?verdict,
    fun p prev next => ⟨judgePair_forbid p prev next, judgePair_clear p prev next, judgePair_flush p prev next⟩,
    fun m o target => ⟨created_of_other_state target, created_of_held target, fun works free => ?created⟩,
    fun m n => passSteps_queue n m⟩
  case row =>
    change execAdmissionPass (n + 1) s = _
    rw [execAdmissionPass, if_neg (Nat.succ_ne_zero n)]
    exact runMill_next free.1 (busy_of_free free) (if_neg running)
  case visit =>
    rw [passStep_visit visiting room listed entry free sized, chain]
    rfl
  case admission =>
    obtain ⟨own, others⟩ := admitBatch_batch m b x
    refine ⟨admitBatch_queue m b x, own, others, fun empty => ?_, fun c slot => findAt_eq_some_iff.mp slot |>.imp_right ?_,
      fun none d => findAt_none none d⟩
    · rw [admitBatch_notices, empty]
      exact List.mem_append_right _ (List.mem_singleton_self _)
    · exact fun least d lt => least d lt
  case verdict =>
    obtain ⟨forbid, clear, flush, flushed⟩ := judgeCandidate_cases m mask
    exact ⟨forbid, clear, flush, flushed, fun q b => tail_of_append, tail_of_nil, fun r => tailMask_of_batch,
      tailMask_of_initial⟩
  case created =>
    refine ⟨_, created_of_admissible target works free, ?_⟩
    rw [creates_order]
    refine ⟨rfl, rfl, rfl, rfl, fun e entry => ?_, creates_useCount m o target⟩
    simp only [Order.nonFinal, entry, Option.map_some, Option.getD_some]

end Sys2Proof.Machine

/-! SUPPORT. The frames of the meanings that work on one block: what a change of a record, a line or an outlet leaves
unchanged, and what it reports. -/

namespace Sys2Proof.Machine

/-! ### Records -/

theorem updOrder_book (m : Mill) (o : Fin 256) (f : Order → Order) :
    (m.updOrder o f).book = { m.book with orders := putAt m.book.orders o (f (m.order o)) } := by
  simp only [Mill.updOrder, Mill.postChanged_book]

/-- A change of an order writes the order, what it posts and what it reports, alone. -/
theorem updOrder_eq (m : Mill) (o : Fin 256) (f : Order → Order) :
    let n := { m with book := { m.book with orders := putAt m.book.orders o (f (m.order o)) } }
    m.updOrder o f = { n with
      outbox := (m.updOrder o f).outbox, reports := m.reports ++ orderReports n (m.order o) (f (m.order o)) } :=
  Mill.postChanged_eq ..

theorem updBatch_eq (m : Mill) (p : Block) (b : Fin 32) (f : Batch → Batch) :
    let n := { m with seq := { m.seq with batches := putAt m.seq.batches b (f (m.batch b)) } }
    m.updBatch p b f = { n with
      outbox := (m.updBatch p b f).outbox, reports := m.reports ++ batchReports n (m.batch b) (f (m.batch b)) } :=
  Mill.postChanged_eq ..

theorem updBin_notices (m : Mill) (i : Fin 48) (f : Bin → Bin) : (m.updBin i f).notices =
    m.notices ++ binNotices i (getAt m.stock.bins i) (f (getAt m.stock.bins i)).judge := by
  simp only [Mill.updBin, Mill.postChanged_notices]

theorem updMixer_weigh (m : Mill) (f : MixerCtl → MixerCtl) :
    (m.updMixer f).weigh = { m.weigh with mixer := f m.weigh.mixer } := by
  simp only [Mill.updMixer, Mill.postChanged_weigh]

theorem updBagger_eq (m : Mill) (f : Bagger → Bagger) :
    m.updBagger f = { m with pack := { m.pack with bagger := f m.pack.bagger }, outbox := (m.updBagger f).outbox } :=
  Mill.postChanged_eq ..

theorem updLoadout_eq (m : Mill) (f : Loadout → Loadout) :
    m.updLoadout f = { m with pack := { m.pack with loadout := f m.pack.loadout }, outbox := (m.updLoadout f).outbox } :=
  Mill.postChanged_eq ..

/-! ### Lines -/

/-- The lines with the rate of the line judged afresh. -/
def Mill.relined (m : Mill) (l : Line) (f : Lines → Lines) : Mill :=
  let n := { m with lines := f m.lines }
  { m with lines := n.lines.setLine l { n.lineCtl l with rate := n.rateOf l } }

/-- A change of the lines writes the lines, what it posts and what it reports, alone. -/
theorem updLines_eq (m : Mill) (l : Line) (f : Lines → Lines) : m.updLines l f = { m.relined l f with
    outbox := (m.updLines l f).outbox
    reports := m.reports ++ lineReports (m.relined l f) (m.lineCtl l) (({ m with lines := f m.lines } : Mill).lineCtl l) } :=
  Mill.postAll_eq ..

theorem postAll_outbox (p : Block) (k : RecordKind) (i : Nat) (new : Nat → Word) (ws : List Nat) (m : Mill) :
    (m.postAll p k i ws new).outbox = m.outbox ++ ws.map (fun w =>
      ⟨p, m.recordAddr k i w, .write (m.deviceMask k i w) (new w) .none⟩) := by
  unfold Mill.postAll
  induction ws generalizing m with
  | nil => simp
  | cons w ws ih =>
    rw [List.foldl_cons, ih]
    simp [Mill.postRecord, Mill.post, Mill.recordAddr, Mill.deviceMask, Mill.binKind]

/-- The words a change of a line posts: those that changed, and at a change of state the rate command's. -/
theorem updLines_posts {m : Mill} {l : Line} {f : Lines → Lines} {w : Nat} (mem : w ∈ [2, 3, 4])
    (changed : (m.updLines l f).lineWord l w ≠ m.lineWord l w ∨
      (w = 3 ∧ ((m.updLines l f).lineCtl l).state ≠ (m.lineCtl l).state)) :
    (⟨.lineSupervisor, m.recordAddr .unit (lineUnit l) w, .write (m.deviceMask .unit (lineUnit l) w)
      ((m.updLines l f).lineWord l w) .none⟩ : LaneEntry) ∈ (m.updLines l f).outbox := by
  have lines : (m.updLines l f).lines = (m.relined l f).lines := Mill.updLines_lines m l f
  have word (v : Nat) : (m.updLines l f).lineWord l v = (m.relined l f).lineWord l v := by
    cases l <;> simp only [Mill.lineWord, Mill.lineCtl, Mill.currentField, lines]
  have state : ((m.updLines l f).lineCtl l).state = ((m.relined l f).lineCtl l).state := by
    simp only [Mill.lineCtl, lines]
  have posted : w ∈ m.linePosts (m.relined l f) l := by
    rw [word, state] at changed
    refine List.mem_filter.mpr ⟨mem, ?_⟩
    rcases changed with h | ⟨h, k⟩
    · simp [h.symm]
    · simp [h, k.symm]
  have outbox : (m.updLines l f).outbox = m.outbox ++ (m.linePosts (m.relined l f) l).map (fun w =>
      ⟨.lineSupervisor, m.recordAddr .unit (lineUnit l) w,
        .write (m.deviceMask .unit (lineUnit l) w) ((m.relined l f).lineWord l w) .none⟩) :=
    postAll_outbox ..
  rw [outbox, word]
  exact List.mem_append_right _ (List.mem_map_of_mem posted)

theorem setGrinder_other (x : Lines) {g h : Grinder} (c : GrinderCtl) (other : h ≠ g) :
    (x.setGrinder g c).grinder h = x.grinder h := by
  cases g <;> cases h
  case a.a | b.b => exact absurd rfl other
  case a.b | b.a => rfl

theorem setGrinder_pellet (x : Lines) (g : Grinder) (c : GrinderCtl) : (x.setGrinder g c).pellet = x.pellet := by
  cases g <;> rfl

theorem setLine_other (x : Lines) {l k : Line} (c : LineCtl) (h : k ≠ l) : (x.setLine l c).line k = x.line k := by
  cases l with
  | pellet =>
    cases k with
    | pellet => exact absurd rfl h
    | grinder g => cases g <;> rfl
  | grinder g =>
    cases k with
    | pellet => exact congrArg (·.line) (setGrinder_pellet ..)
    | grinder h' => exact congrArg (·.line) (setGrinder_other _ _ fun e => h (congrArg _ e))

theorem updLines_lineCtl_other (m : Mill) {l k : Line} (f : Lines → Lines) (h : k ≠ l) :
    (m.updLines l f).lineCtl k = (f m.lines).line k := by
  rw [Mill.lineCtl, Mill.updLines_lines, setLine_other _ _ h]

theorem updLine_lineCtl_other (m : Mill) {l k : Line} (f : LineCtl → LineCtl) (h : k ≠ l) :
    (m.updLine l f).lineCtl k = m.lineCtl k := by
  rw [Mill.updLine, updLines_lineCtl_other _ _ h, setLine_other _ _ h]
  rfl

/-- A change of a grinder leaves the pellet line and the other grinder. -/
theorem updGrinder_others (m : Mill) (g : Grinder) (f : GrinderCtl → GrinderCtl) :
    (m.updGrinder g f).lines.pellet = m.lines.pellet ∧
      ∀ h, h ≠ g → (m.updGrinder g f).grinderCtl h = m.grinderCtl h := by
  refine ⟨?_, fun h other => ?_⟩
  · rw [Mill.updGrinder, Mill.updLines_lines]
    exact (setGrinder_pellet ..).trans (setGrinder_pellet ..)
  · rw [Mill.updGrinder, Mill.grinderCtl, Mill.updLines_lines]
    exact (setGrinder_other _ _ other).trans (setGrinder_other _ _ other)

theorem updPellet_lines (m : Mill) (f : PelletCtl → PelletCtl) : (m.updPellet f).lines =
    { m.lines with pellet := { f m.lines.pellet with
      line := { (f m.lines.pellet).line with rate := (m.updPellet f).lines.pellet.line.rate } } } := by
  rw [Mill.updPellet, Mill.updLines_lines]
  rfl

/-- A change of a trip channel leaves the state of every line. -/
theorem updChan_state (m : Mill) (ch : TripChannel) (f : TripChan → TripChan) (l : Line) :
    ((m.updChan ch f).lineCtl l).state = (m.lineCtl l).state := by
  by_cases own : l = chanLine ch
  · rw [own]
    exact (updChan_lineCtl m ch f).1
  · rw [Mill.updChan, updLines_lineCtl_other _ _ own]
    exact (setChan_line ..).1

theorem lineReports_eq (n : Mill) (old new : LineCtl) : lineReports n old new =
    (if (old.state = .tripped ↔ new.state = .tripped) then [] else [.condition .lineTrip (n.holds .lineTrip)]) ++
      (if old.top = new.top then [] else [.condition .topExceeded (n.holds .topExceeded)]) := by
  simp only [lineReports, decide_eq_decide]

/-! ### A bin's conditions (R48) -/

theorem judge_lowC_iff (b : Bin) : b.judge.lowC = true ↔
    (b.plan.kind.ingredient = true ∨ b.plan.kind = .rework) ∧ b.level < b.plan.low := by
  simp only [Bin.judge, Bool.and_eq_true, Bool.or_eq_true, beq_iff_eq, decide_eq_true_eq]

theorem judge_deficit_iff (b : Bin) : b.judge.deficit = true ↔ b.plan.kind.ingredient = true ∧ b.level < b.reserved := by
  simp only [Bin.judge, Bool.and_eq_true, decide_eq_true_eq]

/-- Settles O60: each frame by the equation of its change. -/
theorem meaningFrames : Obligations.MeaningFrames := by
  intro m
  refine ⟨fun o f => ?order, fun i f => ?bin, fun t f => ?trip, fun f => ?mixer, fun sc f => ?scale, updOrder_eq m,
    fun i f => ⟨m.updBin_checker i f, m.updBin_returned i f, updBin_waitingDiverts m i f, updBin_notices m i f,
      m.updBin_reports i f⟩,
    fun t f => ⟨m.updTrip_checker t f, m.updTrip_returned t f, m.updTrip_reports t f⟩,
    fun f => ⟨m.updMixer_checker f, m.updMixer_returned f, m.updMixer_reports f⟩,
    fun sc f => ⟨m.updScale_checker sc f, m.updScale_returned sc f, m.updScale_reports sc f, m.updScale_actions sc f⟩,
    fun p b f => ⟨updBatch_eq m p b f, m.updBatch_batch p b f, fun c other => m.updBatch_other p b c f other⟩,
    fun l f => ⟨updLines_eq m l f, fun w => updLines_posts⟩,
    fun l f => ⟨rfl, ?line, fun k other => updLine_lineCtl_other m f other⟩,
    fun g f => ⟨rfl, ?grinder, updGrinder_others m g f⟩, fun f => ⟨rfl, updPellet_lines m f⟩,
    fun ch f => ⟨rfl, updChan_chan m ch f, fun d other => updChan_other m ch d f other, updChan_state m ch f⟩,
    updBagger_eq m, updLoadout_eq m, fun _ _ _ => rfl, lineReports_eq, fun _ _ _ => rfl, fun _ _ _ => rfl,
    fun _ _ => rfl, fun _ => rfl, fun b => ⟨judge_lowC_iff b, judge_deficit_iff b⟩⟩
  case order =>
    rw [updOrder_book]
    exact ⟨m.updOrder_stock o f, m.updOrder_seq o f, m.updOrder_weigh o f, m.updOrder_lines o f, m.updOrder_pack o f,
      m.updOrder_trips o f, m.updOrder_plan o f, m.updOrder_actions o f, m.updOrder_notices o f, m.updOrder_order o f,
      fun p other => m.updOrder_other o p f other, rfl, rfl, rfl, rfl⟩
  case bin =>
    exact ⟨m.updBin_book i f, m.updBin_seq i f, m.updBin_weigh i f, m.updBin_lines i f, m.updBin_pack i f,
      m.updBin_trips i f, m.updBin_plan i f, m.updBin_actions i f, updBin_table m i f, m.updBin_bin i f,
      fun j other => m.updBin_other i j f other⟩
  case trip =>
    exact ⟨m.updTrip_book t f, m.updTrip_stock t f, m.updTrip_seq t f, m.updTrip_weigh t f, m.updTrip_lines t f,
      m.updTrip_pack t f, m.updTrip_plan t f, m.updTrip_actions t f, m.updTrip_notices t f, m.updTrip_trip t f,
      fun u other => m.updTrip_other t u f other, by rw [updTrip_trips]⟩
  case mixer =>
    exact ⟨m.updMixer_book f, m.updMixer_stock f, m.updMixer_seq f, m.updMixer_lines f, m.updMixer_pack f,
      m.updMixer_trips f, m.updMixer_plan f, m.updMixer_actions f, m.updMixer_notices f, updMixer_weigh m f⟩
  case scale =>
    exact ⟨m.updScale_book sc f, m.updScale_stock sc f, m.updScale_seq sc f, m.updScale_lines sc f, m.updScale_pack sc f,
      m.updScale_trips sc f, m.updScale_plan sc f, m.updScale_actions sc f, m.updScale_notices sc f,
      m.updScale_scale sc f, m.updScale_otherScale sc f, m.updScale_mixer sc f⟩
  case line => rw [updLine_lineCtl]
  case grinder => rw [updGrinder_grinderCtl]

end Sys2Proof.Machine

/-! SUPPORT. The lots of the surges: what a draw takes and an append adds (R57, R61), and that a surge's lots, at most 8,
sum to its bin's level (R56). -/

namespace Sys2Proof.Machine

/-- The mass of a list of lots. -/
def lotMass (lots : List Lot) : Nat := (lots.map (·.mass)).sum

@[simp] theorem lotMass_nil : lotMass [] = 0 := rfl

@[simp] theorem lotMass_cons (l : Lot) (t : List Lot) : lotMass (l :: t) = l.mass + lotMass t := by
  simp [lotMass]

@[simp] theorem lotMass_append (a b : List Lot) : lotMass (a ++ b) = lotMass a + lotMass b := by
  simp [lotMass]

/-! ### A draw (R61) -/

theorem drawFrom_conserves (lots : List Lot) (mass : Nat) :
    lotMass (drawFrom lots mass).lots + (drawFrom lots mass).taken = lotMass lots ∧ (drawFrom lots mass).taken ≤ mass ∧
      (mass ≤ lotMass lots → (drawFrom lots mass).taken = mass) := by
  induction lots generalizing mass with
  | nil => exact ⟨rfl, Nat.zero_le _, fun h => (Nat.le_zero.mp h).symm⟩
  | cons l t ih =>
    unfold drawFrom
    split
    · next none => exact ⟨rfl, Nat.zero_le _, fun _ => none.symm⟩
    · split
      · next part =>
        exact ⟨by simp only [lotMass_cons]; omega, le_rfl, fun _ => rfl⟩
      · next whole =>
        obtain ⟨kept, within, all⟩ := ih (mass - l.mass)
        simp only [lotMass_cons]
        exact ⟨by omega, by omega, fun h => by rw [all (by omega)]; omega⟩

theorem drawFrom_shape (lots : List Lot) (mass : Nat) :
    (drawFrom lots mass).lots.length + (drawFrom lots mass).left.length = lots.length ∧
      (drawFrom lots mass).lots.tail = (lots.drop (drawFrom lots mass).left.length).tail := by
  induction lots generalizing mass with
  | nil => exact ⟨rfl, rfl⟩
  | cons l t ih =>
    unfold drawFrom
    split
    · exact ⟨rfl, rfl⟩
    · split
      · exact ⟨rfl, rfl⟩
      · obtain ⟨length, tail⟩ := ih (mass - l.mass)
        exact ⟨by simp only [List.length_cons]; omega, tail⟩

/-! ### An append (R57) -/

section append
variable (front : List Lot) (tail : Lot) (owner : Option (Fin 256)) (mark : Mark) (mass : Nat)

theorem appendTo_of_owner (own : tail.owner = owner) : (appendTo (front ++ [tail]) owner mark mass).1 =
    front ++ [⟨owner, if mark = .none then tail.mark else mark, tail.mass + mass⟩] := by
  simp only [appendTo, List.getLast?_concat, if_pos own, List.dropLast_concat]

theorem appendTo_of_room (other : tail.owner ≠ owner) (room : (front ++ [tail]).length < 8) :
    (appendTo (front ++ [tail]) owner mark mass).1 = front ++ [tail] ++ [⟨owner, mark, mass⟩] := by
  simp only [appendTo, List.getLast?_concat, if_neg other]
  rw [if_pos (show _ < Config.lotDepth from room)]

/-- A full list's tail becomes orphan, and joins an orphan lot before it. -/
theorem appendTo_of_full (other : tail.owner ≠ owner) (full : 8 ≤ (front ++ [tail]).length) :
    (appendTo (front ++ [tail]) owner mark mass).1 = front ++ [⟨none, .none, tail.mass + mass⟩] ∨
    ∃ before prev, front = before ++ [prev] ∧ (appendTo (front ++ [tail]) owner mark mass).1 =
      before ++ [⟨none, prev.mark, prev.mass + (tail.mass + mass)⟩] := by
  simp only [appendTo, List.getLast?_concat, if_neg other, List.dropLast_concat]
  rw [if_neg (show ¬(front ++ [tail]).length < Config.lotDepth from not_lt.mpr full)]
  rcases List.eq_nil_or_concat front with rfl | ⟨before, prev, rfl⟩
  · exact .inl rfl
  · rw [List.concat_eq_append, List.getLast?_concat]
    dsimp only
    split
    · exact .inr ⟨before, prev, rfl, by rw [List.dropLast_concat]⟩
    · exact .inl rfl

end append

/-- An append adds its mass and keeps a list of at most 8 at 8. -/
theorem appendTo_conserves (lots : List Lot) (owner : Option (Fin 256)) (mark : Mark) (mass : Nat) :
    lotMass (appendTo lots owner mark mass).1 = lotMass lots + mass ∧
      (lots.length ≤ 8 → (appendTo lots owner mark mass).1.length ≤ 8) := by
  rcases List.eq_nil_or_concat lots with rfl | ⟨front, tail, rfl⟩
  · exact ⟨by simp [appendTo], fun _ => by simp [appendTo]⟩
  · rw [List.concat_eq_append]
    by_cases own : tail.owner = owner
    · rw [appendTo_of_owner front tail owner mark mass own]
      exact ⟨by simp [Nat.add_assoc], fun h => by simpa using h⟩
    · rcases Nat.lt_or_ge (front ++ [tail]).length 8 with room | full
      · rw [appendTo_of_room front tail owner mark mass own room]
        exact ⟨by simp [Nat.add_assoc], fun _ => by simp at room ⊢; omega⟩
      · rcases appendTo_of_full front tail owner mark mass own full with h | ⟨before, prev, rfl, h⟩
        · rw [h]
          exact ⟨by simp [Nat.add_assoc], fun k => by simpa using k⟩
        · rw [h]
          refine ⟨by simp; omega, fun k => ?_⟩
          simp only [List.length_append, List.length_singleton] at k ⊢
          omega

theorem appendTo_orphan_tail (front : List Lot) (tail : Lot) (owner : Option (Fin 256)) (mark : Mark) (mass : Nat)
    (other : tail.owner ≠ owner) (full : 8 ≤ (front ++ [tail]).length) :
    (appendTo (front ++ [tail]) owner mark mass).1.getLast?.map (·.owner) = some none := by
  rcases appendTo_of_full front tail owner mark mass other full with h | ⟨before, prev, _, h⟩
  all_goals rw [h, List.getLast?_concat]; rfl

/-! ### The lots of a bin -/

/-- A bin's lots, at most 8, sum to its level. -/
def Bin.lotsSum (b : Bin) : Prop := lotMass b.lots = b.level ∧ b.lots.length ≤ 8

/-- The lots of every surge sum to its bin's level. -/
def Mill.lotsSum (m : Mill) : Prop :=
  ∀ i, (getAt m.stock.bins i).plan.kind.isSurge = true → (getAt m.stock.bins i).lotsSum

theorem lotsSum_of_bins {m n : Mill} (h : m.lotsSum) (bins : n.stock.bins = m.stock.bins) : n.lotsSum := by
  unfold Mill.lotsSum
  rw [bins]
  exact h

/-- A change of a bin that keeps its plan keeps the sums if it keeps the bin's, where the bin is a surge's. -/
theorem lotsSum_updBin {m : Mill} {i : Fin 48} {f : Bin → Bin} (h : m.lotsSum)
    (plan : (f (getAt m.stock.bins i)).plan = (getAt m.stock.bins i).plan)
    (own : (getAt m.stock.bins i).plan.kind.isSurge = true → (f (getAt m.stock.bins i)).lotsSum) :
    (m.updBin i f).lotsSum := by
  intro j surge
  by_cases same : j = i
  · subst same
    rw [Mill.updBin_bin] at surge ⊢
    exact own (by rw [← plan]; exact surge)
  · rw [Mill.updBin_other _ _ _ _ same] at surge ⊢
    exact h j surge

theorem isSurge_of_surgeBin {m : Mill} {g : Surge} {i : Fin 48} (bin : m.surgeBin g = some i) :
    (getAt m.stock.bins i).plan.kind.isSurge = true := by
  rw [surgeBin_kind bin]
  cases g <;> rfl

/-! ### Diverts and the check of a head lot (R59, R60) -/

theorem lotsSum_divert {m : Mill} {g : Surge} {i : Fin 48} {l : Lot} {t : List Lot} (h : m.lotsSum)
    (bin : m.surgeBin g = some i) (lots : (getAt m.stock.bins i).lots = l :: t) : (m.divert g i l).lotsSum := by
  obtain ⟨sum, length⟩ := h i (isSurge_of_surgeBin bin)
  rw [lots] at sum length
  have fall : (m.afterFall i l).lotsSum := by
    refine lotsSum_of_bins (lotsSum_updBin (f := (·.diverted l)) h rfl fun _ => ?_) (by rw [Mill.afterFall, postLots_stock])
    simp only [Bin.lotsSum, Bin.diverted, Bin.fall, lots, List.tail_cons]
    rw [← sum, lotMass_cons, Nat.add_sub_cancel_left]
    exact ⟨rfl, Nat.le_of_succ_le length⟩
  refine lotsSum_of_bins ?_ (divert_stock_bins m g i l)
  unfold Mill.addRework
  split
  · exact fall
  · next r rework =>
    refine lotsSum_of_bins (lotsSum_updBin (f := (·.rise l.mass)) fall rfl fun surge => ?_)
      (by rw [Mill.addMass, Mill.raiseIf_stock])
    rw [reworkBin_kind rework] at surge
    cases surge

theorem lotsSum_checkHeads (n : Nat) {m : Mill} (g : Surge) (h : m.lotsSum) : (m.checkHeads g n).lotsSum := by
  induction n generalizing m with
  | zero => exact h
  | succ n ih =>
    cases bin : m.surgeBin g with
    | none => simpa only [Mill.checkHeads, bin] using h
    | some i =>
      cases lots : (getAt m.stock.bins i).lots with
      | nil => rw [checkHeads_nil n bin lots]; exact h
      | cons l t =>
        rw [checkHeads_cons n bin lots]
        split
        · exact h
        · split
          · exact h
          · split
            · exact ih (lotsSum_divert h bin lots)
            · unfold Mill.startsWaiting
              split <;> exact h

theorem lotsSum_checkHead {m : Mill} (g : Surge) (h : m.lotsSum) : (m.checkHead g).lotsSum := lotsSum_checkHeads 9 g h

/-! ### Marks (R62) -/

theorem lotMass_markLots (o : Fin 256) (mark : Mark) (lots : List Lot) : lotMass (markLots o mark lots) = lotMass lots := by
  rw [markLots_eq, lotMass, List.map_map, lotMass]
  refine congrArg List.sum (List.map_congr_left fun l _ => ?_)
  simp only [Function.comp]
  split <;> rfl

theorem lotsSum_remark {m : Mill} (g : Surge) {f : List Lot → List Lot} (h : m.lotsSum)
    (mass : ∀ lots, lotMass (f lots) = lotMass lots) (length : ∀ lots, (f lots).length = lots.length) :
    (m.remark g f).lotsSum := by
  unfold Mill.remark
  split
  · exact h
  · next i bin =>
    dsimp only
    split
    · exact h
    · refine lotsSum_of_bins (m := m.updBin i (fun b => { b with lots := f (getAt m.stock.bins i).lots }))
        (lotsSum_updBin h rfl fun surge => ?_) (congrArg Stock.bins (postLots_stock ..))
      obtain ⟨sum, short⟩ := h i surge
      exact ⟨(mass _).trans sum, (length _).trans_le short⟩

theorem lotsSum_markOrder {m : Mill} (o : Fin 256) (mark : Mark) (h : m.lotsSum) : (m.markOrder o mark).lotsSum := by
  have marked {m : Mill} (g : Surge) (h : m.lotsSum) : (m.remark g (markLots o mark)).lotsSum :=
    lotsSum_remark g h (lotMass_markLots o mark) fun lots => by rw [markLots_eq, List.length_map]
  rw [Mill.markOrder, checkSurges_eq]
  exact lotsSum_checkHead _ (lotsSum_checkHead _ (lotsSum_checkHead _ (marked _ (marked _ (marked _ h)))))

/-! ### Draws, appends and the restart (R43, R57, R61) -/

/-- What a lot draw makes of the surge's bin. -/
def Bin.drawnTo (d : Drawn) (b : Bin) : Bin :=
  { b.fall d.taken with lots := d.lots, claim := b.claim && d.left.isEmpty }

theorem takeLots_stock {m : Mill} {g : Surge} {i : Fin 48} (mass : Nat) (bin : m.surgeBin g = some i) :
    (m.takeLots g mass).1.stock = (m.updBin i (Bin.drawnTo (drawFrom (getAt m.stock.bins i).lots mass))).stock := by
  simp only [Mill.takeLots, bin]
  split
  · rw [Mill.raiseIf_stock]; rfl
  · rw [postLots_stock, Mill.raiseIf_stock]; rfl

theorem takeLots_bin {m : Mill} {g : Surge} {i : Fin 48} (mass : Nat) (bin : m.surgeBin g = some i) :
    getAt (m.takeLots g mass).1.stock.bins i =
      ((getAt m.stock.bins i).drawnTo (drawFrom (getAt m.stock.bins i).lots mass)).judge := by
  rw [takeLots_stock mass bin, Mill.updBin_bin]

theorem takeLots_owners {m : Mill} {g : Surge} {i : Fin 48} (mass : Nat) (bin : m.surgeBin g = some i) :
    (m.takeLots g mass).2 = (drawFrom (getAt m.stock.bins i).lots mass).owners := by
  simp only [Mill.takeLots, bin]

/-- A draw of more than the lots hold is reported. -/
theorem takeLots_reports {m : Mill} {g : Surge} {i : Fin 48} {mass : Nat} (bin : m.surgeBin g = some i)
    (short : (drawFrom (getAt m.stock.bins i).lots mass).taken < mass) :
    Report.event .stockDisagree ∈ (m.takeLots g mass).1.reports := by
  have raised (n : Mill) (empty : Bool) : Report.event .stockDisagree ∈ (n.raiseIf (empty ||
      decide ((drawFrom (getAt m.stock.bins i).lots mass).taken < mass)) .stockDisagree).reports := by
    rw [decide_eq_true short, Bool.or_true]
    exact List.mem_append_right _ (List.mem_singleton_self _)
  simp only [Mill.takeLots, bin]
  split
  · exact raised ..
  · rw [Mill.postLots, Mill.postAll_reports]
    exact raised ..

theorem lotsSum_takeLots {m : Mill} (g : Surge) (mass : Nat) (h : m.lotsSum) : (m.takeLots g mass).1.lotsSum := by
  cases bin : m.surgeBin g with
  | none =>
    simp only [Mill.takeLots, bin]
    exact h
  | some i =>
    refine lotsSum_of_bins (lotsSum_updBin h rfl fun surge => ?_) (congrArg Stock.bins (takeLots_stock mass bin))
    obtain ⟨sum, length⟩ := h i surge
    obtain ⟨kept, _, _⟩ := drawFrom_conserves (getAt m.stock.bins i).lots mass
    obtain ⟨shorter, _⟩ := drawFrom_shape (getAt m.stock.bins i).lots mass
    refine ⟨?_, ?_⟩
    · simp only [Bin.drawnTo, Bin.fall]; omega
    · simp only [Bin.drawnTo]; omega

/-! ### The mass of an append booked (R57) -/

/-- What a lot append makes of the surge's bin. -/
def Bin.appended (lots : List Lot) (took : Nat) (b : Bin) : Bin := { b.rise took with lots := lots }

theorem updBin_stock (m : Mill) (i : Fin 48) (f : Bin → Bin) : (m.updBin i f).stock =
    { m.stock with bins := putAt m.stock.bins i (f (getAt m.stock.bins i)).judge } := by
  simp only [Mill.updBin, Mill.postChanged_stock]

theorem ownerOf_raiseIf (m : Mill) (b : Bool) (f : Flag) (o : Option (Fin 256)) :
    (m.raiseIf b f).ownerOf o = m.ownerOf o := by
  simp only [Mill.ownerOf, Mill.raiseIf_book]

section put
variable {m : Mill} {g : Surge} {i : Fin 48} (o : Option (Fin 256)) {mass : Nat} (bin : m.surgeBin g = some i)
include bin

theorem putLot_of_nothing (none : min mass (getAt m.stock.bins i).room = 0) : m.putLot g o mass =
    m.raiseIf (decide ((getAt m.stock.bins i).room < mass)) .stockDisagree := by
  simp only [Mill.putLot, bin, if_pos none]

theorem putLot_stock_of_some (some : 0 < min mass (getAt m.stock.bins i).room) : (m.putLot g o mass).stock =
    (m.updBin i (Bin.appended (appendTo (getAt m.stock.bins i).lots (m.ownerOf o).1 (m.ownerOf o).2
      (min mass (getAt m.stock.bins i).room)).1 (min mass (getAt m.stock.bins i).room))).stock := by
  simp only [Mill.putLot, bin, if_neg some.ne', postLots_stock, updBin_stock, Mill.raiseIf_stock, ownerOf_raiseIf]
  rfl

theorem putLot_notices_of_some (some : 0 < min mass (getAt m.stock.bins i).room) :
    Notice.appended g ∈ (m.putLot g o mass).notices := by
  simp only [Mill.putLot, bin, if_neg some.ne']
  exact List.mem_append_right _ (List.mem_singleton_self _)

/-- An append of more than the bin has room for is reported. -/
theorem putLot_reports (excess : (getAt m.stock.bins i).room < mass) :
    Report.event .stockDisagree ∈ (m.putLot g o mass).reports := by
  have raised : Report.event .stockDisagree ∈
      (m.raiseIf (decide ((getAt m.stock.bins i).room < mass)) .stockDisagree).reports := by
    rw [decide_eq_true excess]
    exact List.mem_append_right _ (List.mem_singleton_self _)
  have keeps (n : Mill) (b : Bool) (h : Report.event .stockDisagree ∈ n.reports) :
      Report.event .stockDisagree ∈ (n.raiseIf b .stockDisagree).reports := by
    cases b
    · exact h
    · exact List.mem_append_left _ h
  simp only [Mill.putLot, bin]
  split
  · exact raised
  · rw [Mill.postLots, Mill.postAll_reports, Mill.updBin_reports]
    exact List.mem_append_left _ (keeps _ _ raised)

end put

theorem min_room_le {level capacity mass : Nat} (some : 0 < min mass (capacity - level)) :
    min (level + min mass (capacity - level)) capacity = level + min mass (capacity - level) := by
  omega

theorem lotsSum_putLot {m : Mill} (g : Surge) (o : Option (Fin 256)) (mass : Nat) (h : m.lotsSum) :
    (m.putLot g o mass).lotsSum := by
  cases bin : m.surgeBin g with
  | none =>
    simp only [Mill.putLot, bin]
    exact h
  | some i =>
    rcases Nat.eq_zero_or_pos (min mass (getAt m.stock.bins i).room) with none | some
    · rw [putLot_of_nothing o bin none]
      exact lotsSum_of_bins h (by rw [Mill.raiseIf_stock])
    · refine lotsSum_of_bins (lotsSum_updBin h rfl fun surge => ?_)
        (congrArg Stock.bins (putLot_stock_of_some o bin some))
      obtain ⟨sum, length⟩ := h i surge
      obtain ⟨added, short⟩ := appendTo_conserves (getAt m.stock.bins i).lots (m.ownerOf o).1 (m.ownerOf o).2
        (min mass (getAt m.stock.bins i).room)
      refine ⟨?_, short length⟩
      rw [Bin.appended, added, sum]
      exact (min_room_le some).symm

/-- A changed list tells its consumer of a head that has another owner or mark, or is there no more, or newly. -/
theorem headNotices_eq_nil_iff (g : Surge) (old new : List Lot) : (headNotices g old new false).isEmpty = true ↔
    old.head?.map (fun l => (l.owner, l.mark)) = new.head?.map (fun l => (l.owner, l.mark)) := by
  unfold headNotices
  cases old.head? <;> cases new.head? <;> simp

theorem appendLot_eq (m : Mill) (g : Surge) (o : Option (Fin 256)) (mass : Nat) : m.appendLot g o mass =
    if (m.lotsOf g).head?.map (fun l => (l.owner, l.mark)) =
        ((m.putLot g o mass).lotsOf g).head?.map (fun l => (l.owner, l.mark)) then m.putLot g o mass
    else (m.putLot g o mass).checkHead g := by
  rw [Mill.appendLot]
  exact if_congr (headNotices_eq_nil_iff ..) rfl rfl

theorem lotsSum_appendLot {m : Mill} (g : Surge) (o : Option (Fin 256)) (mass : Nat) (h : m.lotsSum) :
    (m.appendLot g o mass).lotsSum := by
  rw [appendLot_eq]
  split
  · exact lotsSum_putLot g o mass h
  · exact lotsSum_checkHead g (lotsSum_putLot g o mass h)

/-! ### The restart of a bin (R43) -/

theorem restartBin_bins (m : Mill) (i : Fin 48) :
    (m.restartBin i).stock.bins = putAt m.stock.bins i (getAt m.stock.bins i).atRestart := by
  unfold Mill.restartBin
  dsimp only
  split
  · rw [Mill.postChanged_stock]
  · rw [postLots_stock, Mill.postChanged_stock]

theorem atRestart_lotsSum {b : Bin} (surge : b.plan.kind.isSurge = true) : b.atRestart.lotsSum := by
  rw [Bin.atRestart, if_pos surge, Bin.orphaned, Bin.lotsSum, Bin.judge]
  dsimp only
  split
  · next empty => exact ⟨empty.symm, Nat.zero_le _⟩
  · exact ⟨by simp, by simp⟩

theorem atRestart_plan (b : Bin) : b.atRestart.plan = b.plan := by
  unfold Bin.atRestart Bin.orphaned Bin.judge
  split <;> rfl

theorem lotsSum_restartBin {m : Mill} (i : Fin 48) (h : m.lotsSum) : (m.restartBin i).lotsSum := by
  intro j surge
  rw [restartBin_bins] at surge ⊢
  by_cases same : j = i
  · subst same
    rw [getAt_putAt_same] at surge ⊢
    exact atRestart_lotsSum (by rw [← atRestart_plan]; exact surge)
  · rw [getAt_putAt_ne _ _ _ _ same] at surge ⊢
    exact h j surge

/-! ### The owner of product (R57) -/

theorem ownerOf_some (m : Mill) (o : Fin 256) :
    ((m.order o).state = .released ∨ (m.order o).state = .producing ∨ (m.order o).state = .finishing →
      m.ownerOf (some o) = (some o, .none)) ∧
    ((m.order o).state = .cancelling → m.ownerOf (some o) = (some o, .cancelled)) ∧
    ((m.order o).state = .packed → m.ownerOf (some o) = (some o, .overrun)) ∧
    ((m.order o).state = .idle ∨ (m.order o).state = .closed ∨ (m.order o).state = .cancelled →
      m.ownerOf (some o) = (none, .none)) := by
  have order : getAt m.book.orders o = m.order o := rfl
  simp only [Mill.ownerOf, order]
  exact ⟨fun h => by rcases h with h | h | h <;> rw [h], fun h => by rw [h], fun h => by rw [h],
    fun h => by rcases h with h | h | h <;> rw [h]⟩

/-- Settles O59: the two list operations by induction, the sums kept by each operation of the Stock Unit. -/
theorem lotsConserve : Obligations.LotsConserve := by
  refine ⟨fun lots mass => ?draw, fun lots owner mark mass => ?append, fun m => ?sums, fun _ _ _ => rfl,
    fun m g o mass => ?heads, fun m g i mass bin => ?takes, fun m g i o mass bin => ?puts,
    fun m o => ⟨rfl, ownerOf_some m o⟩⟩
  case draw =>
    obtain ⟨sum, within, all⟩ := drawFrom_conserves lots mass
    obtain ⟨length, tail⟩ := drawFrom_shape lots mass
    exact ⟨sum, within, all, length, tail⟩
  case append =>
    obtain ⟨sum, length⟩ := appendTo_conserves lots owner mark mass
    refine ⟨sum, length, ?_, ?_⟩
    · rintro rfl; rfl
    · rintro front tail rfl
      exact ⟨appendTo_of_owner front tail owner mark mass, appendTo_of_room front tail owner mark mass,
        appendTo_orphan_tail front tail owner mark mass⟩
  case sums =>
    intro ok (h : m.lotsSum)
    exact ⟨fun g mass => lotsSum_checkHead g (lotsSum_takeLots g mass h), fun g o mass => lotsSum_appendLot g o mass h,
      fun g i l t bin lots => lotsSum_divert h bin lots, fun g => lotsSum_checkHead g h,
      fun o mark => lotsSum_markOrder o mark h, fun i => lotsSum_restartBin i h⟩
  case heads =>
    rw [appendLot_eq]
    exact ⟨fun changed => if_neg changed, fun same => if_pos same⟩
  case takes =>
    dsimp only
    rw [takeLots_bin mass bin]
    exact ⟨rfl, rfl, takeLots_owners mass bin, rfl, takeLots_reports bin⟩
  case puts =>
    refine ⟨fun none => ?_, fun some => ?_, putLot_reports o bin⟩
    · rw [putLot_of_nothing o bin none, Mill.raiseIf_stock]
    · rw [putLot_stock_of_some o bin some, Mill.updBin_bin]
      exact ⟨rfl, min_room_le some, putLot_notices_of_some o bin some⟩

end Sys2Proof.Machine

/-! SUPPORT. The verification of a ticket chain: its begin, its walk's stages and its verdict (04_formula_tickets.md). -/

namespace Sys2Proof.Machine

/-! ### The reads of a walk and of a release -/

/-- The reads of a ticket slot post, and change nothing else. -/
theorem readTicket_eq (m : Mill) (slot : Nat) (ws : List Nat) (tag : ReadTag) : m.readTicket slot ws tag =
    { m with outbox := m.outbox ++ ws.map (fun w => ⟨.ticketChecker, m.recordAddr .ticket slot w, .read tag⟩) } := by
  unfold Mill.readTicket
  induction ws generalizing m with
  | nil => simp
  | cons w ws ih =>
    rw [List.foldl_cons, ih]
    simp [Mill.postRead, Mill.recordAddr]

/-- The reads of an order's F words post, and change nothing else. -/
theorem readOrderFields_eq (m : Mill) (o : Fin 256) (tag : ReadTag) : m.readOrderFields o tag =
    { m with outbox := m.outbox ++ [2, 3, 4, 5, 6].map (fun w => ⟨.orderBook, m.recordAddr .order o w, .read tag⟩) } := by
  simp [Mill.readOrderFields, Mill.postRead, Mill.recordAddr]

/-! ### The verification begun -/

/-- A processor write is in progress exactly when the transaction is one. -/
theorem writing_iff (s : State) : s.writing = true ↔ ∃ bs hs p, s.tx = some (.write bs hs p) := by
  unfold State.writing
  split
  · next bs hs p h => exact ⟨fun _ => ⟨bs, hs, p, h⟩, fun _ => rfl⟩
  · next other => exact ⟨fun h => absurd h Bool.false_ne_true, fun ⟨bs, hs, p, h⟩ => absurd h (other bs hs p)⟩

/-- A request taken while no walk is in progress: its walk begins at its head slot. -/
theorem takeRequest_of_idle {m : Mill} {r : VerifyRequest} {rs : List VerifyRequest} (idle : m.checker.walk = none)
    (waiting : m.checker.requests = r :: rs) : m.takeRequest = some { m with
      checker := ⟨rs, some ⟨r.caller, r.head, r.head, [r.head], 1, 0, 0, 0, [], none⟩, m.checker.awaitsWrite⟩
      outbox := m.outbox ++ [0, 1, 2, 3, 4, 5].map (fun w =>
        ⟨.ticketChecker, m.recordAddr .ticket r.head w, .read .ticketHeader⟩) } := by
  simp only [Mill.takeRequest, idle, waiting, Mill.beginWalk, Mill.readHeader, readTicket_eq]
  rfl

/-- Settles O29: the two rows, and the end of a transaction. -/
theorem verificationBegun : Obligations.VerificationBegun := by
  refine ⟨fun s o free inExec reads head => ?begun, fun s r rs free idle waiting => ?walk, fun s => ⟨rfl, rfl⟩⟩
  case begun =>
    refine ⟨?_, rfl, rfl, rfl, rfl, writing_iff s⟩
    change execReleaseFieldsRead s = _
    exact runMill_next free.1 (busy_of_free free) (by simp only [inExec, reads, head]; rfl)
  case walk =>
    change (_ → execVerifyWalkStart s = _) ∧ (_ → execVerifyWalkStart s = _)
    refine ⟨fun clear => ?_, fun waits => ?_⟩
    · refine runMill_next free.1 (busy_of_free free) ?_
      rw [clear, if_neg Bool.false_ne_true, takeRequest_of_idle idle waiting, clear]
    · rw [execVerifyWalkStart, State.runMill, waits]
      simp [noOccasion]

/-! ### The header stage -/

/-- What a header must satisfy to pass (R71). -/
def HeaderPasses (position : Nat) (visited : List Nat) (ws : List Word) (h : Header) : Prop :=
  PartMark.ofCode (bits (ws.getD 0 0) 0 8) = some h.mark ∧ h.next = bits (ws.getD 1 0) 0 16 ∧
    h.lineCount = bits (ws.getD 2 0) 0 16 ∧ h.check = (ws.getD 4 0).extractLsb' 0 16 ∧
    markAllowed position h.mark = true ∧ 1 ≤ h.lineCount ∧ h.lineCount ≤ 24 ∧
    (position = 1 → 30 ≤ bits (ws.getD 3 0) 0 16 ∧ bits (ws.getD 3 0) 0 16 ≤ 900) ∧
    (h.mark.links = true → h.next ≤ 255 ∧ h.next ∉ visited)

/-- A slot's header is taken exactly when it passes each check of R71. -/
theorem headerOf_eq_some_iff (position : Nat) (visited : List Nat) (ws : List Word) (h : Header) :
    headerOf position visited ws = some h ↔ HeaderPasses position visited ws h := by
  obtain ⟨mark, next, count, check⟩ := h
  unfold headerOf HeaderPasses
  cases code : PartMark.ofCode (bits (ws.getD 0 0) 0 8) with
  | none => simp
  | some k =>
    dsimp only
    simp only [List.contains_iff_mem, Bool.not_eq_true', Bool.or_eq_true, Bool.and_eq_true, decide_eq_true_eq]
    split_ifs with notAllowed noCount badMix badLink
    all_goals grind

/-- A failing header ends the walk with TICKET_CHAIN. -/
theorem headerStage_of_failing {m : Mill} {w : Walk} (fails : headerOf w.position w.visited (m.readsOf .ticketHeader) = none) :
    m.headerStage w = .ended (m.takeReads .ticketHeader).clearWalk w.caller
      (.fail ⟨0x05, BitVec.ofNat 16 (w.slot * 256 + 0xFF)⟩) := by
  simp only [Mill.headerStage, fails]
  rfl

/-- A passing header is kept, and its lines are read. -/
theorem headerStage_of_passing {m : Mill} {w : Walk} {h : Header}
    (passes : headerOf w.position w.visited (m.readsOf .ticketHeader) = some h) :
    (m.headerStage w).mill = { m.takeReads .ticketHeader with
      checker := { m.checker with walk := some { w with
        header := some h
        mixTime := if w.position = 1 then bits ((m.readsOf .ticketHeader).getD 3 0) 0 16 else w.mixTime } }
      outbox := m.outbox ++ (List.range h.lineCount).map (fun i =>
        ⟨.ticketChecker, m.recordAddr .ticket w.slot (8 + i), .read .ticketLines⟩) } := by
  simp only [Mill.headerStage, passes, StageEnd.mill, readTicket_eq, List.map_map]
  rfl

/-! ### The line stage -/

/-- A wrong check word ends the walk with TICKET_CHECK. -/
theorem lineStage_of_wrong_check {m : Mill} {w : Walk} {h : Header}
    (wrong : checkSum h.lineCount (m.readsOf .ticketLines) ≠ h.check) :
    m.lineStage w h = .ended (m.takeReads .ticketLines).clearWalk w.caller
      (.fail ⟨0x06, BitVec.ofNat 16 (w.slot * 256 + 0xFF)⟩) := if_pos wrong

section lines

variable {m : Mill} {w : Walk} {h : Header} (check : checkSum h.lineCount (m.readsOf .ticketLines) = h.check)
include check

/-- A failing line ends the walk with its verdict. -/
theorem lineStage_of_failing {v : Verdict}
    (fails : (m.takeReads .ticketLines).walkLines w 0 (m.readsOf .ticketLines) = .inr v) :
    m.lineStage w h = .ended (m.takeReads .ticketLines).clearWalk w.caller v := by
  simp only [Mill.lineStage, if_neg (not_not.mpr check), fails]

/-- Passing lines of a slot that links go on with the next slot's header. -/
theorem lineStage_of_linking {w1 : Walk}
    (passes : (m.takeReads .ticketLines).walkLines w 0 (m.readsOf .ticketLines) = .inl w1)
    (links : h.mark.links = true) : (m.lineStage w h).mill = { m.takeReads .ticketLines with
      checker := { m.checker with walk := some { w1 with
        slot := h.next, visited := w1.visited ++ [h.next], position := w1.position + 1, header := none } }
      outbox := m.outbox ++ [0, 1, 2, 3, 4, 5].map (fun i =>
        ⟨.ticketChecker, m.recordAddr .ticket h.next i, .read .ticketHeader⟩) } := by
  simp only [Mill.lineStage, if_neg (not_not.mpr check), passes, if_pos links, StageEnd.mill, Mill.readHeader,
    readTicket_eq]
  rfl

/-- Passing lines of the last slot end the walk with its verdict. -/
theorem lineStage_of_last {w1 : Walk}
    (passes : (m.takeReads .ticketLines).walkLines w 0 (m.readsOf .ticketLines) = .inl w1)
    (last : h.mark.links = false) :
    m.lineStage w h = .ended (m.takeReads .ticketLines).clearWalk w.caller (endVerdict w1) := by
  simp only [Mill.lineStage, if_neg (not_not.mpr check), passes, last, Bool.false_eq_true, if_false]

end lines

/-! ### What a used line must name -/

section line

variable {m : Mill} {c : Caller} {x : Word} {b : Fin 48} (names : bits x 16 8 = b.val)

theorem judgeLine_of_no_bin (m : Mill) (c : Caller) {x : Word} (h : 48 ≤ bits x 16 8) :
    m.judgeLine c x = .inr 0x08 := by
  rw [Mill.judgeLine, lineBinOf, toBin_of_le h]
  rfl

/-- A scale field names scale 1, or scale 2 where it is present. -/
def Mill.ScaleOk (m : Mill) (x : Word) : Prop := bits x 28 4 = 1 ∨ (bits x 28 4 = 2 ∧ m.presentUnit 1 = true)

include names

theorem judgeLine_eq : m.judgeLine c x =
    if (m.verifyBin c b).kind.ingredient = false then .inr 0x08
    else if bits x 28 4 = 1 then (if 10000 < bits x 0 16 then .inr 0x07 else .inl (b, .one))
    else if bits x 28 4 = 2 ∧ m.presentUnit 1 = true then
      (if 10000 < bits x 0 16 then .inr 0x07 else .inl (b, .two))
    else .inr 0x08 := by
  unfold Mill.judgeLine lineBinOf lineScaleOf linePartsOf
  rw [names, toBin_val]
  dsimp only
  cases (m.verifyBin c b).kind.ingredient
  · rfl
  · rw [if_neg (show ¬((!true) = true) from Bool.false_ne_true),
      if_neg (show ¬(true = false) from Bool.false_ne_true.symm)]
    by_cases one : bits x 28 4 = 1
    · rw [if_pos one, if_pos one]
      rfl
    by_cases two : bits x 28 4 = 2 ∧ m.presentUnit 1 = true
    · rw [if_neg one, if_neg one, if_pos two, if_pos (by simpa using two)]
      rfl
    · rw [if_neg one, if_neg one, if_neg two, if_neg (by simpa using two)]
      rfl

theorem judgeLine_of_wrong (wrong : (m.verifyBin c b).kind.ingredient = false ∨ ¬m.ScaleOk x) :
    m.judgeLine c x = .inr 0x08 := by
  rw [judgeLine_eq names]
  rcases wrong with kind | scale
  · rw [if_pos kind]
  · obtain ⟨one, two⟩ := not_or.mp scale
    rw [if_neg one, if_neg two, ite_self]

theorem judgeLine_of_many_parts (kind : (m.verifyBin c b).kind.ingredient = true) (scale : m.ScaleOk x)
    (many : 10000 < bits x 0 16) : m.judgeLine c x = .inr 0x07 := by
  rw [judgeLine_eq names, if_neg (by rw [kind]; decide), if_pos many, if_pos many]
  rcases scale with one | two
  · rw [if_pos one]
  · rw [if_pos two, ite_self]

theorem judgeLine_of_passing (kind : (m.verifyBin c b).kind.ingredient = true) (scale : m.ScaleOk x)
    (few : bits x 0 16 ≤ 10000) : m.judgeLine c x = .inl (b, if bits x 28 4 = 1 then .one else .two) := by
  rw [judgeLine_eq names, if_neg (by rw [kind]; decide), if_neg (not_lt.mpr few), if_neg (not_lt.mpr few)]
  split
  · rfl
  · next one => rw [if_pos (scale.resolve_left one)]

end line

/-- The lines of a slot, one by one: the first that fails ends the walk, one that passes joins it. -/
theorem walkLines_cons (m : Mill) (w : Walk) (i : Nat) (x : Word) (xs : List Word) :
    (∀ r, m.judgeLine w.caller x = .inr r →
      m.walkLines w i (x :: xs) = .inr (.fail ⟨r, BitVec.ofNat 16 (w.slot * 256 + i)⟩)) ∧
    (∀ b sc, m.judgeLine w.caller x = .inl (b, sc) → m.walkLines w i (x :: xs) = m.walkLines
      { w with
        parts := w.parts + bits x 0 16
        mask := w.mask ||| (m.verifyBin w.caller b).classMask
        lines := w.lines ++ [⟨w.slot, i, b, sc, bits x 24 4, bits x 0 16⟩] } (i + 1) xs) := by
  refine ⟨fun r fails => ?_, fun b sc passes => ?_⟩
  · simp only [Mill.walkLines, fails]
    rfl
  · simp only [Mill.walkLines, passes]
    rfl

/-! ### The verdict -/

theorem checkSum_cons (n : Nat) (x : Word) (ws : List Word) :
    checkSum n (x :: ws) = checkSum n ws + BitVec.ofNat 16 (bits x 0 16 + bits x 16 16) := by
  rw [checkSum, checkSum, ← BitVec.ofNat_add, List.map_cons, List.sum_cons]
  congr 1
  omega

theorem markAllowed_eq (p : Nat) : markAllowed p .only = decide (p = 1) ∧ markAllowed p .first = decide (p = 1) ∧
    markAllowed p .middle = decide (p = 2) ∧ markAllowed p .last = decide (p = 2 ∨ p = 3) :=
  ⟨rfl, rfl, rfl, (Bool.decide_or _ _).symm⟩

theorem links_iff (k : PartMark) : k.links = true ↔ k = .first ∨ k = .middle := by
  simp only [PartMark.links, Bool.or_eq_true, decide_eq_true_eq]

theorem releaseVerdict_of_ok {m : Mill} {o : Fin 256} (c : Chain) (head : m.headSlot = some o) :
    m.deliver .release (.ok c) = { m with
      actions := { m.actions with inExec := .releaseConfirm c }
      outbox := m.outbox ++ [2, 3, 4, 5, 6].map (fun w =>
        ⟨.orderBook, m.recordAddr .order o w, .read .confirming⟩) } := by
  simp only [Mill.deliver, Mill.releaseVerdict, head, readOrderFields_eq]
  rfl

theorem deliver_of_stage3 {m : Mill} {item : Nat} {x : Option Verdict} (v : Verdict)
    (stage : m.plan.load = .stage3 item x) :
    m.deliver .load v = { m with plan := { m.plan with load := .stage3 item (some v) } } := by
  simp only [Mill.deliver, stage]

/-! ### The rows of the stages -/

section rows

variable {s : State} {w : Walk} (free : s.free .ticketChecker) (walk : s.mill.checker.walk = some w)
include free walk

theorem execTicketHeaderStage_eq (stage : w.header = none) (reads : (s.mill.readsOf .ticketHeader).length = 6) :
    exec .ticketHeaderStage s = .next (s.leaves (s.mill.headerStage w).mill) := by
  change execTicketHeaderStage s = _
  exact runMill_next free.1 (busy_of_free free) (by simp only [walk, stage, reads]; rfl)

theorem execTicketLineStage_eq {h : Header} (stage : w.header = some h)
    (reads : (s.mill.readsOf .ticketLines).length = h.lineCount) :
    exec .ticketLineStage s = .next (s.leaves (s.mill.lineStage w h).mill) := by
  change execTicketLineStage s = _
  exact runMill_next free.1 (busy_of_free free) (by simp only [walk, stage, reads]; rfl)

end rows

/-- Settles O30: each row by its stage's equations, then what is judged and what the verdict does. -/
theorem ticketStages : Obligations.TicketStages := by
  refine ⟨fun s w free walk stage reads => ⟨execTicketHeaderStage_eq free walk stage reads, headerStage_of_failing⟩,
    fun s w free walk stage reads => ?header, fun s w h free walk stage reads => ?line,
    fun m c v => ⟨fun a => rfl, fun o => releaseVerdict_of_ok c, fun item x => deliver_of_stage3 v⟩,
    fun n ws x => ⟨rfl, checkSum_cons n x ws, markAllowed_eq, links_iff⟩,
    fun s w h free walk stage reads =>
      ⟨execTicketLineStage_eq free walk stage reads, lineStage_of_wrong_check⟩,
    fun w => ⟨fun whole => if_pos whole, fun short => if_neg short⟩, headerOf_eq_some_iff,
    fun m c x b names => ⟨judgeLine_of_wrong names, judgeLine_of_many_parts names, judgeLine_of_passing names⟩,
    judgeLine_of_no_bin, fun m w i x xs => ⟨rfl, walkLines_cons m w i x xs⟩⟩
  case header =>
    intro ws m ended
    rw [execTicketHeaderStage_eq free walk stage reads]
    refine ⟨fun fails => ?_, fun h passes => ?_⟩
    · rw [headerStage_of_failing fails]
      rfl
    · rw [headerStage_of_passing passes]
      rfl
  case line =>
    intro ws m ended
    rw [execTicketLineStage_eq free walk stage reads]
    refine ⟨fun wrong => ?_, fun check => ⟨fun v fails => ?_, fun w1 passes links => ?_, fun w1 passes last => ?_⟩⟩
    · rw [lineStage_of_wrong_check wrong]
      rfl
    · rw [lineStage_of_failing check fails]
      rfl
    · rw [lineStage_of_linking check passes links]
      rfl
    · rw [lineStage_of_last check passes last]
      rfl

end Sys2Proof.Machine

/-! SUPPORT. The confirming read of a release: its checks in their order, and the release completed (R84 to R86). -/

namespace Sys2Proof.Machine

/-! ### What a release posts -/

/-- The changed words of a record are posted to that record. -/
theorem postChanged_words (p : Block) (k : RecordKind) (i : Nat) (old new : Nat → Word) (ws : List Nat) (m : Mill) :
    ∃ words, (m.postChanged p k i ws old new).outbox = m.outbox ++ words ∧
      ∀ e ∈ words, e.poster = p ∧ ∃ w ∈ ws, e.addr = m.recordAddr k i w := by
  induction ws generalizing m with
  | nil => exact ⟨[], (List.append_nil _).symm, fun e he => absurd he List.not_mem_nil⟩
  | cons w ws ih =>
    by_cases same : old w = new w
    · obtain ⟨words, posts, each⟩ := ih m
      refine ⟨words, (congrArg Mill.outbox ?_).trans posts, fun e he => ?_⟩
      · simp only [Mill.postChanged, List.foldl_cons, if_pos same]
      · obtain ⟨poster, x, mem, addr⟩ := each e he
        exact ⟨poster, x, List.mem_cons_of_mem w mem, addr⟩
    · obtain ⟨words, posts, each⟩ := ih (m.postRecord p k i w (new w))
      refine ⟨⟨p, m.recordAddr k i w, .write (m.deviceMask k i w) (new w) .none⟩ :: words, ?_, fun e he => ?_⟩
      · refine (congrArg Mill.outbox ?_).trans (posts.trans (List.append_assoc _ [_] _))
        simp only [Mill.postChanged, List.foldl_cons, if_neg same]
      · rcases List.mem_cons.mp he with rfl | he
        · exact ⟨rfl, w, List.mem_cons_self, rfl⟩
        · obtain ⟨poster, x, mem, addr⟩ := each e he
          exact ⟨poster, x, List.mem_cons_of_mem w mem, addr⟩

/-- What the use counts of a chain post: word 6 of each slot's record. -/
theorem useSlots_words (f : Nat → Nat) (ss : List Nat) (m : Mill) :
    ∃ uses, (m.useSlots f ss).outbox = m.outbox ++ uses ∧ uses.map (fun e => (e.poster, e.addr)) =
      (ss.filter (· < 256)).map (fun n => (.orderBook, m.recordAddr .ticket n 6)) := by
  induction ss generalizing m with
  | nil => exact ⟨[], (List.append_nil _).symm, rfl⟩
  | cons x xs ih =>
    by_cases slot : x < 256
    · have one : m.useSlots f (x :: xs) = (Mill.postUse { m with book := { m.book with
          useCount := putAt m.book.useCount ⟨x, slot⟩ (f (getAt m.book.useCount ⟨x, slot⟩)) } } ⟨x, slot⟩).useSlots f xs := by
        simp only [Mill.useSlots, List.foldl_cons, toSlot, slot, dite_true]
      have kept : (x :: xs).filter (· < 256) = x :: xs.filter (· < 256) :=
        List.filter_cons_of_pos (decide_eq_true slot)
      rw [one, kept]
      obtain ⟨uses, posts, each⟩ := ih (Mill.postUse { m with book := { m.book with
        useCount := putAt m.book.useCount ⟨x, slot⟩ (f (getAt m.book.useCount ⟨x, slot⟩)) } } ⟨x, slot⟩)
      exact ⟨_ :: uses, posts.trans (List.append_assoc _ [_] _), congrArg (_ :: ·) each⟩
    · have one : m.useSlots f (x :: xs) = m.useSlots f xs := by
        simp only [Mill.useSlots, List.foldl_cons, toSlot, slot, dite_false]
      have dropped : (x :: xs).filter (· < 256) = xs.filter (· < 256) :=
        List.filter_cons_of_neg (by simpa using slot)
      rw [one, dropped]
      exact ih m

/-! ### The release completed -/

/-- The order as a completed release leaves it. -/
def Order.released (f : OrderFields) (q : Quantities) (c : Chain) (x : Order) : Order :=
  { x with
    state := .released, wait := .none, endReason := .none, classMask := c.mask, batchesDone := 0
    planned := q.planned, scheduled := q.planned, remaining := q.planned, inFlight := 0, completed := 0
    bagsPacked := 0, bagsRejected := 0, loaded := 0
    entry := some ⟨f.process, f.pack, f.bagMass, f.bagCount, f.ordered, f.request, q.unit, q.batchSize, q.floor,
      some c, c.slots, 0⟩ }

/-- The order released, its chain's use counts raised, the interlock ended and the order joined to the list: what a
completed release does before its answer and the pass. -/
def Mill.releases (m : Mill) (o : Fin 256) (f : OrderFields) (q : Quantities) (c : Chain) : Mill :=
  (((m.updOrder o (Order.released f q c)).raiseUse c.slots).endInterlock).joinList o

theorem completeRelease_eq (m : Mill) (o : Fin 256) (f : OrderFields) (q : Quantities) (c : Chain) :
    m.completeRelease o f q c = ((m.releases o f q c).answer ⟨0x00, BitVec.ofNat 16 c.slots.length⟩).askPass := rfl

section release

variable (m : Mill) (o : Fin 256) (f : OrderFields) (q : Quantities) (c : Chain)

theorem releases_plan : (m.releases o f q c).plan = m.plan := by
  simp [Mill.releases, Mill.endInterlock, Mill.joinList, Mill.raiseUse]

theorem releases_actions : (m.releases o f q c).actions = m.actions := by
  simp [Mill.releases, Mill.endInterlock, Mill.joinList, Mill.raiseUse]

theorem releases_seq : (m.releases o f q c).seq = m.seq := by
  simp [Mill.releases, Mill.endInterlock, Mill.joinList, Mill.raiseUse]

theorem releases_orders : (m.releases o f q c).book.orders =
    putAt m.book.orders o ((m.order o).released f q c) := by
  simp [Mill.releases, Mill.endInterlock, Mill.joinList, Mill.raiseUse, updOrder_book]

theorem releases_releaseList : (m.releases o f q c).book.releaseList = m.book.releaseList ++ [o] := by
  simp [Mill.releases, Mill.endInterlock, Mill.joinList, Mill.raiseUse]

theorem releases_useCount (n : Fin 256) : getAt (m.releases o f q c).book.useCount n =
    getAt m.book.useCount n + c.slots.count n.val := by
  change getAt ((m.updOrder o (Order.released f q c)).raiseUse c.slots).book.useCount n = _
  rw [raiseUse_count, updOrder_useCount]

theorem releases_posts : ∃ words uses, (m.releases o f q c).outbox = m.outbox ++ words ++ uses ∧
    (∀ e ∈ words, e.poster = .orderBook ∧ ∃ w ∈ orderWords, e.addr = m.recordAddr .order o w) ∧
    uses.map (fun e => (e.poster, e.addr)) = (c.slots.filter (· < 256)).map (fun n =>
      (.orderBook, m.recordAddr .ticket n 6)) := by
  obtain ⟨words, posts, each⟩ := postChanged_words .orderBook .order o.val (m.order o).word
    ((m.order o).released f q c).word orderWords
    { { m with book := { m.book with orders := putAt m.book.orders o ((m.order o).released f q c) } } with
      reports := m.reports ++ orderReports
        { m with book := { m.book with orders := putAt m.book.orders o ((m.order o).released f q c) } } (m.order o)
        ((m.order o).released f q c) }
  obtain ⟨uses, more, slots⟩ := useSlots_words (· + 1) c.slots (m.updOrder o (Order.released f q c))
  refine ⟨words, uses, more.trans (congrArg (· ++ uses) posts), each, slots.trans ?_⟩
  simp only [Mill.recordAddr, Mill.updOrder_plan]

/-- The released order and its book, whatever the answer and the pass do. -/
theorem completeRelease_book : (m.completeRelease o f q c).book = (m.releases o f q c).book := by
  rw [completeRelease_eq, Mill.askPass_book, Mill.answer_book]

theorem completeRelease_own : (m.completeRelease o f q c).order o = (m.order o).released f q c := by
  rw [Mill.order, completeRelease_book, releases_orders, getAt_putAt_same]

theorem completeRelease_other {p : Fin 256} (h : p ≠ o) : (m.completeRelease o f q c).order p = m.order p := by
  rw [Mill.order, completeRelease_book, releases_orders, getAt_putAt_ne _ _ _ _ h]
  rfl

theorem completeRelease_seq (run : m.plan.state = .running) : (m.completeRelease o f q c).seq = m.seq.ask := by
  rw [completeRelease_eq, Mill.askPass_seq_of_running (by rw [Mill.answer_plan, releases_plan, run]), Mill.answer_seq,
    releases_seq]

end release

/-! ### The checks of the confirming read -/

/-- The process is one the mill has the line for (R84). -/
def Mill.ProcessOk (m : Mill) (f : OrderFields) : Prop :=
  f.process = some .mash ∨ (f.process = some .pellet ∧ m.presentUnit 5 = true)

/-- The pack is one the mill has the outlet for (R84). -/
def Mill.PackOk (m : Mill) (f : OrderFields) : Prop :=
  (f.pack = some .bag ∧ m.presentUnit 6 = true) ∨ (f.pack = some .bulk ∧ m.presentUnit 7 = true)

theorem processOk_iff (m : Mill) (f : OrderFields) :
    (f.process.isNone || (f.process = some .pellet && !m.presentUnit 5)) = true ↔ ¬m.ProcessOk f := by
  unfold Mill.ProcessOk
  rcases f.process with _ | p
  · simp
  · cases p <;> simp

theorem packOk_iff (m : Mill) (f : OrderFields) :
    (f.pack.isNone || (f.pack = some .bag && !m.presentUnit 6) || (f.pack = some .bulk && !m.presentUnit 7)) = true ↔
      ¬m.PackOk f := by
  unfold Mill.PackOk
  rcases f.pack with _ | p
  · simp
  · cases p <;> simp

section fields

variable {m : Mill} {verified : Nat} {f : OrderFields} (ticket : f.ticket = verified)
include ticket

theorem fieldFault_process (bad : ¬m.ProcessOk f) : m.fieldFault verified f = some 1 := by
  rw [Mill.fieldFault, if_neg (not_not.mpr ticket), if_pos ((processOk_iff m f).mpr bad)]

variable (process : m.ProcessOk f)
include process

theorem fieldFault_pack (bad : ¬m.PackOk f) : m.fieldFault verified f = some 2 := by
  rw [Mill.fieldFault, if_neg (not_not.mpr ticket), if_neg (mt (processOk_iff m f).mp (not_not.mpr process)),
    if_pos ((packOk_iff m f).mpr bad)]

variable (pack : m.PackOk f)
include pack

/-- What is left to check of an order whose ticket, process and pack pass: its bags, or its mass. -/
theorem fieldFault_amount : m.fieldFault verified f =
    if f.pack = some .bag then
      if f.bagMass < 50 || 500 < f.bagMass then some 3
      else if f.bagCount < 1 || 4000 < f.bagCount then some 4 else none
    else if f.ordered < 5000 || 600000 < f.ordered then some 5 else none := by
  rw [Mill.fieldFault, if_neg (not_not.mpr ticket), if_neg (mt (processOk_iff m f).mp (not_not.mpr process)),
    if_neg (mt (packOk_iff m f).mp (not_not.mpr pack))]

theorem fieldFault_bags (bag : f.pack = some .bag) :
    (f.bagMass < 50 ∨ 500 < f.bagMass → m.fieldFault verified f = some 3) ∧
    (50 ≤ f.bagMass → f.bagMass ≤ 500 →
      (f.bagCount < 1 ∨ 4000 < f.bagCount → m.fieldFault verified f = some 4) ∧
      (1 ≤ f.bagCount → f.bagCount ≤ 4000 → m.fieldFault verified f = none)) := by
  simp only [fieldFault_amount ticket process pack, if_pos bag, Bool.or_eq_true, decide_eq_true_eq]
  refine ⟨fun mass => if_pos mass, fun low high => ?_⟩
  rw [if_neg (by omega)]
  exact ⟨fun count => if_pos count, fun low high => if_neg (by omega)⟩

theorem fieldFault_bulk (bulk : f.pack = some .bulk) :
    (f.ordered < 5000 ∨ 600000 < f.ordered → m.fieldFault verified f = some 5) ∧
    (5000 ≤ f.ordered → f.ordered ≤ 600000 → m.fieldFault verified f = none) := by
  simp only [fieldFault_amount ticket process pack, bulk, Option.some.injEq, reduceCtorEq, if_false, Bool.or_eq_true,
    decide_eq_true_eq]
  exact ⟨fun mass => if_pos mass, fun low high => if_neg (by omega)⟩

end fields

/-! ### The quantities -/

theorem dvd_roundDown {n u : Nat} (h : 0 < u) : u ∣ roundDown n u := by
  rw [roundDown, if_neg (by omega)]
  exact Nat.dvd_mul_left u _

theorem roundDown_le {n u : Nat} : roundDown n u ≤ n := by
  unfold roundDown
  split
  · exact le_rfl
  · exact Nat.div_mul_le_self n u

theorem lt_roundDown {n u : Nat} (h : 0 < u) : n < roundDown n u + u := by
  rw [roundDown, if_neg (by omega)]
  exact Nat.lt_div_mul_add h

/-- The size unit and the planned mass of an order, by its pack. -/
theorem quantities_planned (f : OrderFields) (lo hi : Nat) :
    (f.pack = some .bag → (quantitiesOf f lo hi).unit = f.bagMass ∧
      (quantitiesOf f lo hi).planned = f.bagCount * f.bagMass) ∧
    (f.pack ≠ some .bag → (quantitiesOf f lo hi).unit = 100 ∧
      (quantitiesOf f lo hi).planned = (f.ordered + 99) / 100 * 100) := by
  refine ⟨fun bag => ⟨if_pos bag, if_pos bag⟩, fun bulk => ⟨if_neg bulk, ?_⟩⟩
  simp only [quantitiesOf, if_neg bulk]
  rfl

/-- The batch size and the make-up floor of an order, whole size units within their bounds. -/
theorem quantities_sizes (f : OrderFields) (lo hi : Nat) (unit : 0 < (quantitiesOf f lo hi).unit) :
    let q := quantitiesOf f lo hi
    q.unit ∣ q.batchSize ∧ q.unit ∣ q.floor ∧ lo ≤ q.floor ∧ q.floor < lo + q.unit ∧
      (f.request = 0 → q.batchSize ≤ hi ∧ hi < q.batchSize + q.unit) ∧
      (f.request ≠ 0 → q.batchSize ≤ min f.request hi ∧ min f.request hi < q.batchSize + q.unit) := by
  intro q
  have size : q.batchSize = roundDown (if f.request = 0 then hi else min f.request hi) q.unit := rfl
  refine ⟨dvd_roundDown unit, dvd_roundUp unit, le_roundUp lo _, roundUp_lt unit, fun none => ?_, fun some => ?_⟩
  · rw [size, if_pos none]
    exact ⟨roundDown_le, lt_roundDown unit⟩
  · rw [size, if_neg some]
    exact ⟨roundDown_le, lt_roundDown unit⟩

/-- The three mass rules, in their order. -/
theorem massFault_eq (q : Quantities) (lo : Nat) :
    (q.planned < lo → massFault q lo = some 1) ∧
    (lo ≤ q.planned → q.batchSize < lo → massFault q lo = some 2) ∧
    (lo ≤ q.planned → lo ≤ q.batchSize → q.batchSize < q.planned → q.batchSize < lo + q.floor →
      massFault q lo = some 3) ∧
    (lo ≤ q.planned → lo ≤ q.batchSize → q.planned ≤ q.batchSize ∨ lo + q.floor ≤ q.batchSize →
      massFault q lo = none) := by
  simp only [massFault, Bool.and_eq_true, decide_eq_true_eq]
  refine ⟨fun small => if_pos small, fun planned small => ?_, fun planned size more short => ?_,
    fun planned size covers => ?_⟩
  · rw [if_neg (not_lt.mpr planned), if_pos small]
  · rw [if_neg (not_lt.mpr planned), if_neg (not_lt.mpr size), if_pos ⟨more, short⟩]
  · rw [if_neg (not_lt.mpr planned), if_neg (not_lt.mpr size), if_neg (by omega)]

/-! ### The row -/

section confirm

variable {m : Mill} {o : Fin 256} {c : Chain} {ws : List Word}

theorem confirmRelease_of_field {d : Nat} (fault : m.fieldFault c.head (fieldsOf ws) = some d) :
    m.confirmRelease o c ws = m.endInterlock.answer ⟨0x04, BitVec.ofNat 16 d⟩ := by
  simp only [Mill.confirmRelease, fault]
  rfl

variable (clear : m.fieldFault c.head (fieldsOf ws) = none)
include clear

theorem confirmRelease_of_mass {d : Nat}
    (fault : massFault (quantitiesOf (fieldsOf ws) m.plan.batchMin m.plan.batchMax) m.plan.batchMin = some d) :
    m.confirmRelease o c ws = m.endInterlock.answer ⟨0x09, BitVec.ofNat 16 d⟩ := by
  simp only [Mill.confirmRelease, clear, fault]
  rfl

theorem confirmRelease_of_pass
    (whole : massFault (quantitiesOf (fieldsOf ws) m.plan.batchMin m.plan.batchMax) m.plan.batchMin = none) :
    m.confirmRelease o c ws =
      m.completeRelease o (fieldsOf ws) (quantitiesOf (fieldsOf ws) m.plan.batchMin m.plan.batchMax) c := by
  simp only [Mill.confirmRelease, clear, whole]

end confirm

theorem execConfirmingRead_eq {s : State} {o : Fin 256} {c : Chain} (free : s.free .orderBook)
    (inExec : s.mill.actions.inExec = .releaseConfirm c) (reads : (s.mill.readsOf .confirming).length = 5)
    (head : s.mill.headSlot = some o) : exec .confirmingRead s =
      .next (s.leaves ((s.mill.takeReads .confirming).confirmRelease o c (s.mill.readsOf .confirming))) := by
  change execConfirmingRead s = _
  exact runMill_next free.1 (busy_of_free free) (by simp only [inExec, reads, head]; rfl)

/-- Settles O31: the row by its first failing check, the completed release part by part, the checks and quantities. -/
theorem releaseConfirmed : Obligations.ReleaseConfirmed := by
  refine ⟨fun s o c free inExec reads head => ?row, fun m o f q c => ?completed, fun m verified f => ?fields,
    fun f lo hi => ⟨(quantities_planned f lo hi).1, (quantities_planned f lo hi).2, quantities_sizes f lo hi⟩,
    massFault_eq⟩
  case row =>
    intro m f q
    rw [execConfirmingRead_eq free inExec reads head]
    exact ⟨fun d fault => by rw [confirmRelease_of_field fault], fun d clear fault => by
      rw [confirmRelease_of_mass clear fault], fun clear whole => by rw [confirmRelease_of_pass clear whole]⟩
  case completed =>
    intro t
    rw [completeRelease_own, completeRelease_book, releases_releaseList]
    refine ⟨rfl, rfl, rfl, rfl, rfl, rfl, rfl, rfl, rfl, rfl, rfl, rfl, rfl, rfl,
      fun p => completeRelease_other m o f q c, releases_useCount m o f q c, fun run idle => ?_, fun run busy => ?_,
      fun a rest queue => ?answer⟩
    · rw [completeRelease_seq m o f q c run, Sequencer.ask_of_idle idle]
    · rw [completeRelease_seq m o f q c run, Sequencer.ask_of_not_idle busy]
    case answer =>
      obtain ⟨words, uses, posts, each, slots⟩ := releases_posts m o f q c
      have answered := actionsAnswered.1 (m.releases o f q c) a rest ⟨0x00, BitVec.ofNat 16 c.slots.length⟩
        (by rw [releases_actions, queue])
      have inExec : t.actions.inExec = .answered := by
        simp only [t, completeRelease_eq, Mill.askPass_actions, answered]
      refine ⟨inExec, words, uses, ?_, each, slots⟩
      simp only [t, completeRelease_eq, Mill.askPass_outbox, answered, posts, Mill.recordAddr, releases_plan]
  case fields =>
    intro processOk packOk
    exact ⟨fun other => if_pos other, fun ticket => ⟨fieldFault_process ticket, fieldFault_pack ticket,
      fun process pack => ⟨fieldFault_bags ticket process pack, fieldFault_bulk ticket process pack⟩⟩⟩

end Sys2Proof.Machine

/-! SUPPORT. The samples of the Weigh-and-Mix Controller: the cut-off, the leak watch, the dump and the mixer
(07_weighing_mixing_and_discharge.md). -/

namespace Sys2Proof.Machine

/-! ### The rows -/

theorem execScaleSample_eq {s : State} {x : Sample} (h : s.samples .weighMix x) (role : x.role = 0 ∨ x.role = 1) :
    exec .scaleSample s =
      .next (s.takesTo .weighMix (s.mill.scaleSample (if x.role = 0 then .one else .two) x)) := by
  change execScaleSample s = _
  exact sampleRow_next h (by simpa using role) (fun x m => m.scaleSample (scaleOfRole x.role) x)

theorem execMixerSample_eq {s : State} {x : Sample} (h : s.samples .weighMix x) (role : x.role = 2) :
    exec .mixerSample s = .next (s.takesTo .weighMix (s.mill.mixerSample x)) := by
  change execMixerSample s = _
  exact sampleRow_next h (decide_eq_true role) (fun x m => m.mixerSample x)

theorem scaleSample_of_bad {m : Mill} {x : Sample} (sc : Scale) (bad : x.quality ≠ 0) : m.scaleSample sc x = m :=
  if_neg (by simpa [Sample.good] using bad)

theorem mixerSample_of_bad {m : Mill} {x : Sample} (bad : x.quality ≠ 0) : m.mixerSample x = m :=
  if_neg (by simpa [Sample.good] using bad)

theorem good_of_quality {x : Sample} (good : x.quality = 0) : x.good = true := decide_eq_true good

/-! ### A good scale sample -/

/-- What a good sample makes of its scale: the channel fresh, and a leak reference where there was none. -/
def ScaleCtl.sampled (x : Sample) (stale : Nat) (c : ScaleCtl) : ScaleCtl :=
  { c with channel := ⟨some x.raw.toInt, some stale⟩, leakRef := some (c.leakRef.getD x.raw.toInt) }

/-- The blocks with a good sample taken, before the scale's state is looked at. -/
def Mill.sampled (m : Mill) (sc : Scale) (x : Sample) : Mill := m.updScale sc (ScaleCtl.sampled x m.plan.staleTime)

theorem sampled_scale (m : Mill) (sc : Scale) (x : Sample) :
    (m.sampled sc x).scale sc = (m.scale sc).sampled x m.plan.staleTime := Mill.updScale_scale m sc _

theorem sampled_state (m : Mill) (sc : Scale) (x : Sample) :
    ((m.sampled sc x).scale sc).state = (m.scale sc).state := by rw [sampled_scale]; rfl

theorem sampled_batch (m : Mill) (sc : Scale) (x : Sample) : (m.sampled sc x).weigh.batch = m.weigh.batch :=
  Mill.updScale_weighBatch m sc _

/-- The channel taken and the first leak reference are one change. -/
theorem sampled_eq (m : Mill) (sc : Scale) (x : Sample) :
    (m.updScale sc (fun c => { c with channel := Channel.take x m.plan.staleTime })).firstLeakRef sc x.value =
      m.sampled sc x :=
  updScale_twice m sc _ _ (scaleWord_congr rfl rfl rfl) (scaleWord_congr rfl rfl rfl)

section scale

variable {m : Mill} {sc : Scale} {x : Sample} (good : x.quality = 0)
include good

theorem scaleSample_of_feeding {b : Fin 32} (st : (m.scale sc).state = .feeding) (batch : m.weigh.batch = some b) :
    m.scaleSample sc x = (m.sampled sc x).feedSample b sc x.raw.toInt := by
  simp only [Mill.scaleSample, good_of_quality good, sampled_eq, sampled_state, sampled_batch, st, batch, if_true]
  rfl

theorem scaleSample_of_dumping (st : (m.scale sc).state = .dumping) :
    m.scaleSample sc x = (m.sampled sc x).dumpSample sc x.raw.toInt := by
  simp only [Mill.scaleSample, good_of_quality good, sampled_eq, sampled_state, st, if_true]
  rfl

theorem scaleSample_of_still (st : (m.scale sc).state = .idle ∨ (m.scale sc).state = .done) :
    m.scaleSample sc x = (m.sampled sc x).leakSample sc x.raw.toInt := by
  rcases st with st | st <;>
  · simp only [Mill.scaleSample, good_of_quality good, sampled_eq, sampled_state, st, if_true]
    rfl

theorem scaleSample_of_other (st : (m.scale sc).state = .settling ∨ (m.scale sc).state = .attention) :
    m.scaleSample sc x = m.sampled sc x := by
  rcases st with st | st <;>
  simp only [Mill.scaleSample, good_of_quality good, sampled_eq, sampled_state, st, if_true]

end scale

/-! ### The cut-off and the stall reference -/

section feed

variable {m : Mill} (b : Fin 32) {sc : Scale} {v : Int}

/-- The value at which a feeding phase is cut off: its target above its base, less the bin's preact. -/
def Mill.cutOffAt (m : Mill) (b : Fin 32) (sc : Scale) : Int :=
  (m.scale sc).base + ((m.scale sc).target : Int) -
    ((getAt m.stock.bins ((m.batch b).chainLine (m.scale sc).current).bin).preact : Int)

theorem feedSample_of_cut (reached : m.cutOffAt b sc ≤ v) : m.feedSample b sc v = m.endPhase sc .cutOff :=
  if_pos reached

theorem feedSample_of_flow (below : v < m.cutOffAt b sc) (flows : (m.scale sc).stallRef + (m.plan.stallDelta : Int) ≤ v) :
    m.feedSample b sc v = m.updScale sc (fun c => { c with stallRef := v, stall := some (1000 * m.plan.stallWindow) }) :=
  (if_neg (not_le.mpr below)).trans (if_pos flows)

theorem feedSample_of_no_flow (below : v < m.cutOffAt b sc)
    (still : v < (m.scale sc).stallRef + (m.plan.stallDelta : Int)) : m.feedSample b sc v = m :=
  (if_neg (not_le.mpr below)).trans (if_neg (not_le.mpr still))

end feed

/-- The sample of a feeding scale moves no cut-off point. -/
theorem sampled_cutOffAt (m : Mill) (sc : Scale) (x : Sample) (b : Fin 32) :
    (m.sampled sc x).cutOffAt b sc = m.cutOffAt b sc := by
  unfold Mill.cutOffAt
  rw [sampled_scale, Mill.sampled, Mill.updScale_stock, Mill.updScale_batch]
  rfl

/-! ### The leak watch -/

section leak

variable {m : Mill} {sc : Scale} {v r : Int} (ref : (m.scale sc).leakRef = some r)
include ref

theorem leakSample_of_still (still : v ≤ r + (m.plan.leakDelta : Int)) : m.leakSample sc v = m := by
  simp only [Mill.leakSample, ref, if_neg (not_lt.mpr still)]

theorem leakSample_of_done {b : Fin 32} (leaks : r + (m.plan.leakDelta : Int) < v) (st : (m.scale sc).state = .done)
    (batch : m.weigh.batch = some b) :
    m.leakSample sc v = (m.raise .unexpectedFlow).updBatch .weighMix b (fun y => { y with leak := true }) := by
  simp only [Mill.leakSample, ref, if_pos leaks, st, Mill.raise, batch]
  rfl

theorem leakSample_of_idle (leaks : r + (m.plan.leakDelta : Int) < v) (st : (m.scale sc).state = .idle) :
    m.leakSample sc v = m.raise .unexpectedFlow := by
  simp only [Mill.leakSample, ref, if_pos leaks, st]

end leak

/-! ### The dump -/

/-- A scale emptied: idle, with no batch, its leak reference the empty reading. -/
def Mill.emptied (m : Mill) (sc : Scale) (v : Int) : Mill :=
  m.updScale sc (fun c => { c with state := .idle, batch := none, leakRef := some v })

section dump

variable {m : Mill} {sc : Scale} {v : Int}

theorem dumpSample_of_full (full : (m.plan.emptyThreshold : Int) < v) : m.dumpSample sc v = m :=
  if_neg (not_le.mpr full)

variable (empty : v ≤ (m.plan.emptyThreshold : Int))
include empty

theorem dumpSample_of_more (more : ∃ d ∈ (m.emptied sc v).scales, ((m.emptied sc v).scale d).state = .dumping) :
    m.dumpSample sc v = (m.emptied sc v).considerTake := by
  have any : (m.emptied sc v).scales.any (fun d => ((m.emptied sc v).scale d).state = .dumping) = true := by
    simpa using more
  exact (if_pos empty).trans (congrArg Mill.considerTake (if_pos any))

theorem dumpSample_of_last {b : Fin 32}
    (last : ∀ d ∈ (m.emptied sc v).scales, ((m.emptied sc v).scale d).state ≠ .dumping)
    (batch : m.weigh.mixer.batch = some b) : m.dumpSample sc v = (((m.emptied sc v).updMixer (fun c => { c with
      state := .mixing, mix := some (1000 * (m.batch b).chain.mixTime) })).updBatch .weighMix b
      (fun y => { y with state := .mixing })).considerTake := by
  have any : (m.emptied sc v).scales.any (fun d => ((m.emptied sc v).scale d).state = .dumping) = false := by
    simpa using last
  have named : (m.emptied sc v).weigh.mixer.batch = some b := by rw [Mill.emptied, Mill.updScale_mixer, batch]
  refine (if_pos empty).trans (congrArg Mill.considerTake ((if_neg (ne_true_of_eq_false any)).trans ?_))
  simp only [← Mill.emptied.eq_def, named]
  rw [Mill.emptied, Mill.updScale_batch]
  rfl

end dump

/-! ### The mixer -/

/-- The blocks with a good mixer sample taken. -/
def Mill.mixerSampled (m : Mill) (x : Sample) : Mill :=
  m.updMixer (fun c => { c with channel := ⟨some x.raw.toInt, some m.plan.staleTime⟩ })

theorem mixerSampled_mixer (m : Mill) (x : Sample) : (m.mixerSampled x).weigh.mixer =
    { m.weigh.mixer with channel := ⟨some x.raw.toInt, some m.plan.staleTime⟩ } := by
  rw [Mill.mixerSampled, updMixer_weigh]

theorem mixerEmptied_iff (m : Mill) : m.mixerEmptied = true ↔ m.weigh.mixer.channel.fresh ≠ none ∧
    m.weigh.mixer.channel.latest.getD 0 ≤ (m.plan.emptyThreshold : Int) := by
  rw [Mill.mixerEmptied, Bool.and_eq_true, decide_eq_true_eq, Channel.isFresh, Option.isSome_iff_ne_none]
  rfl

theorem mixerSampled_emptied (m : Mill) (x : Sample) :
    (m.mixerSampled x).mixerEmptied = decide (x.raw.toInt ≤ (m.plan.emptyThreshold : Int)) := by
  rw [Mill.mixerEmptied, mixerSampled_mixer, Mill.mixerSampled, Mill.updMixer_plan]
  rfl

section mixer

variable {m : Mill} {x : Sample} (good : x.quality = 0)
include good

theorem mixerSample_of_discharging {b : Fin 32} (st : m.weigh.mixer.state = .discharging)
    (batch : m.weigh.mixer.batch = some b) : m.mixerSample x =
      if x.raw.toInt ≤ (m.plan.emptyThreshold : Int) then (m.mixerSampled x).endDischarge b else m.mixerSampled x := by
  have taken : m.updMixer (fun c => { c with channel := Channel.take x m.plan.staleTime }) = m.mixerSampled x := rfl
  simp only [Mill.mixerSample, good_of_quality good, if_true, taken, mixerSampled_emptied, decide_eq_true_eq]
  simp only [mixerSampled_mixer, st, batch]

theorem mixerSample_of_other (st : m.weigh.mixer.state ≠ .discharging) :
    m.mixerSample x = (m.mixerSampled x).considerDump := by
  have taken : m.updMixer (fun c => { c with channel := Channel.take x m.plan.staleTime }) = m.mixerSampled x := rfl
  simp only [Mill.mixerSample, good_of_quality good, if_true, taken, mixerSampled_mixer]
  split
  · next discharging _ => exact absurd discharging st
  · rfl

end mixer

/-! ### The dump into the mixer and the end of a discharge -/

section considers

variable {m : Mill} {b : Fin 32} (batch : m.weigh.batch = some b)
include batch

/-- The batch may be dumped: it is weighed and the mixer is empty, as it stands and as it reads. -/
def Mill.mayDump (m : Mill) (b : Fin 32) : Prop :=
  (m.batch b).state = .weighed ∧ m.weigh.mixer.state = .empty ∧ m.mixerEmptied = true

theorem considerDump_of_not (may : ¬m.mayDump b) : m.considerDump = m := by
  simp only [Mill.considerDump, batch]
  exact if_neg (by simpa [Mill.mayDump, and_assoc] using may)

/-- The blocks with a batch dumped into the mixer. -/
def Mill.dumps (m : Mill) (b : Fin 32) : Mill :=
  ((m.scales.foldl (fun m sc => m.updScale sc (fun c => { c with state := .dumping })) m).updMixer
    (fun c => { c with state := .filling, batch := some b })).ownBatch b (fun y => { y with state := .filling })

theorem considerDump_of_may (may : m.mayDump b) : m.considerDump =
    { m.dumps b with weigh := { (m.dumps b).weigh with batch := none, cancelled := false } } := by
  unfold Mill.dumps
  simp only [Mill.considerDump, batch]
  exact if_pos (by simpa [Mill.mayDump, and_assoc] using may)

end considers

theorem dumps_does (m : Mill) (b : Fin 32) : ((m.dumps b).batch b).state = .filling ∧
    (m.dumps b).weigh.mixer.state = .filling ∧ (m.dumps b).weigh.mixer.batch = some b ∧
    ∀ sc ∈ m.scales, ((m.dumps b).scale sc).state = .dumping := by
  refine ⟨by rw [Mill.dumps, Mill.ownBatch, Mill.updBatch_batch], ?_, ?_, fun sc present => ?_⟩
  · rw [Mill.dumps, Mill.ownBatch, Mill.updBatch_weigh, updMixer_weigh]
  · rw [Mill.dumps, Mill.ownBatch, Mill.updBatch_weigh, updMixer_weigh]
  · rw [Mill.dumps, Mill.ownBatch, Mill.updBatch_scale, Mill.updMixer_scale,
      (foldScales (fun c => { c with state := .dumping }) (fun c => rfl) m.scales m).1, if_pos present]

/-- The mixer emptied and its batch DONE, at the end of a discharge. -/
def Mill.discharged (m : Mill) (b : Fin 32) : Mill :=
  (m.updMixer (fun c => { c with state := .empty, batch := none })).updBatch .weighMix b (fun y => { y with state := .done })

theorem endDischarge_of_good {m : Mill} {b : Fin 32} {o : Fin 256} (good : (m.batch b).disposition = .good)
    (order : (m.batch b).order = some o) : m.endDischarge b =
      (((m.discharged b).completed o (m.batch b).target).reportFinal (m.batch b).order (m.batch b).chain).considerDump := by
  simp only [Mill.endDischarge, good, order]
  rfl

theorem endDischarge_of_other {m : Mill} {b : Fin 32}
    (other : (m.batch b).disposition = .rework ∨ (m.batch b).order = none) : m.endDischarge b =
      ((m.discharged b).reportFinal (m.batch b).order (m.batch b).chain).considerDump := by
  rcases other with rework | none
  · simp only [Mill.endDischarge, rework]
    rfl
  · simp only [Mill.endDischarge, none]
    cases (m.batch b).disposition <;> rfl

/-- Settles O53: the rows, then each sample by the state of its scale or of the mixer. -/
theorem weighSamples : Obligations.WeighSamples := by
  refine ⟨fun s x => execScaleSample_eq, fun s x => execMixerSample_eq,
    fun m sc x bad => ⟨scaleSample_of_bad sc bad, mixerSample_of_bad bad⟩,
    fun m sc x b good st batch => ?feed, fun m sc x good => ⟨scaleSample_of_dumping good, scaleSample_of_still good,
      scaleSample_of_other good⟩,
    fun m sc v r ref => ⟨leakSample_of_still ref, fun leaks => ⟨fun b => leakSample_of_done ref leaks,
      leakSample_of_idle ref leaks⟩⟩,
    fun m sc v => ⟨dumpSample_of_full, fun empty => ⟨dumpSample_of_more empty, fun b => dumpSample_of_last empty⟩⟩,
    fun m x good => ⟨fun b st batch => ?discharge, mixerSample_of_other good⟩,
    fun m b batch => ⟨considerDump_of_not batch, fun may => ?dump, mixerEmptied_iff m⟩,
    fun m b => ⟨fun o => endDischarge_of_good, endDischarge_of_other⟩⟩
  case feed =>
    intro v c t preact
    have fed : m.scaleSample sc x = (m.sampled sc x).feedSample b sc v := scaleSample_of_feeding good st batch
    have own := sampled_scale m sc x
    have point := sampled_cutOffAt m sc x b
    have feeds : ((m.sampled sc x).scale sc).state = .feeding := (sampled_state m sc x).trans st
    have ref : ((m.sampled sc x).scale sc).stallRef = c.stallRef := by rw [own]; rfl
    have stallTimer : ((m.sampled sc x).scale sc).stall = c.stall := by rw [own]; rfl
    have plan : (m.sampled sc x).plan = m.plan := Mill.updScale_plan m sc _
    have cut : m.cutOffAt b sc ≤ v → t = { (m.sampled sc x).scale sc with
        state := .settling, ended := .cutOff, stall := none, settle := some m.plan.settleTime } := fun reached => by
      simp only [t, fed, feedSample_of_cut b (point.trans_le reached), Mill.endPhase, Mill.updScale_scale, plan]
    have flow : v < m.cutOffAt b sc → c.stallRef + (m.plan.stallDelta : Int) ≤ v →
        t = { (m.sampled sc x).scale sc with stallRef := v, stall := some (1000 * m.plan.stallWindow) } :=
      fun below flows => by
        simp only [t, fed, feedSample_of_flow b (below.trans_eq point.symm) (by rw [ref, plan]; exact flows),
          Mill.updScale_scale, plan]
    have still : v < m.cutOffAt b sc → v < c.stallRef + (m.plan.stallDelta : Int) → t = (m.sampled sc x).scale sc :=
      fun below rests => by
        simp only [t, fed, feedSample_of_no_flow b (below.trans_eq point.symm) (by rw [ref, plan]; exact rests)]
    refine ⟨?_, fun reached => ?_, fun below flows => ?_, fun below rests => ?_⟩
    · rcases le_or_gt (m.cutOffAt b sc) v with reached | below
      · rw [cut reached, own]; rfl
      rcases le_or_gt (c.stallRef + (m.plan.stallDelta : Int)) v with flows | rests
      · rw [flow below flows, own]; rfl
      · rw [still below rests, own]; rfl
    · rw [cut reached]
      exact ⟨rfl, rfl, rfl, rfl⟩
    · rw [flow below flows]
      exact ⟨feeds, rfl, rfl⟩
    · rw [still below rests]
      exact ⟨feeds, ref, stallTimer⟩
  case discharge =>
    rw [mixerSample_of_discharging good st batch]
    exact ⟨fun empty => if_pos empty, fun full => if_neg (not_le.mpr full)⟩
  case dump =>
    intro t
    have dumped : t = { m.dumps b with weigh := { (m.dumps b).weigh with batch := none, cancelled := false } } :=
      considerDump_of_may batch may
    rw [dumped]
    have does := dumps_does m b
    generalize m.dumps b = n at does ⊢
    obtain ⟨state, filling, named, dumping⟩ := does
    exact ⟨filling, named, state, rfl, rfl, dumping⟩

end Sys2Proof.Machine

/-! SUPPORT. The timers of the Weigh-and-Mix Controller: phases, the settle and its tolerance check, attention, the take
and the discharge (07_weighing_mixing_and_discharge.md). -/

namespace Sys2Proof.Machine

/-! ### The rows -/

section rows

variable {s : State} (free : s.free .weighMix)
include free

theorem weighRow_next {f : Mill → Option Mill} {m : Mill} (h : f s.mill = some m) : s.weighRow f = .next (s.leaves m) :=
  runMill_next free.1 (busy_of_free free) h

theorem execScaleStale_eq {sc : Scale} (due : (s.mill.scale sc).channel.fresh = some 0) :
    exec (.scaleStale sc) s = .next (s.leaves (s.mill.scaleStale sc)) := by
  change execScaleStale sc s = _
  exact weighRow_next free (by simp only [due]; rfl)

theorem execMixerStale_eq (due : s.mill.weigh.mixer.channel.fresh = some 0) : exec .mixerStale s =
    .next (s.leaves (s.mill.updMixer (fun c => { c with channel := { c.channel with fresh := none } }))) := by
  change execMixerStale s = _
  exact weighRow_next free (by simp only [due]; rfl)

theorem execStallTimerExpiry_eq {sc : Scale} (due : (s.mill.scale sc).stall = some 0) :
    exec (.stallTimerExpiry sc) s = .next (s.leaves (s.mill.endPhase sc .stall)) := by
  change execStallTimerExpiry sc s = _
  exact weighRow_next free (by simp only [due]; rfl)

theorem execSettleExpiry_eq {sc : Scale} {b : Fin 32} (batch : s.mill.weigh.batch = some b)
    (due : (s.mill.scale sc).settle = some 0) :
    exec (.settleExpiry sc) s = .next (s.leaves (s.mill.settleScale b sc)) := by
  change execSettleExpiry sc s = _
  exact weighRow_next free (by simp only [batch, due]; rfl)

theorem execWeighLimitExpiry_eq {b : Fin 32} (batch : s.mill.weigh.batch = some b) (due : s.mill.weigh.limit = some 0)
    (runs : s.mill.weigh.suspended = false) :
    exec .weighLimitExpiry s = .next (s.leaves ((s.mill.cancelWeighing b).raise .weighLimit)) := by
  change execWeighLimitExpiry s = _
  exact weighRow_next free (by simp only [batch, due, runs]; rfl)

theorem execMixTimerExpiry_eq {b : Fin 32} (batch : s.mill.weigh.mixer.batch = some b)
    (due : s.mill.weigh.mixer.mix = some 0) : exec .mixTimerExpiry s = .next (s.leaves (s.mill.mixed b)) := by
  change execMixTimerExpiry s = _
  exact weighRow_next free (by simp only [batch, due]; rfl)

theorem execHoldLimitExpiry_eq {b : Fin 32} (batch : s.mill.weigh.mixer.batch = some b)
    (due : s.mill.weigh.mixer.hold = some 0) : exec .holdLimitExpiry s = .next (s.leaves (s.mill.held b)) := by
  change execHoldLimitExpiry s = _
  exact weighRow_next free (by simp only [batch, due]; rfl)

end rows

/-- A stale channel ends a FEEDING phase as a stall, and marks the channel alone otherwise. -/
theorem scaleStale_eq (m : Mill) (sc : Scale) : m.scaleStale sc =
    if (m.scale sc).state = .feeding then
      (m.updScale sc (fun c => { c with channel := { c.channel with fresh := none } })).endPhase sc .stall
    else m.updScale sc (fun c => { c with channel := { c.channel with fresh := none } }) := by
  simp only [Mill.scaleStale, Mill.updScale_scale]

/-! ### The settle -/

/-- The increment booked on the line, its reservation and its actual. -/
def Mill.settleBooked (m : Mill) (b : Fin 32) (sc : Scale) : Mill :=
  let c := m.scale sc
  let l := c.current
  let inc := c.channel.value - c.base
  let bin := ((m.batch b).chainLine l).bin
  let m1 := m.bookDraw b l bin inc
  let m2 := m1.ownBatch b (fun x => { x with actuals := x.actuals.modify l (· + inc.toNat) })
  m2.updScale sc ({ · with settle := none, leakRef := some c.channel.value })

/-- The preact adjusted after a first phase cut off, and the record's fields for the scale. -/
def Mill.settleShown (m : Mill) (b : Fin 32) (sc : Scale) : Mill :=
  let c := m.scale sc
  let m3 := m.settleBooked b sc
  let actual := (m3.batch b).lineActual c.current
  let m4 :=
    if c.phase = 0 && c.ended = .cutOff then
      m3.adjustPreact ((m.batch b).chainLine c.current).bin
        (((actual : Int) - ((m3.batch b).lineTarget c.current : Int)).tdiv 2)
    else m3
  m4.ownBatch b (fun x => x.setScaleFields sc ⟨c.current, c.phase, actual⟩)

/-- What a settle comes to: a cancelled scale done, a cut-off checked, a stall shown. -/
def Mill.settleJudged (m : Mill) (b : Fin 32) (sc : Scale) (e : PhaseEnd) : Mill :=
  if m.weigh.cancelled then (m.dropLines b sc).judgeWeighed b
  else match e with
    | .cutOff => m.checkTolerance b sc
    | .stall | .cancelled => m.enterAttention b sc .stalled

theorem settleScale_eq (m : Mill) (b : Fin 32) (sc : Scale) :
    m.settleScale b sc = (m.settleShown b sc).settleJudged b sc (m.scale sc).ended := by
  unfold Mill.settleScale Mill.settleJudged Mill.settleShown Mill.settleBooked
  rfl

section settle

variable (m : Mill) (b : Fin 32) (sc : Scale)

theorem settleBooked_weigh_cancelled : (m.settleBooked b sc).weigh.cancelled = m.weigh.cancelled := by
  rw [Mill.settleBooked, Mill.updScale_cancelled, Mill.ownBatch, Mill.updBatch_weigh, (stockOnly_bookDraw m b _ _ _).weigh]

theorem settleBooked_lineTarget (l : Nat) : ((m.settleBooked b sc).batch b).lineTarget l = (m.batch b).lineTarget l := by
  rw [Mill.settleBooked, Mill.updScale_batch, Mill.ownBatch, Mill.updBatch_batch, (stockOnly_bookDraw m b _ _ _).batch]
  rfl

theorem settleShown_cancelled : (m.settleShown b sc).weigh.cancelled = m.weigh.cancelled := by
  rw [Mill.settleShown, Mill.ownBatch, Mill.updBatch_weigh]
  split
  · rw [(stockOnly_adjustPreact _ _ _).weigh, settleBooked_weigh_cancelled]
  · exact settleBooked_weigh_cancelled m b sc

theorem settleShown_of_first (first : (m.scale sc).phase = 0 ∧ (m.scale sc).ended = .cutOff) : m.settleShown b sc =
    ((m.settleBooked b sc).adjustPreact ((m.batch b).chainLine (m.scale sc).current).bin
      (((((m.settleBooked b sc).batch b).lineActual (m.scale sc).current : Int) -
        ((m.batch b).lineTarget (m.scale sc).current : Int)).tdiv 2)).updBatch .weighMix b
      (fun x => x.setScaleFields sc ⟨(m.scale sc).current, (m.scale sc).phase,
        ((m.settleBooked b sc).batch b).lineActual (m.scale sc).current⟩) := by
  rw [Mill.settleShown, if_pos (by simpa using first), settleBooked_lineTarget]
  rfl

theorem settleShown_of_other (other : ¬((m.scale sc).phase = 0 ∧ (m.scale sc).ended = .cutOff)) : m.settleShown b sc =
    (m.settleBooked b sc).updBatch .weighMix b (fun x => x.setScaleFields sc ⟨(m.scale sc).current,
      (m.scale sc).phase, ((m.settleBooked b sc).batch b).lineActual (m.scale sc).current⟩) := by
  rw [Mill.settleShown, if_neg (by simpa using other)]
  rfl

variable {m b sc}

theorem settleScale_of_cancelled (cancelled : m.weigh.cancelled = true) :
    m.settleScale b sc = ((m.settleShown b sc).dropLines b sc).judgeWeighed b := by
  rw [settleScale_eq]
  exact if_pos ((settleShown_cancelled m b sc).trans cancelled)

theorem settleScale_of_cutOff (goesOn : m.weigh.cancelled = false) (cut : (m.scale sc).ended = .cutOff) :
    m.settleScale b sc = (m.settleShown b sc).checkTolerance b sc := by
  rw [settleScale_eq, cut]
  exact if_neg (ne_true_of_eq_false ((settleShown_cancelled m b sc).trans goesOn))

theorem settleScale_of_stall (goesOn : m.weigh.cancelled = false) (other : (m.scale sc).ended ≠ .cutOff) :
    m.settleScale b sc = (m.settleShown b sc).enterAttention b sc .stalled := by
  rw [settleScale_eq]
  refine (if_neg (ne_true_of_eq_false ((settleShown_cancelled m b sc).trans goesOn))).trans ?_
  cases ended : (m.scale sc).ended
  case cutOff => exact absurd ended other
  case stall => rfl
  case cancelled => rfl

end settle

/-! ### The tolerance check, attention, phases and lines -/

section tolerance

variable {m : Mill} {b : Fin 32} {sc : Scale}

/-- The tolerance of the scale's current line, the larger of its two bounds. -/
def Mill.currentTolerance (m : Mill) (b : Fin 32) (sc : Scale) : Nat :=
  m.tolerance (m.batch b) (m.scale sc).current

theorem checkTolerance_of_under (under : (m.batch b).lineActual (m.scale sc).current + m.currentTolerance b sc <
    (m.batch b).lineTarget (m.scale sc).current) :
    m.checkTolerance b sc = (m.releaseEntry b (m.scale sc).current).enterAttention b sc .under := if_pos under

theorem checkTolerance_of_over (above : (m.batch b).lineTarget (m.scale sc).current + m.currentTolerance b sc <
    (m.batch b).lineActual (m.scale sc).current) :
    m.checkTolerance b sc = (m.releaseEntry b (m.scale sc).current).enterAttention b sc .over :=
  (if_neg (by unfold Mill.currentTolerance at above; omega)).trans (if_pos above)

theorem checkTolerance_of_within (low : (m.batch b).lineTarget (m.scale sc).current ≤
      (m.batch b).lineActual (m.scale sc).current + m.currentTolerance b sc)
    (high : (m.batch b).lineActual (m.scale sc).current ≤
      (m.batch b).lineTarget (m.scale sc).current + m.currentTolerance b sc) :
    m.checkTolerance b sc = m.finishLine b sc :=
  (if_neg (not_lt.mpr low)).trans (if_neg (not_lt.mpr high))

end tolerance

section attention

variable (m : Mill) (b : Fin 32) (sc : Scale) (cause : Cause)

theorem enterAttention_scale : (m.enterAttention b sc cause).scale sc =
    { m.scale sc with state := .attention, cause := cause, settle := none, stall := none } := by
  rw [Mill.enterAttention, Mill.ownBatch, Mill.updBatch_scale, Mill.updScale_scale]

theorem enterAttention_batch : (m.enterAttention b sc cause).batch b =
    if (m.batch b).attention.cause = .none then { m.batch b with
      attention := ⟨cause, scaleNo sc, (m.scale sc).current, (m.batch b).lineTarget (m.scale sc).current,
        (m.batch b).lineActual (m.scale sc).current⟩ }
    else m.batch b := by
  rw [Mill.enterAttention, Mill.ownBatch, Mill.updBatch_batch, Mill.updScale_batch, Mill.updScale_scale]
  rfl

end attention

section phase

variable (m : Mill) (b : Fin 32) (sc : Scale) (target : Nat)

theorem isFresh_iff (c : Channel) : c.isFresh = true ↔ c.fresh ≠ none := Option.isSome_iff_ne_none

theorem startPhase_of_stale {m : Mill} {sc : Scale} (stale : (m.scale sc).channel.fresh = none) :
    m.startPhase b sc target =
      (m.updScale sc (fun c => { c with target := target })).enterAttention b sc .stalled :=
  if_neg (mt (isFresh_iff _).mp (not_not.mpr stale))

theorem startPhase_scale {m : Mill} {sc : Scale} (fresh : (m.scale sc).channel.fresh ≠ none) :
    (m.startPhase b sc target).scale sc = { m.scale sc with
      state := .feeding, bin := ((m.batch b).chainLine (m.scale sc).current).bin.val
      base := (m.scale sc).channel.latest.getD 0, target := target, ended := .cutOff
      stallRef := (m.scale sc).channel.latest.getD 0, stall := some (1000 * m.plan.stallWindow), settle := none
      cause := .none } := by
  rw [Mill.startPhase, if_pos ((isFresh_iff _).mpr fresh), Mill.ownBatch, Mill.updBatch_scale, Mill.updScale_scale]
  rfl

theorem allScales_iff (st : ScaleState) : m.allScales st = true ↔ ∀ sc ∈ m.scales, (m.scale sc).state = st := by
  simp only [Mill.allScales, List.all_eq_true, decide_eq_true_eq]

theorem judgeWeighed_of_all {m : Mill} {b : Fin 32} (all : ∀ sc ∈ m.scales, (m.scale sc).state = .done)
    (st : (m.batch b).state = .weighing) : m.judgeWeighed b = Mill.considerDump
      { m.updBatch .weighMix b (fun x => { x with state := .weighed, total := x.actuals.sum }) with
        weigh := { (m.updBatch .weighMix b (fun x => { x with state := .weighed, total := x.actuals.sum })).weigh with
          limit := none } } :=
  if_pos (by rw [(allScales_iff m .done).mpr all, decide_eq_true st]; rfl)

theorem judgeWeighed_of_not {m : Mill} {b : Fin 32}
    (not : ¬(∀ sc ∈ m.scales, (m.scale sc).state = .done) ∨ (m.batch b).state ≠ .weighing) : m.judgeWeighed b = m := by
  refine if_neg fun both => ?_
  rw [Bool.and_eq_true, decide_eq_true_eq, allScales_iff] at both
  exact not.elim (fun some => some both.1) (fun other => other both.2)

/-- The head taken from the queue: the queue's rest and the reference, and a pass asked for. -/
theorem takeHead_eq {m : Mill} {b : Fin 32} {q : List (Fin 32)} (queue : m.seq.queue = b :: q) : m.takeHead b =
    (Mill.restate { m with seq := { m.seq with
      queue := q, reference := some ⟨(m.batch b).mask, (m.batch b).order.isNone⟩ } } 6).askPass := by
  rw [Mill.takeHead, queue]
  rfl

/-- The scales may take the head of a queue that is not held, while all of them are idle. -/
theorem considerTake_of_may {m : Mill} {b : Fin 32} {q : List (Fin 32)} (run : m.plan.state = .running)
    (queue : m.seq.queue = b :: q) (free : m.seq.hold = false) (idle : ∀ sc ∈ m.scales, (m.scale sc).state = .idle) :
    m.considerTake =
      let m1 := (m.takeHead b).ownBatch b (fun x => { x with state := .weighing })
      let m2 := { m1 with weigh := { m1.weigh with
        batch := some b, cancelled := false
        limit := some (seconds (m.plan.weighBase + ((m.batch b).chain.lines.length + 1) * m.plan.weighLine)) } }
      m.scales.foldl (fun m' sc => m'.startLines b sc (scaleLines (m.batch b).chain sc))
        (m.scales.foldl (fun m' sc => m'.updScale sc (fun c =>
          { c with batch := some b, lines := scaleLines (m.batch b).chain sc, phase := 0, cause := .none })) m2) := by
  simp only [Mill.considerTake, queue, List.head?_cons, run, (allScales_iff m .idle).mpr idle, free]
  rfl

end phase

/-! ### The discharge -/

section discharge

variable {m : Mill} {b : Fin 32} (batch : m.weigh.mixer.batch = some b)
include batch

theorem judgeDischarge_of_not (not : m.weigh.mixer.state ≠ .mixed ∨ m.routeTakes (m.batch b) = false) :
    m.judgeDischarge = m := by
  simp only [Mill.judgeDischarge, batch]
  exact if_neg (by rcases not with h | h <;> simp [h])

theorem judgeDischarge_of_may (st : m.weigh.mixer.state = .mixed) (takes : m.routeTakes (m.batch b) = true) :
    m.judgeDischarge = ((m.bookDischarge (m.batch b)).updMixer (fun c => { c with
      state := .discharging, route := (m.batch b).route, hold := none })).updBatch .weighMix b (fun x => { x with
        state := .discharging
        attention := if x.attention.cause = .held then .reset else x.attention }) := by
  simp only [Mill.judgeDischarge, batch]
  exact if_pos (by simp [st, takes])

end discharge

section route

variable {m : Mill} {x : Batch} {i : Fin 48} (route : x.route = i.val)
include route

theorem bookDischarge_of_surge {g : Surge} (surge : (getAt m.stock.bins i).plan.kind.surge = some g) :
    m.bookDischarge x = m.appendLot g x.order x.total := by
  simp only [Mill.bookDischarge, route, toBin_val, Option.bind_some, surge]

theorem bookDischarge_of_rework (other : (getAt m.stock.bins i).plan.kind.surge = none) :
    m.bookDischarge x = m.addRework x.total := by
  simp only [Mill.bookDischarge, route, toBin_val, Option.bind_some, other]

theorem routeTakes_of_surge {g : Surge} (surge : (getAt m.stock.bins i).plan.kind.surge = some g) :
    m.routeTakes x = true ↔ x.total ≤ (getAt m.stock.bins i).plan.capacity - (getAt m.stock.bins i).level ∧
      m.needsEntry g x.order = false ∧ ¬(g = .pellet ∧ (m.lineCtl .pellet).state = .tripped) := by
  have line : m.lines.pellet.line.state = (m.lineCtl .pellet).state := rfl
  simp only [Mill.routeTakes, route, toBin_val, surge, line, Bool.and_eq_true, Bool.not_eq_true', decide_eq_true_eq,
    Bool.and_eq_false_iff, decide_eq_false_iff_not, not_and_or, and_assoc]
  rfl

theorem routeTakes_of_rework (other : (getAt m.stock.bins i).plan.kind.surge = none) :
    m.routeTakes x = true ↔ x.total ≤ (getAt m.stock.bins i).plan.capacity - (getAt m.stock.bins i).level := by
  simp only [Mill.routeTakes, route, toBin_val, other, decide_eq_true_eq]
  rfl

end route

/-- Settles O54: the rows by their timers, then what each expiry and what follows it does. -/
theorem weighTimers : Obligations.WeighTimers := by
  refine ⟨fun s free => ⟨fun sc due => ?stale, execMixerStale_eq free, fun sc => execStallTimerExpiry_eq free,
      fun sc b => execSettleExpiry_eq free, fun b => execWeighLimitExpiry_eq free, fun b => execMixTimerExpiry_eq free,
      fun b => execHoldLimitExpiry_eq free⟩,
    fun m b sc => ?settle, fun m bin d => ?preact,
    fun m b sc => ⟨checkTolerance_of_under, checkTolerance_of_over, checkTolerance_of_within⟩,
    fun m b sc cause => ?attention, fun m b sc target => ⟨startPhase_of_stale b target, fun fresh => ?phase⟩,
    fun m b sc l ls => ⟨fun none => if_pos none, fun some => if_neg some, rfl⟩,
    fun m b => ⟨judgeWeighed_of_not, judgeWeighed_of_all⟩, fun m b q run queue free idle => ?take,
    fun m b batch => ⟨judgeDischarge_of_not batch, judgeDischarge_of_may batch⟩,
    fun m x i route => ⟨fun g surge => ⟨bookDischarge_of_surge route surge, routeTakes_of_surge route surge⟩,
      fun other => ⟨bookDischarge_of_rework route other, routeTakes_of_rework route other⟩⟩⟩
  case stale =>
    rw [execScaleStale_eq free due, scaleStale_eq]
    exact ⟨fun feeds => by rw [if_pos feeds], fun other => by rw [if_neg other]⟩
  case settle =>
    intro c inc bin m3 actual fields m5
    have booked : m3 = m.settleBooked b sc := by
      unfold Mill.settleBooked
      rfl
    clear_value m3
    subst booked
    have shown : m.settleShown b sc = m5 := by
      by_cases first : c.phase = 0 ∧ c.ended = .cutOff
      · exact (settleShown_of_first m b sc first).trans (if_pos first).symm
      · exact (settleShown_of_other m b sc first).trans (if_neg first).symm
    rw [← shown]
    exact ⟨settleScale_of_cancelled, settleScale_of_cutOff, settleScale_of_stall⟩
  case take =>
    intro x m1 m2 m3 m4
    rw [considerTake_of_may run queue free idle, takeHead_eq queue]
    rfl
  case preact =>
    intro x
    rw [Mill.adjustPreact, Mill.updBin_bin]
    rfl
  case attention =>
    intro t
    rw [enterAttention_scale, enterAttention_batch]
    exact ⟨rfl, rfl, rfl, rfl, fun shown => by rw [if_neg shown], fun none => by rw [if_pos none]⟩
  case phase =>
    intro d
    have started : d = _ := startPhase_scale b target fresh
    rw [started]
    exact ⟨rfl, rfl, rfl, rfl, rfl, rfl, rfl, rfl, rfl, rfl⟩

end Sys2Proof.Machine

/-! SUPPORT. The samples of the Line Supervisor: trip channels, totalizers, the refill and the product
(08_grinding_and_pelleting_lines.md). -/

namespace Sys2Proof.Machine

/-! ### The rows -/

section rows

variable {s : State} {x : Sample} (h : s.samples .lineSupervisor x)
include h

theorem execTripChannelSample_eq {ch : TripChannel} (role : tripChannelOf x.role = some ch) :
    exec .tripChannelSample s = .next (s.takesTo .lineSupervisor (s.mill.tripSample ch x)) := by
  change execTripChannelSample s = _
  refine (sampleRow_next h (by rw [role]; rfl) _).trans ?_
  rw [role]

theorem execGrinderTotalSample_eq (role : x.role = 4 ∨ x.role = 6) : exec .grinderTotalSample s =
    .next (s.takesTo .lineSupervisor (s.mill.grinderTotal (if x.role = 4 then .a else .b) x)) := by
  change execGrinderTotalSample s = _
  exact sampleRow_next h (by simpa using role) (fun x m => m.grinderTotal (if x.role = 4 then .a else .b) x)

theorem execPlFeedSample_eq (role : x.role = 9) :
    exec .plFeedSample s = .next (s.takesTo .lineSupervisor (s.mill.pelletFeed x)) := by
  change execPlFeedSample s = _
  exact sampleRow_next h (decide_eq_true role) (fun x m => m.pelletFeed x)

theorem execPlProductSample_eq (role : x.role = 10) :
    exec .plProductSample s = .next (s.takesTo .lineSupervisor (s.mill.pelletProduct x)) := by
  change execPlProductSample s = _
  exact sampleRow_next h (decide_eq_true role) (fun x m => m.pelletProduct x)

end rows

theorem good_iff (x : Sample) : x.good = true ↔ x.quality = 0 := decide_eq_true_iff

theorem totals_of_bad (m : Mill) (g : Grinder) {x : Sample} (bad : x.quality ≠ 0) :
    m.grinderTotal g x = m ∧ m.pelletFeed x = m ∧ m.pelletProduct x = m :=
  have fails := mt (good_iff x).mp bad
  ⟨if_neg fails, if_neg fails, if_neg fails⟩

/-! ### The delta of a count -/

/-- The delta of a count by the number modulo 2^24 that it has moved. -/
theorem deltaOf_of_moved {p count d : Nat} (moved : (count + 2 ^ 24 - p) % 2 ^ 24 = d) : deltaOf (some p) count =
    if d = 0 then .none else if d < 2 ^ 23 then .mass d else .reset := by
  subst moved
  rfl

theorem deltaOf_moved {p count d : Nat} (moved : (count + 2 ^ 24 - p) % 2 ^ 24 = d) (some : 0 < d) :
    (d < 2 ^ 23 → deltaOf (.some p) count = .mass d) ∧ (2 ^ 23 ≤ d → deltaOf (.some p) count = .reset) := by
  rw [deltaOf_of_moved moved, if_neg some.ne']
  exact ⟨fun few => if_pos few, fun many => if_neg (not_lt.mpr many)⟩

/-! ### Trip channels -/

/-- A sample put in its channel, with the above count n. -/
def TripChan.sampled (x : Sample) (stale n : Nat) (c : TripChan) : TripChan :=
  { c with latest := some x, fresh := some stale, above := n, good := if x.quality = 0 then some x.raw.toInt else c.good }

/-- A sample taken by its channel, the line tripped at the second above, a good load judged for the top limit. -/
def Mill.tripJudged (m : Mill) (ch : TripChannel) (x : Sample) : Mill :=
  let m1 := m.updChan ch (TripChan.sampled x m.plan.staleTime (m.aboveAfter ch x))
  let m2 := if 2 ≤ m.aboveAfter ch x then m1.tripLine (chanLine ch) (chanCause ch) else m1
  if isLoad ch = true ∧ x.quality = 0 then m2.judgeTop (chanLine ch) x.raw.toInt else m2

theorem tripSample_eq (m : Mill) (ch : TripChannel) (x : Sample) : m.tripSample ch x = match chanLine ch with
    | .grinder g => (m.tripJudged ch x).tryAutoStart g
    | .pellet => m.tripJudged ch x := by
  simp only [Mill.tripSample, Bool.and_eq_true, good_iff]
  rfl

theorem tripSample_of_grinder {m : Mill} {ch : TripChannel} {x : Sample} {g : Grinder} (line : chanLine ch = .grinder g) :
    m.tripSample ch x = (m.tripJudged ch x).tryAutoStart g := by
  rw [tripSample_eq, line]

theorem tripSample_of_pellet {m : Mill} {ch : TripChannel} {x : Sample} (line : chanLine ch = .pellet) :
    m.tripSample ch x = m.tripJudged ch x := by
  rw [tripSample_eq, line]

section above

variable {m : Mill} {ch : TripChannel} {x : Sample}

theorem countsAbove_iff (m : Mill) (ch : TripChannel) (x : Sample) :
    m.countsAbove ch x = true ↔ x.quality ≠ 0 ∨ m.tripLimit ch < x.raw.toInt := by
  rw [Mill.countsAbove, Bool.or_eq_true, Bool.not_eq_true', Bool.eq_false_iff, Ne, good_iff, decide_eq_true_eq]
  rfl

theorem aboveAfter_of_tripped (st : (m.lineCtl (chanLine ch)).state = .tripped) : m.aboveAfter ch x = 0 := if_pos st

variable (st : (m.lineCtl (chanLine ch)).state ≠ .tripped)
include st

theorem aboveAfter_of_above (counts : x.quality ≠ 0 ∨ m.tripLimit ch < x.raw.toInt) :
    m.aboveAfter ch x = (m.chan ch).above + 1 :=
  (if_neg st).trans (if_pos ((countsAbove_iff m ch x).mpr counts))

theorem aboveAfter_of_below (good : x.quality = 0) (below : x.raw.toInt ≤ m.tripLimit ch) : m.aboveAfter ch x = 0 := by
  refine (if_neg st).trans (if_neg fun counts => ?_)
  exact ((countsAbove_iff m ch x).mp counts).elim (fun bad => bad good) (not_lt.mpr below)

end above

/-- The trip limit and the cause of a channel, by its kind. -/
theorem tripLimit_eq (m : Mill) (ch : TripChannel) :
    (isLoad ch = true → m.tripLimit ch = m.plan.loadTrip (chanLine ch) ∧ chanCause ch = .load) ∧
    (isLoad ch = false → m.tripLimit ch = m.plan.tempTrip (chanLine ch) ∧ chanCause ch = .temp) :=
  ⟨fun load => ⟨if_pos load, if_pos load⟩,
    fun temp => ⟨if_neg (ne_true_of_eq_false temp), if_neg (ne_true_of_eq_false temp)⟩⟩

section top

variable {m : Mill} {l : Line} {v : Int}

theorem judgeTop_of_resting (rests : (m.lineCtl l).state.works = false) : m.judgeTop l v = m :=
  if_neg (ne_true_of_eq_false rests)

/-- A working line judged: its top state, and an adjust step where the timer is idle. -/
theorem judgeTop_of_working (works : (m.lineCtl l).state.works = true) :
    m.judgeTop l v =
      if (decide ((m.plan.loadTop l : Int) < v) && m.plan.adjustOn l && (m.lineCtl l).adjust.isNone) = true then
        (m.updLine l (fun c => { c with top := decide ((m.plan.loadTop l : Int) < v) })).adjustStep l
      else m.updLine l (fun c => { c with top := decide ((m.plan.loadTop l : Int) < v) }) := if_pos works

theorem judgeTop_of_high (works : (m.lineCtl l).state.works = true) (high : (m.plan.loadTop l : Int) < v)
    (on : m.plan.adjustOn l = true) (idle : (m.lineCtl l).adjust = none) : m.judgeTop l v =
      (m.updLine l (fun c => { c with top := decide ((m.plan.loadTop l : Int) < v) })).adjustStep l := by
  rw [judgeTop_of_working works, if_pos (by rw [decide_eq_true high, on, idle]; rfl)]

theorem judgeTop_of_no_step (works : (m.lineCtl l).state.works = true)
    (none : v ≤ (m.plan.loadTop l : Int) ∨ m.plan.adjustOn l = false ∨ (m.lineCtl l).adjust ≠ Option.none) :
    m.judgeTop l v = m.updLine l (fun c => { c with top := decide ((m.plan.loadTop l : Int) < v) }) := by
  rw [judgeTop_of_working works, if_neg fun step => ?_]
  rw [Bool.and_eq_true, Bool.and_eq_true, decide_eq_true_eq, Option.isNone_iff_eq_none] at step
  obtain ⟨⟨high, on⟩, idle⟩ := step
  rcases none with low | off | runs
  · exact absurd high (not_lt.mpr low)
  · exact Bool.false_ne_true (off.symm.trans on)
  · exact runs idle

end top

/-! ### The grinders' totalizers and the refill -/

theorem raiseIf_decide (m : Mill) (p : Prop) [Decidable p] (f : Flag) :
    m.raiseIf (decide p) f = if p then m.raise f else m := by
  by_cases h : p
  · rw [if_pos h, decide_eq_true h]; rfl
  · rw [if_neg h, decide_eq_false h]; rfl

section grinder

variable {m : Mill} {g : Grinder} {x : Sample} (good : x.quality = 0)
include good

theorem grinderTotal_of_none (still : deltaOf (m.grinderCtl g).total x.raw.toNat = .none) :
    m.grinderTotal g x = m.updGrinder g (fun c => { c with total := some x.raw.toNat }) := by
  simp only [Mill.grinderTotal, (good_iff x).mpr good, if_true, still]

theorem grinderTotal_of_reset (reset : deltaOf (m.grinderCtl g).total x.raw.toNat = .reset) :
    m.grinderTotal g x = (m.updGrinder g (fun c => { c with total := some x.raw.toNat })).raise .stockDisagree := by
  simp only [Mill.grinderTotal, (good_iff x).mpr good, if_true, reset]

/-- The sample taken, a delta at an idle grinder reported. -/
def Mill.grinderMoved (m : Mill) (g : Grinder) (x : Sample) : Mill :=
  if (m.grinderCtl g).line.state = .idle then
    (m.updGrinder g (fun c => { c with total := some x.raw.toNat })).raise .unexpectedFlow
  else m.updGrinder g (fun c => { c with total := some x.raw.toNat })

theorem grinderTotal_of_no_refill {d : Nat} (moved : deltaOf (m.grinderCtl g).total x.raw.toNat = .mass d)
    (none : (m.grinderCtl g).refill = none) : m.grinderTotal g x = (m.grinderMoved g x).raise .stockDisagree := by
  simp only [Mill.grinderTotal, (good_iff x).mpr good, if_true, moved, none, raiseIf_decide]
  rfl

theorem grinderTotal_of_refill {d : Nat} {r : Refill} (moved : deltaOf (m.grinderCtl g).total x.raw.toNat = .mass d)
    (some : (m.grinderCtl g).refill = some r) : m.grinderTotal g x = (m.grinderMoved g x).refill r.raw r.ground d := by
  simp only [Mill.grinderTotal, (good_iff x).mpr good, if_true, moved, some, raiseIf_decide]
  rfl

end grinder

theorem refill_of_no_bin (m : Mill) {raw ground : Nat} (mass : Nat) (outside : 48 ≤ raw ∨ 48 ≤ ground) :
    m.refill raw ground mass = m.raise .stockDisagree := by
  unfold Mill.refill
  rcases outside with h | h
  · rw [toBin_of_le h]
  · rw [toBin_of_le h]
    cases toBin raw <;> rfl

theorem addMass_level (m : Mill) (i : Fin 48) (mass : Nat) : (getAt (m.addMass i mass).stock.bins i).level =
    min ((getAt m.stock.bins i).level + mass) (getAt m.stock.bins i).plan.capacity := by
  rw [Mill.addMass, Mill.raiseIf_stock, Mill.updBin_bin]
  rfl

theorem takeMass_level (m : Mill) (i : Fin 48) (mass : Nat) :
    (getAt (m.takeMass i mass).stock.bins i).level = (getAt m.stock.bins i).level - mass := by
  rw [Mill.takeMass, Mill.raiseIf_stock, Mill.updBin_bin]
  rfl

theorem addMass_other (m : Mill) {i j : Fin 48} (mass : Nat) (other : j ≠ i) :
    getAt (m.addMass i mass).stock.bins j = getAt m.stock.bins j := by
  rw [Mill.addMass, Mill.raiseIf_stock, Mill.updBin_other _ _ _ _ other]

theorem takeMass_other (m : Mill) {i j : Fin 48} (mass : Nat) (other : j ≠ i) :
    getAt (m.takeMass i mass).stock.bins j = getAt m.stock.bins j := by
  rw [Mill.takeMass, Mill.raiseIf_stock, Mill.updBin_other _ _ _ _ other]

/-- Reports grow: what has been reported stays so. -/
theorem mem_raiseIf {m : Mill} {r : Report} (b : Bool) (f : Flag) (h : r ∈ m.reports) : r ∈ (m.raiseIf b f).reports := by
  cases b
  · exact h
  · exact List.mem_append_left _ h

theorem mem_raiseIf_of {m : Mill} {b : Bool} {f : Flag} (h : b = true) : .event f ∈ (m.raiseIf b f).reports := by
  subst h
  exact List.mem_append_right _ (List.mem_singleton_self _)

theorem mem_updBin {m : Mill} {r : Report} (i : Fin 48) (f : Bin → Bin) (h : r ∈ m.reports) :
    r ∈ (m.updBin i f).reports := by
  rw [Mill.updBin_reports]
  exact List.mem_append_left _ h

/-- A pass asked for while the plan runs is then in progress. -/
theorem askPass_not_idle {m : Mill} (run : m.plan.state = .running) : m.askPass.seq.pass ≠ .idle := by
  rw [Mill.askPass_seq_of_running run, Sequencer.ask]
  split
  · exact fun h => Pass.noConfusion h
  · next busy => rw [busy]; exact fun h => Pass.noConfusion h
  · next busy => rw [busy]; exact fun h => Pass.noConfusion h

section refill

variable (m : Mill) (raw ground : Fin 48) (mass : Nat)

/-- The ground bin filled, and a pass asked for where its level has risen. -/
def Mill.fillGround (m : Mill) (ground : Fin 48) (mass : Nat) : Mill :=
  if (getAt m.stock.bins ground).level < (getAt (m.addMass ground mass).stock.bins ground).level then
    (m.addMass ground mass).askPass
  else m.addMass ground mass

theorem fillGround_stock : (m.fillGround ground mass).stock = (m.addMass ground mass).stock := by
  unfold Mill.fillGround
  split
  · exact Mill.askPass_stock _
  · rfl

theorem fillGround_reports : (m.fillGround ground mass).reports = (m.addMass ground mass).reports := by
  unfold Mill.fillGround
  split
  · exact Mill.askPass_reports _
  · rfl

theorem refill_of_wrong_kind (wrong : (getAt m.stock.bins raw).plan.kind ≠ .raw ∨
    (getAt m.stock.bins ground).plan.kind ≠ .ground) : m.refill raw ground mass = m.raise .stockDisagree := by
  unfold Mill.refill
  rw [toBin_val, toBin_val]
  refine if_neg fun both => ?_
  rw [Bool.and_eq_true, decide_eq_true_eq, decide_eq_true_eq] at both
  exact wrong.elim (fun h => h both.1) (fun h => h both.2)

variable {m raw ground} (isRaw : (getAt m.stock.bins raw).plan.kind = .raw)
  (isGround : (getAt m.stock.bins ground).plan.kind = .ground)
include isRaw isGround

theorem refill_of_kinds : m.refill raw ground mass = (m.fillGround ground mass).takeMass raw mass := by
  unfold Mill.refill Mill.fillGround
  rw [toBin_val, toBin_val]
  exact if_pos (by rw [isRaw, isGround]; rfl)

theorem raw_ne_ground : raw ≠ ground := fun same => by
  rw [same, isGround] at isRaw
  cases isRaw

/-- The levels of the two bins after a refill. -/
theorem refill_levels : (getAt (m.refill raw ground mass).stock.bins raw).level = (getAt m.stock.bins raw).level - mass ∧
    (getAt (m.refill raw ground mass).stock.bins ground).level =
      min ((getAt m.stock.bins ground).level + mass) (getAt m.stock.bins ground).plan.capacity := by
  have other := raw_ne_ground isRaw isGround
  rw [refill_of_kinds mass isRaw isGround, takeMass_level, takeMass_other _ _ other.symm, fillGround_stock,
    addMass_other _ _ other, addMass_level]
  exact ⟨rfl, rfl⟩

theorem refill_reports (short : (getAt m.stock.bins raw).level < mass ∨
      (getAt m.stock.bins ground).plan.capacity < (getAt m.stock.bins ground).level + mass) :
    Report.event .stockDisagree ∈ (m.refill raw ground mass).reports := by
  rw [refill_of_kinds mass isRaw isGround, Mill.takeMass, fillGround_stock,
    addMass_other _ _ (raw_ne_ground isRaw isGround)]
  rcases short with low | high
  · exact mem_raiseIf_of (decide_eq_true low)
  · refine mem_raiseIf _ _ (mem_updBin _ _ ?_)
    rw [fillGround_reports]
    exact mem_raiseIf_of (decide_eq_true high)

theorem refill_passes (run : m.plan.state = .running) (rises : (getAt m.stock.bins ground).level <
      min ((getAt m.stock.bins ground).level + mass) (getAt m.stock.bins ground).plan.capacity) :
    (m.refill raw ground mass).seq.pass ≠ .idle := by
  rw [refill_of_kinds mass isRaw isGround, (stockOnly_takeMass _ _ _).seq, Mill.fillGround,
    if_pos (by rw [addMass_level]; exact rises)]
  exact askPass_not_idle (by rw [(stockOnly_addMass _ _ _).plan]; exact run)

end refill

/-! ### The pellet line's feed and product -/

/-- The feed taken, a delta at an idle line reported. -/
def Mill.feedMoved (m : Mill) (x : Sample) : Mill :=
  if m.lines.pellet.line.state = .idle then
    (m.updPellet (fun c => { c with feed := some x.raw.toNat })).raise .unexpectedFlow
  else m.updPellet (fun c => { c with feed := some x.raw.toNat })

theorem feedMoved_stock (m : Mill) (x : Sample) : (m.feedMoved x).stock = m.stock := by
  unfold Mill.feedMoved
  split <;> simp [Mill.raise, Mill.updPellet]

section feed

variable {m : Mill} {x : Sample} (good : x.quality = 0)
include good

theorem pelletFeed_of_none (still : deltaOf m.lines.pellet.feed x.raw.toNat = .none) :
    m.pelletFeed x = m.updPellet (fun c => { c with feed := some x.raw.toNat }) := by
  simp only [Mill.pelletFeed, (good_iff x).mpr good, if_true, still]

theorem pelletFeed_of_reset (reset : deltaOf m.lines.pellet.feed x.raw.toNat = .reset) :
    m.pelletFeed x = (m.updPellet (fun c => { c with feed := some x.raw.toNat })).raise .stockDisagree := by
  simp only [Mill.pelletFeed, (good_iff x).mpr good, if_true, reset]

/-- A delta of the feed is drawn from the lots; the line drains where the draw has ended its claim. -/
theorem pelletFeed_of_mass {d : Nat} {b : Fin 48} (moved : deltaOf m.lines.pellet.feed x.raw.toNat = .mass d)
    (bin : m.surgeBin .pellet = some b) : m.pelletFeed x =
      if ((getAt m.stock.bins b).claim &&
          !(getAt ((m.feedMoved x).drawLots .pellet d).1.stock.bins b).claim) = true then
        ((m.feedMoved x).drawLots .pellet d).1.drainIfFeeding
      else ((m.feedMoved x).drawLots .pellet d).1 := by
  have stock := feedMoved_stock m x
  have before : (m.feedMoved x).surgeBin .pellet = some b := by
    rw [Mill.surgeBin, stock]
    exact bin
  have after : ((m.feedMoved x).drawLots .pellet d).1.surgeBin .pellet = some b :=
    ((stockOnly_drawLots _ _ _).surgeBin .pellet).trans before
  have taken : (m.updPellet (fun c => { c with feed := some x.raw.toNat })).raiseIf
      (decide (m.lines.pellet.line.state = .idle)) .unexpectedFlow = m.feedMoved x := raiseIf_decide _ _ _
  simp only [Mill.pelletFeed, (good_iff x).mpr good, if_true, moved, taken, before, after, stock]

theorem pelletProduct_of_none (still : deltaOf m.lines.pellet.product x.raw.toNat = .none) : m.pelletProduct x =
    (m.updPellet (fun c =>
      { c with product := some x.raw.toNat, heard := some m.plan.staleTime })).drainSample 0 := by
  simp only [Mill.pelletProduct, (good_iff x).mpr good, if_true, still]

theorem pelletProduct_of_reset (reset : deltaOf m.lines.pellet.product x.raw.toNat = .reset) : m.pelletProduct x =
    ((m.updPellet (fun c =>
      { c with product := some x.raw.toNat, heard := some m.plan.staleTime })).raise .stockDisagree).drainSample 0 := by
  simp only [Mill.pelletProduct, (good_iff x).mpr good, if_true, reset]

theorem pelletProduct_of_mass {d : Nat} (moved : deltaOf m.lines.pellet.product x.raw.toNat = .mass d) :
    m.pelletProduct x = ((m.updPellet (fun c =>
      { c with product := some x.raw.toNat, heard := some m.plan.staleTime })).bookProduct d).drainSample d := by
  simp only [Mill.pelletProduct, (good_iff x).mpr good, if_true, moved]

end feed

section product

variable (m : Mill) (d : Nat)

/-- A product delta at an idle line reported. -/
def Mill.productMoved (m : Mill) : Mill :=
  if m.lines.pellet.line.state = .idle then m.raise .unexpectedFlow else m

theorem productMoved_eq :
    m.raiseIf (decide (m.lines.pellet.line.state = .idle)) .unexpectedFlow = m.productMoved := raiseIf_decide _ _ _

theorem productMoved_plan : m.productMoved.plan = m.plan := by
  unfold Mill.productMoved
  split <;> rfl

variable {m}

theorem bookProduct_of_none (none : m.lines.pellet.productOrder = .none) :
    m.bookProduct d = m.productMoved.raise .stockDisagree := by
  simp only [Mill.bookProduct, productMoved_eq, none, destOfProduct]

variable {g : Surge} (dest : destOfProduct m.lines.pellet.productOrder = some g)
include dest

/-- A product delta appended to the destination, which blocks a running line where it is full. -/
theorem bookProduct_of_dest : m.bookProduct d =
    if (decide (m.lines.pellet.line.state = .running) &&
        (decide ((m.productMoved.appendLot g (namedOf m.lines.pellet.productOrder) d).surgeRoom g < m.plan.blockMargin) ||
          decide (8 ≤ ((m.productMoved.appendLot g (namedOf m.lines.pellet.productOrder) d).lotsOf g).length))) = true then
      (m.productMoved.appendLot g (namedOf m.lines.pellet.productOrder) d).updLine .pellet
        (fun c => { c with state := .blocked })
    else m.productMoved.appendLot g (namedOf m.lines.pellet.productOrder) d := by
  simp only [Mill.bookProduct, productMoved_eq, dest, Mill.appendLot_plan, productMoved_plan]
  rfl

end product

section drain

variable {m : Mill} {d : Nat}

theorem drainSample_of_other (other : m.lines.pellet.line.state ≠ .draining) : m.drainSample d = m := if_neg other

variable (st : m.lines.pellet.line.state = .draining)
include st

theorem drainSample_of_flow (flows : m.plan.leakDelta < d) : m.drainSample d = m.updPellet (fun c =>
    { c with drain := some (1000 * m.plan.drainWindow), drainWaits := false }) :=
  (if_pos st).trans (if_pos flows)

theorem drainSample_of_still (still : d ≤ m.plan.leakDelta) :
    (m.lines.pellet.drainWaits = true → m.drainSample d = m.dropCurrent.pelletTake) ∧
    (m.lines.pellet.drainWaits = false → m.drainSample d = m) := by
  have judged : m.drainSample d = if m.lines.pellet.drainWaits then m.endDrain else m :=
    (if_pos st).trans (if_neg (not_lt.mpr still))
  rw [judged]
  exact ⟨fun waits => if_pos waits, fun runs => if_neg (ne_true_of_eq_false runs)⟩

end drain

/-- Settles O55: the rows, the delta of a count, then each sample by its channel, its delta and its line. -/
theorem lineSamples : Obligations.LineSamples := by
  refine ⟨fun s x h => ⟨fun ch => execTripChannelSample_eq h, fun role => ?grinderA, fun role => ?grinderB, execPlFeedSample_eq h,
      execPlProductSample_eq h⟩,
    fun m g x => totals_of_bad m g, fun count p _ _ => ?delta,
    fun m ch x => ⟨fun g => tripSample_of_grinder, tripSample_of_pellet, aboveAfter_of_tripped,
      fun st => ⟨aboveAfter_of_above st, aboveAfter_of_below st⟩, tripLimit_eq m ch⟩,
    fun m l v => ⟨judgeTop_of_resting, fun works => ⟨judgeTop_of_high works, judgeTop_of_no_step works⟩⟩,
    fun m g x good => ⟨grinderTotal_of_none good, grinderTotal_of_reset good, fun d moved =>
      ⟨grinderTotal_of_no_refill good moved, fun r => grinderTotal_of_refill good moved⟩⟩,
    fun m raw ground mass => refill_of_no_bin m mass, fun m raw ground mass => ⟨refill_of_wrong_kind m raw ground mass,
      fun isRaw isGround => ?refill⟩,
    fun m x good => ⟨pelletFeed_of_none good, pelletFeed_of_reset good, fun d b moved bin => ?feed⟩,
    fun m x good => ⟨pelletProduct_of_none good, pelletProduct_of_reset good, fun d => pelletProduct_of_mass good⟩,
    fun m d => ⟨bookProduct_of_none d, fun g dest => ?product, drainSample_of_other, fun st =>
      ⟨drainSample_of_flow st, fun still => (drainSample_of_still st still).1,
        fun still => (drainSample_of_still st still).2⟩⟩⟩
  case grinderA =>
    rw [execGrinderTotalSample_eq h (.inl role), if_pos role]
  case grinderB =>
    rw [execGrinderTotalSample_eq h (.inr role), if_neg (by rw [role]; decide)]
  case delta =>
    have up (above : p < count) : (count + 2 ^ 24 - p) % 2 ^ 24 = count - p := by omega
    have around (below : count < p) : (count + 2 ^ 24 - p) % 2 ^ 24 = 2 ^ 24 + count - p := by omega
    exact ⟨rfl, (deltaOf_of_moved (by omega : (count + 2 ^ 24 - count) % 2 ^ 24 = 0)).trans rfl,
      fun above => (deltaOf_moved (up above) (by omega)).1, fun above => (deltaOf_moved (up above) (by omega)).2,
      fun below => (deltaOf_moved (around below) (by omega)).1, fun below => (deltaOf_moved (around below) (by omega)).2⟩
  case refill =>
    obtain ⟨rawLevel, groundLevel⟩ := refill_levels mass isRaw isGround
    exact ⟨rawLevel, groundLevel, refill_reports mass isRaw isGround, refill_passes mass isRaw isGround⟩
  case feed =>
    intro m2 m3
    rw [pelletFeed_of_mass good moved bin]
    refine ⟨fun held ended => if_pos ?_, fun keeps => if_neg fun drains => ?_⟩
    · rw [Bool.and_eq_true, Bool.not_eq_true']
      exact ⟨held, ended⟩
    · rw [Bool.and_eq_true, Bool.not_eq_true'] at drains
      exact keeps.elim (fun free => Bool.false_ne_true (free.symm.trans drains.1))
        (fun holds => Bool.false_ne_true (drains.2.symm.trans holds))
  case product =>
    intro m2 full
    rw [bookProduct_of_dest d dest]
    refine ⟨fun runs isFull => if_pos ?_, fun other => if_neg fun both => ?_⟩
    · rw [Bool.and_eq_true, Bool.or_eq_true, decide_eq_true_eq, decide_eq_true_eq, decide_eq_true_eq]
      exact ⟨runs, isFull⟩
    · rw [Bool.and_eq_true, Bool.or_eq_true, decide_eq_true_eq, decide_eq_true_eq, decide_eq_true_eq] at both
      exact other.elim (fun h => h both.1) (fun h => h both.2)

end Sys2Proof.Machine

/-! SUPPORT. The timers of the Line Supervisor: stale channels, the ceiling adjust, the drain, and when a trip output is
active (08_grinding_and_pelleting_lines.md). -/

namespace Sys2Proof.Machine

/-! ### The rows -/

section rows

variable {s : State} (free : s.free .lineSupervisor)
include free

theorem lineRow_next {f : Mill → Option Mill} {m : Mill} (h : f s.mill = some m) : s.lineRow f = .next (s.leaves m) :=
  runMill_next free.1 (busy_of_free free) h

theorem execTripChannelStale_eq {ch : TripChannel} (due : (s.mill.chan ch).fresh = some 0) :
    exec (.tripChannelStale ch) s = .next (s.leaves (s.mill.tripStale ch)) := by
  change execTripChannelStale ch s = _
  exact lineRow_next free (by simp only [due]; rfl)

theorem execAdjustTimerExpiry_eq {l : Line} (due : (s.mill.lineCtl l).adjust = some 0) :
    exec (.adjustTimerExpiry l) s = .next (s.leaves (s.mill.adjustExpiry l)) := by
  change execAdjustTimerExpiry l s = _
  exact lineRow_next free (by simp only [due]; rfl)

theorem execDrainTimerExpiry_eq (due : s.mill.lines.pellet.drain = some 0) :
    exec .drainTimerExpiry s = .next (s.leaves s.mill.drainExpiry) := by
  change execDrainTimerExpiry s = _
  exact lineRow_next free (by simp only [due]; rfl)

end rows

/-- The adjust timer of a working line: it steps again while the load is high, and becomes idle otherwise. -/
theorem adjustExpiry_of_working {m : Mill} {l : Line} {v : Int} (works : (m.lineCtl l).state.works = true)
    (good : (m.lineCtl l).load.good = some v) : m.adjustExpiry l =
      if (m.plan.loadTop l : Int) < v then m.adjustStep l else m.updLine l (fun c => { c with adjust := none }) := by
  simp only [Mill.adjustExpiry, works, good, Bool.true_and, decide_eq_true_eq]

/-! ### The pellet line's take -/

theorem destFull_iff (m : Mill) (dest : Surge) (o : Option (Fin 256)) :
    m.destFull dest o = true ↔ m.surgeRoom dest < m.plan.blockMargin ∨ m.needsEntry dest o = true := by
  rw [Mill.destFull, Bool.or_eq_true, decide_eq_true_eq]

/-- A head lot that can be drawn is taken, the line BLOCKED where its destination is full. -/
theorem pelletTake_of_drawable {m : Mill} {o : Fin 256} {mass : Nat}
    (head : m.headLot .pellet = some ⟨some o, .none, mass⟩) : m.pelletTake = (m.setClaim .pellet).updPellet (fun c =>
      { c with
        current := some o
        productOrder := .order o (destOf (m.order o).pack)
        line := { c.line with
          state := if m.destFull (destOf (m.order o).pack) (some o) then .blocked else .running } }) := by
  simp only [Mill.pelletTake, head]

theorem pelletTake_of_other {m : Mill} (other : ∀ o mass, m.headLot .pellet ≠ some ⟨some o, .none, mass⟩) :
    m.pelletTake = m.updLine .pellet (fun c => { c with state := .starved }) := by
  unfold Mill.pelletTake
  split
  · next o mass head => exact absurd head (other o mass)
  · rfl

/-! ### The rate -/

theorem pelletRate_of_none (floor ceiling span : Nat) (start : Int) : pelletRate floor ceiling start span none = floor := by
  simp [pelletRate]

/-- The rate command of a line: 0 but while it runs, by the curve on the pellet line. -/
theorem rateOf_eq (m : Mill) (l : Line) :
    ((m.lineCtl l).state ≠ .running → m.rateOf l = 0) ∧
    (∀ g, l = .grinder g → (m.lineCtl l).state = .running → m.rateOf l = (m.lineCtl l).ceiling) ∧
    (l = .pellet → (m.lineCtl l).state = .running → m.rateOf l = pelletRate (m.plan.rateFloor l) (m.lineCtl l).ceiling
      (m.plan.curveStart l) (40 * 2 ^ m.plan.spanCode l) m.lines.pellet.temp.good) := by
  refine ⟨fun rests => if_neg rests, fun g grinder runs => ?_, fun pellet runs => ?_⟩
  · subst grinder
    exact if_pos runs
  · subst pellet
    exact if_pos runs

/-! ### Trip outputs -/

/-- The trip output of a line is active exactly when the line is TRIPPED and its block enables it. -/
def Mill.tripOk (m : Mill) (l : Line) : Prop :=
  (m.lineCtl l).tripOut = true ↔ (m.lineCtl l).state = .tripped ∧ m.plan.tripOutOn l = true

/-- What leaves the output, the plan and whether the line is tripped leaves the rule. -/
theorem tripOk_of_same {m n : Mill} {l : Line} (plan : n.plan = m.plan)
    (state : (n.lineCtl l).state = .tripped ↔ (m.lineCtl l).state = .tripped)
    (out : (n.lineCtl l).tripOut = (m.lineCtl l).tripOut) (ok : m.tripOk l) : n.tripOk l := by
  rw [Mill.tripOk, plan, state, out]
  exact ok

theorem tripOk_tripLine (m : Mill) (l : Line) (cause : TripCause) : (m.tripLine l cause).tripOk l := by
  obtain ⟨state, _, _, _, _, out, _⟩ := tripLine_does m l cause
  rw [Mill.tripOk, tripLine_plan, state, out]
  exact ⟨fun on => ⟨rfl, on⟩, fun both => both.2⟩

/-- A line at rest with its output inactive follows the rule. -/
theorem tripOk_of_idle {m : Mill} {l : Line} (state : (m.lineCtl l).state ≠ .tripped)
    (out : (m.lineCtl l).tripOut = false) : m.tripOk l := by
  rw [Mill.tripOk, out]
  exact ⟨fun on => absurd on Bool.false_ne_true, fun both => absurd both.1 state⟩

theorem tripOk_tryAutoStart {m : Mill} {g : Grinder} (ok : m.tripOk (.grinder g)) :
    (m.tryAutoStart g).tripOk (.grinder g) :=
  tripOk_of_same (tryAutoStart_plan m g) (tryAutoStart_tripped m g) (tryAutoStart_line m g).2.1 ok

theorem tripOk_untrip (m : Mill) (l : Line) : (m.untrip l).tripOk l := by
  rcases l with g | _
  · obtain ⟨⟨state, _, out, _⟩, _⟩ := grinder_untripped m g ⟨0x00, 0⟩
    exact tripOk_tryAutoStart (tripOk_of_idle (fun tripped => by cases state.symm.trans tripped) out)
  · obtain ⟨state, _, out, _⟩ := untrip_pellet_line m
    exact tripOk_of_idle (by rw [state]; decide) out

theorem tripOk_updChan {m : Mill} (ch : TripChannel) (f : TripChan → TripChan) (ok : m.tripOk (chanLine ch)) :
    (m.updChan ch f).tripOk (chanLine ch) := by
  obtain ⟨state, _, _, _, _, out⟩ := updChan_lineCtl m ch f
  exact tripOk_of_same (Mill.updChan_plan m ch f) (by rw [state]) out ok

theorem tripOk_judgeTop {m : Mill} {l : Line} (v : Int) (ok : m.tripOk l) : (m.judgeTop l v).tripOk l := by
  obtain ⟨state, out⟩ := judgeTop_line m l v
  exact tripOk_of_same (judgeTop_plan m l v) (by rw [state]) out ok

theorem tripOk_tripJudged {m : Mill} (ch : TripChannel) (x : Sample) (ok : m.tripOk (chanLine ch)) :
    (m.tripJudged ch x).tripOk (chanLine ch) := by
  have tripped : (if 2 ≤ m.aboveAfter ch x then
      (m.updChan ch (TripChan.sampled x m.plan.staleTime (m.aboveAfter ch x))).tripLine (chanLine ch) (chanCause ch)
      else m.updChan ch (TripChan.sampled x m.plan.staleTime (m.aboveAfter ch x))).tripOk (chanLine ch) := by
    split
    · exact tripOk_tripLine _ _ _
    · exact tripOk_updChan ch _ ok
  unfold Mill.tripJudged
  dsimp only
  split
  · exact tripOk_judgeTop _ tripped
  · exact tripped

theorem tripOk_tripSample {m : Mill} (ch : TripChannel) (x : Sample) (ok : m.tripOk (chanLine ch)) :
    (m.tripSample ch x).tripOk (chanLine ch) := by
  have judged := tripOk_tripJudged ch x ok
  cases line : chanLine ch with
  | grinder g =>
    rw [tripSample_of_grinder line]
    exact tripOk_tryAutoStart (line ▸ judged)
  | pellet =>
    rw [tripSample_of_pellet line]
    exact line ▸ judged

theorem tripOk_tripStale {m : Mill} (ch : TripChannel) (ok : m.tripOk (chanLine ch)) :
    (m.tripStale ch).tripOk (chanLine ch) := by
  unfold Mill.tripStale
  dsimp only
  split
  · exact tripOk_tripLine _ _ _
  · exact tripOk_updChan ch _ ok

/-- Settles O56: the expiries, a trip, the take, the rate, and the rule of the trip outputs kept by each of its changes. -/
theorem lineTimers : Obligations.LineTimers := by
  refine ⟨fun s free => ⟨fun ch due => ?stale, fun l v due works good => ?adjust, fun due => ?drain⟩, tripLine_does,
    fun m l cause => ⟨rfl, clearAbove_above _ l⟩, fun m => ⟨fun o mass head => ?take, pelletTake_of_other⟩,
    fun floor ceiling span start => ⟨pelletRate_of_none floor ceiling span start, fun temp => rfl⟩, rateOf_eq,
    fun m l => ⟨fun cause => ⟨tripLine_plan m l cause, tripOk_tripLine m l cause⟩, fun _ => tripOk_untrip m l,
      fun ch x => tripOk_tripSample ch x, fun ch => tripOk_tripStale ch⟩⟩
  case stale =>
    rw [execTripChannelStale_eq free due, Mill.tripStale]
    exact ⟨fun works => by rw [if_pos works], fun rests => by rw [if_neg (ne_true_of_eq_false rests)]⟩
  case adjust =>
    rw [execAdjustTimerExpiry_eq free due, adjustExpiry_of_working works good]
    exact ⟨fun high => by rw [if_pos high]; rfl, fun low => by rw [if_neg (not_lt.mpr low)]⟩
  case drain =>
    rw [execDrainTimerExpiry_eq free due, Mill.drainExpiry]
    exact ⟨fun heard => by rw [if_pos heard]; rfl, fun silent => by rw [silent]; rfl⟩
  case take =>
    intro dest full
    have named : destOf (m.order o).pack = dest := by
      rcases pack : (m.order o).pack with _ | ⟨_ | _⟩ <;> simp only [dest, pack] <;> rfl
    rw [pelletTake_of_drawable head, named]
    simp only [destFull_iff]
    rfl

end Sys2Proof.Machine

/-! SUPPORT. The samples of the Pack-out Controller: bags, verdicts, reports, the judgement of the bagger and the spout
(09_bagging_and_bulk_loadout.md). -/

namespace Sys2Proof.Machine

/-! ### The rows -/

section rows

variable {s : State} {x : Sample} (h : s.samples .packOut x)
include h

theorem execBagEvent_eq (role : x.role = 11) : exec .bagEvent s = .next (s.takesTo .packOut (s.mill.bagEvent x)) := by
  change execBagEvent s = _
  exact sampleRow_next h (decide_eq_true role) (fun x m => m.bagEvent x)

theorem execTruckNetSample_eq (role : x.role = 12) :
    exec .truckNetSample s = .next (s.takesTo .packOut (s.mill.truckSample x)) := by
  change execTruckNetSample s = _
  exact sampleRow_next h (decide_eq_true role) (fun x m => m.truckSample x)

end rows

/-! ### Bags -/

section bag

variable {m : Mill} {x : Sample}

/-- A sample is a bag exactly when it is good and above 0. -/
theorem isBag_iff (x : Sample) : (x.good && decide (0 < x.value)) = true ↔ x.quality = 0 ∧ 0 < x.raw.toInt := by
  rw [Bool.and_eq_true, decide_eq_true_eq, good_iff]
  rfl

theorem bagEvent_of_no_bag (none : x.quality ≠ 0 ∨ x.raw.toInt ≤ 0) : m.bagEvent x = m.raise .stockDisagree := by
  refine if_neg (mt (isBag_iff x).mp fun bag => ?_)
  exact none.elim (fun bad => bad bag.1) (not_le.mpr bag.2)

variable (good : x.quality = 0) (some : 0 < x.raw.toInt)
include good some

theorem bagEvent_of_stray (other : m.pack.bagger.state ≠ .bagging) : m.bagEvent x =
    ((((m.raise .unexpectedFlow).drawLots .bag x.raw.toInt.toNat).1.addRework x.raw.toInt.toNat).updBagger
      (fun b => { b with verdict := .stray, seq := b.seq + 1 })) :=
  (if_pos ((isBag_iff x).mpr ⟨good, some⟩)).trans (if_neg other)

theorem bagEvent_of_bagging (bags : m.pack.bagger.state = .bagging) : m.bagEvent x =
    let d := m.drawLots .bag x.raw.toInt.toNat
    let r := d.1.bagVerdict (d.2.head?.join) m.pack.bagger.bagMass x.raw.toInt.toNat
    (r.1.updBagger (fun b => { b with verdict := r.2, seq := b.seq + 1 })).judgeBagger :=
  (if_pos ((isBag_iff x).mpr ⟨good, some⟩)).trans (if_pos bags)

end bag

/-! ### The verdict -/

section verdict

variable {m : Mill} {o : Option (Fin 256)} {bag w : Nat}

theorem bagVerdict_of_off (off : bag + m.plan.bagTolerance < w ∨ w + m.plan.bagTolerance < bag) :
    m.bagVerdict o bag w = ((m.rejectBag o).addRework w, .rejected) := by
  refine if_neg fun within => ?_
  rw [Bool.and_eq_true, decide_eq_true_eq, decide_eq_true_eq] at within
  omega

variable (high : w ≤ bag + m.plan.bagTolerance) (low : bag ≤ w + m.plan.bagTolerance)
include high low

theorem bagVerdict_of_counted (counted : (m.acceptBag o).2 = .counted) :
    m.bagVerdict o bag w = ((m.acceptBag o).1, .accepted) := by
  simp only [Mill.bagVerdict, high, low, decide_true, Bool.and_true, if_true, counted]

theorem bagVerdict_of_not_counted (other : (m.acceptBag o).2 ≠ .counted) :
    m.bagVerdict o bag w = ((m.acceptBag o).1.addRework w, .surplus) := by
  simp only [Mill.bagVerdict, high, low, decide_true, Bool.and_true, if_true]
  cases answer : (m.acceptBag o).2
  case counted => exact absurd answer other
  case surplus => rfl
  case ignored => rfl

end verdict

/-! ### The reports to the Order Book -/

theorem counts_iff (st : OrderState) : st.counts = true ↔
    st = .producing ∨ st = .finishing ∨ st = .cancelling ∨ st = .packed := by
  cases st <;> simp [OrderState.counts]

section reports

variable {m : Mill} {o : Fin 256}

theorem acceptBag_of_not_counting (other : (m.order o).state.counts = false) : m.acceptBag (some o) = (m, .ignored) :=
  if_pos (by rw [other]; rfl)

theorem rejectBag_of_not_counting (other : (m.order o).state.counts = false) : m.rejectBag (some o) = m :=
  if_neg (ne_true_of_eq_false other)

theorem reportBulk_of_not_counting (other : (m.order o).state.counts = false) (mass : Nat) :
    m.reportBulk (some o) mass = m := if_neg (ne_true_of_eq_false other)

variable (counts : (m.order o).state.counts = true)
include counts

/-- A bag of a counting order: surplus once its bags are packed, counted before. -/
theorem acceptBag_of_counting {e : OrderEntry} (entry : (m.order o).entry = some e) : m.acceptBag (some o) =
    if e.bagCount ≤ (m.order o).bagsPacked then (m, .surplus)
    else ((m.updOrder o (fun x => { x with bagsPacked := x.bagsPacked + 1 })).judgePacked o, .counted) := by
  simp only [Mill.acceptBag, counts, entry, Bool.not_true, Bool.false_eq_true, if_false, Option.map_some,
    Option.getD_some]

theorem rejectBag_of_counting : m.rejectBag (some o) =
    (m.updOrder o (fun x => { x with bagsRejected := min (2 ^ 16 - 1) (x.bagsRejected + 1) })).judgePacked o :=
  if_pos counts

theorem reportBulk_of_counting (mass : Nat) : m.reportBulk (some o) mass =
    (m.updOrder o (fun x => { x with loaded := min (2 ^ 24 - 1) (x.loaded + mass) })).judgePacked o := if_pos counts

end reports

/-! ### The order packed -/

/-- The order's pack-out target is reached, by its bags or by its mass. -/
def Mill.TargetReached (m : Mill) (x : Order) : Prop :=
  ∃ e, x.entry = some e ∧ ((e.pack = some .bag ∧ e.bagCount ≤ x.bagsPacked) ∨
    (e.pack = some .bulk ∧ x.planned ≤ x.loaded + m.plan.bulkTolerance))

theorem targetReached_iff (m : Mill) (x : Order) : m.targetReached x = true ↔ m.TargetReached x := by
  unfold Mill.targetReached Mill.TargetReached
  rcases x.entry with _ | e
  · simp
  · rcases pack : e.pack with _ | ⟨_ | _⟩ <;> simp [pack]

section packed

variable {m : Mill} {o : Fin 256}

theorem judgePacked_of_reached (st : (m.order o).state = .producing ∨ (m.order o).state = .finishing)
    (reached : m.TargetReached (m.order o)) : m.judgePacked o = m.packOrder o := by
  refine if_pos ?_
  rw [Bool.and_eq_true, Bool.or_eq_true, decide_eq_true_eq, decide_eq_true_eq, targetReached_iff]
  exact ⟨st, reached⟩

theorem judgePacked_of_not
    (not : ¬((m.order o).state = .producing ∨ (m.order o).state = .finishing) ∨ ¬m.TargetReached (m.order o)) :
    m.judgePacked o = m := by
  refine if_neg fun both => ?_
  rw [Bool.and_eq_true, Bool.or_eq_true, decide_eq_true_eq, decide_eq_true_eq, targetReached_iff] at both
  exact not.elim (fun h => h both.1) (fun h => h both.2)

end packed

/-- The order off the list and PACKED, before its lots are marked. -/
def Mill.packedOff (m : Mill) (o : Fin 256) : Mill :=
  { m.leaveList o with book := { (m.leaveList o).book with
      orders := putAt (m.leaveList o).book.orders o { (m.leaveList o).order o with state := .packed, wait := .none } } }

theorem packedOff_order (m : Mill) (o : Fin 256) :
    (m.packedOff o).order o = { m.order o with state := .packed, wait := .none } := by
  refine (getAt_putAt_same _ _ _).trans ?_
  rw [leaveList_order]

theorem packedOff_other (m : Mill) {o p : Fin 256} (h : p ≠ o) : (m.packedOff o).order p = m.order p :=
  (getAt_putAt_ne _ _ _ _ h).trans (leaveList_order m o p)

/-! ### The bagger's judgement -/

/-- The bagger's view of the head lot noted, and whether an outlet waits reported. -/
def Mill.bagSeen (n : Mill) : Mill :=
  (n.updBagger (fun b => { b with seesHead := (n.headLot .bag).isSome })).reportWait

/-- The remainder at the head is closed: another lot lies behind it, or its order makes no more. -/
theorem closedRemainder_iff (m : Mill) (o : Fin 256) : m.closedRemainder o = true ↔
    1 < (m.lotsOf .bag).length ∨ ((m.order o).state = .finishing ∧ m.lines.pellet.current ≠ some o) := by
  simp only [Mill.closedRemainder, Mill.pelletHolds, Bool.or_eq_true, Bool.and_eq_true, decide_eq_true_eq,
    Bool.not_eq_true', beq_eq_false_iff_ne]

/-- The rework room that a bag needs: twice its mass while the bagger is BLOCKED. -/
def Mill.bagRoom (m : Mill) (bag : Nat) : Nat := if m.pack.bagger.state = .blocked then 2 * bag else bag

theorem bagOutcome_of_whole {m : Mill} {o : Fin 256} {mass : Nat} (head : m.headLot .bag = some ⟨some o, .none, mass⟩)
    (whole : (m.order o).bagMass ≤ mass) : m.bagOutcome =
    if m.reworkRoom < m.bagRoom (m.order o).bagMass then .blocked else .bagging o (m.order o).bagMass := by
  simp only [Mill.bagOutcome, head, if_neg (not_lt.mpr whole), Mill.bagRoom]
  by_cases blocked : m.pack.bagger.state = .blocked
  · simp only [blocked, decide_true, Bool.true_and, decide_eq_true_eq, if_true]
    split_ifs with one two
    · rfl
    · omega
    · rfl
    · rfl
  · simp only [blocked, decide_false, Bool.false_and, Bool.false_eq_true, if_false]

section bagger

variable {m : Mill} (starts : m.pack.bagger.state ≠ .idle)
include starts

theorem judgeBagger_of_other (other : ∀ o mass, m.headLot .bag ≠ some ⟨some o, .none, mass⟩) :
    m.judgeBagger = (m.stopBagger .waitLot).bagSeen := by
  have outcome : m.bagOutcome = .waitLot := by
    unfold Mill.bagOutcome
    split
    · next o mass head => exact absurd head (other o mass)
    · rfl
  refine (if_neg starts).trans (congrArg Mill.bagSeen ?_)
  simp only [Mill.takeBagOutcome, outcome]

variable {o : Fin 256} {mass : Nat} (head : m.headLot .bag = some ⟨some o, .none, mass⟩)
include head

theorem judgeBagger_of_remainder (small : mass < (m.order o).bagMass) :
    (m.closedRemainder o = true → m.judgeBagger = ((m.stopBagger .waitLot).claimDivert .bag).bagSeen) ∧
    (m.closedRemainder o = false → m.judgeBagger = (m.stopBagger .waitLot).bagSeen) := by
  refine ⟨fun closed => (if_neg starts).trans (congrArg Mill.bagSeen ?_),
    fun grows => (if_neg starts).trans (congrArg Mill.bagSeen ?_)⟩
  · simp only [Mill.takeBagOutcome, Mill.bagOutcome, head, if_pos small, closed, if_true]
  · simp only [Mill.takeBagOutcome, Mill.bagOutcome, head, if_pos small, grows, Bool.false_eq_true, if_false]

theorem judgeBagger_of_blocked (whole : (m.order o).bagMass ≤ mass)
    (short : m.reworkRoom < m.bagRoom (m.order o).bagMass) : m.judgeBagger = (m.stopBagger .blocked).bagSeen := by
  refine (if_neg starts).trans (congrArg Mill.bagSeen ?_)
  simp only [Mill.takeBagOutcome, bagOutcome_of_whole head whole, if_pos short]

theorem judgeBagger_of_room (whole : (m.order o).bagMass ≤ mass)
    (room : m.bagRoom (m.order o).bagMass ≤ m.reworkRoom) : m.judgeBagger = ((m.setClaim .bag).updBagger (fun b =>
      { b with state := .bagging, order := some o, bagMass := (m.order o).bagMass })).bagSeen := by
  refine (if_neg starts).trans (congrArg Mill.bagSeen ?_)
  simp only [Mill.takeBagOutcome, bagOutcome_of_whole head whole, if_neg (not_lt.mpr room)]

end bagger

/-! ### The spout -/

theorem truckSample_of_bad {m : Mill} {x : Sample} (bad : x.quality ≠ 0) : m.truckSample x = m :=
  if_neg (mt (good_iff x).mp bad)

/-- A sample watched at the spout, the fill, the state and the plan as they were. -/
theorem watchSpout_keeps (m : Mill) (v : Int) : (m.watchSpout v).pack.loadout.fill = m.pack.loadout.fill ∧
    (m.watchSpout v).pack.loadout.state = m.pack.loadout.state ∧ (m.watchSpout v).plan = m.plan := by
  unfold Mill.watchSpout
  split
  · exact ⟨rfl, rfl, rfl⟩
  · split
    · simp
    · simp

/-- A good sample of the loadout, its channel fresh and the spout watched. -/
def Mill.spoutSampled (m : Mill) (x : Sample) : Mill :=
  (m.updLoadout (fun l => { l with channel := ⟨some x.raw.toInt, some m.plan.staleTime⟩ })).watchSpout x.raw.toInt

theorem spoutSampled_keeps (m : Mill) (x : Sample) : (m.spoutSampled x).pack.loadout.fill = m.pack.loadout.fill ∧
    (m.spoutSampled x).pack.loadout.state = m.pack.loadout.state ∧ (m.spoutSampled x).plan = m.plan := by
  obtain ⟨fill, state, plan⟩ := watchSpout_keeps
    (m.updLoadout (fun l => { l with channel := ⟨some x.raw.toInt, some m.plan.staleTime⟩ })) x.raw.toInt
  rw [Mill.updLoadout_loadout] at fill state
  exact ⟨fill, state, plan.trans (Mill.updLoadout_plan m _)⟩

section truck

variable {m : Mill} {x : Sample} (good : x.quality = 0)
include good

theorem truckSample_of_fill {f : Fill} (fill : m.pack.loadout.fill = some f) : m.truckSample x =
    if (!f.settling && decide (f.base + (f.target : Int) - (m.plan.spoutPreact : Int) ≤ x.raw.toInt)) = true then
      (m.spoutSampled x).cutFill
    else m.spoutSampled x := by
  obtain ⟨kept, _, plan⟩ := spoutSampled_keeps m x
  have taken : (m.updLoadout (fun l => { l with channel := Channel.take x m.plan.staleTime })).watchSpout x.value =
      m.spoutSampled x := rfl
  simp only [Mill.truckSample, (good_iff x).mpr good, if_true, taken, kept, fill, plan]
  rfl

theorem truckSample_of_no_fill (fill : m.pack.loadout.fill = none) : m.truckSample x =
    if m.pack.loadout.state = .blocked then (m.spoutSampled x).judgeLoadout else m.spoutSampled x := by
  obtain ⟨kept, state, _⟩ := spoutSampled_keeps m x
  have taken : (m.updLoadout (fun l => { l with channel := Channel.take x m.plan.staleTime })).watchSpout x.value =
      m.spoutSampled x := rfl
  simp only [Mill.truckSample, (good_iff x).mpr good, if_true, taken, kept, fill, state]

end truck

section spout

variable {m : Mill} {v : Int} {t : Fin 8}

theorem watchSpout_of_no_trip (none : m.loadingTrip = none) : m.watchSpout v = m := by
  simp only [Mill.watchSpout, none]

variable (trip : m.loadingTrip = some t)
include trip

theorem watchSpout_of_no_ref (none : m.pack.loadout.spoutRef = none) :
    m.watchSpout v = m.updLoadout (fun l => { l with spoutRef := some v }) := by
  simp only [Mill.watchSpout, trip, none]

theorem watchSpout_of_ref {r : Int} (ref : m.pack.loadout.spoutRef = some r) : m.watchSpout v =
    if m.pack.loadout.state ≠ .filling ∧ r + (m.plan.leakDelta : Int) < v then m.raise .unexpectedFlow else m := by
  have both : (decide (m.pack.loadout.state ≠ .filling) && decide (r + (m.plan.leakDelta : Int) < v)) =
      decide (m.pack.loadout.state ≠ .filling ∧ r + (m.plan.leakDelta : Int) < v) := (Bool.decide_and _ _).symm
  simp only [Mill.watchSpout, trip, ref, both, raiseIf_decide]

end spout

/-- Settles O57: the rows, the bag and its verdict, the reports and the packed order, the two judgements. -/
theorem outletSamples : Obligations.OutletSamples := by
  refine ⟨fun s x h => ⟨execBagEvent_eq h, execTruckNetSample_eq h⟩, fun m x => bagEvent_of_no_bag,
    fun m x => bagEvent_of_stray, fun m x => truckSample_of_bad, fun m x => bagEvent_of_bagging,
    fun m o bag w => ⟨bagVerdict_of_off, fun high low => ⟨bagVerdict_of_counted high low,
      bagVerdict_of_not_counted high low⟩⟩,
    fun m o => ?reports, fun m o => ?packed, fun m o => ?packs, fun m starts => ?bagger,
    fun m => ⟨fun idle => if_pos idle, fun g => rfl⟩, fun m => rfl, fun m x good => ?truck,
    fun m v => ⟨watchSpout_of_no_trip, fun t trip => ⟨watchSpout_of_no_ref trip, fun r ref => ?spout⟩⟩⟩
  case reports =>
    intro x counts
    have counting : counts → x.state.counts = true := (counts_iff x.state).mpr
    have other : ¬counts → x.state.counts = false := fun not => Bool.eq_false_iff.mpr (mt (counts_iff x.state).mp not)
    refine ⟨rfl, rfl, fun not => ⟨acceptBag_of_not_counting (other not), rejectBag_of_not_counting (other not)⟩,
      fun e c entry => ?_, fun c => rejectBag_of_counting (counting c), fun mass c =>
        reportBulk_of_counting (counting c) mass, fun not => reportBulk_of_not_counting (other not)⟩
    rw [acceptBag_of_counting (counting c) entry]
    exact ⟨fun all => if_pos all, fun more => if_neg (not_le.mpr more)⟩
  case packed =>
    intro x reached
    exact ⟨judgePacked_of_reached, fun a b => judgePacked_of_not (.inl (not_or.mpr ⟨a, b⟩)),
      fun not => judgePacked_of_not (.inr not)⟩
  case packs =>
    intro m1 m2 m3 m4
    have own : m2.order o = { m.order o with state := .packed, wait := .none } := packedOff_order m o
    rw [own]
    exact ⟨rfl, (leaveList_same m o).2, rfl, rfl, fun p => packedOff_other m⟩
  case bagger =>
    intro seen
    refine ⟨fun o mass head => ?_, judgeBagger_of_other starts⟩
    intro bag closed room
    have remainder := judgeBagger_of_remainder starts head
    exact ⟨fun small isClosed => (remainder small).1 ((closedRemainder_iff m o).mpr isClosed),
      fun small grows => (remainder small).2 (Bool.eq_false_iff.mpr (mt (closedRemainder_iff m o).mp grows)),
      judgeBagger_of_blocked starts head, judgeBagger_of_room starts head⟩
  case truck =>
    intro v m1
    refine ⟨fun f fill => ?_, fun fill => ?_⟩
    · rw [truckSample_of_fill good fill]
      refine ⟨fun feeds reached => if_pos ?_, fun not => if_neg fun both => ?_⟩
      · rw [feeds, decide_eq_true reached]
        rfl
      · rw [Bool.and_eq_true, Bool.not_eq_true', decide_eq_true_eq] at both
        exact not.elim (fun settles => Bool.false_ne_true (both.1.symm.trans settles)) (not_lt.mpr both.2)
    · rw [truckSample_of_no_fill good fill]
      exact ⟨fun blocked => if_pos blocked, fun other => if_neg other⟩
  case spout =>
    rw [watchSpout_of_ref trip ref]
    exact ⟨fun other flows => if_pos ⟨other, flows⟩, fun not => if_neg fun both =>
      not.elim (fun fills => both.1 fills) (not_le.mpr both.2)⟩

end Sys2Proof.Machine

/-! SUPPORT. The timers of the Pack-out Controller: the end of a fill, its booking, and the judgement of the loadout
(09_bagging_and_bulk_loadout.md). -/

namespace Sys2Proof.Machine

/-! ### The rows -/

section rows

variable {s : State} (free : s.free .packOut)
include free

theorem execLoadoutSettleExpiry_eq {f : Fill} (fill : s.mill.pack.loadout.fill = some f)
    (due : s.mill.pack.loadout.settle = some 0) :
    exec .loadoutSettleExpiry s = .next (s.leaves (s.mill.settleFill f)) := by
  change execLoadoutSettleExpiry s = _
  exact runMill_next free.1 (busy_of_free free) (by simp only [fill, due]; rfl)

theorem execTruckNetStale_eq (due : s.mill.pack.loadout.channel.fresh = some 0) :
    exec .truckNetStale s = .next (s.leaves s.mill.truckStale) := by
  change execTruckNetStale s = _
  exact runMill_next free.1 (busy_of_free free) (by simp only [due]; rfl)

end rows

/-- The loadout with its channel stale. -/
def Mill.spoutStale (m : Mill) : Mill := m.updLoadout (fun l => { l with channel := { l.channel with fresh := none } })

theorem spoutStale_fill (m : Mill) : m.spoutStale.pack.loadout.fill = m.pack.loadout.fill := by
  rw [Mill.spoutStale, Mill.updLoadout_loadout]

theorem truckStale_of_fill {m : Mill} {f : Fill} (fill : m.pack.loadout.fill = some f) :
    m.truckStale = if f.settling then m.spoutStale else m.spoutStale.endFill f .blocked true := by
  have stale : m.updLoadout (fun l => { l with channel := { l.channel with fresh := none } }) = m.spoutStale := rfl
  simp only [Mill.truckStale, stale, spoutStale_fill, fill]

theorem truckStale_of_no_fill {m : Mill} (fill : m.pack.loadout.fill = none) : m.truckStale = m.spoutStale := by
  have stale : m.updLoadout (fun l => { l with channel := { l.channel with fresh := none } }) = m.spoutStale := rfl
  simp only [Mill.truckStale, stale, spoutStale_fill, fill]

/-! ### The judgement of the loadout -/

/-- The loadout's view of the head lot noted, and whether an outlet waits reported. -/
def Mill.loadSeen (n : Mill) : Mill :=
  (n.updLoadout (fun l => { l with seesHead := (n.headLot .bulk).isSome })).reportWait

theorem judgeLoadout_of_busy {m : Mill} (busy : m.pack.loadout.state = .idle ∨ m.pack.loadout.state = .filling) :
    m.judgeLoadout = m :=
  if_pos (by rcases busy with h | h <;> rw [h] <;> rfl)

section judge

variable {m : Mill} (starts : m.pack.loadout.state ≠ .idle) (rests : m.pack.loadout.state ≠ .filling)
include starts rests

theorem judgeLoadout_of_started : m.judgeLoadout = m.takeLoadOutcome.loadSeen := by
  refine if_neg fun busy => ?_
  rw [Bool.or_eq_true, decide_eq_true_eq, decide_eq_true_eq] at busy
  exact busy.elim starts rests

theorem judgeLoadout_of_no_trip (none : m.loadingTrip = none) :
    m.judgeLoadout = (m.updLoadout (fun l => { l with state := .waitTruck })).loadSeen := by
  rw [judgeLoadout_of_started starts rests]
  simp only [Mill.takeLoadOutcome, Mill.loadOutcome, none]

variable {t : Fin 8} (trip : m.loadingTrip = some t)
include trip

theorem judgeLoadout_of_no_lot (other : ∀ o mass, m.headLot .bulk ≠ some ⟨some o, .none, mass⟩) :
    m.judgeLoadout = (m.updLoadout (fun l => { l with state := .waitLot })).loadSeen := by
  have outcome : m.loadOutcome = .waitLot := by
    unfold Mill.loadOutcome
    rw [trip]
    dsimp only
    split
    · next o mass head => exact absurd head (other o mass)
    · rfl
  rw [judgeLoadout_of_started starts rests]
  simp only [Mill.takeLoadOutcome, outcome]

variable {o : Fin 256} {mass : Nat} (head : m.headLot .bulk = some ⟨some o, .none, mass⟩)
include head

theorem judgeLoadout_of_no_compartment
    (none : ((m.trip t).unfilled m.plan.bulkTolerance).find? (fun c => (m.trip t).compOrder c = some o) = none) :
    m.judgeLoadout = (m.updLoadout (fun l => { l with state := .waitLot })).loadSeen := by
  rw [judgeLoadout_of_started starts rests]
  simp only [Mill.takeLoadOutcome, Mill.loadOutcome, trip, head, none]

variable {c : Nat}
  (first : ((m.trip t).unfilled m.plan.bulkTolerance).find? (fun c => (m.trip t).compOrder c = some o) = some c)
include first

theorem judgeLoadout_of_stale (stale : m.pack.loadout.channel.fresh = none) :
    m.judgeLoadout = (m.updLoadout (fun l => { l with state := .blocked })).loadSeen := by
  have unread : m.pack.loadout.channel.isFresh = false := by rw [Channel.isFresh, stale]; rfl
  rw [judgeLoadout_of_started starts rests]
  simp only [Mill.takeLoadOutcome, Mill.loadOutcome, trip, head, first, unread, Bool.false_eq_true, if_false]

theorem judgeLoadout_of_fill (fresh : m.pack.loadout.channel.fresh ≠ none) : m.judgeLoadout =
    ((m.setClaim .bulk).updLoadout (fun l => { l with
      state := .filling, spout := true, truck := t.val, comp := c, target := min ((m.trip t).remaining c) mass
      fill := some ⟨t, c, l.channel.latest.getD 0, min ((m.trip t).remaining c) mass, some o, false⟩
      settle := none })).loadSeen := by
  rw [judgeLoadout_of_started starts rests]
  simp only [Mill.takeLoadOutcome, Mill.loadOutcome, trip, head, first, (isFresh_iff _).mpr fresh, if_true]
  rfl

end judge

/-! ### The end of a fill and its booking -/

/-- The loadout at rest after a fill, in the given state. -/
def Mill.fillRests (n : Mill) (st : LoadoutState) : Mill := n.updLoadout (fun l =>
  { l with state := st, spout := false, fill := none, settle := none, stopRequest := false })

/-- A fill that ends: the loadout at rest, its claim ended, or dropped where RESTART ends it. -/
def Mill.fillEnds (n : Mill) (st : LoadoutState) (report : Bool) : Mill :=
  if report = true then (n.fillRests st).endClaim .bulk else (n.fillRests st).dropClaim .bulk

theorem endFill_eq (m : Mill) (f : Fill) (st : LoadoutState) (report : Bool) : m.endFill f st report =
    (if 0 < m.pack.loadout.channel.latest.getD 0 - f.base then
      m.bookFill f (m.pack.loadout.channel.latest.getD 0 - f.base).toNat report
    else if m.pack.loadout.channel.latest.getD 0 - f.base < 0 then m.raise .stockDisagree else m).fillEnds st report := by
  rw [← raiseIf_decide]
  rfl

/-- A booked fill at its end: the spout reference moved, no fill in progress. -/
def Mill.fillBooked (n : Mill) : Mill :=
  (n.updLoadout (fun l => { l with spoutRef := l.channel.latest })).updLoadout (fun l => { l with fill := none })

theorem bookFill_of_silent (m : Mill) (f : Fill) (mass : Nat) :
    m.bookFill f mass false = ((m.takeLots .bulk mass).1.bookTrip f.truck f.comp mass).fillBooked := by
  simp only [Mill.bookFill, Bool.false_eq_true, if_false]
  rfl

theorem bookFill_of_reported (m : Mill) (f : Fill) (mass : Nat) : m.bookFill f mass true =
    (((m.trip f.truck).compOrder f.comp).toList ++ (m.drawLots .bulk mass).2.filterMap id).foldl
      (fun m o => m.tell (.judgeExhausted o))
      (((m.drawLots .bulk mass).1.bookTrip f.truck f.comp mass).reportBulk ((m.trip f.truck).compOrder f.comp)
        mass).fillBooked := by
  simp only [Mill.bookFill, if_true]
  rfl

theorem spoutTaken_of_fill {m : Mill} {f : Fill} (fill : m.pack.loadout.fill = some f) :
    m.spoutTaken = if (m.trip f.truck).state = .loading then m else m.cutFill := by
  simp only [Mill.spoutTaken, fill]

theorem spoutTaken_of_no_fill {m : Mill} (fill : m.pack.loadout.fill = none) : m.spoutTaken = m.judgeLoadout := by
  simp only [Mill.spoutTaken, fill]

theorem bulkMarked_of_diverts {m : Mill} {l : Lot} (head : m.headLot .bulk = some l) (diverts : l.diverts = true) :
    m.bulkMarked = m.cutFill.judgeLoadout := by
  simp only [Mill.bulkMarked, head, diverts, if_true]

/-- Settles O58: the two expiries, the judgement by its outcomes, the end and the booking of a fill, the spout. -/
theorem outletTimers : Obligations.OutletTimers := by
  refine ⟨fun s free => ⟨fun f fill due => ?settle, fun due => ?stale⟩, fun m starts rests => ?judge,
    fun m => judgeLoadout_of_busy, fun m f st report => ?ends,
    fun m f mass => ⟨bookFill_of_silent m f mass, bookFill_of_reported m f mass⟩,
    fun m => ⟨rfl, spoutTaken_of_no_fill, fun f fill => ?taken, fun l => bulkMarked_of_diverts⟩⟩
  case settle =>
    rw [execLoadoutSettleExpiry_eq free fill due, Mill.settleFill]
    exact ⟨fun stops => by rw [if_pos stops], fun goesOn => by rw [if_neg (ne_true_of_eq_false goesOn)]⟩
  case stale =>
    rw [execTruckNetStale_eq free due]
    refine ⟨fun f fill feeds => ?_, fun f fill settles => ?_, fun fill => by rw [truckStale_of_no_fill fill]; rfl⟩
    · rw [truckStale_of_fill fill, if_neg (ne_true_of_eq_false feeds)]
      rfl
    · rw [truckStale_of_fill fill, if_pos settles]
      rfl
  case judge =>
    intro seen
    exact ⟨judgeLoadout_of_no_trip starts rests, fun t trip => ⟨judgeLoadout_of_no_lot starts rests trip,
      fun o mass head => ⟨judgeLoadout_of_no_compartment starts rests trip head, fun c first =>
        ⟨judgeLoadout_of_stale starts rests trip head first, judgeLoadout_of_fill starts rests trip head first⟩⟩⟩⟩
  case ends =>
    intro loaded rests ends
    rw [endFill_eq]
    refine ⟨fun more => by rw [if_pos more]; rfl, fun none => ?_, fun less => ?_⟩
    · rw [if_neg (show ¬(0 < loaded) by omega), if_neg (show ¬(loaded < 0) by omega)]
      rfl
    · rw [if_neg (show ¬(0 < loaded) by omega), if_pos less]
      rfl
  case taken =>
    rw [spoutTaken_of_fill fill]
    exact ⟨fun left => if_neg left, fun loads => if_pos loads⟩

end Sys2Proof.Machine

/-! SUPPORT. RESTART of a RUNNING plan: a fill booked, the batches voided, the orders cancelled, the book and the units at
rest (02_the_plan.md, R43 and R44). -/

namespace Sys2Proof.Machine

/-! ### A change made to each index in turn -/

/-- A fold over indexes whose step changes its own index alone leaves each index as its own step makes it. -/
theorem foldl_own {α β : Type} {n : Nat} (read : α → Fin n → β) (step : α → Fin n → α) (change : Fin n → β → β)
    (own : ∀ a i, read (step a i) i = change i (read a i)) (other : ∀ a i j, j ≠ i → read (step a i) j = read a j)
    (l : List (Fin n)) (distinct : l.Nodup) (a : α) (i : Fin n) :
    read (l.foldl step a) i = if i ∈ l then change i (read a i) else read a i := by
  induction l generalizing a with
  | nil => rfl
  | cons j l ih =>
    obtain ⟨fresh, rest⟩ := List.nodup_cons.mp distinct
    rw [List.foldl_cons, ih rest]
    by_cases same : i = j
    · subst same
      rw [if_neg fresh, if_pos List.mem_cons_self, own]
    · rw [other _ _ _ same]
      simp only [List.mem_cons, same, false_or]

/-- The fold over every index. -/
theorem foldl_finRange_own {α β : Type} {n : Nat} (read : α → Fin n → β) (step : α → Fin n → α) (change : Fin n → β → β)
    (own : ∀ a i, read (step a i) i = change i (read a i)) (other : ∀ a i j, j ≠ i → read (step a i) j = read a j)
    (a : α) (i : Fin n) : read ((List.finRange n).foldl step a) i = change i (read a i) :=
  (foldl_own read step change own other _ (List.nodup_finRange n) a i).trans (if_pos (List.mem_finRange i))

/-- A fold keeps what each of its steps keeps. -/
theorem foldl_keeps {α β γ : Type} (read : α → γ) (step : α → β → α) (keeps : ∀ a b, read (step a b) = read a)
    (l : List β) (a : α) : read (l.foldl step a) = read a := by
  induction l generalizing a with
  | nil => rfl
  | cons b l ih => rw [List.foldl_cons, ih, keeps]

/-! ### A fill booked -/

/-- The orders and the batches of two mills agree. -/
def SameOrders (a b : Mill) : Prop := a.book = b.book ∧ a.seq = b.seq

theorem SameOrders.trans {a b c : Mill} (h : SameOrders a b) (g : SameOrders b c) : SameOrders a c :=
  ⟨h.1.trans g.1, h.2.trans g.2⟩

theorem sameOrders_updTrip (m : Mill) (t : Fin 8) (f : Trip → Trip) : SameOrders (m.updTrip t f) m :=
  ⟨Mill.updTrip_book m t f, Mill.updTrip_seq m t f⟩

theorem sameOrders_endLoading (m : Mill) (t : Fin 8) (mark : Bool) : SameOrders (m.endLoading t mark) m := by
  constructor <;> simp [Mill.endLoading, Mill.tell]

theorem sameOrders_givesSpout (m : Mill) (t : Fin 8) (ts : List (Fin 8)) : SameOrders (m.givesSpout t ts) m := by
  constructor <;> simp [Mill.givesSpout, Mill.tell]

theorem sameOrders_arbitrate (ts : List (Fin 8)) (m : Mill) : SameOrders (m.arbitrate ts) m := by
  induction ts generalizing m with
  | nil => exact ⟨rfl, rfl⟩
  | cons t ts ih =>
    have gives := sameOrders_givesSpout m t ts
    rw [arbitrate_cons]
    split
    · exact (ih _).trans ((sameOrders_endLoading _ t false).trans gives)
    · exact gives

theorem sameOrders_judgeArbiter (m : Mill) : SameOrders m.judgeArbiter m := by
  unfold Mill.judgeArbiter
  split
  · exact ⟨rfl, rfl⟩
  · split
    · exact ⟨rfl, rfl⟩
    · exact sameOrders_arbitrate _ m

theorem sameOrders_bookTrip (m : Mill) (t : Fin 8) (c mass : Nat) : SameOrders (m.bookTrip t c mass) m := by
  unfold Mill.bookTrip
  dsimp only
  generalize (fun x : Trip => (_ : Trip)) = raise
  have booked := sameOrders_updTrip m t raise
  generalize m.updTrip t raise = n at booked ⊢
  split
  · exact (sameOrders_judgeArbiter _).trans ((sameOrders_endLoading n t false).trans booked)
  · exact booked

theorem sameOrders_of_stockOnly {a b : Mill} (h : StockOnly a b) : SameOrders b a := ⟨h.book, h.seq⟩

theorem sameOrders_updLoadout (m : Mill) (f : Loadout → Loadout) : SameOrders (m.updLoadout f) m :=
  ⟨Mill.updLoadout_book m f, Mill.updLoadout_seq m f⟩

theorem sameOrders_bookFill (m : Mill) (f : Fill) (mass : Nat) : SameOrders (m.bookFill f mass false) m := by
  rw [bookFill_of_silent]
  exact ((sameOrders_updLoadout _ _).trans (sameOrders_updLoadout _ _)).trans
    ((sameOrders_bookTrip _ _ _ _).trans (sameOrders_of_stockOnly (stockOnly_takeLots m .bulk mass)))

/-- A fill that RESTART ends leaves the orders and the batches. -/
theorem sameOrders_endFill (m : Mill) (f : Fill) (st : LoadoutState) : SameOrders (m.endFill f st false) m := by
  rw [endFill_eq]
  refine (sameOrders_of_stockOnly (stockOnly_dropClaim _ .bulk)).trans ((sameOrders_updLoadout _ _).trans ?_)
  split
  · exact sameOrders_bookFill m f _
  · split <;> exact ⟨rfl, rfl⟩

theorem restartFill_of_none {m : Mill} (none : m.pack.loadout.fill = none) : m.restartFill = m := by
  simp only [Mill.restartFill, none]

theorem restartFill_of_some {m : Mill} {f : Fill} (some : m.pack.loadout.fill = some f) :
    m.restartFill = m.endFill f .idle false := by
  simp only [Mill.restartFill, some]

theorem sameOrders_restartFill (m : Mill) : SameOrders m.restartFill m := by
  cases fill : m.pack.loadout.fill with
  | none => rw [restartFill_of_none fill]; exact ⟨rfl, rfl⟩
  | some f => rw [restartFill_of_some fill]; exact sameOrders_endFill m f .idle

/-! ### The batches voided -/

section void

variable (m : Mill) (o : Fin 256)

theorem moveBack_seq (target : Nat) : (m.moveBack o target).seq = m.seq := Mill.updOrder_seq m o _

theorem giveUp_seq (f : Order → Order) : (m.giveUp o f).seq = m.seq := by
  simp [Mill.giveUp, Mill.lowerUse]

theorem autoClose_seq : (m.autoClose o).seq = m.seq := by
  unfold Mill.autoClose
  dsimp only
  split
  · exact giveUp_seq m o _
  · rfl

theorem judgeCancelled_seq : (m.judgeCancelled o).seq = m.seq := by
  unfold Mill.judgeCancelled
  dsimp only
  split
  · exact giveUp_seq m o _
  · rfl

theorem reportFinal_seq (order : Option (Fin 256)) (chain : Chain) : (m.reportFinal order chain).seq = m.seq := by
  unfold Mill.reportFinal
  cases order with
  | none => exact Mill.useSlots_seq _ _ m
  | some o =>
    dsimp only
    rw [autoClose_seq, judgeCancelled_seq, Mill.updEntry_seq]
    exact Mill.useSlots_seq _ _ m

/-- The batch as RESTART voids it. -/
def Batch.voided (x : Batch) : Batch :=
  if x.state.final then x else { x with state := .void, attention := .reset }

theorem voidBatch_of_final {m : Mill} {b : Fin 32} (final : (m.batch b).state.final = true) : m.voidBatch b = m :=
  if_pos final

/-- A voided batch, and its target moved back where it was GOOD. -/
def Mill.voids (m : Mill) (b : Fin 32) : Mill :=
  m.updBatch (if (m.batch b).state = .queued then .batchSequencer else .weighMix) b
    (fun x => { x with state := .void, attention := .reset })

theorem voidBatch_of_open {m : Mill} {b : Fin 32} (open_ : (m.batch b).state.final = false) :
    (∃ o, (m.batch b).order = some o ∧ m.voidBatch b =
      ((m.voids b).moveBack o (m.batch b).target).reportFinal (m.batch b).order (m.batch b).chain) ∨
    m.voidBatch b = (m.voids b).reportFinal (m.batch b).order (m.batch b).chain := by
  unfold Mill.voidBatch
  dsimp only
  rw [if_neg (ne_true_of_eq_false open_)]
  split
  · next o _ order => exact .inl ⟨o, order, rfl⟩
  · exact .inr rfl

theorem voidBatch_seq {m : Mill} {b : Fin 32} (open_ : (m.batch b).state.final = false) :
    (m.voidBatch b).seq = (m.voids b).seq := by
  rcases voidBatch_of_open open_ with ⟨o, _, back⟩ | direct
  · rw [back, reportFinal_seq, moveBack_seq]
  · rw [direct, reportFinal_seq]

theorem voidBatch_own (b : Fin 32) : (m.voidBatch b).batch b = (m.batch b).voided := by
  unfold Batch.voided
  cases final : (m.batch b).state.final with
  | true => rw [voidBatch_of_final final]; rfl
  | false =>
    rw [Mill.batch, voidBatch_seq final]
    exact Mill.updBatch_batch m _ b _

theorem voidBatch_other {b c : Fin 32} (other : c ≠ b) : (m.voidBatch b).batch c = m.batch c := by
  cases final : (m.batch b).state.final with
  | true => rw [voidBatch_of_final final]
  | false =>
    rw [Mill.batch, voidBatch_seq final]
    exact Mill.updBatch_other m _ b c _ other

/-- An order that RESTART still has to cancel, or that the voiding of its batches has cancelled. -/
def Order.pending (x : Order) : Prop := x.state.active = true ∨ (x.state = .cancelled ∧ x.entry = none)

theorem pending_not_packed {x : Order} (h : x.pending) : x.state ≠ .packed := by
  rintro packed
  rcases h with active | ⟨cancelled, _⟩
  · rw [packed] at active
    cases active
  · rw [packed] at cancelled
    cases cancelled

/-- What keeps an order's state, and an entry that is gone, keeps it pending. -/
theorem pending_of_same {x y : Order} (state : y.state = x.state) (entry : x.entry = none → y.entry = none)
    (h : x.pending) : y.pending := by
  rcases h with active | ⟨cancelled, gone⟩
  · exact .inl (by rw [state]; exact active)
  · exact .inr ⟨state.trans cancelled, entry gone⟩

variable {m} (p : Fin 256) (h : (m.order p).pending)
include h

theorem pending_moveBack (target : Nat) : ((m.moveBack o target).order p).pending := by
  by_cases same : p = o
  · subst same
    rw [moveBack_order]
    exact pending_of_same rfl id h
  · rw [Mill.moveBack, Mill.updOrder_other _ _ _ _ same]
    exact h

theorem pending_updEntry (f : OrderEntry → OrderEntry) : ((m.updEntry o f).order p).pending := by
  by_cases same : p = o
  · subst same
    rw [Mill.updEntry_order]
    exact pending_of_same (x := m.order p) rfl (fun gone => congrArg (Option.map f) gone) h
  · rw [Mill.updEntry_other _ _ _ _ same]
    exact h

theorem pending_judgeCancelled : ((m.judgeCancelled o).order p).pending := by
  unfold Mill.judgeCancelled
  dsimp only
  split
  · obtain ⟨own, others, _⟩ := giveUp_does m o (fun y => { y with state := .cancelled })
    by_cases same : p = o
    · subst same
      rw [own]
      exact .inr ⟨rfl, rfl⟩
    · rw [others p same]
      exact h
  · exact h

theorem pending_autoClose : ((m.autoClose o).order p).pending := by
  by_cases closes : m.closesItself o
  · have other : p ≠ o := by
      rintro rfl
      exact pending_not_packed h closes.1
    rw [autoClose_of_closes closes, Mill.closeOrder, (giveUp_does m o _).2.1 p other]
    exact h
  · rw [autoClose_of_stays closes]
    exact h

theorem pending_reportFinal (order : Option (Fin 256)) (chain : Chain) :
    ((m.reportFinal order chain).order p).pending := by
  have lowered : ((m.lowerUse chain.slots).order p).pending := by
    rw [Mill.lowerUse, Mill.useSlots_order]
    exact h
  cases order with
  | none => exact lowered
  | some o => exact pending_autoClose o p (pending_judgeCancelled o p (pending_updEntry o p lowered _))

theorem pending_voidBatch (b : Fin 32) : ((m.voidBatch b).order p).pending := by
  have kept : (m.voids b).order p = m.order p := by
    rw [Mill.order, Mill.voids, Mill.updBatch_book]
    rfl
  have voided : ((m.voids b).order p).pending := by rw [kept]; exact h
  cases final : (m.batch b).state.final with
  | true => rw [voidBatch_of_final final]; exact h
  | false =>
    rcases voidBatch_of_open final with ⟨o, _, back⟩ | direct
    · rw [back]
      exact pending_reportFinal p (pending_moveBack o p voided _) _ _
    · rw [direct]
      exact pending_reportFinal p voided _ _

end void

/-- The mill with every batch voided. -/
@[irreducible] def Mill.restartVoided (m : Mill) : Mill := (List.finRange 32).foldl (fun m b => m.voidBatch b) m.restartFill

theorem restartVoided_batch (m : Mill) (b : Fin 32) : m.restartVoided.batch b = (m.batch b).voided := by
  have own := foldl_finRange_own Mill.batch (fun m b => m.voidBatch b) (fun _ => Batch.voided) voidBatch_own
    (fun m b c => voidBatch_other m) m.restartFill b
  have start : m.restartFill.batch b = m.batch b := by
    rw [Mill.batch, (sameOrders_restartFill m).2]
    rfl
  rw [← start]
  unfold Mill.restartVoided
  exact own

theorem restartVoided_pending {m : Mill} {o : Fin 256} (active : (m.order o).state.active = true) :
    (m.restartVoided.order o).pending := by
  have start : (m.restartFill.order o).pending := by
    rw [Mill.order, (sameOrders_restartFill m).1]
    exact .inl active
  unfold Mill.restartVoided
  generalize m.restartFill = n at start ⊢
  induction List.finRange 32 generalizing n with
  | nil => exact start
  | cons b l ih => exact ih _ (pending_voidBatch o start b)

/-! ### The orders cancelled -/

/-- What RESTART makes of an order that was active, or not, when it was taken. -/
def Order.restarted (was : Bool) (x : Order) : Order :=
  if x.state.active then { x.atRestart with entry := none }
  else if was && x.state = .cancelled then x.atRestart else x

theorem restartOrder_own (was m : Mill) (o : Fin 256) :
    (Mill.restartOrder was m o).order o = (m.order o).restarted (was.order o).state.active := by
  unfold Mill.restartOrder Order.restarted
  split
  · exact (giveUp_does m o _).1
  · split
    · exact Mill.updOrder_order m o _
    · rfl

theorem restartOrder_other (was m : Mill) {o p : Fin 256} (other : p ≠ o) :
    (Mill.restartOrder was m o).order p = m.order p := by
  unfold Mill.restartOrder
  split
  · exact (giveUp_does m o _).2.1 p other
  · split
    · exact Mill.updOrder_other m o p _ other
    · rfl

theorem restartOrder_seq (was m : Mill) (o : Fin 256) : (Mill.restartOrder was m o).seq = m.seq := by
  unfold Mill.restartOrder
  split
  · exact giveUp_seq m o _
  · split
    · exact Mill.updOrder_seq m o _
    · rfl

/-- The mill with every active order cancelled. -/
@[irreducible] def Mill.restartOrdered (m : Mill) : Mill :=
  (List.finRange 256).foldl (fun n o => Mill.restartOrder m.restartFill n o) m.restartVoided

theorem restartOrdered_order (m : Mill) (o : Fin 256) :
    m.restartOrdered.order o = (m.restartVoided.order o).restarted (m.order o).state.active := by
  have own := foldl_finRange_own Mill.order (Mill.restartOrder m.restartFill)
    (fun o => Order.restarted (m.restartFill.order o).state.active) (restartOrder_own m.restartFill)
    (fun n o p => restartOrder_other m.restartFill n) m.restartVoided o
  have start : m.restartFill.order o = m.order o := by
    rw [Mill.order, (sameOrders_restartFill m).1]
    rfl
  rw [← start]
  unfold Mill.restartOrdered
  exact own

theorem restartOrdered_seq (m : Mill) : m.restartOrdered.seq = m.restartVoided.seq := by
  unfold Mill.restartOrdered
  exact foldl_keeps Mill.seq (Mill.restartOrder m.restartFill) (restartOrder_seq m.restartFill) _ _

theorem restarted_not_active (was : Bool) (x : Order) : (x.restarted was).state.active = false := by
  unfold Order.restarted
  split
  · rfl
  · next rests =>
    split
    · rfl
    · exact Bool.eq_false_iff.mpr rests

/-- An order that was active is cancelled by RESTART, its entry given up. -/
theorem restarted_of_pending {x : Order} (h : x.pending) : (x.restarted true).state = .cancelled ∧
    (x.restarted true).endReason = .restart ∧ (x.restarted true).wait = .none ∧ (x.restarted true).inFlight = 0 ∧
    (x.restarted true).entry = none := by
  rcases h with active | ⟨cancelled, gone⟩
  · rw [Order.restarted, if_pos active]
    exact ⟨rfl, rfl, rfl, rfl, rfl⟩
  · rw [Order.restarted, if_neg (by rw [cancelled]; decide), if_pos (by rw [cancelled]; rfl)]
    exact ⟨rfl, rfl, rfl, rfl, gone⟩

end Sys2Proof.Machine

/-! SUPPORT. The second part of RESTART: the book at rest, the units at rest, and what of the part it leaves
(02_the_plan.md, R43 and R44). -/

namespace Sys2Proof.Machine

/-! ### The book at rest -/

theorem restartBin_stock (m : Mill) (i : Fin 48) : (m.restartBin i).stock =
    { m.stock with bins := putAt m.stock.bins i (getAt m.stock.bins i).atRestart } := by
  unfold Mill.restartBin
  dsimp only
  split
  · rw [Mill.postChanged_stock]
  · rw [postLots_stock, Mill.postChanged_stock]

theorem sameOrders_restartBin (m : Mill) (i : Fin 48) : SameOrders (m.restartBin i) m := by
  unfold Mill.restartBin
  dsimp only
  split
  · constructor <;> simp
  · constructor <;> simp [Mill.postLots]

/-- The book as RESTART finds it, its reservations and its waiting diverts gone. -/
def Mill.unreserved (m : Mill) : Mill := { m with stock := { m.stock with table := [], waitingDiverts := [] } }

/-- The bins of the given list at rest, one after the other. -/
@[irreducible] def Mill.restBins (l : List (Fin 48)) (m : Mill) : Mill := l.foldl (fun m i => m.restartBin i) m

theorem restartStock_eq (m : Mill) : m.restartStock = m.unreserved.restBins (List.finRange 48) := by
  unfold Mill.restartStock Mill.restBins Mill.unreserved
  rfl

theorem restBins_bin (m : Mill) (i : Fin 48) :
    getAt (m.restBins (List.finRange 48)).stock.bins i = (getAt m.stock.bins i).atRestart := by
  unfold Mill.restBins
  exact foldl_finRange_own (fun (m : Mill) i => getAt m.stock.bins i) (fun m i => m.restartBin i) (fun _ => Bin.atRestart)
    (fun n i => by rw [restartBin_stock, getAt_putAt_same])
    (fun n i j other => by rw [restartBin_stock, getAt_putAt_ne _ _ _ _ other]) m i

theorem restBins_stock (l : List (Fin 48)) (m : Mill) : (m.restBins l).stock.table = m.stock.table ∧
    (m.restBins l).stock.waitingDiverts = m.stock.waitingDiverts := by
  unfold Mill.restBins
  exact ⟨foldl_keeps (fun m : Mill => m.stock.table) (fun m i => m.restartBin i) (fun n i => by rw [restartBin_stock]) l m,
    foldl_keeps (fun m : Mill => m.stock.waitingDiverts) (fun m i => m.restartBin i)
      (fun n i => by rw [restartBin_stock]) l m⟩

theorem sameOrders_restBins (l : List (Fin 48)) (m : Mill) : SameOrders (m.restBins l) m := by
  unfold Mill.restBins
  exact ⟨foldl_keeps Mill.book (fun m i => m.restartBin i) (fun n i => (sameOrders_restartBin n i).1) l m,
    foldl_keeps Mill.seq (fun m i => m.restartBin i) (fun n i => (sameOrders_restartBin n i).2) l m⟩

theorem restartStock_bin (m : Mill) (i : Fin 48) :
    getAt m.restartStock.stock.bins i = (getAt m.stock.bins i).atRestart := by
  rw [restartStock_eq, restBins_bin]
  rfl

theorem restartStock_table (m : Mill) : m.restartStock.stock.table = [] := by
  rw [restartStock_eq, (restBins_stock _ _).1]
  rfl

theorem restartStock_waitingDiverts (m : Mill) : m.restartStock.stock.waitingDiverts = [] := by
  rw [restartStock_eq, (restBins_stock _ _).2]
  rfl

theorem sameOrders_restartStock (m : Mill) : SameOrders m.restartStock m := by
  rw [restartStock_eq]
  exact (sameOrders_restBins _ _).trans ⟨rfl, rfl⟩

/-- A bin at rest: nothing reserved or claimed, a surge's lots one orphan lot of its level. -/
theorem atRestart_does (b : Bin) : b.atRestart.reserved = 0 ∧ b.atRestart.claim = false ∧
    (b.atRestart.plan.kind.isSurge = true →
      b.atRestart.lots = if b.atRestart.level = 0 then [] else [⟨none, .none, b.atRestart.level⟩]) := by
  unfold Bin.atRestart
  cases surge : b.plan.kind.isSurge
  · exact ⟨rfl, rfl, fun isSurge => absurd (surge.symm.trans isSurge) Bool.false_ne_true⟩
  · exact ⟨rfl, rfl, fun _ => rfl⟩

/-! ### The units at rest -/

/-- Two mills agree in the stock, the scales, the outlets and the pellet line. -/
def GrindersOnly (a b : Mill) : Prop :=
  a.stock = b.stock ∧ a.weigh = b.weigh ∧ a.pack = b.pack ∧ a.lines.pellet = b.lines.pellet

theorem GrindersOnly.refl (a : Mill) : GrindersOnly a a := ⟨rfl, rfl, rfl, rfl⟩

theorem GrindersOnly.trans {a b c : Mill} (h : GrindersOnly a b) (g : GrindersOnly b c) : GrindersOnly a c :=
  ⟨h.1.trans g.1, h.2.1.trans g.2.1, h.2.2.1.trans g.2.2.1, h.2.2.2.trans g.2.2.2⟩

theorem grindersOnly_updGrinder (m : Mill) (g : Grinder) (f : GrinderCtl → GrinderCtl) :
    GrindersOnly (m.updGrinder g f) m := by
  refine ⟨by simp [Mill.updGrinder], by simp [Mill.updGrinder], by simp [Mill.updGrinder], ?_⟩
  rw [Mill.updGrinder, Mill.updLines_lines]
  cases g <;> rfl

theorem grindersOnly_judgeGrind (m : Mill) (g : Grinder) (r : Refill) : GrindersOnly (m.judgeGrind g r) m := by
  unfold Mill.judgeGrind
  split
  · exact grindersOnly_updGrinder m g _
  · exact GrindersOnly.refl m

theorem grindersOnly_tryAutoStart (m : Mill) (g : Grinder) : GrindersOnly (m.tryAutoStart g) m := by
  unfold Mill.tryAutoStart
  dsimp only
  split
  · split
    · exact (grindersOnly_judgeGrind _ g _).trans (grindersOnly_updGrinder m g _)
    · exact GrindersOnly.refl m
  · exact GrindersOnly.refl m

theorem grindersOnly_restartGrinder (m : Mill) (g : Grinder) : GrindersOnly (m.restartGrinder g) m := by
  unfold Mill.restartGrinder
  dsimp only
  generalize (fun c : GrinderCtl => (_ : GrinderCtl)) = rests
  have rested := grindersOnly_updGrinder m g rests
  generalize m.updGrinder g rests = n at rested ⊢
  refine (grindersOnly_tryAutoStart _ g).trans ?_
  split
  · exact rested
  · exact rested

section

variable {m n : Mill}

theorem order_of_book (same : m.book.orders = n.book.orders) (o : Fin 256) : m.order o = n.order o :=
  congrArg (getAt · o) same

theorem batch_of_seq (same : m.seq.batches = n.seq.batches) (b : Fin 32) : m.batch b = n.batch b :=
  congrArg (getAt · b) same

theorem trip_of_trips (same : m.trips.trips = n.trips.trips) (t : Fin 8) : m.trip t = n.trip t :=
  congrArg (getAt · t) same

theorem scale_of_weigh (same : m.weigh = n.weigh) (sc : Scale) : m.scale sc = n.scale sc := by
  cases sc
  · exact congrArg WeighMix.scale1 same
  · exact congrArg WeighMix.scale2 same

theorem pellet_of_lines (same : m.lines = n.lines) : m.lineCtl .pellet = n.lineCtl .pellet :=
  congrArg (fun l => l.pellet.line) same

end

/-- The pellet line as RESTART leaves it. -/
def PelletCtl.atRestart (c : PelletCtl) : PelletCtl :=
  { c with line := c.line.atRestart, current := none, productOrder := .none, drain := none, drainWaits := false }

theorem restartLines_eq (m : Mill) :
    m.restartLines = ((m.updPellet PelletCtl.atRestart).restartGrinder .a).restartGrinder .b := by
  unfold Mill.restartLines PelletCtl.atRestart
  rfl

theorem restartLines_grinders (m : Mill) : GrindersOnly m.restartLines (m.updPellet PelletCtl.atRestart) := by
  rw [restartLines_eq]
  exact (grindersOnly_restartGrinder _ .b).trans (grindersOnly_restartGrinder _ .a)

theorem restartLines_keeps (m : Mill) : m.restartLines.stock = m.stock ∧ m.restartLines.weigh = m.weigh ∧
    m.restartLines.pack = m.pack := by
  obtain ⟨stock, weigh, pack, _⟩ := restartLines_grinders m
  rw [stock, weigh, pack]
  simp [Mill.updPellet]

theorem lineCtl_pellet (m : Mill) : m.lineCtl .pellet = m.lines.pellet.line := rfl

/-- A line at rest does not work. -/
theorem lineAtRestart_works (c : LineCtl) : c.atRestart.state.works = false := by
  unfold LineCtl.atRestart
  split
  · rfl
  · next rests => exact Bool.eq_false_iff.mpr rests

theorem restartLines_pellet (m : Mill) :
    (m.restartLines.lineCtl .pellet).state.works = false ∧ m.restartLines.lines.pellet.current = none := by
  rw [lineCtl_pellet, (restartLines_grinders m).2.2.2, Mill.updPellet, Mill.updLines_lines]
  exact ⟨lineAtRestart_works m.lines.pellet.line, rfl⟩

/-- A trip as RESTART leaves it: OPEN again where it was at the spout or on its way there. -/
def Trip.atRestart (x : Trip) : Trip :=
  if x.state = .arrived || x.state = .loading then { x with state := .opened, limitMark := false } else x

/-- One trip at RESTART. -/
def Mill.restartTrip (m : Mill) (t : Fin 8) : Mill :=
  if (m.trip t).state = .arrived || (m.trip t).state = .loading then
    m.updTrip t (fun x => { x with state := .opened, limitMark := false })
  else m

/-- Every trip at RESTART. -/
@[irreducible] def Mill.restTrips (m : Mill) : Mill := (List.finRange 8).foldl Mill.restartTrip m

theorem restartTrips_eq (m : Mill) : m.restartTrips =
    { m.restTrips with trips := { m.restTrips.trips with queue := [], limit := none, arriving := none } } := by
  unfold Mill.restartTrips Mill.restTrips Mill.restartTrip
  rfl

theorem restartTrip_own (m : Mill) (t : Fin 8) : (m.restartTrip t).trip t = (m.trip t).atRestart := by
  unfold Mill.restartTrip Trip.atRestart
  split
  · exact Mill.updTrip_trip m t _
  · rfl

theorem restartTrip_other (m : Mill) {t u : Fin 8} (other : u ≠ t) : (m.restartTrip t).trip u = m.trip u := by
  unfold Mill.restartTrip
  split
  · exact Mill.updTrip_other m t u _ other
  · rfl

theorem restartTrip_keeps (m : Mill) (t : Fin 8) :
    ((m.restartTrip t).stock, (m.restartTrip t).weigh, (m.restartTrip t).pack) = (m.stock, m.weigh, m.pack) := by
  unfold Mill.restartTrip
  split
  · simp
  · rfl

theorem restTrips_trip (m : Mill) (t : Fin 8) : m.restTrips.trip t = (m.trip t).atRestart := by
  unfold Mill.restTrips
  exact foldl_finRange_own Mill.trip Mill.restartTrip (fun _ => Trip.atRestart) restartTrip_own
    (fun n t u => restartTrip_other n) m t

theorem restTrips_keeps (m : Mill) :
    (m.restTrips.stock, m.restTrips.weigh, m.restTrips.pack) = (m.stock, m.weigh, m.pack) := by
  unfold Mill.restTrips
  exact foldl_keeps (fun m : Mill => (m.stock, m.weigh, m.pack)) Mill.restartTrip restartTrip_keeps _ m

theorem restartTrips_trip (m : Mill) (t : Fin 8) : m.restartTrips.trip t = (m.trip t).atRestart := by
  rw [restartTrips_eq, ← restTrips_trip]
  rfl

theorem restartTrips_arrivals (m : Mill) : m.restartTrips.trips.queue = [] ∧ m.restartTrips.trips.limit = none := by
  rw [restartTrips_eq]
  exact ⟨rfl, rfl⟩

theorem restartTrips_keeps (m : Mill) : m.restartTrips.stock = m.stock ∧ m.restartTrips.weigh = m.weigh ∧
    m.restartTrips.pack = m.pack := by
  have kept := restTrips_keeps m
  rw [Prod.mk.injEq, Prod.mk.injEq] at kept
  rw [restartTrips_eq]
  exact kept

/-- A trip at rest is neither at the spout nor waiting for it. -/
theorem tripAtRestart_state (x : Trip) : x.atRestart.state ≠ .arrived ∧ x.atRestart.state ≠ .loading := by
  unfold Trip.atRestart
  split
  · exact ⟨TripState.noConfusion, TripState.noConfusion⟩
  · next rests =>
    rw [Bool.or_eq_true, decide_eq_true_eq, decide_eq_true_eq] at rests
    exact not_or.mp rests

theorem restartPack_keeps (m : Mill) : m.restartPack.stock = m.stock ∧ m.restartPack.weigh = m.weigh := by
  simp [Mill.restartPack]

theorem restartPack_pack (m : Mill) : m.restartPack.pack.bagger.state = .idle ∧
    m.restartPack.pack.loadout.state = .idle ∧ m.restartPack.pack.loadout.fill = none := by
  rw [Mill.restartPack, Mill.updLoadout_loadout]
  refine ⟨?_, rfl, rfl⟩
  simp [Mill.updLoadout]

theorem restartWeigh_stock (m : Mill) : m.restartWeigh.stock = m.stock := by
  simp [Mill.restartWeigh]

theorem restartWeigh_weigh (m : Mill) : (∀ sc, (m.restartWeigh.scale sc).state = .idle) ∧
    m.restartWeigh.weigh.batch = none ∧ m.restartWeigh.weigh.mixer.state = .empty ∧ m.restartWeigh.weigh.limit = none := by
  refine ⟨fun sc => ?_, rfl, ?_, rfl⟩
  · cases sc <;> simp [Mill.restartWeigh, Mill.scale, Mill.updScale, WeighMix.setScale, Mill.updMixer, ScaleCtl.reset]
  · simp [Mill.restartWeigh, Mill.updMixer, MixerCtl.reset]

/-- The scales, the outlets, the trips and the lines at rest, in this order. -/
@[irreducible] def Mill.restartUnits (m : Mill) : Mill := m.restartWeigh.restartPack.restartTrips.restartLines

theorem restartUnits_eq (m : Mill) : m.restartUnits = m.restartWeigh.restartPack.restartTrips.restartLines := by
  unfold Mill.restartUnits
  rfl

theorem restartUnits_books (m : Mill) : SameBooks m.restartUnits m := by
  rw [restartUnits_eq]
  exact (sameBooks_restartLines _).trans ((sameBooks_restartTrips _).trans
    ((sameBooks_restartPack _).trans (sameBooks_restartWeigh m)))

theorem restartUnits_stock (m : Mill) : m.restartUnits.stock = m.stock := by
  rw [restartUnits_eq, (restartLines_keeps _).1, (restartTrips_keeps _).1, (restartPack_keeps _).1, restartWeigh_stock]

theorem restartUnits_weigh (m : Mill) : m.restartUnits.weigh = m.restartWeigh.weigh := by
  rw [restartUnits_eq, (restartLines_keeps _).2.1, (restartTrips_keeps _).2.1, (restartPack_keeps _).2]

theorem restartUnits_pack (m : Mill) : m.restartUnits.pack = m.restartWeigh.restartPack.pack := by
  rw [restartUnits_eq, (restartLines_keeps _).2.2, (restartTrips_keeps _).2.2]

theorem restartUnits_trips (m : Mill) : m.restartUnits.trips = m.restartWeigh.restartPack.restartTrips.trips := by
  rw [restartUnits_eq, lines_keep_trips]

theorem restartUnits_pellet (m : Mill) :
    (m.restartUnits.lineCtl .pellet).state.works = false ∧ m.restartUnits.lines.pellet.current = none := by
  rw [restartUnits_eq]
  exact restartLines_pellet _

theorem restartUnits_trip (m : Mill) (t : Fin 8) :
    (m.restartUnits.trip t).state ≠ .arrived ∧ (m.restartUnits.trip t).state ≠ .loading := by
  have trip : m.restartUnits.trip t = m.restartWeigh.restartPack.restartTrips.trip t :=
    trip_of_trips (congrArg TripTable.trips (restartUnits_trips m)) t
  rw [trip, restartTrips_trip]
  exact tripAtRestart_state _

/-! ### The whole of RESTART -/

/-- The books at RESTART, before the units. -/
@[irreducible] def Mill.restartBooks (m : Mill) : Mill :=
  m.restartOrdered.restartSequence.restartStock.answerRestarted.endInterlock

theorem restartBooks_eq (m : Mill) : m.restartBooks =
    m.restartOrdered.restartSequence.restartStock.answerRestarted.endInterlock := by
  unfold Mill.restartBooks
  rfl

/-- What RESTART closes with: the checker, the reads returned and the checks of the surges' heads. -/
def Mill.restartClosed (m : Mill) : Mill :=
  { m with checker := ⟨[], none, false⟩, returned := m.returned.filter (fun r => !r.1.ofAction)
           notices := [.headCheck .pellet, .headCheck .bag, .headCheck .bulk] }

/-- The books and the units of two mills agree. -/
structure SameUnits (a b : Mill) : Prop where
  actions : a.actions = b.actions
  book : a.book = b.book
  seq : a.seq = b.seq
  stock : a.stock = b.stock
  weigh : a.weigh = b.weigh
  pack : a.pack = b.pack
  trips : a.trips = b.trips
  lines : a.lines = b.lines

theorem sameUnits_restartClosed (m : Mill) : SameUnits m.restartClosed m := ⟨rfl, rfl, rfl, rfl, rfl, rfl, rfl, rfl⟩

theorem restart_closed (m : Mill) : m.restart = m.restartBooks.restartUnits.restartClosed := by
  unfold Mill.restart Mill.restartClosed Mill.restartUnits Mill.restartBooks Mill.restartOrdered Mill.restartVoided
  rfl

theorem restart_units (m : Mill) : SameUnits m.restart m.restartBooks.restartUnits := by
  rw [restart_closed]
  exact sameUnits_restartClosed _

theorem restartClosed_checker (m : Mill) : m.restartClosed.checker = ⟨[], none, false⟩ := rfl

/-- The answers given and the interlock ended. -/
theorem answered_books (m : Mill) : m.answerRestarted.endInterlock.actions.queue = [] ∧
    m.answerRestarted.endInterlock.stock = m.stock ∧
    m.answerRestarted.endInterlock.book = { m.book with interlock := none } ∧
    m.answerRestarted.endInterlock.seq = m.seq := by
  rw [answerRestarted_eq]
  exact ⟨rfl, rfl, rfl, rfl⟩

section books

variable (m : Mill)

theorem restartBooks_actions : m.restartBooks.actions.queue = [] := by
  rw [restartBooks_eq]
  exact (answered_books _).1

theorem restartBooks_stock : m.restartBooks.stock = m.restartOrdered.restartSequence.restartStock.stock := by
  rw [restartBooks_eq]
  exact (answered_books _).2.1

theorem restartBooks_book : m.restartBooks.book =
    { m.restartOrdered.book with releaseList := [], interlock := none } := by
  rw [restartBooks_eq, (answered_books _).2.2.1, (sameOrders_restartStock _).1, Mill.restartSequence]

theorem restartBooks_seq : m.restartBooks.seq =
    { m.restartVoided.seq with queue := [], reference := none, pass := .idle, again := false } := by
  rw [restartBooks_eq, (answered_books _).2.2.2, (sameOrders_restartStock _).2, Mill.restartSequence, restartOrdered_seq]

theorem restart_book : m.restart.book = m.restartBooks.book :=
  (restart_units m).book.trans (restartUnits_books m.restartBooks).2.1

theorem restart_seq : m.restart.seq = m.restartBooks.seq :=
  (restart_units m).seq.trans (restartUnits_books m.restartBooks).2.2.2.1

theorem restart_actions : m.restart.actions.queue = [] := by
  rw [(restart_units m).actions, (restartUnits_books m.restartBooks).1, restartBooks_actions]

theorem restart_stock : m.restart.stock = m.restartOrdered.restartSequence.restartStock.stock := by
  rw [(restart_units m).stock, restartUnits_stock, restartBooks_stock]

theorem restart_hold : m.restart.seq.hold = m.seq.hold := by
  have kept : m.restartOrdered.seq.hold = m.seq.hold := by
    unfold Mill.restartOrdered Mill.restartVoided
    exact restart_keeps_hold m
  rw [← kept, restart_seq, restartBooks_seq, restartOrdered_seq]

theorem restart_order (o : Fin 256) :
    m.restart.order o = (m.restartVoided.order o).restarted (m.order o).state.active := by
  rw [← restartOrdered_order]
  exact order_of_book (by rw [restart_book, restartBooks_book]) o

theorem restart_batch (b : Fin 32) : m.restart.batch b = (m.batch b).voided := by
  rw [← restartVoided_batch]
  exact batch_of_seq (by rw [restart_seq, restartBooks_seq]) b

theorem restart_bin (i : Fin 48) : ∃ b : Bin, getAt m.restart.stock.bins i = b.atRestart :=
  ⟨_, by rw [restart_stock, restartStock_bin]⟩

theorem restart_trips : m.restart.trips = m.restartBooks.restartWeigh.restartPack.restartTrips.trips := by
  rw [(restart_units m).trips, restartUnits_trips]

theorem restart_arrivals : m.restart.trips.queue = [] ∧ m.restart.trips.limit = none := by
  rw [restart_trips]
  exact restartTrips_arrivals _

theorem restart_checker : m.restart.checker = ⟨[], none, false⟩ := by
  rw [restart_closed, restartClosed_checker]

theorem restart_weigh : (∀ sc, (m.restart.scale sc).state = .idle) ∧ m.restart.weigh.batch = none ∧
    m.restart.weigh.mixer.state = .empty ∧ m.restart.weigh.limit = none := by
  have weigh : m.restart.weigh = m.restartBooks.restartWeigh.weigh := by
    rw [(restart_units m).weigh, restartUnits_weigh]
  obtain ⟨scales, rest⟩ := restartWeigh_weigh m.restartBooks
  refine ⟨fun sc => ?_, ?_⟩
  · rw [scale_of_weigh weigh sc, scales]
  · rw [weigh]
    exact rest

theorem restart_pack : m.restart.pack.bagger.state = .idle ∧ m.restart.pack.loadout.state = .idle ∧
    m.restart.pack.loadout.fill = none := by
  rw [(restart_units m).pack, restartUnits_pack]
  exact restartPack_pack _

theorem restart_trip (r : Fin 8) : (m.restart.trip r).state ≠ .arrived ∧ (m.restart.trip r).state ≠ .loading := by
  rw [trip_of_trips (congrArg TripTable.trips (restart_units m).trips) r]
  exact restartUnits_trip _ r

theorem restart_pellet : (m.restart.lineCtl .pellet).state.works = false ∧ m.restart.lines.pellet.current = none := by
  rw [pellet_of_lines (restart_units m).lines, (restart_units m).lines]
  exact restartUnits_pellet _

theorem restart_waitingDiverts : m.restart.stock.waitingDiverts = [] := by
  rw [restart_stock, restartStock_waitingDiverts]

theorem restart_table : m.restart.stock.table = [] := by
  rw [restart_stock, restartStock_table]

theorem restart_sequencer : m.restart.seq =
    { m.restart.seq with queue := [], reference := none, pass := .idle, again := false } := by
  rw [restart_seq, restartBooks_seq]

theorem restart_lists : m.restart.book.interlock = none ∧ m.restart.book.releaseList = [] := by
  rw [restart_book, restartBooks_book]
  exact ⟨rfl, rfl⟩

end books

theorem voided_state (x : Batch) : x.voided.state = if x.state.final then x.state else .void := by
  unfold Batch.voided
  split <;> rfl

/-- RESTART of a RUNNING plan is the row, the reads of abandoned actions marked. -/
theorem execRestart_eq {s : State} (free : s.free .planController) (asked : s.mill.plan.requested = some 3)
    (running : s.mill.plan.state = .running) : exec .restart s = .next (s.stepTo s.restartPlan) := by
  change execRestart s = _
  rw [execRestart, planFree_of_free free, asked, running]
  rfl

/-- Settles O23: the row, then the books and the units as RESTART leaves them, the answers and the fill. -/
theorem restartCarriedOut : Obligations.RestartCarriedOut := by
  refine ⟨fun s free asked running => ?row, fun m => ?blocks, fun m => ⟨rfl, answerRestarted_eq m⟩,
    fun m => ⟨restartFill_of_none, fun f => restartFill_of_some⟩⟩
  case row =>
    obtain ⟨queue, limit⟩ := restart_arrivals s.mill
    obtain ⟨interlock, releases⟩ := restart_lists s.mill
    exact ⟨execRestart_eq free asked running, rfl, restart_actions _, interlock, releases, restart_table _,
      restart_sequencer _, restart_hold _, queue, limit, restart_checker _, rfl, rfl, rfl, List.length_map _⟩
  case blocks =>
    obtain ⟨scales, batch, mixer, limit⟩ := restart_weigh m
    obtain ⟨bagger, loadout, fill⟩ := restart_pack m
    obtain ⟨pellet, current⟩ := restart_pellet m
    refine ⟨fun b => ?_, fun o active => ?_, fun o => ?_, fun i => ?_, restart_waitingDiverts m, scales, batch, mixer,
      limit, bagger, loadout, fill, restart_trip m, pellet, current⟩
    · rw [restart_batch, voided_state]
    · rw [restart_order, active]
      exact restarted_of_pending (restartVoided_pending active)
    · rw [restart_order]
      exact restarted_not_active _ _
    · obtain ⟨b, rested⟩ := restart_bin m i
      rw [rested]
      exact atRestart_does b

end Sys2Proof.Machine

/-! SUPPORT. The checks of load stage 1: windows, constants and roles (02_the_plan.md, R33 to R35). -/

namespace Sys2Proof.Machine

/-! ### The first of a sorted list -/

section first

variable {α β : Type} (lt : α → α → Prop) {l : List α} {a : α} (sorted : l.Pairwise lt) (mem : a ∈ l)
include sorted mem

/-- The first element that passes is found, where none before it passes. -/
theorem find?_of_first {p : α → Bool} (passes : p a = true) (earlier : ∀ b, lt b a → p b = false) : l.find? p = some a := by
  induction l with
  | nil => cases mem
  | cons b l ih =>
    obtain ⟨before, rest⟩ := List.pairwise_cons.mp sorted
    rcases List.mem_cons.mp mem with rfl | later
    · exact List.find?_cons_of_pos passes
    · rw [List.find?_cons_of_neg (ne_true_of_eq_false (earlier b (before a later)))]
      exact ih rest later

/-- The first element that has an image gives it. -/
theorem findSome?_of_first {f : α → Option β} {x : β} (gives : f a = some x) (earlier : ∀ b, lt b a → f b = none) :
    l.findSome? f = some x := by
  induction l with
  | nil => cases mem
  | cons b l ih =>
    obtain ⟨before, rest⟩ := List.pairwise_cons.mp sorted
    rcases List.mem_cons.mp mem with rfl | later
    · rw [List.findSome?_cons, gives]
    · rw [List.findSome?_cons, earlier b (before a later)]
      exact ih rest later

end first

/-! ### The windows -/

theorem mem_kinds (k : RecordKind) : k ∈ RecordKind.all := by cases k <;> decide

theorem kinds_sorted : RecordKind.all.Pairwise (fun j k => j.window < k.window) := by decide

/-- The window of a kind shares a byte with the plan region or with an earlier window. -/
def PlanCtl.Shares (p : PlanCtl) (region : Addr) (k : RecordKind) : Prop :=
  (p.baseOf k < region.toNat + 4096 ∧ region.toNat < p.baseOf k + k.span) ∨
  ∃ j : RecordKind, j.window < k.window ∧ p.baseOf k < p.baseOf j + j.span ∧ p.baseOf j < p.baseOf k + k.span

/-- The second test of R33. -/
def PlanCtl.overlaps (p : PlanCtl) (region : Addr) (k : RecordKind) : Bool :=
  spansMeet (p.baseOf k) k.span region.toNat 4096
    || (RecordKind.all.filter (fun j => j.window < k.window)).any (fun j =>
      spansMeet (p.baseOf k) k.span (p.baseOf j) j.span)

theorem spansMeet_iff (a alen b blen : Nat) : spansMeet a alen b blen = true ↔ a < b + blen ∧ b < a + alen := by
  rw [spansMeet, Bool.and_eq_true, decide_eq_true_eq, decide_eq_true_eq]

section stage1

variable (p : PlanCtl) (region : Addr)

theorem overlaps_iff (k : RecordKind) : p.overlaps region k = true ↔ p.Shares region k := by
  rw [PlanCtl.overlaps, Bool.or_eq_true, spansMeet_iff, List.any_eq_true, PlanCtl.Shares]
  refine or_congr Iff.rfl (exists_congr fun j => ?_)
  rw [List.mem_filter, spansMeet_iff, decide_eq_true_eq, and_iff_right (mem_kinds j)]

variable {p region}

theorem checkWindows_of_misaligned {k : RecordKind} (bad : p.baseOf k % windowAlign k ≠ 0)
    (earlier : ∀ j : RecordKind, j.window < k.window → p.baseOf j % windowAlign j = 0) :
    p.checkWindows region = some ⟨3, k.window.val⟩ := by
  have found : RecordKind.all.find? (fun k => p.baseOf k % windowAlign k ≠ 0) = some k :=
    find?_of_first _ kinds_sorted (mem_kinds k) (decide_eq_true bad)
      (fun j before => decide_eq_false (not_not.mpr (earlier j before)))
  simp only [PlanCtl.checkWindows, found]
  rfl

theorem checkWindows_of_aligned (aligned : ∀ j, p.baseOf j % windowAlign j = 0) : p.checkWindows region =
    (RecordKind.all.find? (p.overlaps region)).map (fun k => ⟨4, k.window.val⟩) := by
  have found : RecordKind.all.find? (fun k => p.baseOf k % windowAlign k ≠ 0) = none :=
    List.find?_eq_none.mpr (fun j _ => by rw [aligned]; decide)
  simp only [PlanCtl.checkWindows, found]
  rfl

theorem checkWindows_of_shares {k : RecordKind} (aligned : ∀ j, p.baseOf j % windowAlign j = 0) (shares : p.Shares region k)
    (earlier : ∀ j : RecordKind, j.window < k.window → ¬p.Shares region j) :
    p.checkWindows region = some ⟨4, k.window.val⟩ := by
  rw [checkWindows_of_aligned aligned, find?_of_first _ kinds_sorted (mem_kinds k) ((overlaps_iff p region k).mpr shares)
    (fun j before => Bool.eq_false_iff.mpr (fun overlaps => earlier j before ((overlaps_iff p region j).mp overlaps)))]
  rfl

/-- The first of the windows for which a property fails. -/
theorem exists_first_window {P : RecordKind → Prop} (some : ∃ k, ¬P k) :
    ∃ k, ¬P k ∧ ∀ j : RecordKind, j.window < k.window → P j := by
  classical
  obtain ⟨k, fails⟩ := some
  obtain ⟨a, found⟩ := Option.isSome_iff_exists.mp
    (List.find?_isSome.mpr ⟨k, mem_kinds k, decide_eq_true fails⟩ :
      (RecordKind.all.find? (fun k => ¬P k)).isSome = true)
  obtain ⟨bad, before, after, split, passes⟩ := List.find?_eq_some_iff_append.mp found
  refine ⟨a, of_decide_eq_true bad, fun j earlier => ?_⟩
  have sorted := kinds_sorted
  rw [split] at sorted
  have mem := mem_kinds j
  rw [split, List.mem_append, List.mem_cons] at mem
  rcases mem with inBefore | rfl | inAfter
  · simpa using passes j inBefore
  · exact absurd earlier (lt_irrefl _)
  · have later := (List.pairwise_cons.mp (List.pairwise_append.mp sorted).2.1).1 j inAfter
    exact absurd (later.trans earlier) (lt_irrefl _)

theorem checkWindows_eq_none_iff : p.checkWindows region = none ↔
    ∀ k, p.baseOf k % windowAlign k = 0 ∧ ¬p.Shares region k := by
  constructor
  · intro passes
    have aligned (k) : p.baseOf k % windowAlign k = 0 := by
      by_contra bad
      obtain ⟨k, bad, earlier⟩ := exists_first_window (P := fun k => p.baseOf k % windowAlign k = 0) ⟨k, bad⟩
      rw [checkWindows_of_misaligned bad earlier] at passes
      cases passes
    refine fun k => ⟨aligned k, fun shares => ?_⟩
    rw [checkWindows_of_aligned aligned, Option.map_eq_none_iff, List.find?_eq_none] at passes
    exact passes k (mem_kinds k) ((overlaps_iff p region k).mpr shares)
  · intro all
    rw [checkWindows_of_aligned (fun j => (all j).1), Option.map_eq_none_iff, List.find?_eq_none]
    exact fun k _ overlaps => (all k).2 ((overlaps_iff p region k).mp overlaps)

/-! ### The constants -/

theorem constants_sorted : ((List.range 22).map (12 + ·)).Pairwise (fun v w => 12 ≤ v ∧ v < w) := by decide

theorem mem_constants (w : Nat) : w ∈ (List.range 22).map (12 + ·) ↔ 12 ≤ w ∧ w ≤ 33 := by
  rw [List.mem_map]
  constructor
  · rintro ⟨n, mem, rfl⟩
    have := List.mem_range.mp mem
    omega
  · rintro ⟨low, high⟩
    exact ⟨w - 12, List.mem_range.mpr (by omega), by omega⟩

theorem toleranceOk_iff (c : Nat) : p.toleranceOk c = true ↔ p.toleranceAbs c ≤ 500 ∧ p.tolerancePerMille c ≤ 50 := by
  rw [PlanCtl.toleranceOk, Bool.and_eq_true, decide_eq_true_eq, decide_eq_true_eq]

theorem checkConstants_of_bad {w : Nat} (low : 12 ≤ w) (high : w ≤ 33) (bad : p.constOk w = false)
    (earlier : ∀ v, 12 ≤ v → v < w → p.constOk v = true) : p.checkConstants = some ⟨5, w⟩ := by
  have found : ((List.range 22).map (12 + ·)).find? (fun w => !p.constOk w) = some w :=
    find?_of_first _ constants_sorted ((mem_constants w).mpr ⟨low, high⟩) (by rw [bad]; rfl)
      (fun v before => by rw [earlier v before.1 before.2]; rfl)
  simp only [PlanCtl.checkConstants, found]
  rfl

theorem checkConstants_of_ok (ok : ∀ w, 12 ≤ w → w ≤ 33 → p.constOk w = true) : p.checkConstants =
    ((List.range 16).find? (fun c => !p.toleranceOk c)).map (fun c => ⟨5, 40 + c⟩) := by
  have found : ((List.range 22).map (12 + ·)).find? (fun w => !p.constOk w) = none :=
    List.find?_eq_none.mpr (fun w mem => by
      obtain ⟨low, high⟩ := (mem_constants w).mp mem
      rw [ok w low high]
      decide)
  simp only [PlanCtl.checkConstants, found]
  rfl

theorem checkConstants_of_tolerance {c : Nat} (class_ : c < 16) (ok : ∀ w, 12 ≤ w → w ≤ 33 → p.constOk w = true)
    (bad : 500 < p.toleranceAbs c ∨ 50 < p.tolerancePerMille c)
    (earlier : ∀ d, d < c → p.toleranceAbs d ≤ 500 ∧ p.tolerancePerMille d ≤ 50) : p.checkConstants = some ⟨5, 40 + c⟩ := by
  have fails : p.toleranceOk c = false := by
    rw [Bool.eq_false_iff, Ne, toleranceOk_iff]
    omega
  rw [checkConstants_of_ok ok, find?_of_first (· < ·) List.pairwise_lt_range (List.mem_range.mpr class_)
    (by rw [fails]; rfl) (fun d before => by rw [(toleranceOk_iff _).mpr (earlier d before)]; rfl)]
  rfl

theorem checkConstants_eq_none_iff : p.checkConstants = none ↔ (∀ w, 12 ≤ w → w ≤ 33 → p.constOk w = true) ∧
    ∀ c, c < 16 → p.toleranceAbs c ≤ 500 ∧ p.tolerancePerMille c ≤ 50 := by
  constructor
  · intro passes
    have ok (w) (low : 12 ≤ w) (high : w ≤ 33) : p.constOk w = true := by
      induction w using Nat.strong_induction_on with
      | _ w ih =>
        by_contra bad
        rw [checkConstants_of_bad low high (Bool.eq_false_iff.mpr bad)
          (fun v lowV before => ih v before lowV (by omega))] at passes
        cases passes
    refine ⟨ok, fun c class_ => ?_⟩
    rw [checkConstants_of_ok ok, Option.map_eq_none_iff, List.find?_eq_none] at passes
    have pass := passes c (List.mem_range.mpr class_)
    rw [Bool.not_eq_true, Bool.not_eq_false'] at pass
    exact (toleranceOk_iff _).mp pass
  · rintro ⟨ok, classes⟩
    rw [checkConstants_of_ok ok, Option.map_eq_none_iff, List.find?_eq_none]
    intro c mem
    rw [(toleranceOk_iff _).mpr (classes c (List.mem_range.mp mem))]
    decide

theorem constOk_iff {w lo hi : Nat} (range : p.constRange w = some (lo, hi)) :
    p.constOk w = true ↔ lo ≤ p.const w ∧ p.const w ≤ hi := by
  simp only [PlanCtl.constOk, range, Bool.and_eq_true, decide_eq_true_eq]

/-! ### The roles -/

theorem assigned_iff (r : Nat) : p.assigned r = true ↔ p.channel r ≠ 0xFF := decide_eq_true_iff

theorem assigned_eq_false_iff (r : Nat) : p.assigned r = false ↔ p.channel r = 0xFF :=
  decide_eq_false_iff_not.trans not_not

/-- Another role of lower number has the channel. -/
theorem conflict_iff (r : Role) : (List.range r).any (fun q => p.channel q = p.channel r) = true ↔
    ∃ q : Role, q < r ∧ p.channel q = p.channel r := by
  rw [List.any_eq_true]
  constructor
  · rintro ⟨q, mem, same⟩
    have below := List.mem_range.mp mem
    exact ⟨⟨q, below.trans r.isLt⟩, below, of_decide_eq_true same⟩
  · rintro ⟨q, below, same⟩
    exact ⟨q, List.mem_range.mpr below, decide_eq_true same⟩

theorem checkRole_of_large {r : Role} (assigned : p.channel r ≠ 0xFF) (large : 63 < p.channel r) :
    p.checkRole r = some ⟨5, 120 + r.val⟩ :=
  if_pos (by rw [Bool.and_eq_true, decide_eq_true_eq, assigned_iff]; exact ⟨large, assigned⟩)

theorem checkRole_of_small {r : Role} (small : p.channel r ≤ 63) : p.checkRole r =
    if (List.range r).any (fun q => p.channel q = p.channel r) then some ⟨6, r.val⟩ else none := by
  have assigned : p.assigned r = true := (assigned_iff (p := p) r).mpr (by omega)
  have notLarge : (decide (63 < p.channel r) && p.assigned r) = false := by
    rw [decide_eq_false (by omega), Bool.false_and]
  have notMissing : p.roleMissing r = false := by
    rw [PlanCtl.roleMissing, assigned]
    rfl
  rw [PlanCtl.checkRole, notLarge, assigned, notMissing, Bool.true_and]
  rfl

theorem checkRole_of_unassigned {r : Role} (none : p.channel r = 0xFF) : p.checkRole r =
    if r = 0 ∨ r = 2 ∨ ∃ q ∈ unitRoles (roleUnit r), p.channel q ≠ 0xFF then some ⟨7, r.val⟩ else .none := by
  have assigned : p.assigned r = false := (assigned_eq_false_iff (p := p) r).mpr none
  have missing : p.roleMissing r = true ↔ r = 0 ∨ r = 2 ∨ ∃ q ∈ unitRoles (roleUnit r), p.channel q ≠ 0xFF := by
    rw [PlanCtl.roleMissing, assigned, Bool.not_false, Bool.true_and, Bool.or_eq_true, Bool.or_eq_true, List.any_eq_true,
      decide_eq_true_eq, decide_eq_true_eq, or_assoc]
    simp only [assigned_iff]
  rw [PlanCtl.checkRole, assigned, Bool.and_false, Bool.false_and]
  simp only [missing]
  rfl

/-- What a role must hold (R35). -/
def PlanCtl.RoleOk (p : PlanCtl) (r : Role) : Prop :=
  (p.channel r ≠ 0xFF → p.channel r ≤ 63 ∧ ∀ q : Role, q < r → p.channel q ≠ p.channel r) ∧
  (p.channel r = 0xFF → r ≠ 0 ∧ r ≠ 2 ∧ ∀ q ∈ unitRoles (roleUnit r), p.channel q = 0xFF)

theorem checkRole_eq_none_iff (r : Role) : p.checkRole r = none ↔ p.RoleOk r := by
  unfold PlanCtl.RoleOk
  by_cases unassigned : p.channel r = 0xFF
  · rw [checkRole_of_unassigned unassigned]
    simp only [unassigned, ite_eq_right_iff, reduceCtorEq, imp_false, not_or, not_exists, not_and, not_not, ne_eq,
      not_true_eq_false, false_implies, true_implies, true_and]
  · simp only [unassigned, ne_eq, not_false_eq_true, true_implies, false_implies, and_true]
    by_cases small : p.channel r ≤ 63
    · rw [checkRole_of_small small]
      simp only [conflict_iff, small, true_and, ite_eq_right_iff, reduceCtorEq, imp_false, not_exists, not_and]
    · rw [checkRole_of_large unassigned (Nat.lt_of_not_le small)]
      simp only [reduceCtorEq, small, false_and]

theorem roles_sorted : (List.finRange 13).Pairwise (fun q r : Role => q < r) := by decide

theorem checkRoles_of_first {r : Role} {x : PlanResult} (fails : p.checkRole r = some x)
    (earlier : ∀ q : Role, q < r → p.checkRole q = none) : p.checkRoles = some x :=
  findSome?_of_first _ roles_sorted (List.mem_finRange r) fails earlier

theorem checkRoles_eq_none_iff : p.checkRoles = none ↔ ∀ r, p.RoleOk r := by
  rw [PlanCtl.checkRoles, List.findSome?_eq_none_iff]
  exact ⟨fun passes r => (checkRole_eq_none_iff r).mp (passes r (List.mem_finRange r)),
    fun ok r _ => (checkRole_eq_none_iff r).mpr (ok r)⟩

theorem presence_iff (u : Fin 8) : getAt p.presence u = true ↔ ∀ r ∈ unitRoles u, p.channel r ≠ 0xFF := by
  rw [getAt, PlanCtl.presence, Fin.getElem_fin, Vector.getElem_ofFn, List.all_eq_true]
  simp only [assigned_iff]

/-! ### The whole stage -/

theorem checkStage1_eq_none_iff : p.checkStage1 region = none ↔
    p.checkWindows region = none ∧ p.checkConstants = none ∧ p.checkRoles = none := by
  rw [PlanCtl.checkStage1, Option.or_eq_none_iff, Option.or_eq_none_iff]

theorem checkStage1_of_windows {x : PlanResult} (fails : p.checkWindows region = some x) :
    p.checkStage1 region = some x := by
  rw [PlanCtl.checkStage1, fails]
  rfl

theorem checkStage1_of_constants {x : PlanResult} (windows : p.checkWindows region = none)
    (fails : p.checkConstants = some x) : p.checkStage1 region = some x := by
  rw [PlanCtl.checkStage1, windows, fails]
  rfl

theorem checkStage1_of_roles (windows : p.checkWindows region = none) (constants : p.checkConstants = none) :
    p.checkStage1 region = p.checkRoles := by
  rw [PlanCtl.checkStage1, windows, constants]
  rfl

end stage1

/-- What stage 1 tests, and what the first failing test answers (R33 to R35). -/
theorem checkStage1_does (p : PlanCtl) (region : Addr) :
    (p.checkStage1 region = none ↔
      p.checkWindows region = none ∧ p.checkConstants = none ∧ p.checkRoles = none) ∧
    (p.checkWindows region = none → p.checkConstants = none → p.checkStage1 region = p.checkRoles) ∧
    (∀ k : RecordKind, (∀ j, p.baseOf j % windowAlign j = 0) → p.Shares region k →
      (∀ j : RecordKind, j.window < k.window → ¬p.Shares region j) → p.checkStage1 region = some ⟨4, k.window.val⟩) ∧
    (∀ c, c < 16 → (∀ w, 12 ≤ w → w ≤ 33 → p.constOk w = true) → 500 < p.toleranceAbs c ∨ 50 < p.tolerancePerMille c →
      (∀ d, d < c → p.toleranceAbs d ≤ 500 ∧ p.tolerancePerMille d ≤ 50) →
      p.checkWindows region = none → p.checkStage1 region = some ⟨5, 40 + c⟩) :=
  ⟨checkStage1_eq_none_iff, checkStage1_of_roles,
    fun _ aligned shares earlier => checkStage1_of_windows (checkWindows_of_shares aligned shares earlier),
    fun _ class_ ok bad earlier windows =>
      checkStage1_of_constants windows (checkConstants_of_tolerance class_ ok bad earlier)⟩

/-- What a role is answered, by its channel (R35). -/
theorem checkRole_does (p : PlanCtl) (r : Role) :
    (p.channel r ≠ 0xFF → 63 < p.channel r → p.checkRole r = some ⟨5, 120 + r.val⟩) ∧
    (p.channel r ≤ 63 → (∃ q : Role, q < r ∧ p.channel q = p.channel r) → p.checkRole r = some ⟨6, r.val⟩) ∧
    (p.channel r ≤ 63 → (∀ q : Role, q < r → p.channel q ≠ p.channel r) → p.checkRole r = none) ∧
    (p.channel r = 0xFF → (r = 0 ∨ r = 2 ∨ ∃ q ∈ unitRoles (roleUnit r), p.channel q ≠ 0xFF) →
      p.checkRole r = some ⟨7, r.val⟩) ∧
    (p.channel r = 0xFF → r ≠ 0 → r ≠ 2 → (∀ q ∈ unitRoles (roleUnit r), p.channel q = 0xFF) →
      p.checkRole r = none) := by
  refine ⟨checkRole_of_large, fun small conflict => ?_, fun small free => ?_, fun none needed => ?_,
    fun none zero two absent => ?_⟩
  · rw [checkRole_of_small small, if_pos ((conflict_iff r).mpr conflict)]
  · rw [checkRole_of_small small, if_neg (fun conflict => ?_)]
    obtain ⟨q, below, same⟩ := (conflict_iff r).mp conflict
    exact free q below same
  · rw [checkRole_of_unassigned none, if_pos needed]
  · exact (checkRole_eq_none_iff r).mpr ⟨fun assigned => absurd none assigned, fun _ => ⟨zero, two, absent⟩⟩

end Sys2Proof.Machine

/-! SUPPORT. The bins, the kinds, the rules and the lines that load stages 2 to 4 check (02_the_plan.md, R36 to R38). -/

namespace Sys2Proof.Machine

/-! ### The bins (R36) -/

theorem getD_drop_take {α : Type} (ws : List α) (a n k : Nat) (d : α) (inside : k < n) :
    ((ws.drop a).take n).getD k d = ws.getD (a + k) d := by
  rw [List.getD_eq_getElem?_getD, List.getD_eq_getElem?_getD, List.getElem?_take_of_lt inside, List.getElem?_drop]

section bins

variable (ws : List Word)

/-- The kind that bin i's words give. -/
def kindAt (i : Nat) : Option BinKind := BinKind.ofCode (bits (ws.getD (4 * i + 1) 0) 24 8)

/-- The fields that bin i's words give it as a bin of kind k. -/
def defAt (i : Nat) (k : BinKind) : BinDef := ⟨k, (ws.getD (4 * i) 0).extractLsb' 0 16,
  bits (ws.getD (4 * i + 1) 0) 0 24, bits (ws.getD (4 * i + 2) 0) 0 24, bits (ws.getD (4 * i + 3) 0) 0 24,
  bits (ws.getD (4 * i) 0) 16 16⟩

/-- Bin i's words pass. -/
def BinPasses (i : Nat) : Prop := ∃ k, kindAt ws i = some k ∧ (defAt ws i k).ok = true

theorem binDefOf_eq (i : Nat) (k : BinKind) : binDefOf ((ws.drop (4 * i)).take 4) k = defAt ws i k := by
  simp only [binDefOf, getD_drop_take _ _ 4 0 _ (by decide), getD_drop_take _ _ 4 1 _ (by decide),
    getD_drop_take _ _ 4 2 _ (by decide), getD_drop_take _ _ 4 3 _ (by decide)]
  rfl

/-- One bin read, after those before it. -/
def readBin (acc : List BinDef ⊕ Nat) (i : Nat) : List BinDef ⊕ Nat :=
  match acc with
  | .inr n => .inr n
  | .inl bs =>
    match kindAt ws i with
    | none => .inr i
    | some k => if (defAt ws i k).ok then .inl (bs ++ [defAt ws i k]) else .inr i

theorem readBins_eq : readBins ws = (List.range 48).foldl (readBin ws) (.inl []) := by
  unfold readBins readBin
  congr 1
  funext acc i
  simp only [binDefOf_eq, getD_drop_take _ _ 4 1 _ (by decide)]
  rfl

variable {ws}

theorem readBin_of_passes {bs : List BinDef} {i : Nat} {k : BinKind} (kind : kindAt ws i = some k)
    (ok : (defAt ws i k).ok = true) : readBin ws (.inl bs) i = .inl (bs ++ [defAt ws i k]) := by
  simp only [readBin, kind, ok, if_true]

theorem readBin_of_fails {bs : List BinDef} {i : Nat} (fails : ¬BinPasses ws i) : readBin ws (.inl bs) i = .inr i := by
  unfold readBin
  dsimp only
  split
  · rfl
  · next k kind => exact if_neg (fun ok => fails ⟨k, kind, ok⟩)

variable (ws)

/-- The first bins read: all of them pass and are kept, or the first that fails is answered. -/
theorem readBin_foldl (n : Nat) :
    (∃ bs, (List.range n).foldl (readBin ws) (.inl []) = .inl bs ∧ bs.length = n ∧
      ∀ i, i < n → ∃ k, kindAt ws i = some k ∧ (defAt ws i k).ok = true ∧ bs[i]? = some (defAt ws i k)) ∨
    ∃ i, (List.range n).foldl (readBin ws) (.inl []) = .inr i ∧ i < n ∧ ¬BinPasses ws i ∧ ∀ j, j < i → BinPasses ws j := by
  induction n with
  | zero => exact .inl ⟨[], rfl, rfl, fun i below => absurd below (Nat.not_lt_zero i)⟩
  | succ n ih =>
    rw [List.range_succ, List.foldl_append, List.foldl_cons, List.foldl_nil]
    rcases ih with ⟨bs, read, length, each⟩ | ⟨i, read, below, fails, earlier⟩
    · rw [read]
      by_cases passes : BinPasses ws n
      · obtain ⟨k, kind, ok⟩ := passes
        refine .inl ⟨_, readBin_of_passes kind ok, by rw [List.length_append, length]; rfl, fun i below => ?_⟩
        rcases Nat.lt_succ_iff_lt_or_eq.mp below with before | rfl
        · obtain ⟨k', kind', ok', at_⟩ := each i before
          exact ⟨k', kind', ok', by rw [List.getElem?_append_left (by omega), at_]⟩
        · exact ⟨k, kind, ok, by rw [← length, List.getElem?_concat_length]⟩
      · refine .inr ⟨n, readBin_of_fails passes, n.lt_succ_self, passes, fun j below => ?_⟩
        obtain ⟨k, kind, ok, _⟩ := each j below
        exact ⟨k, kind, ok⟩
    · rw [read]
      exact .inr ⟨i, rfl, Nat.lt_succ_of_lt below, fails, earlier⟩

theorem readBins_of_inl {bs : List BinDef} (read : readBins ws = .inl bs) : bs.length = 48 ∧
    ∀ i, i < 48 → ∃ k, kindAt ws i = some k ∧ (defAt ws i k).ok = true ∧ bs[i]? = some (defAt ws i k) := by
  rw [readBins_eq] at read
  rcases readBin_foldl ws 48 with ⟨bs', read', rest⟩ | ⟨i, read', _⟩
  · rw [read] at read'
    cases read'
    exact rest
  · rw [read] at read'
    cases read'

theorem readBins_of_inr {i : Nat} (read : readBins ws = .inr i) :
    i < 48 ∧ ¬BinPasses ws i ∧ ∀ j, j < i → BinPasses ws j := by
  rw [readBins_eq] at read
  rcases readBin_foldl ws 48 with ⟨bs, read', _⟩ | ⟨i', read', rest⟩
  · rw [read] at read'
    cases read'
  · rw [read] at read'
    cases read'
    exact rest

end bins

theorem binOk_iff (b : BinDef) : b.ok = true ↔
    b.kind = .unused ∨ (b.low < b.high ∧ b.high ≤ b.capacity ∧ b.preactMax ≤ b.capacity) := by
  simp only [BinDef.ok, Bool.or_eq_true, Bool.and_eq_true, decide_eq_true_eq, and_assoc]

/-! ### The kinds (R36) -/

section kinds

variable (m : Mill) (bs : List BinDef)

theorem countOk_rework : m.countOk bs .rework = true ↔ kindCount bs .rework = 1 := decide_eq_true_iff

/-- A surge's count: at most one, and one where its consumer is present. -/
theorem surgeCount_iff (n u : Nat) : (if m.presentUnit u then decide (n = 1) else decide (n ≤ 1)) = true ↔
    n ≤ 1 ∧ (m.presentUnit u = true → n = 1) := by
  split
  · next present =>
    rw [decide_eq_true_eq]
    exact ⟨fun one => ⟨one.le, fun _ => one⟩, fun h => h.2 present⟩
  · next absent =>
    rw [decide_eq_true_eq]
    exact ⟨fun few => ⟨few, fun present => absurd present absent⟩, And.left⟩

theorem countOk_surge {k : BinKind} {u : Nat} (mem : (k, u) ∈ [(BinKind.surgePellet, 5), (.surgeBag, 6), (.surgeBulk, 7)]) :
    m.countOk bs k = true ↔ kindCount bs k ≤ 1 ∧ (m.presentUnit u = true → kindCount bs k = 1) := by
  simp only [List.mem_cons, Prod.mk.injEq, List.not_mem_nil, or_false] at mem
  rcases mem with ⟨rfl, rfl⟩ | ⟨rfl, rfl⟩ | ⟨rfl, rfl⟩ <;> exact surgeCount_iff m _ _

/-- A surge that holds more than the REWORK bin can. -/
def surgeTooLarge (b : BinDef) : Bool := b.kind.isSurge && decide (reworkCapacity bs < b.capacity)

variable {m bs}

theorem checkKinds_of_counts
    (ok : ∀ k ∈ [BinKind.surgePellet, .surgeBag, .surgeBulk, .rework], m.countOk bs k = true) :
    m.checkKinds bs = (bs.findIdx? (surgeTooLarge bs)).map (fun i => ⟨8, i⟩) := by
  have found : [BinKind.surgePellet, .surgeBag, .surgeBulk, .rework].find? (fun k => !m.countOk bs k) = none :=
    List.find?_eq_none.mpr (fun k mem => by rw [ok k mem]; decide)
  simp only [Mill.checkKinds, found]
  rfl

theorem checkKinds_of_badCount {k : BinKind} {pre post : List BinKind}
    (kinds : [BinKind.surgePellet, .surgeBag, .surgeBulk, .rework] = pre ++ k :: post)
    (earlier : ∀ j ∈ pre, m.countOk bs j = true) (bad : ¬m.countOk bs k = true) :
    m.checkKinds bs = some ⟨8, 0x100 + k.code⟩ := by
  have found : [BinKind.surgePellet, .surgeBag, .surgeBulk, .rework].find? (fun k => !m.countOk bs k) = some k :=
    List.find?_eq_some_iff_append.mpr ⟨by rw [Bool.eq_false_iff.mpr bad]; rfl, pre, post, kinds,
      fun j mem => by rw [earlier j mem]; rfl⟩
  simp only [Mill.checkKinds, found]
  rfl

theorem surgeTooLarge_eq_false_iff (b : BinDef) :
    surgeTooLarge bs b = false ↔ (b.kind.isSurge = true → b.capacity ≤ reworkCapacity bs) := by
  rw [surgeTooLarge, Bool.and_eq_false_imp]
  exact imp_congr Iff.rfl (decide_eq_false_iff_not.trans Nat.not_lt)

theorem checkKinds_of_largeSurge {pre post : List BinDef} {b : BinDef}
    (ok : ∀ k ∈ [BinKind.surgePellet, .surgeBag, .surgeBulk, .rework], m.countOk bs k = true)
    (bins : bs = pre ++ b :: post) (surge : b.kind.isSurge = true) (large : reworkCapacity bs < b.capacity)
    (earlier : ∀ d ∈ pre, d.kind.isSurge = true → d.capacity ≤ reworkCapacity bs) :
    m.checkKinds bs = some ⟨8, pre.length⟩ := by
  have before : pre.findIdx? (surgeTooLarge bs) = none :=
    List.findIdx?_eq_none_iff.mpr (fun d mem => (surgeTooLarge_eq_false_iff d).mpr (earlier d mem))
  have here : surgeTooLarge bs b = true := by
    rw [surgeTooLarge, surge, decide_eq_true large]
    rfl
  rw [checkKinds_of_counts ok]
  generalize surgeTooLarge bs = tooLarge at before here
  rw [bins, List.findIdx?_append, before, List.findIdx?_cons, here]
  simp

theorem checkKinds_eq_none_iff : m.checkKinds bs = none ↔
    (∀ k ∈ [BinKind.surgePellet, .surgeBag, .surgeBulk, .rework], m.countOk bs k = true) ∧
    ∀ b ∈ bs, b.kind.isSurge = true → b.capacity ≤ reworkCapacity bs := by
  constructor
  · intro passes
    have ok : ∀ k ∈ [BinKind.surgePellet, .surgeBag, .surgeBulk, .rework], m.countOk bs k = true := by
      by_contra bad
      obtain ⟨k, found⟩ := Option.ne_none_iff_exists'.mp (mt List.find?_eq_none.mp
        (fun all => bad (fun k mem => by simpa using all k mem)) :
        [BinKind.surgePellet, .surgeBag, .surgeBulk, .rework].find? (fun k => !m.countOk bs k) ≠ none)
      simp only [Mill.checkKinds, found, reduceCtorEq] at passes
    rw [checkKinds_of_counts ok, Option.map_eq_none_iff, List.findIdx?_eq_none_iff] at passes
    exact ⟨ok, fun b mem => (surgeTooLarge_eq_false_iff b).mp (passes b mem)⟩
  · rintro ⟨ok, surges⟩
    rw [checkKinds_of_counts ok, Option.map_eq_none_iff, List.findIdx?_eq_none_iff]
    exact fun b mem => (surgeTooLarge_eq_false_iff b).mpr (surges b mem)

end kinds

/-! ### The rules (R37) -/

section rules

variable {p : PlanCtl} {n : Nat} (ns : List Nat) (rule : n ≠ 32)
include rule

theorem nextRule_of_rule : p.nextRule (n :: ns) =
    if !p.ruleChecked n then p.nextRule ns
    else if p.ruleTreatment n = 2 then p.nextRule ns
    else if p.ruleTreatment n ≠ 1 then .bad n
    else if p.ruleMass n < p.batchMin || p.batchMax < p.ruleMass n then .bad n
    else .verify n (p.ruleTicket n) := by
  rw [PlanCtl.nextRule, if_neg rule]
  rfl

theorem nextRule_of_unchecked (empty : p.ruleFrom n = 0 ∨ p.ruleTo n = 0) : p.nextRule (n :: ns) = p.nextRule ns := by
  have unchecked : p.ruleChecked n = false := by
    rcases empty with none | none <;> simp [PlanCtl.ruleChecked, none]
  rw [nextRule_of_rule ns rule, unchecked]
  rfl

theorem nextRule_of_checked (some : p.ruleFrom n ≠ 0) (someTo : p.ruleTo n ≠ 0) :
    (p.ruleTreatment n = 2 → p.nextRule (n :: ns) = p.nextRule ns) ∧
    (p.ruleTreatment n ≠ 1 → p.ruleTreatment n ≠ 2 → p.nextRule (n :: ns) = .bad n) ∧
    (p.ruleTreatment n = 1 → p.batchMin ≤ p.ruleMass n → p.ruleMass n ≤ p.batchMax →
      p.nextRule (n :: ns) = .verify n (p.ruleTicket n)) ∧
    (p.ruleTreatment n = 1 → p.ruleMass n < p.batchMin ∨ p.batchMax < p.ruleMass n → p.nextRule (n :: ns) = .bad n) := by
  have checked : p.ruleChecked n = true := by
    rw [PlanCtl.ruleChecked, Bool.and_eq_true, decide_eq_true_eq, decide_eq_true_eq]
    exact ⟨some, someTo⟩
  rw [nextRule_of_rule ns rule, checked]
  refine ⟨fun forbid => ?_, fun noFlush noForbid => ?_, fun flush low high => ?_, fun flush bad => ?_⟩
  · simp only [forbid, Bool.not_true, Bool.false_eq_true, if_false, if_true]
  · simp only [noFlush, noForbid, Bool.not_true, Bool.false_eq_true, if_false, ne_eq, not_false_eq_true, if_true]
  · simp [flush, Nat.not_lt.mpr low, Nat.not_lt.mpr high]
  · simp [flush, bad]

end rules

/-! ### The lines (R38) -/

section lines

variable {p : PlanCtl} {l : Line} (ls : List Line) {ws : List Word}

theorem blockOk_iff (p : PlanCtl) (l : Line) :
    p.blockOk l = true ↔ p.ceilingMax l ≤ 1000 ∧ p.ceilingMin l ≤ p.ceilingMax l ∧ p.rateFloor l ≤ p.ceilingMin l ∧
      p.loadTop l < p.loadTrip l ∧ 1 ≤ p.adjustDelay l ∧ p.adjustDelay l ≤ 4 ∧
      (p.adjustOn l = true → 1 ≤ p.adjustStep l ∧ p.adjustStep l ≤ 1000) ∧
      (l = .pellet → p.spanCode l ≤ 3 ∧ p.curveStart l < p.tempTrip l) := by
  have adjusts (b : Bool) (q : Prop) : (b = false ∨ q) ↔ (b = true → q) := by cases b <;> simp
  simp only [PlanCtl.blockOk, Bool.and_eq_true, Bool.or_eq_true, decide_eq_true_eq, and_assoc, ne_eq, Bool.not_eq_true',
    adjusts, ← imp_iff_not_or]

theorem copyOk_iff : p.copyOk l (ws.take 5) = true ↔ ∀ k, k < 5 → ws.getD k 0 = p.block l k := by
  rw [PlanCtl.copyOk, List.all_eq_true]
  refine forall_congr' fun k => ?_
  rw [List.mem_range]
  refine forall_congr' fun inside => ?_
  rw [decide_eq_true_eq, ← List.drop_zero (l := ws), getD_drop_take _ _ _ _ _ inside, Nat.zero_add, List.drop_zero]

theorem checkLines_of_ok (block : p.blockOk l = true) (copies : ∀ k, k < 5 → ws.getD k 0 = p.block l k) :
    p.checkLines (l :: ls) ws = p.checkLines ls (ws.drop 5) :=
  if_pos (by rw [block, copyOk_iff.mpr copies]; rfl)

theorem checkLines_of_bad (bad : p.blockOk l = false ∨ ∃ k, k < 5 ∧ ws.getD k 0 ≠ p.block l k) :
    p.checkLines (l :: ls) ws = some ⟨10, lineUnit l⟩ := by
  refine if_neg fun both => ?_
  obtain ⟨block, copies⟩ := (Bool.and_eq_true _ _).mp both
  rcases bad with badBlock | ⟨k, inside, differs⟩
  · exact Bool.false_ne_true (badBlock.symm.trans block)
  · exact differs (copyOk_iff.mp copies k inside)

end lines

end Sys2Proof.Machine

/-! SUPPORT. The load stages as rows, their reads and their endings (02_the_plan.md, R32 to R39). -/

namespace Sys2Proof.Machine

/-! ### The reads of the stages (R32) -/

/-- The reads that a load stage posts for words of a record. -/
def Mill.loadReads (m : Mill) (k : RecordKind) (i : Nat) (ws : List Nat) : List LaneEntry :=
  ws.map (fun w => ⟨.planController, m.recordAddr k i w, .read .loadStage⟩)

/-- A fold whose steps each add to the outbox adds them all, in order. -/
theorem foldl_outbox {α : Type} (step : Mill → α → Mill) (posts : α → List LaneEntry) (m : Mill)
    (adds : ∀ es a, step { m with outbox := es } a = { m with outbox := es ++ posts a }) (l : List α)
    (es : List LaneEntry) : l.foldl step { m with outbox := es } = { m with outbox := es ++ l.flatMap posts } := by
  induction l generalizing es with
  | nil => rw [List.flatMap_nil, List.append_nil]; rfl
  | cons a l ih => rw [List.foldl_cons, adds, ih, List.flatMap_cons, List.append_assoc]

section reads

variable (m : Mill) (k : RecordKind)

theorem readRecord_eq (i : Nat) (ws : List Nat) :
    m.readRecord k i ws .loadStage = { m with outbox := m.outbox ++ m.loadReads k i ws } := by
  have posts : m.loadReads k i ws = ws.flatMap (fun w => [⟨.planController, m.recordAddr k i w, .read .loadStage⟩]) := by
    rw [Mill.loadReads, List.map_eq_flatMap]
  rw [posts]
  exact foldl_outbox (fun m w => m.postRead .planController (m.recordAddr k i w) .loadStage) _ m
    (fun _ _ => rfl) ws m.outbox

theorem readAll_eq (ws : List Nat) : m.readAll k ws =
    { m with outbox := m.outbox ++ (List.range k.count).flatMap (fun i => m.loadReads k i ws) } :=
  foldl_outbox (fun m i => m.readRecord k i ws .loadStage) (fun i => m.loadReads k i ws) m
    (fun es i => readRecord_eq { m with outbox := es } k i ws) _ m.outbox

theorem readStage2_eq : m.readStage2 = { m with
    outbox := m.outbox ++ (List.range 48).flatMap (fun i => m.loadReads .bin i [2, 3, 4, 5]) ++
      (allLines.filter m.presentLine).flatMap (fun l => m.loadReads .unit (lineUnit l) [6, 7, 8, 9, 10]) } := by
  unfold Mill.readStage2
  rw [readAll_eq]
  exact foldl_outbox (fun m l => m.readRecord .unit (lineUnit l) [6, 7, 8, 9, 10] .loadStage)
    (fun l => m.loadReads .unit (lineUnit l) [6, 7, 8, 9, 10]) m
    (fun es l => readRecord_eq { m with outbox := es } .unit (lineUnit l) _) _ _

theorem readStage5_eq : m.readStage5 = { m with
    outbox := m.outbox ++ (List.range 48).flatMap (fun j => m.loadReads .bin j [6, 9]) ++
      m.loadReads .status 0 [2] ++
      (List.range 256).flatMap (fun j => m.loadReads .order j [3, 4, 5, 7, 8, 9, 10, 11, 12, 13, 14, 15]) ++
      (List.range 8).flatMap (fun j => m.loadReads .truck j [2, 3, 4, 5, 6, 7, 8, 9, 10, 11, 12, 13, 14, 15]) } := by
  unfold Mill.readStage5
  rw [readAll_eq m, readRecord_eq, readAll_eq, readAll_eq]
  rfl

end reads

/-! ### How a stage ends -/

section ends

variable {s : State} {i : Instr} {e : LoadEnd}

theorem row_goesOn {m : Mill} (row : exec i s = s.endStage e) (goes : e = .goesOn m) : exec i s = .next (s.leaves m) := by
  rw [row, goes]
  rfl

theorem row_fails {m : Mill} {r : PlanResult} (row : exec i s = s.endStage e) (fails : e = .fails m r) :
    (s.tx = none → exec i s = .next (s.leaves (m.failLoad s.region r))) ∧ (s.tx.isSome = true → exec i s = .next s) := by
  rw [row, fails]
  constructor
  · intro idle
    exact if_pos (by rw [idle]; rfl)
  · intro busy
    exact if_neg (by rw [Option.isNone_iff_eq_none]; exact Option.isSome_iff_ne_none.mp busy)

end ends

theorem failLoad_does (m : Mill) (region : Addr) (r : PlanResult) : (m.failLoad region r).plan.state = .opened ∧
    (m.failLoad region r).plan.words = [] ∧ (m.failLoad region r).plan.load = .idle ∧
    (m.failLoad region r).stock = m.stock ∧ (m.failLoad region r).book = m.book := by
  rw [Mill.failLoad, postOutcome_eq]
  exact ⟨rfl, rfl, rfl, rfl, rfl⟩

/-! ### The rows -/

section rows

variable {s : State} (free : s.free .planController)
include free

theorem execLoadStage1_eq (stage : s.mill.plan.load = .stage1) (read : s.mill.readsDone .loadStage 180 = true) :
    exec .loadStage1 s = s.endStage (s.mill.loadStage1 s.region) :=
  if_pos (by rw [planFree_of_free free, stage, read]; rfl)

theorem execLoadStage2_eq (stage : s.mill.plan.load = .stage2)
    (read : s.mill.readsDone .loadStage s.mill.stage2Size = true) :
    exec .loadStage2 s = s.endStage s.mill.loadStage2 :=
  if_pos (by rw [planFree_of_free free, stage, read]; rfl)

theorem execLoadStage3_eq {item : Nat} {v : Verdict} (stage : s.mill.plan.load = .stage3 item (some v)) :
    exec .loadStage3 s = s.endStage (s.mill.loadStage3 item v) := by
  change execLoadStage3 s = _
  simp only [execLoadStage3, stage, planFree_of_free free, if_true]

end rows

/-! ### Stage 1 -/

/-- The plan copy with the words of stage 1. -/
def Mill.stage1Plan (m : Mill) : PlanCtl := { m.plan with words := m.readsOf .loadStage }

/-- The mill whose stage 1 has passed, before its reads of stage 2. -/
def Mill.stage1Passed (m : Mill) : Mill := { m.takeReads .loadStage with
  plan := { m.stage1Plan with present := m.stage1Plan.presence, load := .stage2 } }

section stage1

variable {m : Mill} {region : Addr}

theorem loadStage1_of_bad {r : PlanResult} (bad : m.stage1Plan.checkStage1 region = some r) :
    m.loadStage1 region = .fails (m.takeReads .loadStage) r := by
  rw [Mill.stage1Plan] at bad
  simp only [Mill.loadStage1, Mill.takeReads, bad]

theorem loadStage1_of_ok (ok : m.stage1Plan.checkStage1 region = none) : m.loadStage1 region = .goesOn
    { m.stage1Passed with
      outbox := m.outbox ++ (List.range 48).flatMap (fun i => m.stage1Passed.loadReads .bin i [2, 3, 4, 5]) ++
        (allLines.filter m.stage1Passed.presentLine).flatMap (fun l =>
          m.stage1Passed.loadReads .unit (lineUnit l) [6, 7, 8, 9, 10]) } := by
  rw [Mill.stage1Plan] at ok
  simp only [Mill.loadStage1, Mill.takeReads, ok, readStage2_eq]
  rfl

end stage1

/-! ### The rules, then the lines -/

section loadRules

variable {m : Mill} {n : Nat}

theorem loadRules_of_bad {k : Nat} (bad : m.plan.nextRule ((List.range 33).drop n) = .bad k) :
    m.loadRules n = .fails m ⟨9, k⟩ := by
  rw [← rulesFrom] at bad
  simp only [Mill.loadRules, bad]
  rfl

theorem loadRules_of_verify {k head : Nat} (verify : m.plan.nextRule ((List.range 33).drop n) = .verify k head) :
    m.loadRules n = .goesOn { m with
      plan := { m.plan with load := .stage3 k none }
      checker := { m.checker with requests := m.checker.requests ++ [⟨.load, head⟩] } } := by
  rw [← rulesFrom] at verify
  simp only [Mill.loadRules, verify]
  rfl

variable (finished : m.plan.nextRule ((List.range 33).drop n) = .finished)
include finished

theorem loadRules_of_badLine {r : PlanResult}
    (bad : m.plan.checkLines (allLines.filter m.presentLine) m.plan.unitWords = some r) : m.loadRules n = .fails m r := by
  rw [← rulesFrom] at finished
  rw [← Mill.presentLines] at bad
  simp only [Mill.loadRules, finished, bad]

theorem loadRules_of_ok (ok : m.plan.checkLines (allLines.filter m.presentLine) m.plan.unitWords = none) :
    m.loadRules n = .goesOn (m.readStage5.atPhase .stage5) := by
  rw [← rulesFrom] at finished
  rw [← Mill.presentLines] at ok
  simp only [Mill.loadRules, finished, ok]

end loadRules

/-- What the rules from item n on, then the lines, bring a stage to, for the row that judges them. -/
theorem loadRules_row {s : State} {i : Instr} {m : Mill} {n : Nat} (row : exec i s = s.endStage (m.loadRules n)) :
    (∀ k, m.plan.nextRule ((List.range 33).drop n) = .bad k →
      (s.tx = none → exec i s = .next (s.leaves (m.failLoad s.region ⟨9, k⟩))) ∧
        (s.tx.isSome = true → exec i s = .next s)) ∧
    (∀ k head, m.plan.nextRule ((List.range 33).drop n) = .verify k head → exec i s = .next (s.leaves { m with
      plan := { m.plan with load := .stage3 k none }
      checker := { m.checker with requests := m.checker.requests ++ [⟨.load, head⟩] } })) ∧
    (m.plan.nextRule ((List.range 33).drop n) = .finished →
      (∀ r, m.plan.checkLines (allLines.filter m.presentLine) m.plan.unitWords = some r →
        (s.tx = none → exec i s = .next (s.leaves (m.failLoad s.region r))) ∧
          (s.tx.isSome = true → exec i s = .next s)) ∧
      (m.plan.checkLines (allLines.filter m.presentLine) m.plan.unitWords = none →
        exec i s = .next (s.leaves { m with
          plan := { m.plan with load := .stage5 }
          outbox := m.outbox ++ (List.range 48).flatMap (fun j => m.loadReads .bin j [6, 9]) ++
            m.loadReads .status 0 [2] ++
            (List.range 256).flatMap (fun j => m.loadReads .order j [3, 4, 5, 7, 8, 9, 10, 11, 12, 13, 14, 15]) ++
            (List.range 8).flatMap (fun j => m.loadReads .truck j [2, 3, 4, 5, 6, 7, 8, 9, 10, 11, 12, 13, 14, 15]) }))) := by
  refine ⟨fun k bad => row_fails row (loadRules_of_bad bad), fun k head verify => row_goesOn row (loadRules_of_verify verify),
    fun finished => ⟨fun r bad => row_fails row (loadRules_of_badLine finished bad), fun ok => ?_⟩⟩
  rw [row_goesOn row (loadRules_of_ok finished ok), readStage5_eq]
  rfl

/-! ### Stages 2 and 3 -/

section stage2

variable {m : Mill}

theorem loadStage2_of_badBin {i : Nat} (bad : readBins ((m.readsOf .loadStage).take 192) = .inr i) :
    m.loadStage2 = .fails (m.takeReads .loadStage) ⟨8, i⟩ := by
  unfold Mill.loadStage2
  dsimp only
  rw [bad]
  rfl

variable {bs : List BinDef} (bins : readBins ((m.readsOf .loadStage).take 192) = .inl bs)
include bins

theorem loadStage2_of_badKinds {r : PlanResult} (bad : (m.takeReads .loadStage).checkKinds bs = some r) :
    m.loadStage2 = .fails (m.takeReads .loadStage) r := by
  unfold Mill.loadStage2
  dsimp only
  rw [bins]
  dsimp only
  rw [bad]

theorem loadStage2_of_ok (ok : (m.takeReads .loadStage).checkKinds bs = none) :
    m.loadStage2 = Mill.loadRules { m.takeReads .loadStage with plan := { (m.takeReads .loadStage).plan with
      binDefs := bs, unitWords := (m.readsOf .loadStage).drop 192, flushChains := List.replicate 32 none
      defaultFlush := none } } 0 := by
  unfold Mill.loadStage2
  dsimp only
  rw [bins]
  dsimp only
  rw [ok]

end stage2

theorem loadStage3_of_fail (m : Mill) (item : Nat) (a : Answer) : m.loadStage3 item (.fail a) = .fails m ⟨9, item⟩ := rfl

theorem loadStage3_of_ok (m : Mill) (item : Nat) (c : Chain) : m.loadStage3 item (.ok c) =
    Mill.loadRules { m with plan := { m.plan with
      defaultFlush := if item = 32 then some c else m.plan.defaultFlush
      flushChains := if item = 32 then m.plan.flushChains else m.plan.flushChains.set item (some c) } } (item + 1) := by
  by_cases last : item = 32 <;> simp only [Mill.loadStage3, last, if_true, if_false]

theorem stage2Size_eq (m : Mill) : m.stage2Size = 192 + 5 * (allLines.filter m.presentLine).length := rfl

/-- The ranges of the constants, in word order (R34). -/
theorem constRanges (p : PlanCtl) : (List.range 22).map (fun n => p.constRange (12 + n)) =
    [some (1000, 20000), some (max 5000 (2 * p.batchMin), 80000), some (10, 600), some (5, 300), some (200, 10000),
      some (1, 60), some (1, 500), some (5, 1000), some (10, 2000), some (1, 120), some (100, 5000), some (1, 20),
      some (10, 2000), some (0, 1000), some (60, 3600), some (30, 1800), some (5, 120), some (100, 20000),
      some (100, 20000), none, some (0, 255), some (p.batchMin, p.batchMax)] := rfl

end Sys2Proof.Machine

/-! SUPPORT. The load stages 1 to 3 settled (02_the_plan.md, R32 to R39). -/

namespace Sys2Proof.Machine

/-- The windows, the constants, the roles and the presence that pass stage 1 (R33 to R35). -/
theorem stage1_parts (p : PlanCtl) (region : Addr) :
    (p.checkWindows region = none ↔ ∀ k, p.baseOf k % windowAlign k = 0 ∧
      ¬(p.baseOf k < region.toNat + 4096 ∧ region.toNat < p.baseOf k + k.span) ∧
      ∀ j : RecordKind, j.window < k.window →
        ¬(p.baseOf k < p.baseOf j + j.span ∧ p.baseOf j < p.baseOf k + k.span)) ∧
    (p.checkConstants = none ↔ (∀ w, 12 ≤ w → w ≤ 33 → p.constOk w = true) ∧
      ∀ c, c < 16 → p.toleranceAbs c ≤ 500 ∧ p.tolerancePerMille c ≤ 50) ∧
    (p.checkRoles = none ↔ ∀ r : Role,
      (p.channel r ≠ 0xFF → p.channel r ≤ 63 ∧ ∀ q : Role, q < r → p.channel q ≠ p.channel r) ∧
      (p.channel r = 0xFF → r ≠ 0 ∧ r ≠ 2 ∧ ∀ q ∈ unitRoles (roleUnit r), p.channel q = 0xFF)) := by
  refine ⟨?_, checkConstants_eq_none_iff, checkRoles_eq_none_iff⟩
  rw [checkWindows_eq_none_iff]
  refine forall_congr' fun k => and_congr_right fun _ => ?_
  rw [PlanCtl.Shares, not_or, not_exists]
  exact and_congr_right fun _ => forall_congr' fun j => not_and

/-- The counts of the kinds, and what a failing one or a surge too large is answered (R36). -/
theorem countOk_iff (m : Mill) (bs : List BinDef) :
    (∀ k ∈ [BinKind.surgePellet, .surgeBag, .surgeBulk, .rework], m.countOk bs k = true) ↔
      kindCount bs .rework = 1 ∧ ∀ k u, (k, u) ∈ [(BinKind.surgePellet, 5), (.surgeBag, 6), (.surgeBulk, 7)] →
        kindCount bs k ≤ 1 ∧ (m.presentUnit u = true → kindCount bs k = 1) := by
  constructor
  · intro ok
    refine ⟨(countOk_rework m bs).mp (ok .rework (by decide)), fun k u mem => (countOk_surge m bs mem).mp (ok k ?_)⟩
    simp only [List.mem_cons, Prod.mk.injEq, List.not_mem_nil, or_false] at mem
    rcases mem with ⟨rfl, _⟩ | ⟨rfl, _⟩ | ⟨rfl, _⟩ <;> decide
  · rintro ⟨rework, surges⟩ k mem
    simp only [List.mem_cons, List.not_mem_nil, or_false] at mem
    rcases mem with rfl | rfl | rfl | rfl
    · exact (countOk_surge m bs (u := 5) (by decide)).mpr (surges _ _ (by decide))
    · exact (countOk_surge m bs (u := 6) (by decide)).mpr (surges _ _ (by decide))
    · exact (countOk_surge m bs (u := 7) (by decide)).mpr (surges _ _ (by decide))
    · exact (countOk_rework m bs).mpr rework

/-- Settles O25: the rows by how their stage ends, then each stage's checks. -/
theorem loadStages : Obligations.LoadStages := by
  refine ⟨fun s m free => ?goes, fun s m r free idle => ?fails, failLoad_does, fun m region => ?stage1,
    fun s free stage read => ?row1, fun s free => ?rows23, fun ws => ⟨fun bs => readBins_of_inl ws, fun i => readBins_of_inr ws⟩,
    fun p region => ?checks, binOk_iff, fun m bs => ?kinds, fun m bs => ?badKinds, fun p n ns rule => ?rules,
    fun p ns => ⟨rfl, rfl⟩, loadStage3_of_fail, fun p l ls ws => ?lines⟩
  case goes =>
    exact ⟨fun stage read => row_goesOn (execLoadStage1_eq free stage read),
      fun stage read => row_goesOn (execLoadStage2_eq free stage read),
      fun item v stage => row_goesOn (execLoadStage3_eq free stage)⟩
  case fails =>
    exact ⟨fun stage read fails => (row_fails (execLoadStage1_eq free stage read) fails).1 idle,
      fun stage read fails => (row_fails (execLoadStage2_eq free stage read) fails).1 idle,
      fun item v stage fails => (row_fails (execLoadStage3_eq free stage) fails).1 idle⟩
  case stage1 =>
    exact ⟨fun r bad => loadStage1_of_bad bad, fun ok => ⟨_, loadStage1_of_ok ok, rfl, rfl⟩⟩
  case row1 =>
    exact ⟨fun ok => row_goesOn (execLoadStage1_eq free stage read) (loadStage1_of_ok ok),
      fun r bad => row_fails (execLoadStage1_eq free stage read) (loadStage1_of_bad bad)⟩
  case rows23 =>
    refine ⟨fun stage read => ⟨fun i bad => ?_, fun bs bins => ⟨fun r bad => ?_, fun ok => ?_⟩⟩, fun item a stage => ?_,
      fun item c stage => ?_, stage2Size_eq s.mill⟩
    · exact row_fails (execLoadStage2_eq free stage read) (loadStage2_of_badBin bad)
    · exact row_fails (execLoadStage2_eq free stage read) (loadStage2_of_badKinds bins bad)
    · have row := execLoadStage2_eq free stage read
      rw [loadStage2_of_ok bins ok] at row
      exact loadRules_row row
    · exact row_fails (execLoadStage3_eq free stage) (loadStage3_of_fail s.mill item a)
    · have row := execLoadStage3_eq free stage
      rw [loadStage3_of_ok] at row
      exact loadRules_row row
  case checks =>
    obtain ⟨whole, roles, overlaps, tolerances⟩ := checkStage1_does p region
    obtain ⟨windowsPass, constantsPass, rolesPass⟩ := stage1_parts p region
    exact ⟨whole, roles, overlaps, tolerances,
      fun r x => checkRoles_of_first, checkRole_does p, windowsPass,
      fun k bad earlier => checkStage1_of_windows (checkWindows_of_misaligned bad earlier), rfl, rfl, constantsPass,
      fun w low high bad earlier windows => checkStage1_of_constants windows (checkConstants_of_bad low high bad earlier),
      fun w lo hi => constOk_iff, constRanges p, rolesPass, presence_iff⟩
  case kinds =>
    rw [checkKinds_eq_none_iff, countOk_iff, and_assoc]
  case badKinds =>
    intro kinds counts
    have counts_iff (k) : counts k ↔ m.countOk bs k = true := by
      cases k with
      | rework => exact (countOk_rework m bs).symm
      | surgePellet => exact (countOk_surge m bs (u := 5) (by decide)).symm
      | surgeBag => exact (countOk_surge m bs (u := 6) (by decide)).symm
      | surgeBulk => exact (countOk_surge m bs (u := 7) (by decide)).symm
      | unused => exact ⟨fun _ => rfl, fun _ => trivial⟩
      | raw => exact ⟨fun _ => rfl, fun _ => trivial⟩
      | ground => exact ⟨fun _ => rfl, fun _ => trivial⟩
      | premix => exact ⟨fun _ => rfl, fun _ => trivial⟩
    exact ⟨fun pre k post split earlier bad => checkKinds_of_badCount split
        (fun j mem => (counts_iff j).mp (earlier j mem)) (mt (counts_iff k).mpr bad),
      fun pre b post ok split surge large earlier => checkKinds_of_largeSurge
        (fun k mem => (counts_iff k).mp (ok k mem)) split surge large earlier⟩
  case rules =>
    exact ⟨nextRule_of_unchecked ns rule, nextRule_of_checked ns rule⟩
  case lines =>
    exact ⟨blockOk_iff p l, rfl, checkLines_of_ok ls, checkLines_of_bad ls⟩

end Sys2Proof.Machine

/-! SUPPORT. The sweep of adoption as a list of posts (02_the_plan.md, R40 to R42). -/

namespace Sys2Proof.Machine

/-! ### Posts in a row -/

/-- The mill with these posts added to its outbox. -/
def Mill.posting (m : Mill) (es : List LaneEntry) : Mill := { m with outbox := m.outbox ++ es }

theorem posting_nil (m : Mill) : m.posting [] = m := by
  rw [Mill.posting, List.append_nil]

theorem posting_posting (m : Mill) (es fs : List LaneEntry) : (m.posting es).posting fs = m.posting (es ++ fs) := by
  rw [Mill.posting, Mill.posting, Mill.posting, List.append_assoc]

/-- A fold whose steps post, whatever is in the outbox, posts in the order of its list. -/
theorem foldl_posting {α : Type} (step : Mill → α → Mill) (posts : α → List LaneEntry) (m : Mill)
    (adds : ∀ es a, step (m.posting es) a = (m.posting es).posting (posts a)) (l : List α) :
    l.foldl step m = m.posting (l.flatMap posts) := by
  have all (es : List LaneEntry) : l.foldl step (m.posting es) = m.posting (es ++ l.flatMap posts) := by
    induction l generalizing es with
    | nil => rw [List.flatMap_nil, List.append_nil]; rfl
    | cons a l ih => rw [List.foldl_cons, adds, posting_posting, ih, List.flatMap_cons, List.append_assoc]
  have whole := all []
  rw [posting_nil, List.nil_append] at whole
  exact whole

/-- The post of a record's word in its device lanes. -/
def Mill.recordPost (m : Mill) (p : Block) (k : RecordKind) (i w : Nat) (d : Word) : LaneEntry :=
  ⟨p, m.recordAddr k i w, .write (m.deviceMask k i w) d .none⟩

section posts

variable (m : Mill)

theorem postAll_posting (p : Block) (k : RecordKind) (i : Nat) (ws : List Nat) (new : Nat → Word) :
    m.postAll p k i ws new = m.posting (ws.flatMap (fun w => [m.recordPost p k i w (new w)])) :=
  foldl_posting (fun m w => m.postRecord p k i w (new w)) _ m (fun _ _ => rfl) ws

theorem postChanged_posting (p : Block) (k : RecordKind) (i : Nat) (ws : List Nat) (old new : Nat → Word) :
    m.postChanged p k i ws old new =
      m.posting (ws.flatMap (fun w => if old w = new w then [] else [m.recordPost p k i w (new w)])) := by
  refine foldl_posting (fun m w => if old w = new w then m else m.postRecord p k i w (new w)) _ m (fun es w => ?_) ws
  split
  · rw [posting_nil]
  · rfl

/-! ### The posts of each part -/

/-- The posts of the whole of a record. -/
def Mill.wholePosts (p : Block) (k : RecordKind) (i : Nat) (ws : List Nat) (new : Nat → Word) : List LaneEntry :=
  ws.flatMap (fun w => [m.recordPost p k i w (new w)])

/-- The posts of the orders' changed words. -/
def Mill.orderPosts (ws : List Word) : List LaneEntry :=
  (List.finRange 256).flatMap (fun o : Fin 256 => orderWords.flatMap (fun w =>
    if orderWordOf (retainedOrder ws o) w = (m.order o).word w then []
    else [m.recordPost .orderBook .order o w ((m.order o).word w)]))

/-- The posts of the use counts and the plan marks. -/
def Mill.ticketPosts : List LaneEntry :=
  (List.finRange 256).flatMap (fun n : Fin 256 =>
    [m.recordPost .orderBook .ticket n 6 (wordOf [(getAt m.book.useCount n, 0, 16)]),
      m.recordPost .orderBook .ticket n 7 (wordOf [(bit (getAt m.book.planMark n), 0, 1)])])

def Mill.binPosts : List LaneEntry :=
  (List.finRange 48).flatMap (fun i : Fin 48 =>
    m.wholePosts .stockUnit .bin i (getAt m.stock.bins i).words (getAt m.stock.bins i).word)

def Mill.batchPosts : List LaneEntry :=
  (List.finRange 32).flatMap (fun b : Fin 32 => m.wholePosts .batchSequencer .batch b batchWords (m.batch b).word)

def Mill.scalePosts : List LaneEntry :=
  [Scale.one, .two].flatMap (fun sc => m.wholePosts .weighMix .unit (scaleUnit sc) [2, 3] (m.scale sc).word)

def Mill.mixerPosts : List LaneEntry := m.wholePosts .weighMix .unit 2 [2, 3] m.weigh.mixer.word

def Mill.allLinePosts : List LaneEntry :=
  allLines.flatMap (fun l => m.wholePosts .lineSupervisor .unit (lineUnit l) [2, 3, 4] (m.lineWord l))

def Mill.outletPosts : List LaneEntry :=
  m.wholePosts .packOut .unit 6 [2, 3] m.pack.bagger.word ++ m.wholePosts .packOut .unit 7 [2, 3] m.pack.loadout.word

def Mill.unitPosts : List LaneEntry := m.scalePosts ++ m.mixerPosts ++ m.allLinePosts ++ m.outletPosts

def Mill.truckPosts : List LaneEntry :=
  (List.finRange 8).flatMap (fun t : Fin 8 => m.wholePosts .tripTable .truck t tripWords (m.trip t).word)

/-- The posts of the ACTION words, zero. -/
def Mill.actionPosts : List LaneEntry :=
  actionKinds.flatMap (fun k => (List.range k.count).flatMap (fun i =>
    [⟨.actionExecutor, m.recordAddr k i k.actionWord, .write 0xF 0 .none⟩]))

/-- The posts of the refusal record, zero. -/
def Mill.refusalPosts : List LaneEntry :=
  [3, 4, 5].flatMap (fun w => [⟨.pathUnit, m.recordAddr .status 0 w, .write 0xF 0 .none⟩])

theorem sweepOrders_eq (ws : List Word) : m.sweepOrders ws = m.posting (m.orderPosts ws) := by
  unfold Mill.sweepOrders Mill.orderPosts
  exact foldl_posting _ _ m (fun es o => postChanged_posting (m.posting es) ..) _

theorem sweepTickets_eq : m.sweepTickets = m.posting m.ticketPosts := by
  unfold Mill.sweepTickets Mill.ticketPosts
  exact foldl_posting _ _ m (fun es n => posting_posting (m.posting es) [_] [_]) _

theorem sweepBins_eq : m.sweepBins = m.posting m.binPosts := by
  unfold Mill.sweepBins Mill.binPosts
  exact foldl_posting _ _ m (fun es i => postAll_posting (m.posting es) ..) _

theorem sweepBatches_eq : m.sweepBatches = m.posting m.batchPosts := by
  unfold Mill.sweepBatches Mill.batchPosts
  exact foldl_posting _ _ m (fun es b => postAll_posting (m.posting es) ..) _

theorem sweepTrucks_eq : m.sweepTrucks = m.posting m.truckPosts := by
  unfold Mill.sweepTrucks Mill.truckPosts
  exact foldl_posting _ _ m (fun es t => postAll_posting (m.posting es) ..) _

theorem sweepScales_eq : [Scale.one, .two].foldl (fun m sc =>
    m.postAll .weighMix .unit (scaleUnit sc) [2, 3] (m.scale sc).word) m = m.posting m.scalePosts :=
  foldl_posting _ _ m (fun es _ => postAll_posting (m.posting es) ..) _

theorem sweepLines_eq : allLines.foldl (fun m l =>
    m.postAll .lineSupervisor .unit (lineUnit l) [2, 3, 4] (m.lineWord l)) m = m.posting m.allLinePosts :=
  foldl_posting _ _ m (fun es _ => postAll_posting (m.posting es) ..) _

theorem sweepMixer_eq : m.postAll .weighMix .unit 2 [2, 3] m.weigh.mixer.word = m.posting m.mixerPosts :=
  postAll_posting m ..

theorem sweepOutlets_eq : (m.postAll .packOut .unit 6 [2, 3] m.pack.bagger.word).postAll .packOut .unit 7 [2, 3]
    m.pack.loadout.word = m.posting m.outletPosts := by
  rw [postAll_posting m, postAll_posting, posting_posting]
  rfl

variable (es : List LaneEntry)

theorem posting_mixerPosts : (m.posting es).mixerPosts = m.mixerPosts := rfl

theorem posting_allLinePosts : (m.posting es).allLinePosts = m.allLinePosts := rfl

theorem posting_outletPosts : (m.posting es).outletPosts = m.outletPosts := rfl

theorem sweepUnits_eq : m.sweepUnits = m.posting m.unitPosts := by
  unfold Mill.sweepUnits
  rw [sweepScales_eq]
  dsimp only
  rw [sweepMixer_eq, sweepLines_eq, sweepOutlets_eq]
  simp only [posting_posting, posting_mixerPosts, posting_allLinePosts, posting_outletPosts, Mill.unitPosts,
    List.append_assoc]

theorem sweepActions_eq : m.sweepActions = m.posting m.actionPosts := by
  unfold Mill.sweepActions Mill.actionPosts
  exact foldl_posting _ _ m (fun es k => foldl_posting
    (fun m i => m.post .actionExecutor (m.recordAddr k i k.actionWord) 0xF 0) _ (m.posting es) (fun _ _ => rfl) _) _

theorem sweepRefusal_eq : m.sweepRefusal = m.posting m.refusalPosts := by
  unfold Mill.sweepRefusal Mill.refusalPosts
  exact foldl_posting _ (fun w => [⟨.pathUnit, m.recordAddr .status 0 w, .write 0xF 0 .none⟩]) m (fun _ _ => rfl) _

/-- The posts of the whole sweep but for the Status Unit's words. -/
def Mill.sweepPosts (ws : List Word) : List LaneEntry :=
  m.orderPosts ws ++ m.ticketPosts ++ m.binPosts ++ m.batchPosts ++ m.unitPosts ++ m.truckPosts ++ m.actionPosts ++
    m.refusalPosts

theorem sweep_eq (ws : List Word) : m.sweep ws = m.posting (m.sweepPosts ws) := by
  rw [Mill.sweep, sweepOrders_eq, sweepTickets_eq, posting_posting, sweepBins_eq, posting_posting, sweepBatches_eq,
    posting_posting, sweepUnits_eq, posting_posting, sweepTrucks_eq, posting_posting, sweepActions_eq, posting_posting,
    sweepRefusal_eq, posting_posting]
  rfl

/-! ### What the sweep posts -/

variable {m} {ws : List Word}

theorem mem_wholePosts {p : Block} {k : RecordKind} {i w : Nat} {words : List Nat} (new : Nat → Word) (mem : w ∈ words) :
    m.recordPost p k i w (new w) ∈ m.wholePosts p k i words new :=
  List.mem_flatMap.mpr ⟨w, mem, List.mem_cons_self⟩

theorem mem_orderPosts {o : Fin 256} {w : Nat} (mem : w ∈ orderWords)
    (changed : orderWordOf (retainedOrder ws o) w ≠ (m.order o).word w) :
    m.recordPost .orderBook .order o w ((m.order o).word w) ∈ m.orderPosts ws :=
  List.mem_flatMap.mpr ⟨o, List.mem_finRange o, List.mem_flatMap.mpr ⟨w, mem, by
    rw [if_neg changed]
    exact List.mem_cons_self⟩⟩

theorem mem_ticketPosts (n : Fin 256) :
    m.recordPost .orderBook .ticket n 6 (wordOf [(getAt m.book.useCount n, 0, 16)]) ∈ m.ticketPosts ∧
    m.recordPost .orderBook .ticket n 7 (wordOf [(bit (getAt m.book.planMark n), 0, 1)]) ∈ m.ticketPosts :=
  ⟨List.mem_flatMap.mpr ⟨n, List.mem_finRange n, List.mem_cons_self⟩,
    List.mem_flatMap.mpr ⟨n, List.mem_finRange n, List.mem_cons_of_mem _ List.mem_cons_self⟩⟩

theorem mem_binPosts {i : Fin 48} {w : Nat} (mem : w ∈ (getAt m.stock.bins i).words) :
    m.recordPost .stockUnit .bin i w ((getAt m.stock.bins i).word w) ∈ m.binPosts :=
  List.mem_flatMap.mpr ⟨i, List.mem_finRange i, mem_wholePosts _ mem⟩

theorem mem_batchPosts {b : Fin 32} {w : Nat} (mem : w ∈ batchWords) :
    m.recordPost .batchSequencer .batch b w ((m.batch b).word w) ∈ m.batchPosts :=
  List.mem_flatMap.mpr ⟨b, List.mem_finRange b, mem_wholePosts _ mem⟩

theorem mem_truckPosts {r : Fin 8} {w : Nat} (mem : w ∈ tripWords) :
    m.recordPost .tripTable .truck r w ((m.trip r).word w) ∈ m.truckPosts :=
  List.mem_flatMap.mpr ⟨r, List.mem_finRange r, mem_wholePosts _ mem⟩

theorem mem_unitPosts_line {l : Line} {w : Nat} (mem : w ∈ [2, 3, 4]) :
    m.recordPost .lineSupervisor .unit (lineUnit l) w (m.lineWord l w) ∈ m.unitPosts := by
  have line : l ∈ allLines := by
    cases l with
    | grinder g => cases g <;> decide
    | pellet => decide
  have posted : m.recordPost .lineSupervisor .unit (lineUnit l) w (m.lineWord l w) ∈ m.allLinePosts :=
    List.mem_flatMap.mpr ⟨l, line, mem_wholePosts (m.lineWord l) mem⟩
  exact List.mem_append_left _ (List.mem_append_right _ posted)

theorem mem_unitPosts_scale {sc : Scale} {w : Nat} (mem : w ∈ [2, 3]) :
    m.recordPost .weighMix .unit (scaleUnit sc) w ((m.scale sc).word w) ∈ m.unitPosts := by
  have scale : sc ∈ [Scale.one, .two] := by cases sc <;> decide
  have posted : m.recordPost .weighMix .unit (scaleUnit sc) w ((m.scale sc).word w) ∈ m.scalePosts :=
    List.mem_flatMap.mpr ⟨sc, scale, mem_wholePosts (m.scale sc).word mem⟩
  exact List.mem_append_left _ (List.mem_append_left _ (List.mem_append_left _ posted))

theorem mem_unitPosts_mixer {w : Nat} (mem : w ∈ [2, 3]) :
    m.recordPost .weighMix .unit 2 w (m.weigh.mixer.word w) ∈ m.unitPosts :=
  List.mem_append_left _ (List.mem_append_left _ (List.mem_append_right _ (mem_wholePosts m.weigh.mixer.word mem)))

theorem mem_unitPosts_bagger {w : Nat} (mem : w ∈ [2, 3]) :
    m.recordPost .packOut .unit 6 w (m.pack.bagger.word w) ∈ m.unitPosts :=
  List.mem_append_right _ (List.mem_append_left _ (mem_wholePosts m.pack.bagger.word mem))

theorem mem_unitPosts_loadout {w : Nat} (mem : w ∈ [2, 3]) :
    m.recordPost .packOut .unit 7 w (m.pack.loadout.word w) ∈ m.unitPosts :=
  List.mem_append_right _ (List.mem_append_right _ (mem_wholePosts m.pack.loadout.word mem))

theorem mem_actionPosts {k : RecordKind} {i : Nat} (kind : k ∈ actionKinds) (inside : i < k.count) :
    (⟨.actionExecutor, m.recordAddr k i k.actionWord, .write 0xF 0 .none⟩ : LaneEntry) ∈ m.actionPosts :=
  List.mem_flatMap.mpr ⟨k, kind, List.mem_flatMap.mpr ⟨i, List.mem_range.mpr inside, List.mem_cons_self⟩⟩

theorem mem_refusalPosts {w : Nat} (mem : w ∈ [3, 4, 5]) :
    (⟨.pathUnit, m.recordAddr .status 0 w, .write 0xF 0 .none⟩ : LaneEntry) ∈ m.refusalPosts :=
  List.mem_flatMap.mpr ⟨w, mem, List.mem_cons_self⟩

/-- The parts of the sweep are all posted. -/
theorem sweepPosts_parts {e : LaneEntry} : e ∈ m.sweepPosts ws ↔ e ∈ m.orderPosts ws ∨ e ∈ m.ticketPosts ∨
    e ∈ m.binPosts ∨ e ∈ m.batchPosts ∨ e ∈ m.unitPosts ∨ e ∈ m.truckPosts ∨ e ∈ m.actionPosts ∨ e ∈ m.refusalPosts := by
  simp only [Mill.sweepPosts, List.mem_append, or_assoc]

end posts

end Sys2Proof.Machine

/-! SUPPORT. Load stage 5: the retained words, the link walks, each table adopted, and the plan become RUNNING
(02_the_plan.md, R39 to R42 and R79). -/

namespace Sys2Proof.Machine

/-! ### The retained words (R32) -/

theorem retained_eq (ws : List Word) (i : Nat) : retainedBin ws i = (ws.drop (2 * i)).take 2 ∧
    retainedEnable ws = ws.getD 96 0 ∧ retainedOrder ws i = (ws.drop (97 + 12 * i)).take 12 ∧
    retainedTruck ws i = (ws.drop (3169 + 14 * i)).take 14 :=
  ⟨by rw [retainedBin, retained, Nat.zero_add], rfl, rfl, rfl⟩

theorem orderWordOf_eq {ws : List Word} {i w : Nat} (at_ : [3, 4, 5, 7, 8, 9, 10, 11, 12, 13, 14, 15].idxOf? w = some i) :
    orderWordOf ws w = ws.getD i 0 := by
  have index : orderRetained.findIdx (· = w) = i := by
    have found : orderRetained.findIdx? (· = w) = some i := at_
    exact (List.findIdx?_eq_some_iff_findIdx_eq.mp found).2
  rw [orderWordOf, index]

/-! ### Link walks (R79) -/

theorem next_iff {k k' : LinkWalk} {ws : List Word} : k.next ws = some k' ↔
    (∃ mark, PartMark.ofCode (bits (ws.getD 0 0) 0 8) = some mark ∧
      markAllowed k.reached.length mark = true ∧ mark.links = true) ∧ bits (ws.getD 1 0) 0 16 ≤ 255 ∧
      bits (ws.getD 1 0) 0 16 ∉ k.reached ∧
      k' = ⟨k.order, bits (ws.getD 1 0) 0 16, k.reached ++ [bits (ws.getD 1 0) 0 16]⟩ := by
  unfold LinkWalk.next
  cases code : PartMark.ofCode (bits (ws.getD 0 0) 0 8) with
  | none => simp only [reduceCtorEq, false_and, exists_false]
  | some mark =>
    simp only [Option.ite_none_right_eq_some, Bool.and_eq_true, decide_eq_true_eq, Bool.not_eq_true', Option.some.injEq,
      List.contains_eq_mem, decide_eq_false_iff_not, exists_eq_left', and_assoc, eq_comm (b := k')]

/-- The posts of a link walk's reads. -/
theorem readLink_eq (m : Mill) (slot : Nat) : m.readLink slot = m.posting
    ([0, 1].map (fun w => ⟨.ticketChecker, m.recordAddr .ticket slot w, .read .linkWalk⟩)) := by
  rw [List.map_eq_flatMap]
  exact foldl_posting (fun m w => m.postRead .ticketChecker (m.recordAddr .ticket slot w) .linkWalk) _ m (fun _ _ => rfl) _

/-! ### The records adopted (R40 to R42) -/

section records

variable (ws : List Word)

theorem adoptBin_does (d : BinDef) : (adoptBin d ws).1.plan = d ∧
    (adoptBin d ws).1.level = min (bits (ws.getD 0 0) 0 24) d.capacity ∧ (adoptBin d ws).1.reserved = 0 ∧
    (adoptBin d ws).1.lockedOut = false := by
  unfold adoptBin
  cases d.kind.isSurge <;> exact ⟨rfl, rfl, rfl, rfl⟩

theorem adoptBin_surge {d : BinDef} (surge : d.kind.isSurge = true) : (adoptBin d ws).1.preact = 0 ∧
    (adoptBin d ws).1.lots = if (adoptBin d ws).1.level = 0 then [] else [⟨none, .none, (adoptBin d ws).1.level⟩] := by
  unfold adoptBin
  simp only [surge, if_true]
  exact ⟨Nat.zero_min _, rfl⟩

theorem adoptBin_other {d : BinDef} (other : d.kind.isSurge = false) :
    (adoptBin d ws).1.preact = min (bits (ws.getD 1 0) 0 16) d.preactMax ∧ (adoptBin d ws).1.lots = [] ∧
    ((adoptBin d ws).2 = true ↔ d.capacity < bits (ws.getD 0 0) 0 24 ∨ d.preactMax < bits (ws.getD 1 0) 0 16) := by
  unfold adoptBin
  simp only [other, Bool.false_eq_true, if_false]
  exact ⟨rfl, rfl, by rw [Bool.or_eq_true, decide_eq_true_eq, decide_eq_true_eq]⟩

variable {ws} (walk : Option LinkWalk)

theorem adoptOrder_of_unknown (unknown : retainedState ws = none) : adoptOrder ws walk = .reset := by
  unfold adoptOrder
  rw [unknown]

theorem adoptOrder_of_packed (packed : retainedState ws = some .packed) (k : LinkWalk) : adoptOrder ws (some k) =
    { retainedFields ws .packed with entry := some (adoptedEntry ws k.reached) } := by
  rw [adoptOrder, packed]

theorem adoptOrder_of_unwalked (packed : retainedState ws = some .packed) :
    adoptOrder ws none = retainedFields ws .closed := by
  rw [adoptOrder, packed]

theorem adoptOrder_of_active {st : OrderState} (state : retainedState ws = some st) (active : st.active = true) :
    adoptOrder ws walk = { retainedFields ws .cancelled with endReason := .reset, inFlight := 0 } := by
  unfold adoptOrder
  rw [state]
  cases st with
  | released => rfl
  | producing => rfl
  | finishing => rfl
  | cancelling => rfl
  | idle => cases active
  | packed => cases active
  | closed => cases active
  | cancelled => cases active

theorem adoptOrder_of_kept {st : OrderState} (state : retainedState ws = some st) (inactive : st.active = false)
    (notPacked : st ≠ .packed) : adoptOrder ws walk = retainedFields ws st := by
  unfold adoptOrder
  rw [state]
  cases st with
  | idle => rfl
  | closed => rfl
  | cancelled => rfl
  | packed => exact absurd rfl notPacked
  | released => cases inactive
  | producing => cases inactive
  | finishing => cases inactive
  | cancelling => cases inactive

/-- An adopted order has the retained fields, whatever its state becomes. -/
theorem adoptOrder_fields {st : OrderState} (state : retainedState ws = some st) : ∃ st' reason mass entry,
    adoptOrder ws walk = { retainedFields ws st' with endReason := reason, inFlight := mass, entry := entry } := by
  by_cases active : st.active = true
  · exact ⟨_, _, _, _, adoptOrder_of_active walk state active⟩
  · by_cases packed : st = .packed
    · subst packed
      cases walk with
      | none => exact ⟨_, _, _, _, adoptOrder_of_unwalked state⟩
      | some k => exact ⟨_, _, _, _, adoptOrder_of_packed state k⟩
    · exact ⟨_, _, _, _, adoptOrder_of_kept walk state (Bool.eq_false_iff.mpr active) packed⟩

theorem adoptOrder_shows {st : OrderState} (state : retainedState ws = some st) :
    (adoptOrder ws walk).wait = .none ∧ (adoptOrder ws walk).planned = bits (orderWordOf ws 9) 0 24 ∧
      (adoptOrder ws walk).scheduled = bits (orderWordOf ws 10) 0 24 ∧
      (adoptOrder ws walk).remaining = bits (orderWordOf ws 11) 0 24 ∧
      (adoptOrder ws walk).completed = bits (orderWordOf ws 13) 0 24 ∧
      (adoptOrder ws walk).bagsPacked = bits (orderWordOf ws 14) 0 16 ∧
      (adoptOrder ws walk).bagsRejected = bits (orderWordOf ws 14) 16 16 ∧
      (adoptOrder ws walk).loaded = bits (orderWordOf ws 15) 0 24 := by
  obtain ⟨_, _, _, _, adopted⟩ := adoptOrder_fields walk state
  rw [adopted]
  exact ⟨rfl, rfl, rfl, rfl, rfl, rfl, rfl, rfl⟩

/-! ### Trips and lines -/

/-- A trip is adopted with its retained masses and copy, its state and limit mark by the retained state. -/
theorem adoptTrip_eq (ws : List Word) : ∃ st mark, adoptTrip ws =
    ⟨st, Vector.ofFn (fun c : Fin 6 => bits (ws.getD (8 + c) 0) 0 24), mark, copyOf (ws.getD 0 0) ((ws.drop 2).take 6)⟩ ∧
    (TripState.ofCode (bits (ws.getD 1 0) 0 8) = some .loaded → st = .loaded) ∧
    (TripState.ofCode (bits (ws.getD 1 0) 0 8) = some .departed → st = .departed) ∧
    (TripState.ofCode (bits (ws.getD 1 0) 0 8) ≠ some .loaded → TripState.ofCode (bits (ws.getD 1 0) 0 8) ≠ some .departed →
      st = .opened) ∧
    (TripState.ofCode (bits (ws.getD 1 0) 0 8) = some .arrived ∨ TripState.ofCode (bits (ws.getD 1 0) 0 8) = some .loading ∨
      TripState.ofCode (bits (ws.getD 1 0) 0 8) = none → mark = false) := by
  unfold adoptTrip
  dsimp only
  cases TripState.ofCode (bits (ws.getD 1 0) 0 8) with
  | none => exact ⟨_, _, rfl, nofun, nofun, fun _ _ => rfl, fun _ => rfl⟩
  | some st =>
    cases st with
    | opened => exact ⟨_, _, rfl, nofun, nofun, fun _ _ => rfl, nofun⟩
    | loaded => exact ⟨_, _, rfl, fun _ => rfl, nofun, fun h => absurd rfl h, nofun⟩
    | departed => exact ⟨_, _, rfl, nofun, fun _ => rfl, fun _ h => absurd rfl h, nofun⟩
    | arrived => exact ⟨_, _, rfl, nofun, nofun, fun _ _ => rfl, fun _ => rfl⟩
    | loading => exact ⟨_, _, rfl, nofun, nofun, fun _ _ => rfl, fun _ => rfl⟩

variable {m : Mill} {l : Line} (present : m.presentLine l = true)
include present

theorem adoptLine_of_tripped (tripped : (m.lineCtl l).state = .tripped) : m.adoptLine l =
    { LineCtl.reset with
      state := .tripped, ceiling := (m.lineCtl l).ceiling, cause := (m.lineCtl l).cause, tripOut := m.plan.tripOutOn l } := by
  simp only [Mill.adoptLine, present, tripped, Bool.not_true, Bool.false_eq_true, if_false, if_true]

theorem adoptLine_of_other (other : (m.lineCtl l).state ≠ .tripped) :
    m.adoptLine l = { LineCtl.reset with ceiling := m.plan.ceilingMax l } := by
  simp only [Mill.adoptLine, present, other, Bool.not_true, Bool.false_eq_true, if_false]

end records

/-! ### RUNNING (R39) -/

theorem endLoading_plan (m : Mill) (t : Fin 8) (mark : Bool) : (m.endLoading t mark).plan = m.plan := by
  simp [Mill.endLoading, Mill.tell]

theorem givesSpout_plan (m : Mill) (t : Fin 8) (ts : List (Fin 8)) : (m.givesSpout t ts).plan = m.plan := by
  simp [Mill.givesSpout, Mill.tell]

theorem arbitrate_plan (ts : List (Fin 8)) (m : Mill) : (m.arbitrate ts).plan = m.plan := by
  induction ts generalizing m with
  | nil => rfl
  | cons t ts ih =>
    rw [arbitrate_cons]
    split
    · rw [ih, endLoading_plan, givesSpout_plan]
    · exact givesSpout_plan m t ts

theorem judgeArbiter_plan (m : Mill) : m.judgeArbiter.plan = m.plan := by
  unfold Mill.judgeArbiter
  split
  · rfl
  · split
    · rfl
    · exact arbitrate_plan _ m

theorem readRefills_plan (m : Mill) : m.readRefills.plan = m.plan :=
  foldl_keeps Mill.plan (fun m g => if m.presentLine (.grinder g) then m.readRefill g false else m)
    (fun n g => by split <;> rfl) [.a, .b] m

theorem becomeRunning_plan (m : Mill) (region : Addr) : (m.becomeRunning region).plan.state = .running ∧
    (m.becomeRunning region).plan.load = .idle := by
  unfold Mill.becomeRunning
  dsimp only
  rw [judgeArbiter_plan, readRefills_plan, postOutcome_eq]
  exact ⟨rfl, rfl⟩

theorem settle_base (s : State) : s.settle.status.base = s.status.base := by
  have status : s.settle.status = s.drained.settleStatus.status := by rw [settle_eq]; simp
  rw [status, ← (drained_samePath s).status]
  unfold State.settleStatus
  split
  · rfl
  · rw [Status.summarise_base, Status.report_base]

theorem settle_windows (s : State) : s.settle.windows = s.windows := (settle_keeps s).2.2.2.2.2.2.1

theorem readyToRun_iff (s : State) : s.readyToRun = true ↔ s.mill.plan.load = .sweeping ∧ s.waiting = [] ∧ s.tx = none := by
  rw [State.readyToRun, Bool.and_eq_true, Bool.and_eq_true, decide_eq_true_eq, List.isEmpty_iff, Option.isNone_iff_eq_none,
    and_assoc]

theorem finish_of_ready {s : State} (ready : s.settle.readyToRun = true) : s.finish = s.settle.run.settle ∧
    s.finish.mill.plan.state = .running ∧ s.finish.mill.plan.load = .idle ∧
    s.finish.windows = some s.settle.mill.plan.table ∧
    s.finish.status.base = some (s.settle.mill.plan.windowBase 7) := by
  have runs : s.finish = s.settle.run.settle := if_pos ready
  obtain ⟨state, load⟩ := becomeRunning_plan s.settle.mill s.settle.region
  rw [runs, settle_plan, settle_windows, settle_base]
  exact ⟨rfl, state, load, rfl, rfl⟩

end Sys2Proof.Machine

/-! SUPPORT. Adoption by fields, and load stage 5 settled (02_the_plan.md, R39 to R42 and R79). -/

namespace Sys2Proof.Machine

/-! ### The tables adopted -/

theorem getAt_ofFn {α : Type} {n : Nat} (f : Fin n → α) (i : Fin n) : getAt (Vector.ofFn f) i = f i := by
  rw [getAt, Fin.getElem_fin, Vector.getElem_ofFn]

section adopt

variable (m : Mill) (ws : List Word) (walks : List LinkWalk)

theorem adopt_bin (i : Fin 48) : getAt (m.adopt ws walks).stock.bins i =
    (adoptBin (m.plan.binDefs.getD i .reset) (retainedBin ws i)).1 := by
  unfold Mill.adopt getAt
  simp only [Fin.getElem_fin, Vector.getElem_map, Vector.getElem_ofFn]

theorem adopt_order (o : Fin 256) : (m.adopt ws walks).order o =
    adoptOrder (retainedOrder ws o) (walks.find? (fun k => k.order = o.val)) :=
  getAt_ofFn (fun o : Fin 256 => adoptOrder (retainedOrder ws o) (walks.find? (fun k => k.order = o.val))) o

theorem adopt_useCount (n : Fin 256) :
    getAt (m.adopt ws walks).book.useCount n = (walks.map (fun k => k.reached.count n.val)).sum := by
  unfold Mill.adopt
  dsimp only
  rw [getAt_ofFn, List.count_flatten, List.map_map]
  rfl

theorem mem_markedSlots (p : PlanCtl) (n : Nat) : n ∈ p.markedSlots ↔
    ∃ c, some c ∈ p.flushChains ++ [p.defaultFlush] ∧ n ∈ c.slots := by
  unfold PlanCtl.markedSlots
  rw [List.mem_flatten]
  constructor
  · rintro ⟨l, inChains, mem⟩
    obtain ⟨chain, kept, rfl⟩ := List.mem_map.mp inChains
    cases chain with
    | none => cases mem
    | some c => exact ⟨c, kept, mem⟩
  · rintro ⟨c, kept, mem⟩
    exact ⟨c.slots, List.mem_map.mpr ⟨some c, kept, rfl⟩, mem⟩

theorem adopt_planMark (n : Fin 256) : getAt (m.adopt ws walks).book.planMark n = true ↔
    ∃ c, some c ∈ m.plan.flushChains ++ [m.plan.defaultFlush] ∧ n.val ∈ c.slots := by
  have mark : getAt (m.adopt ws walks).book.planMark n = m.plan.markedSlots.contains n.val :=
    getAt_ofFn (fun t : Fin 256 => m.plan.markedSlots.contains t.val) n
  rw [mark, List.contains_eq_mem, decide_eq_true_eq, mem_markedSlots]

theorem adopt_trip (r : Fin 8) : (m.adopt ws walks).trip r = adoptTrip (retainedTruck ws r) :=
  getAt_ofFn (fun t : Fin 8 => adoptTrip (retainedTruck ws t)) r

theorem adopt_lineCtl (l : Line) : (m.adopt ws walks).lineCtl l = m.adoptLine l := by
  cases l with
  | grinder g => cases g <;> rfl
  | pellet => rfl

/-- A bin was clamped at its adoption. -/
def Mill.clamped : Bool := (List.finRange 48).any (fun i : Fin 48 =>
  (adoptBin (m.plan.binDefs.getD i .reset) (retainedBin ws i)).2)

theorem clamped_iff : m.clamped ws = true ↔
    ∃ i : Fin 48, (adoptBin (m.plan.binDefs.getD i .reset) (retainedBin ws i)).2 = true := by
  rw [Mill.clamped, List.any_eq_true]
  exact exists_congr fun i => and_iff_right (List.mem_finRange i)

theorem adopt_reports : (m.adopt ws walks).reports = if m.clamped ws then [.event .stockDisagree] else [] := by
  have any : (Vector.ofFn (fun i : Fin 48 => adoptBin (m.plan.binDefs.getD i .reset) (retainedBin ws i))).toList.any (·.2) =
      m.clamped ws := by
    rw [Vector.toList_ofFn, List.ofFn_eq_map, List.any_map]
    rfl
  unfold Mill.adopt
  dsimp only
  rw [any]

end adopt

/-! ### The Status Unit after adoption -/

theorem takeCondition_of_zero {u : Status} (none : u.cond = 0) (c : Word) :
    u.takeCondition c = { u with flags := u.flags ||| c, cond := c } := by
  rw [Status.takeCondition, none, BitVec.ofNat_eq_ofNat, BitVec.not_zero, BitVec.and_allOnes]

theorem adoptedStatus_eq {n : Mill} {clamped : Bool}
    (reports : n.reports = if clamped then [.event .stockDisagree] else []) (enable : Word) (base : Option Addr) :
    n.adoptedStatus enable base =
      ⟨(if clamped then Flag.stockDisagree.mask else 0) ||| n.condition, n.condition, enable, 0, false, 0, 0, base,
        decide (((if clamped then Flag.stockDisagree.mask else 0) ||| n.condition) &&& enable &&& allFlags ≠ 0)⟩ := by
  rw [Mill.adoptedStatus, reports, Status.report]
  cases clamped
  · exact congrArg Status.judgeAlert (takeCondition_of_zero rfl n.condition)
  · refine (congrArg Status.judgeAlert (takeCondition_of_zero rfl n.condition)).trans ?_
    simp only [List.foldl_cons, List.foldl_nil, Status.take, BitVec.ofNat_eq_ofNat, BitVec.zero_or, if_true]
    rfl

/-- The only flag that adoption sets besides the conditions. -/
theorem adopted_stockDisagree (n : Mill) (clamped : Bool) :
    ((if clamped then Flag.stockDisagree.mask else 0) ||| n.condition) &&& Flag.stockDisagree.mask =
      if clamped then Flag.stockDisagree.mask else 0 := by
  have event : n.condition &&& Flag.stockDisagree.mask = 0 := condition_and_mask_of_event (by decide)
  rw [BitVec.and_or_distrib_right, event]
  cases clamped <;> simp

/-! ### Adoption and the sweep -/

/-- The posts of the Status Unit's words at the plan's status window. -/
def Mill.statusPosts (n : Mill) (u : Status) : List LaneEntry :=
  statusWords.map (fun w => ⟨.statusUnit, n.recordAddr .status 0 w, .write 0xF (u.word w) .none⟩)

/-- The state after an adopted mill's posts. -/
def State.swept (s : State) (n : Mill) (posts : List LaneEntry) (enable : Word) : State :=
  let u := n.adoptedStatus enable s.status.base
  { s with
    refusal := some ⟨0, 0, 0, 0⟩
    status := u
    mill := { n with
      plan := { n.plan with load := .sweeping }
      reports := []
      outbox := n.outbox ++ posts ++ n.statusPosts u } }

/-- The state after the posts of the Status Unit's words. -/
def State.adoptedAs (s : State) (m : Mill) (enable : Word) : State :=
  let u := m.adoptedStatus enable s.status.base
  { s with
    refusal := some ⟨0, 0, 0, 0⟩
    status := u
    mill := { m with reports := [], outbox := m.outbox ++ m.statusPosts u }.atPhase .sweeping }

theorem adoptedAs_posting (s : State) (n : Mill) (posts : List LaneEntry) (enable : Word) :
    s.adoptedAs (n.posting posts) enable = s.swept n posts enable := rfl

section adoptAll

variable (s : State) (ws : List Word) (done : List LinkWalk)

theorem adoptAll_eq : s.adoptAll ws done =
    s.swept (s.mill.adopt ws done) ((s.mill.adopt ws done).sweepPosts ws) (retainedEnable ws) := by
  rw [← adoptedAs_posting, ← sweep_eq]
  rfl

variable (n : Mill) (posts : List LaneEntry) (enable : Word)

/-- What the sweep leaves of the adopted blocks. -/
theorem swept_keeps : (s.swept n posts enable).mill.plan = { n.plan with load := .sweeping } ∧
    (s.swept n posts enable).mill.checker = n.checker ∧ (s.swept n posts enable).mill.returned = n.returned ∧
    (s.swept n posts enable).mill.actions = n.actions ∧ (s.swept n posts enable).mill.stock = n.stock ∧
    (s.swept n posts enable).mill.book = n.book ∧ (s.swept n posts enable).mill.seq = n.seq ∧
    (s.swept n posts enable).mill.weigh = n.weigh ∧ (s.swept n posts enable).mill.lines = n.lines ∧
    (s.swept n posts enable).mill.pack = n.pack ∧ (s.swept n posts enable).mill.trips = n.trips ∧
    (s.swept n posts enable).mill.reports = [] ∧ (s.swept n posts enable).mill.condition = n.condition :=
  ⟨rfl, rfl, rfl, rfl, rfl, rfl, rfl, rfl, rfl, rfl, rfl, rfl, rfl⟩

theorem swept_status : (s.swept n posts enable).status = n.adoptedStatus enable s.status.base := rfl

/-- What is posted of the adopted mill is in the outbox. -/
theorem mem_swept {e : LaneEntry} (posted : e ∈ posts) : e ∈ (s.swept n posts enable).mill.outbox :=
  List.mem_append_left _ (List.mem_append_right _ posted)

theorem mem_swept_status {w : Nat} (mem : w ∈ statusWords) : (⟨.statusUnit, n.recordAddr .status 0 w,
    .write 0xF ((s.swept n posts enable).status.word w) .none⟩ : LaneEntry) ∈ (s.swept n posts enable).mill.outbox :=
  List.mem_append_right _ (List.mem_map.mpr ⟨w, mem, rfl⟩)

end adoptAll

/-! ### The rows -/

section rows

variable {s : State} (free : s.free .planController)
include free

theorem execLoadStage5_of_stage5 (stage : s.mill.plan.load = .stage5)
    (read : s.mill.readsDone .loadStage stage5Size = true) : exec .loadStage5 s = .next (s.stepTo
      (State.nextWalk { s with mill := s.mill.takeReads .loadStage } (s.mill.readsOf .loadStage) []
        (linkWalks (s.mill.readsOf .loadStage)))) := by
  change execLoadStage5 s = _
  simp only [execLoadStage5, planFree_of_free free, stage, read, if_true]

variable {ws : List Word} {done : List LinkWalk} {k : LinkWalk} {ks : List LinkWalk}
  (stage : s.mill.plan.load = .links ws done (k :: ks)) (read : s.mill.readsDone .linkWalk 2 = true)
include stage read

theorem execLoadStage5_of_next {k' : LinkWalk} (next : k.next (s.mill.readsOf .linkWalk) = some k') :
    exec .loadStage5 s = .next
      (s.stepTo (State.nextWalk { s with mill := s.mill.takeReads .linkWalk } ws done (k' :: ks))) := by
  change execLoadStage5 s = _
  simp only [execLoadStage5, planFree_of_free free, stage, read, next, if_true]

theorem execLoadStage5_of_ended (ended : k.next (s.mill.readsOf .linkWalk) = none) :
    exec .loadStage5 s = .next
      (s.stepTo (State.nextWalk { s with mill := s.mill.takeReads .linkWalk } ws (done ++ [k]) ks)) := by
  change execLoadStage5 s = _
  simp only [execLoadStage5, planFree_of_free free, stage, read, ended, if_true]

end rows

theorem nextWalk_cons (s : State) (ws : List Word) (done : List LinkWalk) (k : LinkWalk) (ks : List LinkWalk) :
    (s.nextWalk ws done (k :: ks)).mill.plan.load = .links ws done (k :: ks) ∧
    (s.nextWalk ws done (k :: ks)).mill.outbox = s.mill.outbox ++ [0, 1].map (fun w =>
      ⟨.ticketChecker, s.mill.recordAddr .ticket k.slot w, .read .linkWalk⟩) := by
  have mill : (s.nextWalk ws done (k :: ks)).mill = (s.mill.atPhase (.links ws done (k :: ks))).readLink k.slot := rfl
  rw [mill, readLink_eq]
  exact ⟨rfl, rfl⟩

theorem linkWalks_eq (ws : List Word) : linkWalks ws = (((List.range 256).filter (fun i =>
      retainedState (retainedOrder ws i) = some .packed)).take 64).map (fun i =>
    ⟨i, bits (orderWordOf (retainedOrder ws i) 3) 0 8, [bits (orderWordOf (retainedOrder ws i) 3) 0 8]⟩) := by
  unfold linkWalks packedSlots
  rfl

end Sys2Proof.Machine

/-! SUPPORT. Load stage 5 settled (02_the_plan.md, R39 to R42 and R79). -/

namespace Sys2Proof.Machine

section adopted

variable (s : State) (ws : List Word) (done : List LinkWalk)

/-- The plan, the blocks at reset and the tables of the adopted state. -/
theorem adoptAll_blocks : let t := s.adoptAll ws done
    t = { s with refusal := some ⟨0, 0, 0, 0⟩, status := t.status, mill := t.mill } ∧
    t.mill.plan = { s.mill.plan with load := .sweeping } ∧ t.mill.checker = ⟨[], none, false⟩ ∧ t.mill.returned = [] ∧
    t.mill.actions = ⟨[], [], .none⟩ ∧ t.mill.stock.table = [] ∧ t.mill.stock.waitingDiverts = [] ∧
    t.mill.trips.limit = none ∧ t.mill.trips.arriving = none ∧
    t.mill.lines = ⟨{ GrinderCtl.reset with line := s.mill.adoptLine (.grinder .a) },
      { GrinderCtl.reset with line := s.mill.adoptLine (.grinder .b) },
      { PelletCtl.reset with line := s.mill.adoptLine .pellet }⟩ ∧
    t.mill.seq = .reset ∧ t.mill.weigh = .reset ∧ t.mill.pack = .reset ∧
    t.mill.book.releaseList = [] ∧ t.mill.book.interlock = none ∧ t.mill.trips.queue = [] ∧ t.mill.reports = [] := by
  intro t
  have own : t = _ := adoptAll_eq s ws done
  rw [own]
  exact ⟨rfl, rfl, rfl, rfl, rfl, rfl, rfl, rfl, rfl, rfl, rfl, rfl, rfl, rfl, rfl, rfl, rfl⟩

/-- The flags of the adopted state. -/
theorem adoptAll_status : let t := s.adoptAll ws done
    t.status = ⟨t.status.flags, t.mill.condition, retainedEnable ws, 0, false, 0, 0, s.status.base,
      decide (t.status.flags &&& retainedEnable ws &&& allFlags ≠ 0)⟩ ∧
    t.status.flags = (t.status.flags &&& Flag.stockDisagree.mask) ||| t.mill.condition ∧
    (t.status.flags &&& Flag.stockDisagree.mask ≠ 0 ↔
      ∃ i : Fin 48, (adoptBin (s.mill.plan.binDefs.getD i .reset) (retainedBin ws i)).2 = true) := by
  intro t
  have own : t = _ := adoptAll_eq s ws done
  obtain ⟨_, _, _, _, _, _, _, _, _, _, _, _, condition⟩ := swept_keeps s (s.mill.adopt ws done)
    ((s.mill.adopt ws done).sweepPosts ws) (retainedEnable ws)
  have disagrees := adopted_stockDisagree (s.mill.adopt ws done) (s.mill.clamped ws)
  rw [own, swept_status, adoptedStatus_eq (adopt_reports s.mill ws done), condition]
  dsimp only
  refine ⟨rfl, ?_, ?_⟩
  · rw [disagrees]
  · rw [disagrees, ← clamped_iff]
    cases s.mill.clamped ws <;> decide

/-- The tables of the adopted state, record by record. -/
theorem adoptAll_records : let t := s.adoptAll ws done
    (∀ i, getAt t.mill.stock.bins i = (adoptBin (s.mill.plan.binDefs.getD i .reset) (retainedBin ws i)).1) ∧
    (∀ o, t.mill.order o = adoptOrder (retainedOrder ws o) (done.find? (fun k => k.order = o.val))) ∧
    (∀ n, getAt t.mill.book.useCount n = (done.map (fun k => k.reached.count n.val)).sum) ∧
    (∀ n, getAt t.mill.book.planMark n = true ↔
      ∃ c, some c ∈ s.mill.plan.flushChains ++ [s.mill.plan.defaultFlush] ∧ n.val ∈ c.slots) ∧
    (∀ r, t.mill.trip r = adoptTrip (retainedTruck ws r)) ∧ (∀ l, t.mill.lineCtl l = s.mill.adoptLine l) := by
  intro t
  have own : t = _ := adoptAll_eq s ws done
  rw [own]
  exact ⟨adopt_bin s.mill ws done, adopt_order s.mill ws done, adopt_useCount s.mill ws done,
    adopt_planMark s.mill ws done, adopt_trip s.mill ws done, adopt_lineCtl s.mill ws done⟩

/-- A post of the sweep is in the outbox of the adopted state. -/
theorem mem_adoptAll {e : LaneEntry} (posted : e ∈ (s.mill.adopt ws done).sweepPosts ws) :
    e ∈ (s.adoptAll ws done).mill.outbox := by
  rw [adoptAll_eq]
  exact mem_swept s _ _ _ posted

theorem adopt_scale (sc : Scale) : (s.mill.adopt ws done).scale sc = .reset := by cases sc <;> rfl

theorem adopt_batch (b : Fin 32) : (s.mill.adopt ws done).batch b = .reset := by
  change getAt (Vector.replicate 32 Batch.reset) b = .reset
  rw [getAt, Fin.getElem_fin, Vector.getElem_replicate]

/-- The posts of the records' words that adoption always sends. -/
theorem adoptAll_posts : let t := s.adoptAll ws done
    (∀ k ∈ actionKinds, ∀ i, i < k.count →
      (⟨.actionExecutor, s.mill.recordAddr k i k.actionWord, .write 0xF 0 .none⟩ : LaneEntry) ∈ t.mill.outbox) ∧
    (∀ w ∈ [3, 4, 5],
      (⟨.pathUnit, s.mill.recordAddr .status 0 w, .write 0xF 0 .none⟩ : LaneEntry) ∈ t.mill.outbox) ∧
    (∀ w ∈ statusWords,
      (⟨.statusUnit, s.mill.recordAddr .status 0 w, .write 0xF (t.status.word w) .none⟩ : LaneEntry) ∈
        t.mill.outbox) := by
  refine ⟨fun k kind i inside => mem_adoptAll s ws done (sweepPosts_parts.mpr ?_),
    fun w mem => mem_adoptAll s ws done (sweepPosts_parts.mpr ?_), fun w mem => ?_⟩
  · exact .inr (.inr (.inr (.inr (.inr (.inr (.inl (mem_actionPosts kind inside)))))))
  · exact .inr (.inr (.inr (.inr (.inr (.inr (.inr (mem_refusalPosts mem)))))))
  · rw [adoptAll_eq]
    exact mem_swept_status s _ _ _ mem

/-- The posts of the orders, the tickets, the bins and the trips. -/
theorem adoptAll_recordPosts : let t := s.adoptAll ws done
    (∀ (o : Fin 256) w, w ∈ orderWords → orderWordOf (retainedOrder ws o) w ≠ (t.mill.order o).word w →
      (⟨.orderBook, s.mill.recordAddr .order o w,
        .write (t.mill.deviceMask .order o w) ((t.mill.order o).word w) .none⟩ : LaneEntry) ∈ t.mill.outbox) ∧
    (∀ n : Fin 256,
      (⟨.orderBook, s.mill.recordAddr .ticket n 6, .write (t.mill.deviceMask .ticket n 6)
        (wordOf [(getAt t.mill.book.useCount n, 0, 16)]) .none⟩ : LaneEntry) ∈ t.mill.outbox ∧
      (⟨.orderBook, s.mill.recordAddr .ticket n 7, .write (t.mill.deviceMask .ticket n 7)
        (wordOf [(bit (getAt t.mill.book.planMark n), 0, 1)]) .none⟩ : LaneEntry) ∈ t.mill.outbox) ∧
    (∀ (i : Fin 48) w, w ∈ (getAt t.mill.stock.bins i).words →
      (⟨.stockUnit, s.mill.recordAddr .bin i w, .write (t.mill.deviceMask .bin i w)
        ((getAt t.mill.stock.bins i).word w) .none⟩ : LaneEntry) ∈ t.mill.outbox) ∧
    (∀ (b : Fin 32) w, w ∈ batchWords →
      (⟨.batchSequencer, s.mill.recordAddr .batch b w, .write (t.mill.deviceMask .batch b w) (Batch.reset.word w)
        .none⟩ : LaneEntry) ∈ t.mill.outbox) ∧
    (∀ (r : Fin 8) w, w ∈ tripWords →
      (⟨.tripTable, s.mill.recordAddr .truck r w, .write (t.mill.deviceMask .truck r w) ((t.mill.trip r).word w)
        .none⟩ : LaneEntry) ∈ t.mill.outbox) := by
  intro t
  have own : t = _ := adoptAll_eq s ws done
  rw [own]
  refine ⟨fun o w mem changed => mem_swept s _ _ _ (sweepPosts_parts.mpr ?_),
    fun n => ⟨mem_swept s _ _ _ (sweepPosts_parts.mpr ?_), mem_swept s _ _ _ (sweepPosts_parts.mpr ?_)⟩,
    fun i w mem => mem_swept s _ _ _ (sweepPosts_parts.mpr ?_),
    fun b w mem => mem_swept s _ _ _ (sweepPosts_parts.mpr ?_),
    fun r w mem => mem_swept s _ _ _ (sweepPosts_parts.mpr ?_)⟩
  · exact .inl (mem_orderPosts mem changed)
  · exact .inr (.inl (mem_ticketPosts n).1)
  · exact .inr (.inl (mem_ticketPosts n).2)
  · exact .inr (.inr (.inl (mem_binPosts mem)))
  · have posted := mem_batchPosts (m := s.mill.adopt ws done) (b := b) mem
    rw [adopt_batch] at posted
    exact .inr (.inr (.inr (.inl posted)))
  · exact .inr (.inr (.inr (.inr (.inr (.inl (mem_truckPosts mem))))))

/-- The posts of the units. -/
theorem adoptAll_unitPosts : let t := s.adoptAll ws done
    (∀ l w, w ∈ [2, 3, 4] →
      (⟨.lineSupervisor, s.mill.recordAddr .unit (lineUnit l) w, .write (t.mill.deviceMask .unit (lineUnit l) w)
        (t.mill.lineWord l w) .none⟩ : LaneEntry) ∈ t.mill.outbox) ∧
    (∀ w, w ∈ [2, 3] →
      (∀ sc, (⟨.weighMix, s.mill.recordAddr .unit (scaleUnit sc) w, .write (t.mill.deviceMask .unit (scaleUnit sc) w)
        (ScaleCtl.reset.word w) .none⟩ : LaneEntry) ∈ t.mill.outbox) ∧
      (⟨.weighMix, s.mill.recordAddr .unit 2 w, .write (t.mill.deviceMask .unit 2 w) (MixerCtl.reset.word w)
        .none⟩ : LaneEntry) ∈ t.mill.outbox ∧
      (⟨.packOut, s.mill.recordAddr .unit 6 w, .write (t.mill.deviceMask .unit 6 w) (Bagger.reset.word w)
        .none⟩ : LaneEntry) ∈ t.mill.outbox ∧
      (⟨.packOut, s.mill.recordAddr .unit 7 w, .write (t.mill.deviceMask .unit 7 w) (Loadout.reset.word w)
        .none⟩ : LaneEntry) ∈ t.mill.outbox) := by
  intro t
  have own : t = _ := adoptAll_eq s ws done
  have units {e : LaneEntry} (posted : e ∈ (s.mill.adopt ws done).unitPosts) :
      e ∈ (s.swept (s.mill.adopt ws done) ((s.mill.adopt ws done).sweepPosts ws) (retainedEnable ws)).mill.outbox :=
    mem_swept s _ _ _ (sweepPosts_parts.mpr (.inr (.inr (.inr (.inr (.inl posted))))))
  rw [own]
  refine ⟨fun l w mem => units (mem_unitPosts_line mem), fun w mem => ⟨fun sc => ?_, units (mem_unitPosts_mixer mem),
    units (mem_unitPosts_bagger mem), units (mem_unitPosts_loadout mem)⟩⟩
  have posted := mem_unitPosts_scale (m := s.mill.adopt ws done) (sc := sc) mem
  rw [adopt_scale] at posted
  exact units posted

end adopted

/-- Settles O26: the rows and the link walks, the adopted state with its posts, each record's adoption, and RUNNING. -/
theorem loadStageFive : Obligations.LoadStageFive := by
  refine ⟨fun s free stage read => execLoadStage5_of_stage5 free stage read,
    fun s ws done k ks free stage read => ⟨fun k' => execLoadStage5_of_next free stage read,
      execLoadStage5_of_ended free stage read⟩,
    fun s ws done k ks => ?walk, linkWalks_eq, fun k k' ws => next_iff, fun ws i w => ?retained, fun s ws done => ?adopted,
    fun s ws done => ?posts, fun d ws => ?bin, fun ws walk => ?order, fun ws => ?trip, fun m l present => ?line,
    fun s => ⟨readyToRun_iff s, finish_of_ready⟩, fun p n => ?table⟩
  case walk =>
    obtain ⟨load, outbox⟩ := nextWalk_cons s ws done k ks
    exact ⟨load, outbox, rfl⟩
  case retained =>
    obtain ⟨bin, enable, order, truck⟩ := retained_eq ws i
    exact ⟨bin, enable, order, truck, orderWordOf_eq, rfl⟩
  case adopted =>
    intro t
    obtain ⟨same, plan, checker, returned, actions, table, diverts, limit, arriving, lines, seq, weigh, pack, releases,
      interlock, queue, reports⟩ := adoptAll_blocks s ws done
    obtain ⟨status, flags, disagree⟩ := adoptAll_status s ws done
    obtain ⟨bins, orders, useCounts, planMarks, trips, lineCtls⟩ := adoptAll_records s ws done
    exact ⟨same, plan, checker, returned, actions, table, diverts, limit, arriving, lines, status, flags,
      congrArg State.refusal same, congrArg PlanCtl.load plan, (congrArg PlanCtl.state plan :), congrArg Status.enable status,
      (congrArg Status.base status :), (congrArg State.windows same :), congrArg Actions.queue actions, seq, weigh, pack, releases,
      interlock, queue, bins, orders, useCounts, planMarks, trips, lineCtls, reports, disagree⟩
  case posts =>
    obtain ⟨actions, refusal, status⟩ := adoptAll_posts s ws done
    obtain ⟨orders, tickets, bins, batches, trips⟩ := adoptAll_recordPosts s ws done
    obtain ⟨lines, units⟩ := adoptAll_unitPosts s ws done
    exact ⟨actions, refusal, status, orders, tickets, bins, batches, lines, units, trips⟩
  case bin =>
    obtain ⟨plan, level, reserved, lockedOut⟩ := adoptBin_does ws d
    exact ⟨plan, level, reserved, lockedOut, adoptBin_surge ws, adoptBin_other ws⟩
  case order =>
    refine ⟨adoptOrder_of_unknown walk, fun k packed walked => ?_, fun packed unwalked => ?_, fun st state active => ?_,
      fun st state inactive notPacked => ?_, fun st => adoptOrder_shows walk⟩
    · rw [walked, adoptOrder_of_packed packed]
      exact ⟨rfl, rfl, rfl, rfl⟩
    · rw [unwalked, adoptOrder_of_unwalked packed]
      exact ⟨rfl, rfl⟩
    · rw [adoptOrder_of_active walk state active]
      exact ⟨rfl, rfl, rfl⟩
    · rw [adoptOrder_of_kept walk state inactive notPacked]
      exact ⟨rfl, rfl⟩
  case trip =>
    obtain ⟨st, mark, adopted, loaded, departed, other, unmarked⟩ := adoptTrip_eq ws
    rw [adopted]
    exact ⟨loaded, departed, other, unmarked, fun n => Vector.getElem_ofFn n.isLt, rfl⟩
  case line =>
    refine ⟨fun tripped => ?_, fun other => ?_⟩
    · rw [adoptLine_of_tripped present tripped]
      exact ⟨rfl, rfl, rfl, rfl⟩
    · rw [adoptLine_of_other present other]
      exact ⟨rfl, rfl, rfl, rfl⟩
  case table =>
    exact getAt_ofFn (fun n : Fin 8 => p.windowBase n) n

end Sys2Proof.Machine
